-- ==== Sys2Proof/Word.lean ====
section
/-! DEFINITION. The words of the links and registers, the index types of ports, pens and pages
(00_scope.md section 4), and reading and writing one place of a fixed-size table. -/

namespace Sys2Proof

abbrev Byte := BitVec 8
/-- A settings value, a coordinate as sent, a page mask: two bytes on a link (R168). -/
abbrev Word := BitVec 16
/-- A serial, a revision, a device time, a pen clock: four bytes on a link (R168). -/
abbrev Long := BitVec 32

abbrev Serial := Long
abbrev Revision := Long
abbrev Time := Long

abbrev Port := Fin 4
abbrev Pen := Fin 8
abbrev Page := Fin 16

def allPorts : List Port := [0, 1, 2, 3]
def allPens : List Pen := [0, 1, 2, 3, 4, 5, 6, 7]
def allPages : List Page := [0, 1, 2, 3, 4, 5, 6, 7, 8, 9, 10, 11, 12, 13, 14, 15]

section Tables
variable {α : Type} {n : Nat}

/-- The entry at place `i` of a fixed-size table. -/
def look (v : Vector α n) (i : Fin n) : α := v[i.1]

/-- The table with place `i` replaced by `a`. -/
def put (v : Vector α n) (i : Fin n) (a : α) : Vector α n := v.set i.1 a i.2

theorem look_put (v : Vector α n) (i j : Fin n) (a : α) :
    look (put v i a) j = if i = j then a else look v j := by
  simp [look, put, Vector.getElem_set, Fin.ext_iff]

@[simp] theorem look_put_self (v : Vector α n) (i : Fin n) (a : α) : look (put v i a) i = a := by
  simp [look_put]

theorem look_put_of_ne (v : Vector α n) {i j : Fin n} (a : α) (h : i ≠ j) :
    look (put v i a) j = look v j := by
  simp [look_put, h]

@[simp] theorem look_replicate (a : α) (i : Fin n) : look (Vector.replicate n a) i = a := by
  simp [look]

/-- Every entry of a table of four (one a port) replaced by a function of its port and itself. -/
def each4 (f : Port → α → α) (v : Vector α 4) : Vector α 4 :=
  #v[f 0 v[0], f 1 v[1], f 2 v[2], f 3 v[3]]

@[simp] theorem look_each4 (f : Port → α → α) (v : Vector α 4) (p : Port) :
    look (each4 f v) p = f p (look v p) := by
  match p with
  | 0 => rfl
  | 1 => rfl
  | 2 => rfl
  | 3 => rfl

end Tables

end Sys2Proof
end

