-- ==== Sys2Proof/Config.lean ====
section
/-! DEFINITION. What is fixed for the part: the capacities of 00_scope.md section 4, the codes of
DEVICE_INFO (R171), and the one free value of the model. -/

namespace Sys2Proof.Config

/-- Stroke table entries (R39). -/
def strokeEntries : Nat := 512
/-- Blocks of the point pool (R65). -/
def pointBlocks : Nat := 1536
/-- Points in one block (R65). -/
def pointsPerBlock : Nat := 16
/-- The most points one stroke holds (R39, R51). -/
def maxPoints : Nat := 2048
/-- Depth of an undo stack (R58). -/
def undoDepth : Nat := 8
/-- Notices in one ring (R113). -/
def ringSlots : Nat := 32
/-- Items in one hold list (R101). -/
def holdItems : Nat := 16
/-- The greatest x and y of the canvas (R24). -/
def maxX : Nat := 15999
def maxY : Nat := 8999
/-- The largest payload a request may declare (R144). -/
def maxPayload : Nat := 300
/-- Samples in one SUBMIT_SAMPLES (R3). -/
def maxSamples : Nat := 32
/-- Notices in one FETCH_NOTICES answer (R121). -/
def maxFetch : Nat := 8
/-- Headers in one SNAPSHOT_LIST answer (R104). -/
def maxHeaders : Nat := 16
/-- Points in one READ_STROKE answer (R60). -/
def maxReadPoints : Nat := 64
/-- Points in one LIVE_FETCH answer (R137). -/
def maxLivePoints : Nat := 24
/-- Bytes of the settings image, and of its part that the check word covers (R172). -/
def imageBytes : Nat := 320
def imageBody : Nat := 318

/-- The part code and the silicon revision code (R171, DEVICE_INFO). -/
def partCode : Word := 0x4B16
def revisionCode : Byte := 0x10

/-- FREE VALUE (log 21). The byte shifted out at place `k` of a frame that was in progress when the
RESET pin was asserted, from the RESET on: the spec fixes no content for it. The first argument is
the value of the state's counter at that RESET. -/
opaque freeFrameByte : Nat → Nat → Byte

end Sys2Proof.Config
end

