-- ==== Sys2Proof/Syntax.lean ====
section
/-! DEFINITION. The commands of the part: one constructor for each row of spec/opcode_table.json.
A request carries its port, its tag and the payload fields of R169 at the width they have on the
link, so that every value a master can send, out of range or not, is a command. -/

namespace Sys2Proof

/-- A sample record as the master sends it (R2, R171). -/
structure Sample where
  xRaw : Word
  yRaw : Word
  pressure : Word
  inRange : Byte
  dt : Byte
  deriving DecidableEq, Repr

/-- The four calibration values of a pen (R33); the offsets are two's-complement (R168). -/
structure Calibration where
  offsetX : Word
  offsetY : Word
  scaleX : Word
  scaleY : Word
  deriving DecidableEq, Repr

/-- The fourteen tuning values of a pen, in the order of SET_PEN_TUNING (R169). -/
structure Tuning where
  pressOn : Word
  pressOff : Word
  downCount : Word
  upCount : Word
  tapMin : Word
  tapMax : Word
  tapTol : Word
  minExtent : Word
  minStep : Word
  maxGap : Word
  rejoin : Word
  rejoinDist : Word
  silence : Word
  priority : Word
  deriving DecidableEq, Repr

/-- How far the writing of a save in flight had come when power was lost or the RESET pin came
(R164, R166; log 8). -/
inductive SavePoint where
  /-- before step 1 of R164 had finished -/
  | beforeErase
  /-- the check word area erased, this many bytes written from the frozen copy, the check word not -/
  | writing (bytes : Nat)
  /-- after step 3 of R164 -/
  | written
  deriving DecidableEq, Repr

/-- The commands, in the table's order. `port` and `tag` are the port a request came in on and the
tag of its frame. -/
inductive Instr where
  | powerOn (reached : SavePoint)
  | resetPin (reached : SavePoint)
  | powerLoss (reached : SavePoint)
  | settingsLoadComplete
  | selectFall (port : Port)
  /-- `edges`: the data-in line at each rising clock edge of the frame, first edge first (R173). -/
  | selectRise (port : Port) (edges : List Bool)
  | submitSamples (port : Port) (tag : Byte) (pen : Byte) (samples : List Sample)
  | silenceExpiry (pen : Pen)
  | rejoinExpiry (pen : Pen)
  | setCalibration (port : Port) (tag : Byte) (pen : Byte) (values : Calibration)
  | setPenTuning (port : Port) (tag : Byte) (pen : Byte) (values : Tuning) (snapLimit : Option Word)
  | setPenTool (port : Port) (tag : Byte) (pen : Byte) (colour : Byte) (width : Byte)
  | setPenPage (port : Port) (tag : Byte) (pen : Byte) (page : Byte)
  /-- `source`: port 0 to 3, or 0xFF for NONE (R170). -/
  | bindPen (port : Port) (tag : Byte) (pen : Byte) (source : Byte)
  | penStatus (port : Port) (tag : Byte) (pen : Byte)
  | readStroke (port : Port) (tag : Byte) (serial : Serial) (start : Word)
  | eraseStroke (port : Port) (tag : Byte) (serial : Serial)
  | undo (port : Port) (tag : Byte) (pen : Byte)
  | pageStatus (port : Port) (tag : Byte) (page : Byte)
  | lockPage (port : Port) (tag : Byte) (page : Byte)
  | unlockPage (port : Port) (tag : Byte) (page : Byte)
  | clearPage (port : Port) (tag : Byte) (page : Byte)
  | eraseRegion (port : Port) (tag : Byte) (page : Byte) (x0 y0 x1 y1 : Word) (mode : Byte)
  | scanVisit (page : Page)
  | scanComplete (page : Page)
  | snapshotBegin (port : Port) (tag : Byte) (page : Byte)
  | snapshotList (port : Port) (tag : Byte) (offset : Word) (count : Byte)
  | snapshotEnd (port : Port) (tag : Byte)
  | snapLimitExpiry (port : Port)
  | subscribe (port : Port) (tag : Byte) (pageMask : Word) (kindMask : Byte)
  | fetchNotices (port : Port) (tag : Byte) (count : Byte)
  | ackNotices (port : Port) (tag : Byte) (index : Byte)
  | ringStatus (port : Port) (tag : Byte)
  | liveFetch (port : Port) (tag : Byte)
  | liveMute (port : Port) (tag : Byte) (mask : Byte)
  | portStatus (port : Port) (tag : Byte) (named : Byte)
  | setAttention (port : Port) (tag : Byte) (mask : Byte) (threshold : Byte)
  | clearFlags (port : Port) (tag : Byte) (flags : Byte)
  | detach (port : Port) (tag : Byte)
  | deviceInfo (port : Port) (tag : Byte)
  | setPermissions (port : Port) (tag : Byte) (named : Byte) (permissions : Byte)
  | saveSettings (port : Port) (tag : Byte)
  | saveComplete
  | deviceReset (port : Port) (tag : Byte)
  | answerMadeReady (port : Port)
  deriving DecidableEq, Repr

end Sys2Proof
end

