-- ==== Sys2Proof/WellFormed.lean ====
section
/-! DEFINITION. Which commands the outside world can send. The machine gives every command a
meaning, ill-formed or not; these are the bounds that the frame format and the image set. -/

namespace Sys2Proof

/-- A save has at most the 318 bytes before the check word to write (R172). -/
def SavePoint.wellFormed : SavePoint → Bool
  | .beforeErase => true
  | .writing bytes => decide (bytes ≤ Config.imageBody)
  | .written => true

/-- The samples of one request fit in the largest payload, 300 bytes (R144, R169). -/
def Sample.listFits (samples : List Sample) : Bool :=
  decide (2 + 8 * samples.length ≤ Config.maxPayload)

def Instr.wellFormed : Instr → Bool
  | .powerOn reached => reached.wellFormed
  | .resetPin reached => reached.wellFormed
  | .powerLoss reached => reached.wellFormed
  | .submitSamples _ _ _ samples => Sample.listFits samples
  | .settingsLoadComplete => true
  | .selectFall _ => true
  | .selectRise _ _ => true
  | .silenceExpiry _ => true
  | .rejoinExpiry _ => true
  | .setCalibration _ _ _ _ => true
  | .setPenTuning _ _ _ _ _ => true
  | .setPenTool _ _ _ _ _ => true
  | .setPenPage _ _ _ _ => true
  | .bindPen _ _ _ _ => true
  | .penStatus _ _ _ => true
  | .readStroke _ _ _ _ => true
  | .eraseStroke _ _ _ => true
  | .undo _ _ _ => true
  | .pageStatus _ _ _ => true
  | .lockPage _ _ _ => true
  | .unlockPage _ _ _ => true
  | .clearPage _ _ _ => true
  | .eraseRegion _ _ _ _ _ _ _ _ => true
  | .scanVisit _ => true
  | .scanComplete _ => true
  | .snapshotBegin _ _ _ => true
  | .snapshotList _ _ _ _ => true
  | .snapshotEnd _ _ => true
  | .snapLimitExpiry _ => true
  | .subscribe _ _ _ _ => true
  | .fetchNotices _ _ _ => true
  | .ackNotices _ _ _ => true
  | .ringStatus _ _ => true
  | .liveFetch _ _ => true
  | .liveMute _ _ _ => true
  | .portStatus _ _ _ => true
  | .setAttention _ _ _ _ => true
  | .clearFlags _ _ _ => true
  | .detach _ _ => true
  | .deviceInfo _ _ => true
  | .setPermissions _ _ _ _ => true
  | .saveSettings _ _ => true
  | .saveComplete => true
  | .deviceReset _ _ => true
  | .answerMadeReady _ => true

end Sys2Proof
end

