-- ==== Sys2Proof/Machine/Types.lean ====
section
/-! DEFINITION. The records that make up the state, block by block, in the manual's own shape. -/

namespace Sys2Proof.Machine

/-! ## Names and codes (R148, R170) -/

/-- R166, R161: without supply, starting, running. -/
inductive Phase where
  | off | starting | running
  deriving DecidableEq, Repr

/-- The states of a pen channel (section 1.3). -/
inductive PenState where
  | away | hover | pressing | inking | lifting | blocked | starved
  deriving DecidableEq, Repr

/-- The states of a stroke table entry that is not FREE (R39). -/
inductive StrokeState where
  | opened | closing | held | committed
  deriving DecidableEq, Repr

/-- R39, R45. -/
inductive CloseCause where
  | penUp | penLost | split | poolFull | rebound | detached
  deriving DecidableEq, Repr

/-- The result of classification (R48). -/
inductive StrokeOutcome where
  | ink | tap | noise
  deriving DecidableEq, Repr

/-- R83. -/
inductive EraseCause where
  | request | undo | region
  deriving DecidableEq, Repr

/-- R91. -/
inductive RegionMode where
  | inside | touch
  deriving DecidableEq, Repr

/-- R163. -/
inductive LoadIndicator where
  | loaded | defaulted
  deriving DecidableEq, Repr

/-- The status codes of R148. -/
inductive Status where
  | ok | okDeferred | okAdjusted
  | pending | idle | notReady
  | busy | denied | wrongSource | range | notFound | strokeActive | pageBusy | locked | already
  | noSnapshot | snapshotBroken | lastRoom
  | checkFailed | length | unknownRequest
  deriving DecidableEq, Repr

/-- Why an entry is freed, as the live unit is told (R134): classified TAP or NOISE, or removed or
withdrawn. -/
inductive Freeing where
  | classified | removed
  deriving DecidableEq, Repr

/-- Whether the samples that follow in a request are judged, or consumed after a shortage (R10). -/
inductive Flow where
  | judge | consume
  deriving DecidableEq, Repr

/-- The request codes of R169, each under its name. -/
inductive Request where
  | submitSamples | setCalibration | setPenTuning | setPenTool | setPenPage | bindPen | penStatus
  | readStroke | eraseStroke | undo
  | pageStatus | lockPage | unlockPage | clearPage | eraseRegion
  | snapshotBegin | snapshotList | snapshotEnd
  | subscribe | fetchNotices | ackNotices | ringStatus
  | liveFetch | liveMute
  | portStatus | setAttention | clearFlags | detach
  | deviceInfo | setPermissions | saveSettings | deviceReset
  deriving DecidableEq, Repr

/-! ## Time -/

/-- A running timer: when it was started and the interval it was given (R162). -/
structure Timer where
  started : Time
  interval : Word
  deriving DecidableEq, Repr

/-! ## Points and strokes -/

/-- A point record (R25, R171): a canvas position, the pressure byte, the two flags, the offset. -/
structure Point where
  x : Nat
  y : Nat
  pressure : Byte
  clamped : Bool
  liftBefore : Bool
  offset : Nat
  deriving DecidableEq, Repr

/-- The last kept point (R22): its position and the pen clock at its sample. -/
structure KeptPoint where
  x : Nat
  y : Nat
  clock : Long
  deriving DecidableEq, Repr

/-- The last conditioned point (R22): the point record, its pen clock, whether it was kept. -/
structure ConditionedPoint where
  point : Point
  clock : Long
  kept : Bool
  deriving DecidableEq, Repr

/-- The working values of a pen's current stroke (R22). -/
structure Working where
  zeroOfTime : Long
  lastKept : KeptPoint
  lastConditioned : ConditionedPoint
  deriving DecidableEq, Repr

/-- A bounding box over stored points (R32). -/
structure Box where
  xmin : Nat
  xmax : Nat
  ymin : Nat
  ymax : Nat
  deriving DecidableEq, Repr

/-- A stroke table entry that is not FREE (R39); `entry` is its entry number. -/
structure Stroke where
  entry : Nat
  serial : Serial
  page : Page
  pen : Pen
  source : Port
  state : StrokeState
  colour : Byte
  width : Byte
  start : Time
  count : Nat
  contact : Nat
  box : Box
  chain : List Nat
  cause : Option CloseCause
  outcome : Option StrokeOutcome
  predecessor : Option Serial
  deriving DecidableEq, Repr

/-- What an open was granted: an entry number and a block (R41, R67). -/
structure Grant where
  entry : Nat
  block : Nat
  deriving DecidableEq, Repr

/-- The stroke table (R39, R40): the entries that are not FREE, lowest entry number first, and the
serial counter. -/
structure StrokeTable where
  entries : List Stroke
  counter : Serial
  deriving DecidableEq, Repr

/-- The point pool (R65): the free-block list, head first, and the places of the blocks that do not
read as the blank record, keyed by 16 × block + place (R66; log 19). -/
structure Pool where
  free : List Nat
  cells : List (Nat × Point)
  deriving DecidableEq, Repr

/-! ## Pen channels -/

/-- A sample held in a down or lift buffer, with the pen clock at it (R5). -/
structure Buffered where
  sample : Sample
  clock : Long
  deriving DecidableEq, Repr

/-- The channel record (R1) with the working values (R22). -/
structure Channel where
  state : PenState
  down : List Buffered
  lift : List Buffered
  clock : Long
  silence : Option Timer
  rejoin : Option Timer
  position : Option (Nat × Nat)
  target : Page
  current : Option Serial
  undo : List Serial
  working : Option Working
  deriving DecidableEq, Repr

/-! ## Pages and snapshots -/

/-- The scan rectangle (R91). -/
structure Rect where
  x0 : Nat
  y0 : Nat
  x1 : Nat
  y1 : Nat
  deriving DecidableEq, Repr

/-- The scan record (R93) with the tag of its request; its page is the page whose occupant it is. -/
structure Scan where
  requester : Port
  tag : Byte
  mode : RegionMode
  rect : Rect
  adjusted : Bool
  visits : List Serial
  removed : Nat
  wanted : Bool
  deriving DecidableEq, Repr

/-- The occupant of a page (R79). -/
inductive Occupant where
  | none
  | snapshot (port : Port)
  | scan (record : Scan)
  deriving DecidableEq, Repr

/-- A page record (R77). -/
structure PageRecord where
  list : List Serial
  revision : Revision
  locked : Bool
  occupant : Occupant
  deriving DecidableEq, Repr

/-- An item of a hold list (R101). -/
inductive HoldItem where
  | commit (serial : Serial)
  | erase (serial : Serial) (cause : EraseCause)
  | clear
  deriving DecidableEq, Repr

/-- An ACTIVE snapshot record (R100). -/
structure ActiveSnapshot where
  page : Page
  frozen : Revision
  timer : Timer
  hold : List HoldItem
  deriving DecidableEq, Repr

/-- A snapshot record (R100). -/
inductive SnapshotRecord where
  | active (record : ActiveSnapshot)
  | broken (page : Page)
  deriving DecidableEq, Repr

/-! ## Notices and live ink -/

/-- A notice (R114). -/
inductive Notice where
  | commit (page : Page) (serial : Serial) (pen : Pen) (count : Nat) (box : Box) (colour width : Byte)
      (revision : Revision) (predecessor : Option Serial)
  | erase (page : Page) (serial : Serial) (cause : EraseCause) (revision : Revision)
  | clear (page : Page) (count : Nat) (revision : Revision)
  | tap (page : Page) (pen : Pen) (x y : Nat) (clamped : Bool)
  | pen (pen : Pen) (state : PenState)
  | page (page : Page) (locked : Bool) (revision : Revision)
  deriving DecidableEq, Repr

/-- A ring record (R113). The indices are five bits, so they advance modulo 32 (R116). -/
structure Ring where
  slots : Vector (Option Notice) 32
  get : BitVec 5
  put : BitVec 5
  fill : Nat
  pageMask : Word
  kindMask : Byte
  resync : Word
  deriving DecidableEq, Repr

/-- A live slot that follows a stroke (R129), with the copies that R137 needs once the stroke's
entry is freed (log 17). -/
structure Follow where
  serial : Serial
  next : Nat
  available : Nat
  outcome : Option StrokeOutcome
  skipped : Bool
  page : Page
  colour : Byte
  width : Byte
  predecessor : Option Serial
  deriving DecidableEq, Repr

/-- The live slots of one port, an empty slot being none, and its mute mask (R129). -/
structure LivePort where
  slots : Vector (Option Follow) 8
  mute : Byte
  deriving DecidableEq, Repr

/-! ## Settings -/

/-- A set of the four permissions (section 9.5). -/
structure Permissions where
  ink : Bool
  view : Bool
  edit : Bool
  room : Bool
  deriving DecidableEq, Repr

/-- The settings of one pen (R33, R159); a binding of none is NONE. -/
structure PenSettings where
  binding : Option Port
  calibration : Calibration
  tuning : Tuning
  colour : Byte
  width : Byte
  deriving DecidableEq, Repr

/-- The mirror (R159). -/
structure Mirror where
  permissions : Vector Permissions 4
  pens : Vector PenSettings 8
  snapLimit : Word
  deriving DecidableEq, Repr

/-- A save in flight (R164): the frozen copy and its check word, the request it answers, and the
image as it stood at the taking (R166). -/
structure Save where
  requester : Port
  tag : Byte
  wanted : Bool
  frozen : Mirror
  check : Word
  before : List Byte
  deriving DecidableEq, Repr

/-! ## Port links -/

/-- An answer (R141): status code, tag and payload. -/
structure Answer where
  status : Status
  tag : Byte
  payload : List Byte
  deriving DecidableEq, Repr

/-- What the owning block gives back for a request: the status and payload of its answer. -/
structure Reply where
  status : Status
  payload : List Byte
  deriving DecidableEq, Repr

/-- The link state with what exists only in it (R141). -/
inductive LinkState where
  | idle
  | working (tag : Byte)
  | answerReady (answer : Answer)
  deriving DecidableEq, Repr

/-- An answer that its block has formed and that is not yet ready, with the answer wanted mark of
its request (R146, R147; log 10). -/
structure Forming where
  answer : Answer
  wanted : Bool
  deriving DecidableEq, Repr

/-- What becomes of a frame in progress (R142, R158, R161; log 20, 21). -/
inductive FrameCourse where
  /-- judged at its select rise as R145 states -/
  | ordinary
  /-- begun while STARTING: its request is discarded -/
  | starting
  /-- cut by a DEVICE_RESET from another port: fill from the reset on, request discarded -/
  | cutByDeviceReset
  /-- begun in RUNNING and in progress at the RESET pin: request discarded; the bytes shifted out from
  then on are free values -/
  | cutByResetPin (seed : Nat)
  deriving DecidableEq, Repr

/-- A frame in progress (select low): the content fixed at its select fall, whether that content is
the pending answer, and its course. -/
structure Frame where
  content : List Byte
  showsAnswer : Bool
  course : FrameCourse
  deriving DecidableEq, Repr

/-- A port link (R141). `frame` is none while select is high. -/
structure Link where
  state : LinkState
  lastTag : Byte
  restarted : Bool
  frameFault : Bool
  snapBroken : Bool
  attentionMask : Byte
  threshold : Byte
  forming : List Forming
  frame : Option Frame
  deriving DecidableEq, Repr

end Sys2Proof.Machine
end

