-- ==== Sys2Proof/Machine/Conditioning.lean ====
section
/-! DEFINITION. The arithmetic of chapter 2: mapping to the canvas, the time offset, the thinning
tests, the bounding box. All of it is exact. -/

namespace Sys2Proof.Machine

/-- One axis (R24): the coordinate, and whether it was brought onto the canvas. -/
def mapAxis (raw offset scale : Word) (axisMax : Nat) : Nat × Bool :=
  let v : Int := raw.toNat + offset.toInt
  if v < 0 then (0, true)
  else
    let c := (v.toNat * scale.toNat + 32768) / 65536
    if axisMax < c then (axisMax, true) else (c, false)

/-- The canvas position of a sample and its CLAMPED flag (R24, R25). -/
def mapSample (c : Calibration) (s : Sample) : Nat × Nat × Bool :=
  let x := mapAxis s.xRaw c.offsetX c.scaleX Config.maxX
  let y := mapAxis s.yRaw c.offsetY c.scaleY Config.maxY
  (x.1, y.1, x.2 || y.2)

/-- The pressure divided by 4, the remainder discarded (R26). -/
def pressureByte (pressure : Word) : Byte := BitVec.ofNat 8 (pressure.toNat / 4)

/-- The pen clock less the stroke's zero of time, modulo 2³², at most 65535 (R27). -/
def timeOffset (clock zero : Long) : Nat := min (clock - zero).toNat 65535

/-- A sample conditioned for a stroke with this zero of time (R23, steps 1 to 3). -/
def conditionedPoint (c : Calibration) (zero : Long) (b : Buffered) (liftBefore : Bool) : Point :=
  let position := mapSample c b.sample
  { x := position.1
    y := position.2.1
    pressure := pressureByte b.sample.pressure
    clamped := position.2.2
    liftBefore
    offset := timeOffset b.clock zero }

/-- The sum of squares of R28: a squared distance on the canvas. -/
def distanceSquared (x0 y0 x1 y1 : Nat) : Nat :=
  (((x0 : Int) - x1) ^ 2 + ((y0 : Int) - y1) ^ 2).toNat

/-- Tests (b) and (c) of R28 against the last kept point. -/
def thinningKeeps (t : Tuning) (kept : KeptPoint) (p : Point) (clock : Long) : Bool :=
  decide (t.minStep.toNat ^ 2 ≤ distanceSquared p.x p.y kept.x kept.y)
    || decide (t.maxGap.toNat ≤ (clock - kept.clock).toNat)

/-- The box of one point, and a box grown by a point (R32). -/
def Box.ofPoint (p : Point) : Box := { xmin := p.x, xmax := p.x, ymin := p.y, ymax := p.y }

def Box.grow (b : Box) (p : Point) : Box :=
  { xmin := min b.xmin p.x, xmax := max b.xmax p.x, ymin := min b.ymin p.y, ymax := max b.ymax p.y }

/-- The extent of a stroke (R32). -/
def Box.extent (b : Box) : Nat := max (b.xmax - b.xmin) (b.ymax - b.ymin)

/-- The tests of a sample (R2): in range, pressed, held. -/
def sampleHeard (s : Sample) : Bool := decide (s.inRange = 1)
def samplePressed (t : Tuning) (s : Sample) : Bool :=
  sampleHeard s && decide (t.pressOn.toNat ≤ s.pressure.toNat)
def sampleHeld (t : Tuning) (s : Sample) : Bool :=
  sampleHeard s && decide (t.pressOff.toNat ≤ s.pressure.toNat)

/-- The outcome of a closed stroke: the tests of R48 in their order. -/
def classifiedAs (t : Tuning) (cause : CloseCause) (contact : Nat) (box : Box) : StrokeOutcome :=
  if cause = .penUp ∧ t.tapMin.toNat ≤ contact ∧ contact ≤ t.tapMax.toNat
      ∧ box.extent ≤ t.tapTol.toNat then .tap
  else if cause ≠ .split ∧ box.extent < t.minExtent.toNat then .noise
  else .ink

end Sys2Proof.Machine
end

