-- ==== Sys2Proof/Machine/Bytes.lean ====
section
/-! DEFINITION. Byte and bit order, the check byte of frames and the check word of the image
(R144, R160, R168, R173), and sets kept as masks (R170). -/

namespace Sys2Proof.Machine

/-! ## Order of bytes and bits: most significant first (R168) -/

def wordBytes (w : Word) : List Byte := [w.extractLsb' 8 8, w.extractLsb' 0 8]

def longBytes (w : Long) : List Byte :=
  [w.extractLsb' 24 8, w.extractLsb' 16 8, w.extractLsb' 8 8, w.extractLsb' 0 8]

/-- A number in one byte and in two bytes. -/
def natByte (n : Nat) : List Byte := [BitVec.ofNat 8 n]
def natWord (n : Nat) : List Byte := wordBytes (BitVec.ofNat 16 n)

def wordOf (hi lo : Byte) : Word := hi ++ lo

def longOf (b3 b2 b1 b0 : Byte) : Long := wordOf b3 b2 ++ wordOf b1 b0

/-- A byte from its bits, first sampled (most significant) first. -/
def byteOfBits (bits : List Bool) : Byte :=
  bits.foldl (fun acc bit => acc <<< 1 ||| (if bit then 1 else 0)) 0

/-- The bytes shifted in by these clock edges: a byte counts when its eighth edge has been taken,
and a byte cut short by the select rise does not (R173). -/
def bytesOfBits : List Bool → List Byte
  | b7 :: b6 :: b5 :: b4 :: b3 :: b2 :: b1 :: b0 :: rest =>
    byteOfBits [b7, b6, b5, b4, b3, b2, b1, b0] :: bytesOfBits rest
  | _ => []

/-- The bits a master drives on data-in to send these bytes. -/
def bitsOfBytes : List Byte → List Bool
  | [] => []
  | b :: rest =>
    [b.getLsbD 7, b.getLsbD 6, b.getLsbD 5, b.getLsbD 4, b.getLsbD 3, b.getLsbD 2, b.getLsbD 1,
      b.getLsbD 0] ++ bitsOfBytes rest

/-! ## Checks -/

/-- The check byte over these bytes: 255 minus their sum modulo 256 (R144, R168). -/
def checkByte (bytes : List Byte) : Byte := 255 - bytes.foldl (· + ·) 0

/-- The check word over these bytes: the complement of their sum modulo 65536, or 0 where that
complement is 0xFFFF (R160). -/
def checkWord (bytes : List Byte) : Word :=
  let complement := ~~~ (bytes.foldl (fun acc b => acc + b.zeroExtend 16) (0 : Word))
  if complement = 0xFFFF then 0 else complement

/-! ## Sets kept as masks -/

section Masks
variable {w : Nat}

def maskHas (mask : BitVec w) (i : Nat) : Bool := mask.getLsbD i
def maskAdd (mask : BitVec w) (i : Nat) : BitVec w := mask ||| BitVec.twoPow w i
def maskDrop (mask : BitVec w) (i : Nat) : BitVec w := mask &&& ~~~ BitVec.twoPow w i

end Masks

/-- The mask whose bit n is the n-th of these conditions. -/
def maskOfBools (bits : List Bool) : Byte :=
  (bits.zipIdx).foldl (fun acc (bit, i) => if bit then maskAdd acc i else acc) 0

end Sys2Proof.Machine
end

