-- ==== Sys2Proof/Machine/Defaults.lean ====
section
/-! DEFINITION. The values the manual's tables give for reset and for a rejected image: R1, R65,
R77, R113, R129, R141, R33, R163. -/

namespace Sys2Proof.Machine

/-- The channel record after power-on, the RESET pin and DEVICE_RESET (R1). -/
def channelDefault : Channel :=
  { state := .away, down := [], lift := [], clock := 0, silence := none, rejoin := none,
    position := none, target := 0, current := none, undo := [], working := none }

/-- R39, R40: every entry FREE, the serial counter at 1. -/
def strokeTableDefault : StrokeTable := { entries := [], counter := 1 }

/-- What a place of a block reads as before a point is written to it (log 19). -/
def blankPoint : Point :=
  { x := 0, y := 0, pressure := 0, clamped := false, liftBefore := false, offset := 0 }

/-- R65: every block free, block 0 at the head. -/
def poolDefault : Pool := { free := List.range Config.pointBlocks, cells := [] }

/-- R77. -/
def pageDefault : PageRecord := { list := [], revision := 0, locked := false, occupant := .none }

/-- R113. -/
def ringDefault : Ring :=
  { slots := Vector.replicate 32 none, get := 0, put := 0, fill := 0, pageMask := 0, kindMask := 0,
    resync := 0 }

/-- R129, R140: every slot empty and the mute mask empty. -/
def livePortDefault : LivePort := { slots := Vector.replicate 8 none, mute := 0 }

/-- The default attention mask: ANSWER_READY and RESTARTED (R141, R170). -/
def attentionMaskDefault : Byte := 0x11

/-- The link record while STARTING (R141); RESTARTED is set at the entry to RUNNING (log 5). -/
def linkDefault : Link :=
  { state := .idle, lastTag := 0, restarted := false, frameFault := false, snapBroken := false,
    attentionMask := attentionMaskDefault, threshold := 1, forming := [], frame := none }

/-- The factory calibration of section 2.6. -/
def factoryCalibration : Calibration :=
  { offsetX := 0, offsetY := 0, scaleX := 16000, scaleY := 9000 }

/-- The factory tuning of section 2.6; the priority is the pen number. -/
def factoryTuning (pen : Pen) : Tuning :=
  { pressOn := 60, pressOff := 40, downCount := 1, upCount := 2, tapMin := 1, tapMax := 12,
    tapTol := 30, minExtent := 8, minStep := 12, maxGap := 40, rejoin := 60, rejoinDist := 50,
    silence := 250, priority := BitVec.ofNat 16 pen.val }

/-- R163: bound to port 0, with the factory values of section 2.6; the colour is the pen number. -/
def factoryPen (pen : Pen) : PenSettings :=
  { binding := some 0, calibration := factoryCalibration, tuning := factoryTuning pen,
    colour := BitVec.ofNat 8 pen.val, width := 2 }

/-- R163: every port holds every permission. -/
def factoryPermissions : Permissions := { ink := true, view := true, edit := true, room := true }

/-- The mirror that a rejected image gives (R163). -/
def factoryMirror : Mirror :=
  { permissions := Vector.replicate 4 factoryPermissions
    pens := #v[factoryPen 0, factoryPen 1, factoryPen 2, factoryPen 3, factoryPen 4, factoryPen 5,
      factoryPen 6, factoryPen 7]
    snapLimit := 500 }

/-- The image of a part that was never saved: its check word area stands erased (R160, R172); the
other bytes are the model's choice (log 5). -/
def imageNeverWritten : List Byte := List.replicate Config.imageBytes 0xFF

end Sys2Proof.Machine
end

