-- ==== Sys2Proof/Machine/Records.lean ====
section
/-! DEFINITION. The codes of R148, R169 and R170 and the byte layouts of R168, R171 and R172. -/

namespace Sys2Proof.Machine

/-! ## Codes -/

/-- R148. -/
def statusCode : Status → Byte
  | .ok => 0x00
  | .okDeferred => 0x01
  | .okAdjusted => 0x02
  | .pending => 0x10
  | .idle => 0x11
  | .notReady => 0x12
  | .busy => 0x20
  | .denied => 0x21
  | .wrongSource => 0x22
  | .range => 0x23
  | .notFound => 0x24
  | .strokeActive => 0x25
  | .pageBusy => 0x26
  | .locked => 0x27
  | .already => 0x28
  | .noSnapshot => 0x29
  | .snapshotBroken => 0x2A
  | .lastRoom => 0x2B
  | .checkFailed => 0x30
  | .length => 0x31
  | .unknownRequest => 0x32

/-- R169. -/
def requestCode : Request → Byte
  | .submitSamples => 0x01
  | .setCalibration => 0x02
  | .setPenTuning => 0x03
  | .setPenTool => 0x04
  | .setPenPage => 0x05
  | .bindPen => 0x06
  | .penStatus => 0x07
  | .readStroke => 0x10
  | .eraseStroke => 0x11
  | .undo => 0x12
  | .pageStatus => 0x18
  | .lockPage => 0x19
  | .unlockPage => 0x1A
  | .clearPage => 0x1B
  | .eraseRegion => 0x1C
  | .snapshotBegin => 0x20
  | .snapshotList => 0x21
  | .snapshotEnd => 0x22
  | .subscribe => 0x28
  | .fetchNotices => 0x29
  | .ackNotices => 0x2A
  | .ringStatus => 0x2B
  | .liveFetch => 0x30
  | .liveMute => 0x31
  | .portStatus => 0x38
  | .setAttention => 0x39
  | .clearFlags => 0x3A
  | .detach => 0x3B
  | .deviceInfo => 0x40
  | .setPermissions => 0x41
  | .saveSettings => 0x42
  | .deviceReset => 0x43

def allRequests : List Request :=
  [.submitSamples, .setCalibration, .setPenTuning, .setPenTool, .setPenPage, .bindPen, .penStatus,
    .readStroke, .eraseStroke, .undo, .pageStatus, .lockPage, .unlockPage, .clearPage, .eraseRegion,
    .snapshotBegin, .snapshotList, .snapshotEnd, .subscribe, .fetchNotices, .ackNotices, .ringStatus,
    .liveFetch, .liveMute, .portStatus, .setAttention, .clearFlags, .detach, .deviceInfo,
    .setPermissions, .saveSettings, .deviceReset]

/-- The request with this code, or none: UNKNOWN_REQUEST (R169). -/
def requestOf (code : Byte) : Option Request :=
  allRequests.find? (fun r => requestCode r = code)

def penStateCode : PenState → Byte
  | .away => 0
  | .hover => 1
  | .pressing => 2
  | .inking => 3
  | .lifting => 4
  | .blocked => 5
  | .starved => 6

def strokeStateCode : StrokeState → Byte
  | .opened => 1
  | .closing => 2
  | .held => 3
  | .committed => 4

def closeCauseCode : Option CloseCause → Byte
  | none => 0
  | some .penUp => 1
  | some .penLost => 2
  | some .split => 3
  | some .poolFull => 4
  | some .rebound => 5
  | some .detached => 6

def outcomeCode : Option StrokeOutcome → Byte
  | none => 0
  | some .ink => 1
  | some .tap => 2
  | some .noise => 3

def eraseCauseCode : EraseCause → Byte
  | .request => 1
  | .undo => 2
  | .region => 3

/-- The kind of a notice, COMMIT 1 to PAGE 6. -/
def noticeKind : Notice → Nat
  | .commit .. => 1
  | .erase .. => 2
  | .clear .. => 3
  | .tap .. => 4
  | .pen .. => 5
  | .page .. => 6

def portCode (p : Port) : Byte := BitVec.ofNat 8 p.val
def penCode (p : Pen) : Byte := BitVec.ofNat 8 p.val
def pageCode (p : Page) : Byte := BitVec.ofNat 8 p.val

def bindingCode : Option Port → Byte
  | none => 0xFF
  | some p => portCode p

/-- Occupant kind, then the port. -/
def occupantBytes : Occupant → List Byte
  | .none => [0, 0xFF]
  | .snapshot p => [1, portCode p]
  | .scan r => [2, portCode r.requester]

def linkStateCode : LinkState → Byte
  | .idle => 0
  | .working _ => 1
  | .answerReady _ => 2

/-- The tag in work, 0 when the link is not WORKING (R171). -/
def tagInWork : LinkState → Byte
  | .idle => 0
  | .working tag => tag
  | .answerReady _ => 0

def flagByte (b : Bool) : Byte := if b then 1 else 0

def indicatorCode : LoadIndicator → Byte
  | .loaded => 0
  | .defaulted => 1

/-- An absent serial is sent as 0 (R168). -/
def serialBytes (serial : Option Serial) : List Byte := longBytes (serial.getD 0)

/-- R170: bit 0 INK, bit 1 VIEW, bit 2 EDIT, bit 3 ROOM. -/
def permissionsByte (p : Permissions) : Byte := maskOfBools [p.ink, p.view, p.edit, p.room]

/-! ## Records (R171) -/

def xWord (x : Nat) (clamped : Bool) : Word :=
  (if clamped then 0x8000 else 0) ||| (BitVec.ofNat 16 x &&& 0x3FFF)

def yWord (y : Nat) (liftBefore : Bool) : Word :=
  (if liftBefore then 0x8000 else 0) ||| (BitVec.ofNat 16 y &&& 0x3FFF)

def pointBytes (p : Point) : List Byte :=
  wordBytes (xWord p.x p.clamped) ++ wordBytes (yWord p.y p.liftBefore) ++ [p.pressure]
    ++ natWord p.offset

def boxBytes (b : Box) : List Byte :=
  natWord b.xmin ++ natWord b.xmax ++ natWord b.ymin ++ natWord b.ymax

/-- A stroke header, 32 bytes. -/
def headerBytes (e : Stroke) : List Byte :=
  longBytes e.serial
    ++ [pageCode e.page, penCode e.pen, portCode e.source, strokeStateCode e.state, e.colour, e.width]
    ++ longBytes e.start ++ natWord e.count ++ natWord e.contact ++ boxBytes e.box
    ++ [closeCauseCode e.cause, outcomeCode e.outcome] ++ serialBytes e.predecessor

/-- The body of a notice record without the zero bytes that fill it up. -/
def noticeBody : Notice → List Byte
  | .commit page serial pen count box colour width revision predecessor =>
    [pageCode page] ++ longBytes serial ++ [penCode pen] ++ natWord count ++ boxBytes box
      ++ [colour, width] ++ longBytes revision ++ serialBytes predecessor
  | .erase page serial cause revision =>
    [pageCode page] ++ longBytes serial ++ [eraseCauseCode cause] ++ longBytes revision
  | .clear page count revision => [pageCode page] ++ natWord count ++ longBytes revision
  | .tap page pen x y clamped =>
    [pageCode page, penCode pen] ++ wordBytes (xWord x clamped) ++ wordBytes (yWord y false)
  | .pen pen state => [penCode pen, penStateCode state]
  | .page page locked revision => [pageCode page, flagByte locked] ++ longBytes revision

/-- A notice record, 28 bytes: ring index, kind, a body of 26 bytes. -/
def noticeBytes (index : BitVec 5) (n : Notice) : List Byte :=
  let body := noticeBody n
  [index.zeroExtend 8, BitVec.ofNat 8 (noticeKind n)] ++ body ++ List.replicate (26 - body.length) 0

def calibrationBytes (c : Calibration) : List Byte :=
  wordBytes c.offsetX ++ wordBytes c.offsetY ++ wordBytes c.scaleX ++ wordBytes c.scaleY

/-- The fourteen tuning values in the order of SET_PEN_TUNING (R169). -/
def tuningWords (t : Tuning) : List Word :=
  [t.pressOn, t.pressOff, t.downCount, t.upCount, t.tapMin, t.tapMax, t.tapTol, t.minExtent,
    t.minStep, t.maxGap, t.rejoin, t.rejoinDist, t.silence, t.priority]

def tuningBytes (t : Tuning) : List Byte := (tuningWords t).flatMap wordBytes

/-! ## Frames (R168) -/

/-- An answer or header frame: header, payload, check byte. -/
def frameBytes (status : Status) (tag : Byte) (payload : List Byte) : List Byte :=
  let body := [statusCode status, tag] ++ natWord payload.length ++ payload
  body ++ [checkByte body]

def answerBytes (a : Answer) : List Byte := frameBytes a.status a.tag a.payload

/-! ## The settings image (R172) -/

/-- A pen record of 39 bytes. -/
def penRecordBytes (p : PenSettings) : List Byte :=
  [bindingCode p.binding] ++ calibrationBytes p.calibration ++ tuningBytes p.tuning
    ++ [p.colour, p.width]

/-- Bytes 0 to 317 of the image. -/
def imageBodyBytes (m : Mirror) : List Byte :=
  allPorts.map (fun p => permissionsByte (look m.permissions p))
    ++ allPens.flatMap (fun p => penRecordBytes (look m.pens p)) ++ wordBytes m.snapLimit

/-- The check word that a save of this mirror writes (R160, R164). -/
def mirrorCheckWord (m : Mirror) : Word := checkWord (imageBodyBytes m)

/-- The whole image that a save writes. -/
def imageOfMirror (m : Mirror) : List Byte := imageBodyBytes m ++ wordBytes (mirrorCheckWord m)

/-- The image with its check word area erased (R164, step 1). -/
def eraseCheckWord (image : List Byte) : List Byte := image.take Config.imageBody ++ [0xFF, 0xFF]

end Sys2Proof.Machine
end

