-- ==== Sys2Proof/Machine/Operands.lean ====
section
/-! DEFINITION. Every operand form: the fields of request payloads as their rules read them (a
field that the payload is too short to hold, or that a payload of the wrong length leaves
unreadable, is none, R146), the values brought into range (R35, R36), and the settings read from the
image (R160, R172). -/

namespace Sys2Proof.Machine

/-! ## Numbers and enumerations of a request (R170) -/

def penOf (field : Option Byte) : Option Pen :=
  field.bind fun b => if h : b.toNat < 8 then some ⟨b.toNat, h⟩ else none

def pageOf (field : Option Byte) : Option Page :=
  field.bind fun b => if h : b.toNat < 16 then some ⟨b.toNat, h⟩ else none

def portOf (field : Option Byte) : Option Port :=
  field.bind fun b => if h : b.toNat < 4 then some ⟨b.toNat, h⟩ else none

/-- Port 0 to 3, or 0xFF for NONE. -/
def bindingOf (field : Option Byte) : Option (Option Port) :=
  field.bind fun b => if b = 0xFF then some none else (portOf (some b)).map some

def modeOf (field : Option Byte) : Option RegionMode :=
  field.bind fun b => if b = 0 then some .inside else if b = 1 then some .touch else none

/-- The four permissions that a permission byte names, whatever its other bits. -/
def namedPermissions (b : Byte) : Permissions :=
  { ink := maskHas b 0, view := maskHas b 1, edit := maskHas b 2, room := maskHas b 3 }

/-- A permission set; one that names anything else is out of range (R150). -/
def permissionsOf (field : Option Byte) : Option Permissions :=
  field.bind fun b => if b &&& 0xF0 = 0 then some (namedPermissions b) else none

/-- A kind mask naming only the six kinds (R120). -/
def kindMaskOf (field : Option Byte) : Option Byte :=
  field.bind fun b => if b &&& 0xC0 = 0 then some b else none

/-- An attention mask naming only the seven conditions (R153). -/
def attentionMaskOf (field : Option Byte) : Option Byte :=
  field.bind fun b => if b &&& 0x80 = 0 then some b else none

/-- A flag set naming only the three flags (R154). -/
def flagSetOf (field : Option Byte) : Option Byte :=
  field.bind fun b => if b &&& 0x8F = 0 then some b else none

/-! ## Samples (R2, R3) -/

/-- A sample record's pressure is at most 1023 and its in_range field 0 or 1 (R3, check 5). -/
def sampleInRange (s : Sample) : Bool :=
  decide (s.pressure.toNat ≤ 1023) && decide (s.inRange.toNat ≤ 1)

/-- The samples of a request whose count is 1 to 32 and whose records are in range (R3, checks 4
and 5). -/
def samplesOf (field : Option (List Sample)) : Option (List Sample) :=
  field.bind fun l =>
    if 1 ≤ l.length ∧ l.length ≤ Config.maxSamples ∧ l.all sampleInRange then some l else none

/-- Sample records of eight bytes each (R171). -/
def sampleRecords : List Byte → Option (List Sample)
  | [] => some []
  | x1 :: x0 :: y1 :: y0 :: p1 :: p0 :: r :: dt :: rest =>
    (sampleRecords rest).map
      (⟨wordOf x1 x0, wordOf y1 y0, wordOf p1 p0, r, dt⟩ :: ·)
  | _ => none

/-! ## Values brought into range -/

/-- A value brought to the nearer end of a range. -/
def clampWord (low high : Nat) (w : Word) : Word :=
  if w.toNat < low then BitVec.ofNat 16 low
  else if high < w.toNat then BitVec.ofNat 16 high
  else w

/-- An offset brought into −2048 to +2047 (R35). -/
def clampOffset (w : Word) : Word :=
  if w.toInt < -2048 then BitVec.ofInt 16 (-2048)
  else if 2047 < w.toInt then BitVec.ofInt 16 2047
  else w

/-- R35. -/
def calibrationIntoRange (c : Calibration) : Calibration :=
  { offsetX := clampOffset c.offsetX
    offsetY := clampOffset c.offsetY
    scaleX := clampWord 1024 65535 c.scaleX
    scaleY := clampWord 1024 65535 c.scaleY }

/-- R36, steps 1 to 7. -/
def tuningIntoRange (t : Tuning) : Tuning :=
  let pressOn := clampWord 1 1023 t.pressOn
  let tapMin := clampWord 1 63 t.tapMin
  { pressOn
    pressOff := clampWord 0 pressOn.toNat t.pressOff
    downCount := clampWord 0 7 t.downCount
    upCount := clampWord 0 7 t.upCount
    tapMin
    tapMax := clampWord tapMin.toNat 63 t.tapMax
    tapTol := clampWord 0 255 t.tapTol
    minExtent := clampWord 0 255 t.minExtent
    minStep := clampWord 0 255 t.minStep
    maxGap := clampWord 1 255 t.maxGap
    rejoin := clampWord 0 255 t.rejoin
    rejoinDist := clampWord 0 255 t.rejoinDist
    silence := clampWord 20 2000 t.silence
    priority := clampWord 0 7 t.priority }

/-- R36, step 6. -/
def snapLimitIntoRange (w : Word) : Word := clampWord 20 2000 w

/-- The ring threshold: 0 becomes 1 and a value above 32 becomes 32 (R153). -/
def thresholdIntoRange (b : Byte) : Byte :=
  if b = 0 then 1 else if 32 < b.toNat then 32 else b

/-! ## The settings image read back (R160, R172) -/

def byteAt (image : List Byte) (i : Nat) : Byte := image.getD i 0
def wordAt (image : List Byte) (i : Nat) : Word := wordOf (byteAt image i) (byteAt image (i + 1))

/-- The pen record at `base`, each value brought into range as it is entered (R160). -/
def penSettingsAt (image : List Byte) (base : Nat) : PenSettings :=
  let tuning (k : Nat) := wordAt image (base + 9 + 2 * k)
  { binding := (bindingOf (some (byteAt image base))).getD none
    calibration := calibrationIntoRange
      { offsetX := wordAt image (base + 1)
        offsetY := wordAt image (base + 3)
        scaleX := wordAt image (base + 5)
        scaleY := wordAt image (base + 7) }
    tuning := tuningIntoRange
      { pressOn := tuning 0, pressOff := tuning 1, downCount := tuning 2, upCount := tuning 3,
        tapMin := tuning 4, tapMax := tuning 5, tapTol := tuning 6, minExtent := tuning 7,
        minStep := tuning 8, maxGap := tuning 9, rejoin := tuning 10, rejoinDist := tuning 11,
        silence := tuning 12, priority := tuning 13 }
    colour := if 15 < (byteAt image (base + 37)).toNat then 15 else byteAt image (base + 37)
    width := if 7 < (byteAt image (base + 38)).toNat then 7 else byteAt image (base + 38) }

/-- The mirror that an accepted image gives (R160). -/
def mirrorOfImage (image : List Byte) : Mirror :=
  let pen (k : Nat) := penSettingsAt image (4 + 39 * k)
  let permissions (k : Nat) := namedPermissions (byteAt image k)
  { permissions := #v[permissions 0, permissions 1, permissions 2, permissions 3]
    pens := #v[pen 0, pen 1, pen 2, pen 3, pen 4, pen 5, pen 6, pen 7]
    snapLimit := snapLimitIntoRange (wordAt image 316) }

/-- An image passes its check when its stored check word is the one computed from its bytes. -/
def imagePassesCheck (image : List Byte) : Bool :=
  decide (wordAt image Config.imageBody = checkWord (image.take Config.imageBody))

/-- Some port holds ROOM in the image (R160, test 2). -/
def imageHasRoom (image : List Byte) : Bool :=
  allPorts.any fun p => (namedPermissions (byteAt image p.val)).room

/-- R160. -/
def imageAccepted (image : List Byte) : Bool := imagePassesCheck image && imageHasRoom image

end Sys2Proof.Machine
end

