-- ==== Sys2Proof/Machine/State.lean ====
section
/-! DEFINITION. The state of the part, the outcomes a step can end in, and the state right after
power-on. -/

namespace Sys2Proof.Machine

/-- Everything the manual gives the part (00_scope.md section 3, block by block), with the two
fields of the model's own: the counter of free values and the queue of commands. -/
structure State where
  phase : Phase
  deviceTime : Time
  links : Vector Link 4
  channels : Vector Channel 8
  strokes : StrokeTable
  pool : Pool
  pages : Vector PageRecord 16
  snapshots : Vector (Option SnapshotRecord) 4
  rings : Vector Ring 4
  live : Vector LivePort 4
  mirror : Mirror
  image : List Byte
  indicator : LoadIndicator
  save : Option Save
  /-- the model's own: which free value is taken next (log 21) -/
  freeCount : Nat
  /-- the model's own: commands sent and not yet taken, the next one first (log 1) -/
  pending : List Instr
  deriving DecidableEq, Repr

/-- Reasons to stop with a fault. None: the manual names no condition that stops the part. -/
inductive Fault where
  deriving DecidableEq, Repr

/-- Reasons to refuse a command. -/
inductive Refusal where
  /-- Raised by `exec` alone, for a command that has no meaning in the model yet; no arm raises it
  now. Safe: the model stops where the part goes on. -/
  | notModelled (mnemonic : String)
  deriving DecidableEq, Repr

/-- The state right after power-on: STARTING, device time 0, every block at its power-on values
(R161), the settings load begun and not complete. The mirror, the load indicator, the image's bytes
before its check word, the pool's places, the RESTARTED flag and the counter have no value from the
manual here (log 5, 19, 21). -/
def State.reset : State :=
  { phase := .starting
    deviceTime := 0
    links := Vector.replicate 4 linkDefault
    channels := Vector.replicate 8 channelDefault
    strokes := strokeTableDefault
    pool := poolDefault
    pages := Vector.replicate 16 pageDefault
    snapshots := Vector.replicate 4 none
    rings := Vector.replicate 4 ringDefault
    live := Vector.replicate 4 livePortDefault
    mirror := factoryMirror
    image := imageNeverWritten
    indicator := .defaulted
    save := none
    freeCount := 0
    pending := [] }

end Sys2Proof.Machine
end

