-- ==== Sys2Proof/Machine/Ops.lean ====
section
/-! DEFINITION. The operations that the commands share: reading and updating the state, time, the
point pool, the rings, the live slots, the stroke table, the pages, the hold lists, classification,
and the link's side of a request. -/

namespace Sys2Proof.Machine

/-! ## Reading and updating -/

namespace State

def link (s : State) (p : Port) : Link := look s.links p
def channel (s : State) (pen : Pen) : Channel := look s.channels pen
def page (s : State) (pg : Page) : PageRecord := look s.pages pg
def snapshot (s : State) (p : Port) : Option SnapshotRecord := look s.snapshots p
def ring (s : State) (p : Port) : Ring := look s.rings p
def livePort (s : State) (p : Port) : LivePort := look s.live p
def permissions (s : State) (p : Port) : Permissions := look s.mirror.permissions p
def penSettings (s : State) (pen : Pen) : PenSettings := look s.mirror.pens pen

def setLink (s : State) (p : Port) (l : Link) : State := { s with links := put s.links p l }
def setLinks (s : State) (v : Vector Link 4) : State := { s with links := v }
def setChannel (s : State) (pen : Pen) (c : Channel) : State :=
  { s with channels := put s.channels pen c }
def setPage (s : State) (pg : Page) (r : PageRecord) : State := { s with pages := put s.pages pg r }
def setSnapshot (s : State) (p : Port) (r : Option SnapshotRecord) : State :=
  { s with snapshots := put s.snapshots p r }
def setRing (s : State) (p : Port) (r : Ring) : State := { s with rings := put s.rings p r }
def setRings (s : State) (v : Vector Ring 4) : State := { s with rings := v }
def setLivePort (s : State) (p : Port) (l : LivePort) : State := { s with live := put s.live p l }
def setLive (s : State) (v : Vector LivePort 4) : State := { s with live := v }
def setStrokes (s : State) (t : StrokeTable) : State := { s with strokes := t }
def setPool (s : State) (pool : Pool) : State := { s with pool := pool }
def setMirror (s : State) (m : Mirror) : State := { s with mirror := m }
def setImage (s : State) (image : List Byte) : State := { s with image := image }
def setSave (s : State) (save : Option Save) : State := { s with save := save }
def setPermissions (s : State) (p : Port) (set : Permissions) : State :=
  s.setMirror { s.mirror with permissions := put s.mirror.permissions p set }
def setPenSettings (s : State) (pen : Pen) (v : PenSettings) : State :=
  s.setMirror { s.mirror with pens := put s.mirror.pens pen v }

end State

/-! ## Time (R162) -/

/-- The device time at which a timer started now with this interval, and whether one has reached
its interval: the elapsed device time is taken modulo 2³². -/
def State.startTimer (s : State) (interval : Word) : Timer :=
  { started := s.deviceTime, interval }

def timerDue (now : Time) (t : Timer) : Bool := decide (t.interval.toNat ≤ (now - t.started).toNat)

/-- One millisecond of device time, while the part has power (log 2). -/
def State.tick (s : State) : State :=
  match s.phase with
  | .off => s
  | .starting => { s with deviceTime := s.deviceTime + 1 }
  | .running => { s with deviceTime := s.deviceTime + 1 }

/-! ## The point pool (R65 to R68) -/

/-- The record at a place of the pool; a place that is not listed reads as the blank record. -/
def Memory.read (cells : List (Nat × Point)) (key : Nat) : Point :=
  match cells with
  | [] => blankPoint
  | (k, q) :: rest => if k = key then q else Memory.read rest key

/-- Writing a place keeps the canonical form. -/
def Memory.write (cells : List (Nat × Point)) (key : Nat) (p : Point) : List (Nat × Point) :=
  match cells with
  | [] => if p = blankPoint then [] else [(key, p)]
  | (k, q) :: rest =>
    if key < k then (if p = blankPoint then (k, q) :: rest else (key, p) :: (k, q) :: rest)
    else if key = k then (if p = blankPoint then rest else (key, p) :: rest)
    else (k, q) :: Memory.write rest key p

/-- The canonical form: keys strictly rising, no entry equal to the blank record. -/
abbrev Memory.wf (cells : List (Nat × Point)) : Prop :=
  cells.Pairwise (fun a b => a.1 < b.1) ∧ ∀ c ∈ cells, c.2 ≠ blankPoint

/-- The place of point `i` of a chain: place i mod 16 of the block at position i / 16 (R66). -/
def pointKey (chain : List Nat) (i : Nat) : Nat :=
  Config.pointsPerBlock * chain.getD (i / Config.pointsPerBlock) 0 + i % Config.pointsPerBlock

/-- Point `i` of a stroke. -/
def pointAt (pool : Pool) (e : Stroke) (i : Nat) : Point := Memory.read pool.cells (pointKey e.chain i)

/-- `n` points of a stroke from index `i`, in point order. -/
def pointsFrom (pool : Pool) (e : Stroke) (i n : Nat) : List Point :=
  (List.range n).map (fun k => pointAt pool e (i + k))

/-- The head of the free-block list, and the pool without it; none when the list is empty (R67). -/
def takeBlock (pool : Pool) : Option (Nat × Pool) :=
  match pool.free with
  | [] => none
  | b :: rest => some (b, { pool with free := rest })

/-- A whole chain added at the tail of the free-block list in chain order (R68). -/
def returnChain (pool : Pool) (chain : List Nat) : Pool := { pool with free := pool.free ++ chain }

/-! ## Notices (R114 to R118) -/

/-- The page a notice carries; a PEN notice carries none. -/
def noticePage : Notice → Option Page
  | .commit page .. => some page
  | .erase page .. => some page
  | .clear page .. => some page
  | .tap page .. => some page
  | .pen .. => none
  | .page page .. => some page

/-- A ring's masks ask for the notice (R115). -/
def ringWants (r : Ring) (n : Notice) : Bool :=
  maskHas r.kindMask (noticeKind n - 1)
    && (match noticePage n with
        | none => true
        | some page => maskHas r.pageMask page.val)

/-- A notice that reaches a ring: entered at the put index (R116), or dropped by a full ring, its
page added to the resync set (R118). -/
def ringReceive (n : Notice) (r : Ring) : Ring :=
  if r.fill < Config.ringSlots then
    { r with slots := put r.slots r.put.toFin (some n), put := r.put + 1, fill := r.fill + 1 }
  else
    match noticePage n with
    | none => r
    | some page => { r with resync := maskAdd r.resync page.val }

/-- A notice routed to every port whose masks ask for it, each ring by itself (R115). -/
def routeRings (n : Notice) (rings : Vector Ring 4) : Vector Ring 4 :=
  each4 (fun _ r => if ringWants r n then ringReceive n r else r) rings

def State.route (s : State) (n : Notice) : State := s.setRings (routeRings n s.rings)

/-! ## Live slots (R130 to R135) -/

/-- R135. -/
def slotPending (slot : Option Follow) : Bool :=
  match slot with
  | none => false
  | some f => decide (f.next < f.available) || f.outcome.isSome

/-- How many of a port's slots are pending. -/
def pendingSlots (l : LivePort) : Nat := (allPens.filter fun pen => slotPending (look l.slots pen)).length

/-- An arrival for a stroke of this pen on this page reaches the pen's slot on this port (R130). -/
def State.liveReaches (s : State) (p : Port) (page : Page) (pen : Pen) : Bool :=
  (s.permissions p).view && maskHas (s.ring p).pageMask page.val
    && !maskHas (s.livePort p).mute pen.val

def LivePort.mapSlot (l : LivePort) (pen : Pen) (f : Option Follow → Option Follow) : LivePort :=
  { l with slots := put l.slots pen (f (look l.slots pen)) }

/-- The pen's slot on every port that R130 lets the arrival reach. -/
def State.mapReachedSlots (s : State) (e : Stroke) (f : Option Follow → Option Follow) : State :=
  s.setLive (each4 (fun p l => if s.liveReaches p e.page e.pen then l.mapSlot e.pen f else l) s.live)

/-- A slot takes a stroke that opens (R131). The outcome of the predecessor of a split continuation
does not count toward SKIPPED, and its undelivered points are those below the slot's available count,
as in R135; appends that the slot missed are not counted (log 28). -/
def slotOpened (e : Stroke) (slot : Option Follow) : Option Follow :=
  some
    { serial := e.serial, next := 0, available := e.count, outcome := none
      skipped :=
        match slot with
        | none => false
        | some f => if e.predecessor = some f.serial then decide (f.next < f.available)
            else slotPending slot
      page := e.page, colour := e.colour, width := e.width, predecessor := e.predecessor }

/-- A slot that follows the stroke is extended to its point count (R132). -/
def slotExtended (e : Stroke) (slot : Option Follow) : Option Follow :=
  slot.map fun f => if f.serial = e.serial then { f with available := e.count } else f

/-- A slot that follows the stroke takes its outcome (R133). -/
def slotJudged (serial : Serial) (outcome : StrokeOutcome) (slot : Option Follow) : Option Follow :=
  slot.map fun f => if f.serial = serial then { f with outcome := some outcome } else f

/-- A slot that names a freed serial is cut or emptied (R134). -/
def slotFreed (kind : Freeing) (serial : Serial) (slot : Option Follow) : Option Follow :=
  slot.bind fun f =>
    if f.serial = serial then
      match kind with
      | .classified => some { f with available := f.next }
      | .removed => none
    else some f

/-! ## The stroke table (R39 to R41, R56) -/

namespace StrokeTable

/-- The entry that holds this serial. -/
def find (t : StrokeTable) (serial : Serial) : Option Stroke :=
  t.entries.find? fun e => e.serial = serial

def update (t : StrokeTable) (serial : Serial) (f : Stroke → Stroke) : StrokeTable :=
  { t with entries := t.entries.map fun e => if e.serial = serial then f e else e }

def remove (t : StrokeTable) (serial : Serial) : StrokeTable :=
  { t with entries := t.entries.filter fun e => e.serial ≠ serial }

/-- The count of FREE entries (R41). -/
def freeCount (t : StrokeTable) : Nat := Config.strokeEntries - t.entries.length

end StrokeTable

/-- The lowest entry number from `n` on that entries in rising order leave free. -/
def lowestFreeFrom (n : Nat) : List Stroke → Nat
  | [] => n
  | e :: rest => if e.entry = n then lowestFreeFrom (n + 1) rest else n

/-- A stroke put in at its entry number. -/
def insertStroke (e : Stroke) : List Stroke → List Stroke
  | [] => [e]
  | f :: rest => if e.entry < f.entry then e :: f :: rest else f :: insertStroke e rest

/-- After 4,294,967,295 the counter advances to 1 (R40). -/
def nextSerial (c : Serial) : Serial := if c = BitVec.allOnes 32 then 1 else c + 1

/-- The counter advanced until no entry that is not FREE holds its value (R40); it passes at most as
many values as there are such entries. -/
def freshSerialFrom (fuel : Nat) (t : StrokeTable) (c : Serial) : Serial :=
  match fuel with
  | 0 => c
  | fuel + 1 => if (t.find c).isSome then freshSerialFrom fuel t (nextSerial c) else c

def freshSerial (t : StrokeTable) : Serial := freshSerialFrom t.entries.length t t.counter

def State.stroke? (s : State) (serial : Serial) : Option Stroke := s.strokes.find serial

/-- The pen's current stroke (R1). -/
def State.currentStroke (s : State) (pen : Pen) : Option Stroke :=
  (s.channel pen).current.bind s.stroke?

/-- An entry, then a block, both or neither (R41, R67, R70, R74). -/
def State.grant (s : State) : Option (Grant × Pool) :=
  if s.strokes.entries.length < Config.strokeEntries then
    (takeBlock s.pool).map fun (block, pool) =>
      (⟨lowestFreeFrom 0 s.strokes.entries, block⟩, pool)
  else none

/-- Freeing an entry, in the order of R56. -/
def State.freeStroke (s : State) (kind : Freeing) (e : Stroke) : State :=
  let c := s.channel e.pen
  let s1 := s.setChannel e.pen { c with undo := c.undo.erase e.serial }
  let s2 := s1.setPool (returnChain s1.pool e.chain)
  let s3 := s2.setLive (each4 (fun _ l => l.mapSlot e.pen (slotFreed kind e.serial)) s2.live)
  s3.setStrokes (s3.strokes.remove e.serial)

/-! ## Pages (R55, R78, R83, R89) -/

/-- A revision rises by one and stays at its largest value (R78). -/
def nextRevision (r : Revision) : Revision := if r = BitVec.allOnes 32 then r else r + 1

/-- The undo stack with a committed serial on top, the bottom dropped where it held 8 (R58). -/
def pushUndo (serial : Serial) (stack : List Serial) : List Serial :=
  serial :: stack.take (Config.undoDepth - 1)

def State.setOccupant (s : State) (pg : Page) (o : Occupant) : State :=
  s.setPage pg { s.page pg with occupant := o }

/-- The notice of a commit (R55, step 5). -/
def commitNotice (e : Stroke) (revision : Revision) : Notice :=
  .commit e.page e.serial e.pen e.count e.box e.colour e.width revision e.predecessor

/-- A commit, in the order of R55. -/
def State.commitStroke (s : State) (e : Stroke) : State :=
  let s1 := s.setStrokes (s.strokes.update e.serial fun x => { x with state := .committed })
  let r := s1.page e.page
  let revision := nextRevision r.revision
  let s2 := s1.setPage e.page { r with list := r.list ++ [e.serial], revision }
  let c := s2.channel e.pen
  let s3 := s2.setChannel e.pen { c with undo := pushUndo e.serial c.undo }
  s3.route (commitNotice e revision)

/-- An occupant with a serial struck from its visit list (R83, step 2). -/
def strikeVisit (serial : Serial) : Occupant → Occupant
  | .none => .none
  | .snapshot p => .snapshot p
  | .scan r => .scan { r with visits := r.visits.erase serial }

/-- The removal of a committed stroke, in the order of R83. -/
def State.removeStroke (s : State) (e : Stroke) (cause : EraseCause) : State :=
  let r := s.page e.page
  let revision := nextRevision r.revision
  let s1 := s.setPage e.page
    { r with list := r.list.erase e.serial, occupant := strikeVisit e.serial r.occupant, revision }
  let s2 := s1.route (.erase e.page e.serial cause revision)
  s2.freeStroke .removed e

/-- Freeing the strokes of these serials one after the other. -/
def State.freeAll (s : State) (serials : List Serial) : State :=
  serials.foldl (fun s serial =>
    match s.stroke? serial with
    | none => s
    | some e => s.freeStroke .removed e) s

/-- A clear, in the order of R89. -/
def State.clearStrokes (s : State) (pg : Page) : State :=
  let serials := (s.page pg).list
  if serials = [] then s
  else
    let s1 := s.setPage pg { s.page pg with list := [] }
    let s2 := s1.freeAll serials
    let revision := nextRevision (s2.page pg).revision
    let s3 := s2.setPage pg { s2.page pg with revision }
    s3.route (.clear pg serials.length revision)

/-! ## Hold lists (R101, R105, R107, R110) -/

/-- One held item applied to the page as it stands at its turn (R105). -/
def State.applyItem (pg : Page) (s : State) (item : HoldItem) : State :=
  match item with
  | .commit serial =>
    match s.stroke? serial with
    | none => s
    | some e => s.commitStroke e
  | .erase serial cause =>
    match s.stroke? serial with
    | none => s
    | some e => if e.state = .committed ∧ e.page = pg then s.removeStroke e cause else s
  | .clear => s.clearStrokes pg

/-- The held items applied from the first filed to the last, then the page freed and the record
replaced (R106 steps 3 to 5, R107 steps 2 to 4, R108, R110). -/
def State.applyHeld (s : State) (owner : Port) (a : ActiveSnapshot) (record : Option SnapshotRecord) :
    State :=
  let s1 := a.hold.foldl (State.applyItem a.page) s
  (s1.setOccupant a.page .none).setSnapshot owner record

/-- A break: the record becomes BROKEN and the owner's SNAP_BROKEN flag is set (R107, R108). -/
def State.breakSnapshot (s : State) (owner : Port) (a : ActiveSnapshot) : State :=
  let s1 := s.applyHeld owner a (some (.broken a.page))
  s1.setLink owner { s1.link owner with snapBroken := true }

/-- A release: the items applied, or a BROKEN record cleared; no flag set (R110). -/
def State.releaseSnapshot (s : State) (owner : Port) : State :=
  match s.snapshot owner with
  | none => s
  | some (.active a) => s.applyHeld owner a none
  | some (.broken _) => s.setSnapshot owner none

/-- The snapshot that holds a page, with its owner. -/
def State.holder (s : State) (pg : Page) : Option (Port × ActiveSnapshot) :=
  match (s.page pg).occupant with
  | .none => none
  | .scan _ => none
  | .snapshot owner =>
    match s.snapshot owner with
    | some (.active a) => some (owner, a)
    | some (.broken _) => none
    | none => none

/-- An item filed at the end of a hold list (R101). -/
def State.fileItem (s : State) (owner : Port) (a : ActiveSnapshot) (item : HoldItem) : State :=
  s.setSnapshot owner (some (.active { a with hold := a.hold ++ [item] }))

/-- The hold count of a page (R80). -/
def State.holdCount (s : State) (pg : Page) : Nat :=
  match s.holder pg with
  | none => 0
  | some (_, a) => a.hold.length

/-! ## Classification (R45, R48 to R50, R54) -/

/-- An INK outcome reaches its page: committed, or held with a commit item, or committed after the
break that a seventeenth item causes (R54, R107). -/
def State.inkOutcome (s : State) (e : Stroke) : State :=
  match s.holder e.page with
  | none => s.commitStroke e
  | some (owner, a) =>
    if a.hold.length < Config.holdItems then
      (s.setStrokes (s.strokes.update e.serial fun x => { x with state := .held })).fileItem owner a
        (.commit e.serial)
    else (s.breakSnapshot owner a).commitStroke e

/-- The notice of a tap: the first stored point of the stroke (R49, R114). -/
def tapNotice (pool : Pool) (e : Stroke) : Notice :=
  let p := pointAt pool e 0
  .tap e.page e.pen p.x p.y p.clamped

/-- Classification of a stroke closed with this cause (R48): the outcome is recorded, the slots that
follow the stroke take it, and its effects follow. -/
def State.classify (s : State) (e : Stroke) (cause : CloseCause) : State :=
  let outcome := classifiedAs (s.penSettings e.pen).tuning cause e.contact e.box
  let s1 := s.setStrokes (s.strokes.update e.serial fun x =>
    { x with cause := some cause, outcome := some outcome })
  let s2 := s1.mapReachedSlots e (slotJudged e.serial outcome)
  match outcome with
  | .tap => (s2.route (tapNotice s2.pool e)).freeStroke .classified e
  | .noise => s2.freeStroke .classified e
  | .ink => s2.inkOutcome e

/-- A channel that has no current stroke, no working values and no rejoin window (R22, R24). -/
def Channel.withoutStroke (c : Channel) : Channel :=
  { c with current := none, working := none, rejoin := none }

/-- The pen's current stroke closed with this cause and classified at once; the channel then has no
current stroke (R44, R45, R47). -/
def State.closeCurrent (s : State) (pen : Pen) (cause : CloseCause) : State :=
  let s1 := s.setChannel pen (s.channel pen).withoutStroke
  match s.currentStroke pen with
  | none => s1
  | some e => s1.classify e cause

/-! ## Pen states and their notices (R17) -/

/-- The changes of pen state that produce a PEN notice. -/
def penNoticed (before after : PenState) : Bool :=
  decide (before ≠ after)
    && (match after with
        | .away => true
        | .hover => true
        | .pressing => false
        | .inking => decide (before ≠ .lifting)
        | .lifting => false
        | .blocked => true
        | .starved => true)

/-- The pen enters a state. -/
def State.enterPen (s : State) (pen : Pen) (after : PenState) : State :=
  let c := s.channel pen
  let s1 := s.setChannel pen { c with state := after }
  if penNoticed c.state after then s1.route (.pen pen after) else s1

/-- The pen's activity ended by BIND_PEN or DETACH: stroke force-closed, buffers emptied, silence
timer stopped, pen AWAY (R20 steps 2 to 4, R21). -/
def State.endPen (s : State) (pen : Pen) (cause : CloseCause) : State :=
  let s1 := s.closeCurrent pen cause
  let s2 := s1.setChannel pen { s1.channel pen with down := [], lift := [], silence := none }
  s2.enterPen pen .away

/-! ## The link's side of a request (R145, R146) -/

/-- An answer formed by its block for the port's request in work, not yet ready. -/
def State.formAnswer (s : State) (p : Port) (a : Answer) : State :=
  s.setLink p { s.link p with forming := (s.link p).forming ++ [{ answer := a, wanted := true }] }

/-- The link goes to ANSWER_READY with this answer. -/
def State.answerReady (s : State) (p : Port) (a : Answer) : State :=
  s.setLink p { s.link p with state := .answerReady a }

/-- A complete request with a right check byte at the select rise of its port (R145 cases 3 and 7,
R146). It is taken only in RUNNING and on an IDLE link; its block then acts in the same arrival,
with the link WORKING, and gives a reply, or none where the operation goes on or has made its own
answer ready. -/
def State.request (s : State) (p : Port) (tag : Byte) (act : State → State × Option Reply) : State :=
  if s.phase = .running ∧ (s.link p).state = .idle then
    let r := act (s.setLink p { s.link p with state := .working tag })
    match r.2 with
    | none => r.1
    | some reply => r.1.formAnswer p ⟨reply.status, tag, reply.payload⟩
  else s

/-- A request answered with this status and no payload, nothing changed. -/
def State.refuse (s : State) (status : Status) : State × Option Reply := (s, some ⟨status, []⟩)

/-- A request answered OK with this payload, nothing changed. -/
def State.report (s : State) (payload : List Byte) : State × Option Reply := (s, some ⟨.ok, payload⟩)

/-- The answer of a long operation at its completion: delivered where it is still wanted, discarded
where it is not (R95 step 3, R147, R164). -/
def State.deliver (s : State) (p : Port) (wanted : Bool) (a : Answer) : State :=
  if wanted then s.answerReady p a else s

end Sys2Proof.Machine
end

