-- ==== Sys2Proof/Machine/Flags.lean ====
section
/-! DEFINITION. Every flag and condition of a port: the port flags (R154), the seven conditions and
the attention line (R125, R135, R152). Conditions and line are computed from the state (log 24). -/

namespace Sys2Proof.Machine

/-- The RING condition (R125). -/
def ringCondition (r : Ring) (l : Link) : Bool := decide (l.threshold.toNat ≤ r.fill)

/-- The RESYNC condition (R125). -/
def resyncCondition (r : Ring) : Bool := decide (r.resync ≠ 0)

/-- The LIVE condition (R135). -/
def liveCondition (l : LivePort) : Bool := decide (pendingSlots l ≠ 0)

/-- The ANSWER_READY condition (R152). -/
def answerReadyCondition (l : Link) : Bool :=
  match l.state with
  | .idle => false
  | .working _ => false
  | .answerReady _ => true

/-- Which conditions hold on a port, coded as the attention mask (R152, R170). -/
def State.conditionsHeld (s : State) (p : Port) : Byte :=
  let l := s.link p
  maskOfBools
    [answerReadyCondition l, ringCondition (s.ring p) l, liveCondition (s.livePort p),
      resyncCondition (s.ring p), l.restarted, l.frameFault, l.snapBroken]

/-- The attention line is asserted while any condition in the mask holds (R152); it is released
while the part is not RUNNING (R161). -/
def State.attentionAsserted (s : State) (p : Port) : Bool :=
  decide (s.phase = .running) && decide (s.conditionsHeld p &&& (s.link p).attentionMask ≠ 0)

/-- The three port flags, coded as the flag set (R170). -/
def flagSetByte (l : Link) : Byte :=
  maskOfBools [false, false, false, false, l.restarted, l.frameFault, l.snapBroken]

/-- The flags named in a set cleared, the others as they stand (R154). -/
def Link.clearFlags (l : Link) (set : Byte) : Link :=
  { l with
    restarted := l.restarted && !maskHas set 4
    frameFault := l.frameFault && !maskHas set 5
    snapBroken := l.snapBroken && !maskHas set 6 }

/-- The port state that DETACH and DEVICE_RESET give back its default: FRAME_FAULT and SNAP_BROKEN
clear, the default attention mask, threshold 1 (R156 step 5, R157). -/
def Link.attentionDefaults (l : Link) : Link :=
  { l with
    frameFault := false, snapBroken := false, attentionMask := attentionMaskDefault, threshold := 1 }

end Sys2Proof.Machine
end

