-- ==== Sys2Proof/Machine/Strokes.lean ====
section
/-! DEFINITION. Growing a stroke (R42, R43, R51 to R53, R71) and the requests that name one:
READ_STROKE (R60), ERASE_STROKE (R84 to R87), UNDO (R59). -/

namespace Sys2Proof.Machine

/-! ## Open and append -/

/-- The working values when a stroke's first point is stored (R22). -/
def workingFrom (first : Point) (clock : Long) : Working :=
  { zeroOfTime := clock
    lastKept := { x := first.x, y := first.y, clock }
    lastConditioned := { point := first, clock, kept := true } }

/-- A stroke opens with its first point stored in the granted block (R42, R51 steps 2 and 3): the
entry, the serial counter, the pool, the channel's current stroke and working values, and the live
slots of the pen. -/
def State.openStroke (s : State) (pool : Pool) (e : Stroke) (first : Point) (clock : Long) : State :=
  let s1 := s.setStrokes
    { entries := insertStroke e s.strokes.entries, counter := nextSerial e.serial }
  let s2 := s1.setPool { pool with cells := Memory.write pool.cells (pointKey e.chain 0) first }
  let s3 := s2.setChannel e.pen
    { s2.channel e.pen with current := some e.serial, working := some (workingFrom first clock) }
  s3.mapReachedSlots e (slotOpened e)

/-- A new stroke of a pen at pen-down confirmation (R42). -/
def State.newStroke (s : State) (g : Grant) (pen : Pen) (source : Port) (first : Point) : Stroke :=
  let settings := s.penSettings pen
  { entry := g.entry, serial := freshSerial s.strokes, page := (s.channel pen).target, pen, source
    state := .opened, colour := settings.colour, width := settings.width, start := s.deviceTime
    count := 1, contact := 1, box := Box.ofPoint first, chain := [g.block], cause := none
    outcome := none, predecessor := none }

/-- The continuation of a split stroke (R51, steps 2 and 3). -/
def State.continuation (s : State) (g : Grant) (e : Stroke) (first : Point) : Stroke :=
  { entry := g.entry, serial := freshSerial s.strokes, page := e.page, pen := e.pen
    source := e.source, state := .opened, colour := e.colour, width := e.width
    start := s.deviceTime, count := 1, contact := 0, box := Box.ofPoint first, chain := [g.block]
    cause := none, outcome := none, predecessor := some e.serial }

/-- The contact count charged with a sample, or not; it saturates at 65535 (R31, R39). -/
def chargedContact (contact : Nat) (charged : Bool) : Nat :=
  if charged then min (contact + 1) 65535 else contact

/-- The entry of a stroke that stores a point, in a newly granted block where one is named (R43). -/
def Stroke.withPoint (e : Stroke) (block : Option Nat) (p : Point) (charged : Bool) : Stroke :=
  { e with
    count := e.count + 1
    contact := chargedContact e.contact charged
    box := e.box.grow p
    chain := e.chain ++ block.toList }

/-- A point is stored at the end of an OPEN stroke (R43): entry, pool, working values (R22), live
slots (R132). -/
def State.storePoint (s : State) (e : Stroke) (block : Option Nat) (pool : Pool) (p : Point)
    (clock : Long) (charged : Bool) : State :=
  let e' := e.withPoint block p charged
  let s1 := s.setStrokes (s.strokes.update e.serial fun x => x.withPoint block p charged)
  let s2 := s1.setPool { pool with cells := Memory.write pool.cells (pointKey e'.chain e.count) p }
  let c := s2.channel e.pen
  let s3 := s2.setChannel e.pen
    { c with working := c.working.map fun w =>
        { w with
          lastKept := { x := p.x, y := p.y, clock }
          lastConditioned := { point := p, clock, kept := true } } }
  s3.mapReachedSlots e (slotExtended e')

/-- The pen stops after a shortage at an append: STARVED, the rest of the request consumed (R10). -/
def State.starve (s : State) (pen : Pen) : State × Flow := (s.enterPen pen .starved, .consume)

/-- A sample is charged to a stroke that did not store its point (R31); a closing point's sample was
counted before and is not charged. -/
def State.chargeSample (s : State) (serial : Serial) (charged : Bool) : State :=
  s.setStrokes (s.strokes.update serial fun x =>
    { x with contact := chargedContact x.contact charged })

/-- An append that needs a block finds the free-block list empty (R53, R71): the lost point's sample
is charged, the stroke is closed with POOL_FULL and classified, the pen starves. -/
def State.poolFullClose (s : State) (e : Stroke) (charged : Bool) : State × Flow :=
  ((s.chargeSample e.serial charged).closeCurrent e.pen .poolFull).starve e.pen

/-- The copy of a predecessor's last point that a continuation begins with (R22, R51 step 3). -/
def continuationPoint (last : Point) : Point := { last with liftBefore := false, offset := 0 }

/-- The splitting point as the continuation stores it (R51 step 4). A closing point, which carries no
charge, is appended as it was conditioned, with the same time offset (R29); any other counts its
offset from the zero of time of the stroke that holds it, the continuation (R22, R27; log 13). -/
def splittingPoint (p : Point) (clock zero : Long) (charged : Bool) : Point :=
  if charged then { p with offset := timeOffset clock zero } else p

/-- An append that would give a stroke 2049 points splits it (R51), or ends the pen's drawing where
the continuation is refused (R52, R74). A sample lost with a refused continuation is charged to the
stroke that was closed (R31; log 14). -/
def State.splitStroke (s : State) (e : Stroke) (w : Working) (p : Point) (clock : Long)
    (charged : Bool) : State × Flow :=
  let first := continuationPoint (pointAt s.pool e (e.count - 1))
  let s1 := s.closeCurrent e.pen .split
  match s1.grant with
  | none => (s1.chargeSample e.serial charged).starve e.pen
  | some (g, pool) =>
    let e1 := s1.continuation g e first
    let s2 := s1.openStroke pool e1 first w.lastKept.clock
    (s2.storePoint e1 none s2.pool (splittingPoint p clock w.lastKept.clock charged) clock charged,
      .judge)

/-- A kept point handed to the stroke table (R43). -/
def State.appendPoint (s : State) (e : Stroke) (w : Working) (p : Point) (clock : Long)
    (charged : Bool) : State × Flow :=
  if e.count = Config.maxPoints then s.splitStroke e w p clock charged
  else if e.count % Config.pointsPerBlock = 0 then
    match takeBlock s.pool with
    | none => s.poolFullClose e charged
    | some (block, pool) => (s.storePoint e (some block) pool p clock charged, .judge)
  else (s.storePoint e none s.pool p clock charged, .judge)

/-! ## READ_STROKE -/

/-- READ_STROKE (R60): `start` is the index of the first point wanted. -/
def readStroke (p : Port) (fields : Option (Serial × Word)) (s : State) : State × Option Reply :=
  if ¬ (s.permissions p).view then s.refuse .denied
  else
    match fields with
    | none => s.refuse .range
    | some (serial, start) =>
      match s.stroke? serial with
      | none => s.refuse .notFound
      | some e =>
        if serial = 0 then s.refuse .notFound
        else
          let n := min (e.count - start.toNat) Config.maxReadPoints
          s.report (headerBytes e ++ wordBytes start ++ natByte n
            ++ (pointsFrom s.pool e start.toNat n).flatMap pointBytes)

def execReadStroke (p : Port) (tag : Byte) (serial : Serial) (start : Word) (s : State) :
    Host.Outcome State Fault Refusal :=
  .next (s.request p tag (readStroke p (some (serial, start))))

/-! ## Erasing one stroke -/

/-- A hold list holds an erase item for this serial (R86). -/
def holdsErase (hold : List HoldItem) (serial : Serial) : Bool :=
  hold.any fun item =>
    match item with
    | .commit _ => false
    | .erase other _ => decide (other = serial)
    | .clear => false

/-- The removal carried out where the stroke is still COMMITTED on the page (R86, R107). -/
def State.removeIfCommitted (s : State) (pg : Page) (serial : Serial) (cause : EraseCause) : State :=
  match s.stroke? serial with
  | none => s
  | some e => if e.state = .committed ∧ e.page = pg then s.removeStroke e cause else s

/-- An erase of a COMMITTED stroke as its page's occupant lets it (R59 step 5, R85, R86, R107), with
the status of its answer: removed at once, filed, already filed, or the seventeenth item. -/
def State.eraseCommitted (s : State) (e : Stroke) (cause : EraseCause) : State × Status :=
  match s.holder e.page with
  | none => (s.removeStroke e cause, .ok)
  | some (owner, a) =>
    if holdsErase a.hold e.serial then (s, .okDeferred)
    else if a.hold.length < Config.holdItems then
      (s.fileItem owner a (.erase e.serial cause), .okDeferred)
    else ((s.breakSnapshot owner a).removeIfCommitted e.page e.serial cause, .ok)

/-- A HELD stroke withdrawn: its commit item leaves the hold list and its entry is freed (R87). -/
def State.withdraw (s : State) (e : Stroke) : State :=
  let s1 := match s.holder e.page with
    | none => s
    | some (owner, a) =>
      s.setSnapshot owner (some (.active { a with hold := a.hold.erase (.commit e.serial) }))
  s1.freeStroke .removed e

/-- The answer of ERASE_STROKE (R84): the serial, the page and its revision. -/
def eraseReply (s : State) (e : Stroke) (status : Status) : State × Option Reply :=
  (s, some ⟨status, longBytes e.serial ++ [pageCode e.page] ++ longBytes (s.page e.page).revision⟩)

/-- ERASE_STROKE (R84). -/
def eraseStroke (p : Port) (serial : Option Serial) (s : State) : State × Option Reply :=
  if ¬ (s.permissions p).edit then s.refuse .denied
  else
    match serial with
    | none => s.refuse .range
    | some serial =>
      match s.stroke? serial with
      | none => s.refuse .notFound
      | some e =>
        if serial = 0 then s.refuse .notFound
        else if e.state = .opened ∨ e.state = .closing then s.refuse .strokeActive
        else if (s.page e.page).locked then s.refuse .locked
        else if e.state = .held then eraseReply (s.withdraw e) e .ok
        else
          let r := s.eraseCommitted e .request
          eraseReply r.1 e r.2

def execEraseStroke (p : Port) (tag : Byte) (serial : Serial) (s : State) :
    Host.Outcome State Fault Refusal :=
  .next (s.request p tag (eraseStroke p (some serial)))

/-! ## UNDO -/

/-- Whether an erase of this stroke would be the seventeenth item of the hold list of its page. -/
def State.eraseBreaks (s : State) (e : Stroke) : Bool :=
  match s.holder e.page with
  | none => false
  | some (_, a) => !holdsErase a.hold e.serial && decide (Config.holdItems ≤ a.hold.length)

/-- UNDO (R59). The answer carries the serial and the page, and after an overflow break the revision
too (R107; log 15). -/
def undo (p : Port) (pen : Option Byte) (s : State) : State × Option Reply :=
  if ¬ (s.permissions p).edit then s.refuse .denied
  else
    match penOf pen with
    | none => s.refuse .range
    | some pen =>
      match (s.channel pen).undo with
      | [] => s.refuse .notFound
      | serial :: rest =>
        match s.stroke? serial with
        | none => s.refuse .notFound
        | some e =>
          if (s.page e.page).locked then s.refuse .locked
          else
            let s1 := s.setChannel pen { s.channel pen with undo := rest }
            let r := s1.eraseCommitted e .undo
            let revision := if s1.eraseBreaks e then longBytes (r.1.page e.page).revision else []
            (r.1, some ⟨r.2, longBytes serial ++ [pageCode e.page] ++ revision⟩)

def execUndo (p : Port) (tag : Byte) (pen : Byte) (s : State) : Host.Outcome State Fault Refusal :=
  .next (s.request p tag (undo p (some pen)))

end Sys2Proof.Machine
end

