-- ==== Sys2Proof/Machine/Contact.lean ====
section
/-! DEFINITION. Contact detection and the life of a contact (R4 to R17, R29, R30, R46, R47):
SUBMIT_SAMPLES, SILENCE_EXPIRY, REJOIN_EXPIRY. -/

namespace Sys2Proof.Machine

/-! ## Conditioning one sample of a stroke (R23) -/

/-- A dropped point: it becomes the last conditioned point and its sample is charged (R23, R31). -/
def State.dropPoint (s : State) (e : Stroke) (w : Working) (p : Point) (clock : Long) : State :=
  let s1 := s.chargeSample e.serial true
  let c := s1.channel e.pen
  s1.setChannel e.pen
    { c with working := some { w with lastConditioned := { point := p, clock, kept := false } } }

/-- One sample in contact (R23). `rejoin` says that it is the first point of a rejoin, kept by test
(e) and carrying LIFT_BEFORE (R30). A pen with no current stroke has none to condition for. -/
def State.conditionSample (s : State) (pen : Pen) (b : Buffered) (rejoin : Bool) : State × Flow :=
  match s.currentStroke pen, (s.channel pen).working with
  | some e, some w =>
    let settings := s.penSettings pen
    let p := conditionedPoint settings.calibration w.zeroOfTime b rejoin
    if rejoin || thinningKeeps settings.tuning w.lastKept p b.clock then
      s.appendPoint e w p b.clock true
    else (s.dropPoint e w p b.clock, .judge)
  | some _, none => (s, .judge)
  | none, _ => (s, .judge)

/-- Several samples in contact, oldest first; after a shortage the rest are consumed (R11, R71). -/
def State.conditionAll (s : State) (pen : Pen) : List Buffered → State × Flow
  | [] => (s, .judge)
  | b :: rest =>
    match s.conditionSample pen b false with
    | (s1, .consume) => (s1, .consume)
    | (s1, .judge) => s1.conditionAll pen rest

/-! ## Pen-down (R9) -/

/-- The down buffer emptied. -/
def State.emptyDown (s : State) (pen : Pen) : State :=
  s.setChannel pen { s.channel pen with down := [] }

/-- The lift buffer emptied. -/
def State.emptyLift (s : State) (pen : Pen) : State :=
  s.setChannel pen { s.channel pen with lift := [] }

/-- Pen-down for a new stroke (R9 steps 2 to 5, R70). -/
def State.openNew (s : State) (pen : Pen) (source : Port) (first : Buffered) (rest : List Buffered) :
    State × Flow :=
  let s1 := s.emptyDown pen
  if (s1.page (s1.channel pen).target).locked then (s1.enterPen pen .blocked, .judge)
  else
    match s1.grant with
    | none => (s1.enterPen pen .starved, .judge)
    | some (g, pool) =>
      let p := conditionedPoint (s1.penSettings pen).calibration first.clock first false
      let s2 := s1.openStroke pool (s1.newStroke g pen source p) p first.clock
      (s2.enterPen pen .inking).conditionAll pen rest

/-- The rejoin decision against the last stored point of the CLOSING stroke (R30). -/
def rejoins (settings : PenSettings) (w : Working) (first : Buffered) : Bool :=
  let position := mapSample settings.calibration first.sample
  decide (distanceSquared position.1 position.2.1 w.lastKept.x w.lastKept.y
    ≤ settings.tuning.rejoinDist.toNat ^ 2)

/-- A CLOSING stroke returns to OPEN and takes the buffered samples (R9 steps 1 and 5, R46). -/
def State.rejoinStroke (s : State) (pen : Pen) (e : Stroke) (first : Buffered)
    (rest : List Buffered) : State × Flow :=
  let s1 := s.setStrokes (s.strokes.update e.serial fun x =>
    { x with state := .opened, cause := none })
  let s2 := s1.setChannel pen { s1.channel pen with down := [], rejoin := none }
  let s3 := s2.enterPen pen .inking
  match s3.conditionSample pen first true with
  | (s4, .consume) => (s4, .consume)
  | (s4, .judge) => s4.conditionAll pen rest

/-- Pen-down confirmation, once the down buffer is complete (R9). -/
def State.penDown (s : State) (pen : Pen) (source : Port) : State × Flow :=
  match (s.channel pen).down with
  | [] => (s, .judge)
  | first :: rest =>
    match s.currentStroke pen, (s.channel pen).working with
    | some e, some w =>
      if rejoins (s.penSettings pen) w first then s.rejoinStroke pen e first rest
      else (s.closeCurrent pen .penUp).openNew pen source first rest
    | some _, none => (s.closeCurrent pen .penUp).openNew pen source first rest
    | none, _ => s.openNew pen source first rest

/-! ## Pen-up (R12) -/

/-- The closing point (R12 step 1, R29, R72): a last conditioned point that thinning dropped is
appended as it was conditioned. -/
def State.closingPoint (s : State) (pen : Pen) : State × Flow :=
  match s.currentStroke pen, (s.channel pen).working with
  | some e, some w =>
    if w.lastConditioned.kept then (s, .judge)
    else s.appendPoint e w w.lastConditioned.point w.lastConditioned.clock false
  | some _, none => (s, .judge)
  | none, _ => (s, .judge)

/-- The stroke closed with PEN_UP: to CLOSING with the rejoin timer started, or classified at once
where REJOIN is 0 (R12 step 2, R44). -/
def State.closePenUp (s : State) (pen : Pen) : State :=
  let rejoin := (s.penSettings pen).tuning.rejoin
  if rejoin = 0 then s.closeCurrent pen .penUp
  else
    match s.currentStroke pen with
    | none => s
    | some e =>
      let s1 := s.setStrokes (s.strokes.update e.serial fun x =>
        { x with state := .closing, cause := some .penUp })
      s1.setChannel pen { s1.channel pen with rejoin := some (s1.startTimer rejoin) }

/-- The pen state that a low sample leaves a pen in: HOVER in range, AWAY out of range. -/
def lowState (x : Sample) : PenState := if sampleHeard x then .hover else .away

/-- Pen-up confirmation, at the low sample that completes the lift buffer (R12, R52, R72). -/
def State.penUp (s : State) (pen : Pen) (x : Sample) : State × Flow :=
  match (s.emptyLift pen).closingPoint pen with
  | (s1, .consume) => (s1, .consume)
  | (s1, .judge) => ((s1.closePenUp pen).enterPen pen (lowState x), .judge)

/-! ## One sample under the pen's state (R7 to R14) -/

/-- A pressed sample before contact is confirmed (R7, R8). -/
def State.pressSample (s : State) (pen : Pen) (source : Port) (b : Buffered) : State × Flow :=
  let c := s.channel pen
  let s1 := (s.setChannel pen { c with down := c.down ++ [b] }).enterPen pen .pressing
  if (s1.penSettings pen).tuning.downCount.toNat + 1 ≤ (s1.channel pen).down.length then
    s1.penDown pen source
  else (s1, .judge)

/-- A low sample of a pen that draws (R10, R11). -/
def State.liftSample (s : State) (pen : Pen) (b : Buffered) : State × Flow :=
  let c := s.channel pen
  let s1 := (s.setChannel pen { c with lift := c.lift ++ [b] }).enterPen pen .lifting
  if (s1.penSettings pen).tuning.upCount.toNat + 1 ≤ (s1.channel pen).lift.length then
    s1.penUp pen b.sample
  else (s1, .judge)

/-- A held sample breaks a lift run (R11). -/
def State.breakLift (s : State) (pen : Pen) (b : Buffered) : State × Flow :=
  let fed := (s.channel pen).lift.filter fun x => sampleHeard x.sample
  ((s.emptyLift pen).enterPen pen .inking).conditionAll pen (fed ++ [b])

/-- A sample judged under the pen's state. -/
def State.judgeSample (s : State) (pen : Pen) (source : Port) (b : Buffered) : State × Flow :=
  let tuning := (s.penSettings pen).tuning
  match (s.channel pen).state with
  | .away =>
    if samplePressed tuning b.sample then s.pressSample pen source b
    else (s.enterPen pen (lowState b.sample), .judge)
  | .hover =>
    if samplePressed tuning b.sample then s.pressSample pen source b
    else (s.enterPen pen (lowState b.sample), .judge)
  | .pressing =>
    if samplePressed tuning b.sample then s.pressSample pen source b
    else ((s.emptyDown pen).enterPen pen (lowState b.sample), .judge)
  | .inking =>
    if sampleHeld tuning b.sample then s.conditionSample pen b false
    else s.liftSample pen b
  | .lifting =>
    if sampleHeld tuning b.sample then s.breakLift pen b
    else s.liftSample pen b
  | .blocked =>
    if sampleHeld tuning b.sample then (s, .judge)
    else (s.enterPen pen (lowState b.sample), .judge)
  | .starved =>
    if sampleHeld tuning b.sample then (s, .judge)
    else (s.enterPen pen (lowState b.sample), .judge)

/-- The pen clock and the last calibrated position at a sample, in every pen state (R5, R6). -/
def Channel.hear (c : Channel) (calibration : Calibration) (x : Sample) : Channel :=
  let position := mapSample calibration x
  { c with
    clock := c.clock + x.dt.zeroExtend 32
    position := if sampleHeard x then some (position.1, position.2.1) else c.position }

/-- One sample of a taken request, whole: clock and position, then the rule of the pen's state,
unless a shortage earlier in the request has the rest consumed (R4, R10). -/
def State.takeSample (pen : Pen) (source : Port) (r : State × Flow) (x : Sample) : State × Flow :=
  let s := r.1
  let s1 := s.setChannel pen ((s.channel pen).hear (s.penSettings pen).calibration x)
  match r.2 with
  | .consume => (s1, .consume)
  | .judge => s1.judgeSample pen source ⟨x, (s1.channel pen).clock⟩

/-- The samples of one taken request, then the silence timer restarted (R4). -/
def State.takeSamples (s : State) (pen : Pen) (source : Port) (samples : List Sample) : State :=
  let s1 := (samples.foldl (State.takeSample pen source) (s, .judge)).1
  s1.setChannel pen
    { s1.channel pen with silence := some (s1.startTimer (s1.penSettings pen).tuning.silence) }

/-! ## SUBMIT_SAMPLES -/

/-- SUBMIT_SAMPLES: the checks of R3, then R4. Fields are none where the payload has no pen byte, or
where its length does not match its count. -/
def submitSamples (p : Port) (pen : Option Byte) (samples : Option (List Sample)) (s : State) :
    State × Option Reply :=
  if ¬ (s.permissions p).ink then s.refuse .denied
  else
    match penOf pen with
    | none => s.refuse .range
    | some pen =>
      if (s.penSettings pen).binding ≠ some p then s.refuse .wrongSource
      else
        match samplesOf samples with
        | none => s.refuse .range
        | some samples =>
          let s1 := s.takeSamples pen p samples
          s1.report ([penStateCode (s1.channel pen).state] ++ serialBytes (s1.channel pen).current)

def execSubmitSamples (p : Port) (tag : Byte) (pen : Byte) (samples : List Sample) (s : State) :
    Host.Outcome State Fault Refusal :=
  .next (s.request p tag (submitSamples p (some pen) (some samples)))

/-! ## Timer expiries -/

/-- What the silence timer's expiry does in each pen state (R15). -/
def State.silencePen (s : State) (pen : Pen) : State :=
  match (s.channel pen).state with
  | .away => s
  | .hover => s.enterPen pen .away
  | .pressing => (s.emptyDown pen).enterPen pen .away
  | .inking => (s.closeCurrent pen .penLost).enterPen pen .away
  | .lifting => ((s.emptyLift pen).closeCurrent pen .penLost).enterPen pen .away
  | .blocked => s.enterPen pen .away
  | .starved => s.enterPen pen .away

/-- The silence timer expires, once it runs and has reached its interval (R15, R162; log 3). -/
def State.expireSilence (s : State) (pen : Pen) : State :=
  match (s.channel pen).silence with
  | none => s
  | some t =>
    if s.phase = .running ∧ timerDue s.deviceTime t then
      (s.setChannel pen { s.channel pen with silence := none }).silencePen pen
    else s

def execSilenceExpiry (pen : Pen) (s : State) : Host.Outcome State Fault Refusal :=
  .next (s.expireSilence pen)

/-- The rejoin timer expires: the CLOSING stroke is classified with PEN_UP, and the pen has no
current stroke (R13, R47, R162; log 3). -/
def State.expireRejoin (s : State) (pen : Pen) : State :=
  match (s.channel pen).rejoin with
  | none => s
  | some t =>
    if s.phase = .running ∧ timerDue s.deviceTime t then s.closeCurrent pen .penUp else s

def execRejoinExpiry (pen : Pen) (s : State) : Host.Outcome State Fault Refusal :=
  .next (s.expireRejoin pen)

end Sys2Proof.Machine
end

