-- ==== Sys2Proof/Machine/Pens.lean ====
section
/-! DEFINITION. The requests on a pen channel and its settings: SET_CALIBRATION (R35),
SET_PEN_TUNING (R36), SET_PEN_TOOL and SET_PEN_PAGE (R19), BIND_PEN (R20), PEN_STATUS (R18). -/

namespace Sys2Proof.Machine

/-- The first two checks of R19, R35 and R36: the pen number, then a permission that reaches every
pen, or INK for a pen bound to the port. A payload with no pen byte is out of range for a port that
holds either (log 12). -/
def State.penRequest (s : State) (p : Port) (anyPen : Bool) (field : Option Byte)
    (act : Pen → State × Option Reply) : State × Option Reply :=
  match field with
  | none => if anyPen ∨ (s.permissions p).ink then s.refuse .range else s.refuse .denied
  | some b =>
    match penOf (some b) with
    | none => s.refuse .range
    | some pen =>
      if anyPen then act pen
      else if ¬ (s.permissions p).ink then s.refuse .denied
      else if (s.penSettings pen).binding = some p then act pen
      else s.refuse .wrongSource

/-! ## Calibration and tuning -/

/-- OK_ADJUSTED where a value was brought into range, OK otherwise. -/
def adjustedStatus (adjusted : Bool) : Status := if adjusted then .okAdjusted else .ok

/-- SET_CALIBRATION (R35). -/
def setCalibration (p : Port) (pen : Option Byte) (values : Option Calibration) (s : State) :
    State × Option Reply :=
  s.penRequest p (s.permissions p).room pen fun pen =>
    match values with
    | none => s.refuse .range
    | some sent =>
      let stored := calibrationIntoRange sent
      (s.setPenSettings pen { s.penSettings pen with calibration := stored },
        some ⟨adjustedStatus (decide (stored ≠ sent)), calibrationBytes stored⟩)

def execSetCalibration (p : Port) (tag : Byte) (pen : Byte) (values : Calibration) (s : State) :
    Host.Outcome State Fault Refusal :=
  .next (s.request p tag (setCalibration p (some pen) (some values)))

/-- SNAP_LIMIT replaced where the request carries one (R36). -/
def State.storeSnapLimit (s : State) (limit : Option Word) : State :=
  match limit with
  | none => s
  | some w => s.setMirror { s.mirror with snapLimit := snapLimitIntoRange w }

/-- The request's SNAP_LIMIT, where present, had to be brought into range. -/
def snapLimitAdjusted (limit : Option Word) : Bool :=
  match limit with
  | none => false
  | some w => decide (snapLimitIntoRange w ≠ w)

/-- SET_PEN_TUNING (R36). -/
def setPenTuning (p : Port) (pen : Option Byte) (values : Option (Tuning × Option Word)) (s : State) :
    State × Option Reply :=
  s.penRequest p (s.permissions p).room pen fun pen =>
    match values with
    | none => s.refuse .range
    | some (sent, limit) =>
      if limit.isSome ∧ ¬ (s.permissions p).room then s.refuse .denied
      else
        let stored := tuningIntoRange sent
        let s1 := s.setPenSettings pen { s.penSettings pen with tuning := stored }
        let s2 := s1.storeSnapLimit limit
        (s2, some ⟨adjustedStatus (decide (stored ≠ sent) || snapLimitAdjusted limit),
          tuningBytes stored ++ wordBytes s2.mirror.snapLimit⟩)

def execSetPenTuning (p : Port) (tag : Byte) (pen : Byte) (values : Tuning) (snapLimit : Option Word)
    (s : State) : Host.Outcome State Fault Refusal :=
  .next (s.request p tag (setPenTuning p (some pen) (some (values, snapLimit))))

/-! ## Tool and target page -/

/-- SET_PEN_TOOL (R19): the colour, then the width class. -/
def setPenTool (p : Port) (pen : Option Byte) (tool : Option (Byte × Byte)) (s : State) :
    State × Option Reply :=
  s.penRequest p (s.permissions p).edit pen fun pen =>
    match tool with
    | none => s.refuse .range
    | some (colour, width) =>
      if 15 < colour.toNat ∨ 7 < width.toNat then s.refuse .range
      else (s.setPenSettings pen { s.penSettings pen with colour, width }, some ⟨.ok, []⟩)

def execSetPenTool (p : Port) (tag : Byte) (pen colour width : Byte) (s : State) :
    Host.Outcome State Fault Refusal :=
  .next (s.request p tag (setPenTool p (some pen) (some (colour, width))))

/-- SET_PEN_PAGE (R19). -/
def setPenPage (p : Port) (pen : Option Byte) (page : Option Byte) (s : State) :
    State × Option Reply :=
  s.penRequest p (s.permissions p).edit pen fun pen =>
    match pageOf page with
    | none => s.refuse .range
    | some page =>
      (s.setChannel pen { s.channel pen with target := page }, some ⟨.ok, []⟩)

def execSetPenPage (p : Port) (tag : Byte) (pen page : Byte) (s : State) :
    Host.Outcome State Fault Refusal :=
  .next (s.request p tag (setPenPage p (some pen) (some page)))

/-! ## Binding and status -/

/-- BIND_PEN (R20). -/
def bindPen (p : Port) (pen : Option Byte) (source : Option Byte) (s : State) : State × Option Reply :=
  if ¬ (s.permissions p).room then s.refuse .denied
  else
    match penOf pen, bindingOf source with
    | some pen, some binding =>
      let s1 := s.setPenSettings pen { s.penSettings pen with binding }
      (s1.endPen pen .rebound, some ⟨.ok, []⟩)
    | some _, none => s.refuse .range
    | none, _ => s.refuse .range

def execBindPen (p : Port) (tag : Byte) (pen source : Byte) (s : State) :
    Host.Outcome State Fault Refusal :=
  .next (s.request p tag (bindPen p (some pen) (some source)))

/-- An absent last calibrated position is sent as x = y = 0xFFFF (R168). -/
def positionBytes (position : Option (Nat × Nat)) : List Byte :=
  match position with
  | none => [0xFF, 0xFF, 0xFF, 0xFF]
  | some (x, y) => natWord x ++ natWord y

/-- PEN_STATUS (R18). -/
def penStatus (pen : Option Byte) (s : State) : State × Option Reply :=
  match penOf pen with
  | none => s.refuse .range
  | some pen =>
    let c := s.channel pen
    s.report
      ([penStateCode c.state, bindingCode (s.penSettings pen).binding, pageCode c.target]
        ++ serialBytes c.current ++ positionBytes c.position ++ longBytes c.clock
        ++ natByte c.undo.length)

def execPenStatus (p : Port) (tag : Byte) (pen : Byte) (s : State) :
    Host.Outcome State Fault Refusal :=
  .next (s.request p tag (penStatus (some pen)))

end Sys2Proof.Machine
end

