-- ==== Sys2Proof/Machine/Pages.lean ====
section
/-! DEFINITION. The page store's commands: PAGE_STATUS (R80), LOCK_PAGE and UNLOCK_PAGE (R81),
CLEAR_PAGE (R90), ERASE_REGION (R91 to R93), SCAN_VISIT (R94), SCAN_COMPLETE (R95). -/

namespace Sys2Proof.Machine

/-- PAGE_STATUS (R80). -/
def pageStatus (page : Option Byte) (s : State) : State × Option Reply :=
  match pageOf page with
  | none => s.refuse .range
  | some pg =>
    let r := s.page pg
    s.report ([pageCode pg, flagByte r.locked] ++ longBytes r.revision ++ natWord r.list.length
      ++ occupantBytes r.occupant ++ natByte (s.holdCount pg))

def execPageStatus (p : Port) (tag : Byte) (page : Byte) (s : State) :
    Host.Outcome State Fault Refusal :=
  .next (s.request p tag (pageStatus (some page)))

/-! ## The lock flag -/

/-- The lock flag set or cleared: a PAGE notice where it changes, none where it does not; the answer
carries the flag and the revision (R81). -/
def setLock (p : Port) (page : Option Byte) (locked : Bool) (s : State) : State × Option Reply :=
  if ¬ (s.permissions p).room then s.refuse .denied
  else
    match pageOf page with
    | none => s.refuse .range
    | some pg =>
      let r := s.page pg
      let reply : Reply := ⟨.ok, [flagByte locked] ++ longBytes r.revision⟩
      if r.locked = locked then (s, some reply)
      else ((s.setPage pg { r with locked }).route (.page pg locked r.revision), some reply)

def execLockPage (p : Port) (tag : Byte) (page : Byte) (s : State) :
    Host.Outcome State Fault Refusal :=
  .next (s.request p tag (setLock p (some page) true))

def execUnlockPage (p : Port) (tag : Byte) (page : Byte) (s : State) :
    Host.Outcome State Fault Refusal :=
  .next (s.request p tag (setLock p (some page) false))

/-! ## CLEAR_PAGE -/

/-- A clear carried out at once (R89); its answer is the count removed, then the revision after the
clear, in the order of R90. -/
def State.clearNow (s : State) (pg : Page) : State × Option Reply :=
  let s1 := s.clearStrokes pg
  s1.report (natWord (s.page pg).list.length ++ longBytes (s1.page pg).revision)

/-- A clear left to a snapshot's hold list; its answer is the frozen revision, then a count of 0, in
the order of R90. -/
def clearDeferred (s : State) (a : ActiveSnapshot) : State × Option Reply :=
  (s, some ⟨.okDeferred, longBytes a.frozen ++ natWord 0⟩)

/-- CLEAR_PAGE (R90). -/
def clearPage (p : Port) (page : Option Byte) (s : State) : State × Option Reply :=
  if ¬ (s.permissions p).edit then s.refuse .denied
  else
    match pageOf page with
    | none => s.refuse .range
    | some pg =>
      if (s.page pg).locked then s.refuse .locked
      else
        match (s.page pg).occupant with
        | .scan _ => s.refuse .pageBusy
        | .none => s.clearNow pg
        | .snapshot _ =>
          match s.holder pg with
          | none => s.clearNow pg
          | some (owner, a) =>
            if HoldItem.clear ∈ a.hold then clearDeferred s a
            else if a.hold.length < Config.holdItems then
              clearDeferred (s.fileItem owner a .clear) a
            else (s.breakSnapshot owner a).clearNow pg

def execClearPage (p : Port) (tag : Byte) (page : Byte) (s : State) :
    Host.Outcome State Fault Refusal :=
  .next (s.request p tag (clearPage p (some page)))

/-! ## Region scans -/

/-- The five fields of a rectangle request after the page: the corners and the mode. -/
structure RegionFields where
  x0 : Word
  y0 : Word
  x1 : Word
  y1 : Word
  mode : Byte
  deriving DecidableEq, Repr

/-- The scan rectangle that the corners sent give (R91): exchanged into order, brought onto the
canvas. -/
def scanRect (f : RegionFields) : Rect :=
  { x0 := min (min f.x0.toNat f.x1.toNat) Config.maxX
    y0 := min (min f.y0.toNat f.y1.toNat) Config.maxY
    x1 := min (max f.x0.toNat f.x1.toNat) Config.maxX
    y1 := min (max f.y0.toNat f.y1.toNat) Config.maxY }

/-- Whether bringing the rectangle onto the canvas changed a value (R91). -/
def rectAdjusted (f : RegionFields) : Bool :=
  decide (scanRect f ≠ { x0 := f.x0.toNat, y0 := f.y0.toNat, x1 := f.x1.toNat, y1 := f.y1.toNat })

/-- A stroke's box matches the scan rectangle (R92). -/
def boxMatches (mode : RegionMode) (r : Rect) (b : Box) : Bool :=
  match mode with
  | .inside =>
    decide (r.x0 ≤ b.xmin ∧ b.xmax ≤ r.x1 ∧ r.y0 ≤ b.ymin ∧ b.ymax ≤ r.y1)
  | .touch =>
    decide (b.xmin ≤ r.x1 ∧ r.x0 ≤ b.xmax ∧ b.ymin ≤ r.y1 ∧ r.y0 ≤ b.ymax)

/-- ERASE_REGION (R91, R93): a taken request begins its scan and has no answer before the scan
completes. -/
def eraseRegion (p : Port) (tag : Byte) (page : Option Byte) (fields : Option RegionFields)
    (s : State) : State × Option Reply :=
  if ¬ (s.permissions p).edit then s.refuse .denied
  else
    match pageOf page, fields, modeOf (fields.map (·.mode)) with
    | some pg, some f, some mode =>
      if (s.page pg).locked then s.refuse .locked
      else if (s.page pg).occupant ≠ .none then s.refuse .pageBusy
      else
        (s.setOccupant pg (.scan
          { requester := p, tag, mode, rect := scanRect f, adjusted := rectAdjusted f
            visits := (s.page pg).list, removed := 0, wanted := true }), none)
    | some _, some _, none => s.refuse .range
    | some _, none, _ => s.refuse .range
    | none, _, _ => s.refuse .range

def execEraseRegion (p : Port) (tag : Byte) (page : Byte) (x0 y0 x1 y1 : Word) (mode : Byte)
    (s : State) : Host.Outcome State Fault Refusal :=
  .next (s.request p tag (eraseRegion p tag (some page) (some ⟨x0, y0, x1, y1, mode⟩)))

/-- One visit of the page's scan (R94): the bottom serial leaves the visit list, and its stroke is
removed with cause REGION where its box matches. -/
def State.visitScan (s : State) (pg : Page) (r : Scan) : State :=
  match r.visits with
  | [] => s
  | serial :: rest =>
    match s.stroke? serial with
    | none => s.setOccupant pg (.scan { r with visits := rest })
    | some e =>
      if boxMatches r.mode r.rect e.box then
        (s.setOccupant pg (.scan { r with visits := rest, removed := r.removed + 1 })).removeStroke e
          .region
      else s.setOccupant pg (.scan { r with visits := rest })

/-- SCAN_VISIT; without a scan of the page there is no visit (log 23). -/
def execScanVisit (pg : Page) (s : State) : Host.Outcome State Fault Refusal :=
  match s.phase, (s.page pg).occupant with
  | .running, .scan r => .next (s.visitScan pg r)
  | _, _ => .next s

/-- The completion of the page's scan (R95). -/
def State.completeScan (s : State) (pg : Page) (r : Scan) : State :=
  let payload := [pageCode pg] ++ natWord r.removed ++ longBytes (s.page pg).revision
  (s.setOccupant pg .none).deliver r.requester r.wanted ⟨adjustedStatus r.adjusted, r.tag, payload⟩

/-- SCAN_COMPLETE; the scan completes when its visit list is empty (R95), and before that there is no
completion (log 23). -/
def execScanComplete (pg : Page) (s : State) : Host.Outcome State Fault Refusal :=
  match s.phase, (s.page pg).occupant with
  | .running, .scan r => .next (if r.visits = [] then s.completeScan pg r else s)
  | _, _ => .next s

end Sys2Proof.Machine
end

