-- ==== Sys2Proof/Machine/Snapshots.lean ====
section
/-! DEFINITION. The snapshot unit's commands: SNAPSHOT_BEGIN (R102), SNAPSHOT_LIST (R104),
SNAPSHOT_END (R106), SNAP_LIMIT_EXPIRY (R108). -/

namespace Sys2Proof.Machine

/-- SNAPSHOT_BEGIN (R102). -/
def snapshotBegin (p : Port) (page : Option Byte) (s : State) : State × Option Reply :=
  if ¬ (s.permissions p).view then s.refuse .denied
  else
    match pageOf page with
    | none => s.refuse .range
    | some pg =>
      match s.snapshot p with
      | some (.active _) => s.refuse .already
      | _ =>
        if (s.page pg).occupant ≠ .none then s.refuse .pageBusy
        else
          let r := s.page pg
          let limit := s.mirror.snapLimit
          let s1 := s.setSnapshot p
            (some (.active { page := pg, frozen := r.revision, timer := s.startTimer limit, hold := [] }))
          (s1.setOccupant pg (.snapshot p),
            some ⟨.ok, [pageCode pg] ++ longBytes r.revision ++ natWord r.list.length
              ++ wordBytes limit⟩)

def execSnapshotBegin (p : Port) (tag : Byte) (page : Byte) (s : State) :
    Host.Outcome State Fault Refusal :=
  .next (s.request p tag (snapshotBegin p (some page)))

/-- The headers of the strokes of these serials. -/
def headersOf (s : State) (serials : List Serial) : List Byte :=
  serials.flatMap fun serial =>
    match s.stroke? serial with
    | none => []
    | some e => headerBytes e

/-- SNAPSHOT_LIST (R104): the offset, then the count. -/
def snapshotList (p : Port) (fields : Option (Word × Byte)) (s : State) : State × Option Reply :=
  if ¬ (s.permissions p).view then s.refuse .denied
  else
    match s.snapshot p with
    | none => s.refuse .noSnapshot
    | some (.broken _) => s.refuse .snapshotBroken
    | some (.active a) =>
      match fields with
      | none => s.refuse .range
      | some (offset, count) =>
        if count = 0 ∨ Config.maxHeaders < count.toNat then s.refuse .range
        else
          let list := (s.page a.page).list
          let piece := (list.drop offset.toNat).take count.toNat
          s.report ([pageCode a.page] ++ longBytes a.frozen ++ natWord list.length
            ++ wordBytes offset ++ natByte piece.length ++ headersOf s piece)

def execSnapshotList (p : Port) (tag : Byte) (offset : Word) (count : Byte) (s : State) :
    Host.Outcome State Fault Refusal :=
  .next (s.request p tag (snapshotList p (some (offset, count))))

/-- A normal end (R106): the page leaves the resync set, then the items are applied, the page freed
and the record cleared. -/
def State.endSnapshot (s : State) (p : Port) (a : ActiveSnapshot) : State :=
  let r := s.ring p
  let s1 := s.setRing p { r with resync := maskDrop r.resync a.page.val }
  s1.applyHeld p a none

/-- SNAPSHOT_END (R106); `empty` says that the payload is, as it has no fields. -/
def snapshotEnd (p : Port) (empty : Bool) (s : State) : State × Option Reply :=
  if ¬ (s.permissions p).view then s.refuse .denied
  else if ¬ empty then s.refuse .range
  else
    match s.snapshot p with
    | none => s.refuse .noSnapshot
    | some (.broken pg) => (s.setSnapshot p none, some ⟨.snapshotBroken, [pageCode pg]⟩)
    | some (.active a) =>
      let s1 := s.endSnapshot p a
      (s1, some ⟨.ok, [pageCode a.page] ++ longBytes a.frozen ++ longBytes (s1.page a.page).revision
        ++ natByte a.hold.length⟩)

def execSnapshotEnd (p : Port) (tag : Byte) (s : State) : Host.Outcome State Fault Refusal :=
  .next (s.request p tag (snapshotEnd p true))

/-- The limit timer of the port's ACTIVE record expires, once it has reached its interval: the
snapshot breaks (R108, R162; log 3). -/
def State.expireSnapLimit (s : State) (p : Port) : State :=
  match s.snapshot p with
  | none => s
  | some (.broken _) => s
  | some (.active a) =>
    if s.phase = .running ∧ timerDue s.deviceTime a.timer then s.breakSnapshot p a else s

def execSnapLimitExpiry (p : Port) (s : State) : Host.Outcome State Fault Refusal :=
  .next (s.expireSnapLimit p)

end Sys2Proof.Machine
end

