-- ==== Sys2Proof/Machine/Rings.lean ====
section
/-! DEFINITION. The requests on a ring and on the live slots: SUBSCRIBE (R120), FETCH_NOTICES (R121),
ACK_NOTICES (R122), RING_STATUS (R124), LIVE_FETCH (R136, R137), LIVE_MUTE (R139). -/

namespace Sys2Proof.Machine

/-! ## The ring -/

/-- SUBSCRIBE (R120): the page mask, then the kind mask. -/
def subscribe (p : Port) (masks : Option (Word × Byte)) (s : State) : State × Option Reply :=
  if ¬ (s.permissions p).view then s.refuse .denied
  else
    match masks, kindMaskOf (masks.map (·.2)) with
    | some (pageMask, _), some kindMask =>
      (s.setRing p { s.ring p with pageMask, kindMask }, some ⟨.ok, wordBytes pageMask ++ [kindMask]⟩)
    | some _, none => s.refuse .range
    | none, _ => s.refuse .range

def execSubscribe (p : Port) (tag : Byte) (pageMask : Word) (kindMask : Byte) (s : State) :
    Host.Outcome State Fault Refusal :=
  .next (s.request p tag (subscribe p (some (pageMask, kindMask))))

/-- The first `n` notices of a ring from the get index, oldest first, with their ring indices. -/
def ringNotices (r : Ring) (n : Nat) : List (BitVec 5 × Notice) :=
  (List.range n).filterMap fun k =>
    let index := r.get + BitVec.ofNat 5 k
    (look r.slots index.toFin).map fun notice => (index, notice)

/-- FETCH_NOTICES (R121). -/
def fetchNotices (p : Port) (count : Option Byte) (s : State) : State × Option Reply :=
  match count with
  | none => s.refuse .range
  | some count =>
    if count = 0 ∨ Config.maxFetch < count.toNat then s.refuse .range
    else
      let r := s.ring p
      let n := min r.fill count.toNat
      s.report (natByte r.fill ++ wordBytes r.resync ++ natByte n
        ++ (ringNotices r n).flatMap fun (index, notice) => noticeBytes index notice)

def execFetchNotices (p : Port) (tag : Byte) (count : Byte) (s : State) :
    Host.Outcome State Fault Refusal :=
  .next (s.request p tag (fetchNotices p (some count)))

/-- How many notices an acknowledgement up to this index retires: index less get index, modulo 32,
plus one (R122). -/
def retiredBy (r : Ring) (index : BitVec 5) : Nat := (index - r.get).toNat + 1

/-- The index names a slot of the filled span (R113, R122). -/
def inFilledSpan (r : Ring) (index : BitVec 5) : Bool := decide ((index - r.get).toNat < r.fill)

/-- `n` slots emptied from index `i` upward, modulo 32. -/
def emptySlots (slots : Vector (Option Notice) 32) (i : BitVec 5) : Nat → Vector (Option Notice) 32
  | 0 => slots
  | n + 1 => emptySlots (put slots i.toFin none) (i + 1) n

/-- A ring with its notices retired up to this index (R122). -/
def ringRetire (r : Ring) (index : BitVec 5) : Ring :=
  let n := retiredBy r index
  { r with slots := emptySlots r.slots r.get n, get := index + 1, fill := r.fill - n }

/-- ACK_NOTICES (R122). -/
def ackNotices (p : Port) (index : Option Byte) (s : State) : State × Option Reply :=
  match index with
  | none => s.refuse .range
  | some b =>
    let r := s.ring p
    let index : BitVec 5 := b.truncate 5
    if 31 < b.toNat then s.refuse .range
    else if ¬ inFilledSpan r index then s.refuse .range
    else
      let r' := ringRetire r index
      (s.setRing p r',
        some ⟨.ok, [r'.get.zeroExtend 8] ++ natByte (retiredBy r index) ++ natByte r'.fill⟩)

def execAckNotices (p : Port) (tag : Byte) (index : Byte) (s : State) :
    Host.Outcome State Fault Refusal :=
  .next (s.request p tag (ackNotices p (some index)))

/-- RING_STATUS (R124). -/
def ringStatus (p : Port) (empty : Bool) (s : State) : State × Option Reply :=
  if ¬ empty then s.refuse .range
  else
    let r := s.ring p
    s.report (natByte r.fill ++ [r.get.zeroExtend 8, r.put.zeroExtend 8] ++ wordBytes r.resync
      ++ [(s.link p).threshold])

def execRingStatus (p : Port) (tag : Byte) (s : State) : Host.Outcome State Fault Refusal :=
  .next (s.request p tag (ringStatus p true))

/-! ## Live ink -/

/-- The pen whose pending slot LIVE_FETCH chooses: the lowest priority value, and between equal ones
the lower pen number (R136). -/
def chosenPen (s : State) (p : Port) : Option Pen :=
  (allPens.filter fun pen => slotPending (look (s.livePort p).slots pen)).foldl
    (fun best pen =>
      match best with
      | none => some pen
      | some b =>
        if (s.penSettings pen).tuning.priority.toNat < (s.penSettings b).tuning.priority.toNat then
          some pen
        else some b) none

/-- How many points a LIVE_FETCH gives from a slot (R137). -/
def fetchedPoints (f : Follow) : Nat := min (f.available - f.next) Config.maxLivePoints

/-- The outcome is carried with the last points, or alone (R137). -/
def fetchedOutcome (f : Follow) : Option StrokeOutcome :=
  if f.next + fetchedPoints f = f.available then f.outcome else none

/-- The slot after the fetch (R137). -/
def slotFetched (f : Follow) : Option Follow :=
  match fetchedOutcome f with
  | some _ => none
  | none => some { f with next := f.next + fetchedPoints f, skipped := false }

/-- `n` points of the stroke that a slot follows, from its next index. -/
def livePoints (s : State) (f : Follow) (n : Nat) : List Point :=
  match s.stroke? f.serial with
  | none => []
  | some e => pointsFrom s.pool e f.next n

/-- The answer of a LIVE_FETCH that has chosen a slot, with the count of the port's slots pending
after it (R137, R171). -/
def liveBytes (s : State) (pen : Pen) (f : Follow) (pending : Nat) : List Byte :=
  let k := fetchedPoints f
  [penCode pen] ++ longBytes f.serial ++ [pageCode f.page, f.colour, f.width]
    ++ serialBytes f.predecessor ++ natWord f.next ++ natByte k
    ++ [outcomeCode (fetchedOutcome f), flagByte f.skipped] ++ natByte pending
    ++ (livePoints s f k).flatMap pointBytes

/-- LIVE_FETCH (R136, R137). -/
def liveFetch (p : Port) (empty : Bool) (s : State) : State × Option Reply :=
  if ¬ (s.permissions p).view then s.refuse .denied
  else if ¬ empty then s.refuse .range
  else
    match chosenPen s p with
    | none => s.report []
    | some pen =>
      match look (s.livePort p).slots pen with
      | none => s.report []
      | some f =>
        let s1 := s.setLivePort p ((s.livePort p).mapSlot pen fun _ => slotFetched f)
        s1.report (liveBytes s pen f (pendingSlots (s1.livePort p)))

def execLiveFetch (p : Port) (tag : Byte) (s : State) : Host.Outcome State Fault Refusal :=
  .next (s.request p tag (liveFetch p true))

/-- The slots of the pens in a mask emptied. -/
def LivePort.emptySlots (l : LivePort) (mask : Byte) : LivePort :=
  allPens.foldl (fun l pen => if maskHas mask pen.val then l.mapSlot pen fun _ => none else l) l

/-- LIVE_MUTE (R139): the slots of newly muted pens are emptied, then the mask takes its value. -/
def liveMute (p : Port) (mask : Option Byte) (s : State) : State × Option Reply :=
  if ¬ (s.permissions p).view then s.refuse .denied
  else
    match mask with
    | none => s.refuse .range
    | some mask =>
      let l := s.livePort p
      (s.setLivePort p { l.emptySlots (mask &&& ~~~ l.mute) with mute := mask }, some ⟨.ok, [mask]⟩)

def execLiveMute (p : Port) (tag : Byte) (mask : Byte) (s : State) :
    Host.Outcome State Fault Refusal :=
  .next (s.request p tag (liveMute p (some mask)))

end Sys2Proof.Machine
end

