-- ==== Sys2Proof/Machine/Ports.lean ====
section
/-! DEFINITION. The port link's own requests: PORT_STATUS (R155), SET_ATTENTION (R153), CLEAR_FLAGS
(R154), DETACH (R156). -/

namespace Sys2Proof.Machine

/-! ## Status, attention and flags -/

/-- PORT_STATUS (R155, R171), as things stand when the request is taken. -/
def portStatus (named : Option Byte) (s : State) : State × Option Reply :=
  match portOf named with
  | none => s.refuse .range
  | some q =>
    let l := s.link q
    s.report
      ([linkStateCode l.state, tagInWork l.state, flagSetByte l, permissionsByte (s.permissions q)]
        ++ wordBytes (s.ring q).pageMask
        ++ [(s.ring q).kindMask, (s.livePort q).mute, l.attentionMask, l.threshold,
          s.conditionsHeld q, flagByte (s.attentionAsserted q)])

def execPortStatus (p : Port) (tag : Byte) (named : Byte) (s : State) :
    Host.Outcome State Fault Refusal :=
  .next (s.request p tag (portStatus (some named)))

/-- SET_ATTENTION (R153): the mask, then the threshold. -/
def setAttention (p : Port) (fields : Option (Byte × Byte)) (s : State) : State × Option Reply :=
  match fields, attentionMaskOf (fields.map (·.1)) with
  | some (_, sent), some attentionMask =>
    let threshold := thresholdIntoRange sent
    (s.setLink p { s.link p with attentionMask, threshold },
      some ⟨adjustedStatus (decide (threshold ≠ sent)), [attentionMask, threshold]⟩)
  | some _, none => s.refuse .range
  | none, _ => s.refuse .range

def execSetAttention (p : Port) (tag : Byte) (mask threshold : Byte) (s : State) :
    Host.Outcome State Fault Refusal :=
  .next (s.request p tag (setAttention p (some (mask, threshold))))

/-- CLEAR_FLAGS (R154). The three flags of the answer are sent as one flag set (log 16). -/
def clearFlags (p : Port) (flags : Option Byte) (s : State) : State × Option Reply :=
  match flagSetOf flags with
  | none => s.refuse .range
  | some set =>
    let l := (s.link p).clearFlags set
    (s.setLink p l, some ⟨.ok, [flagSetByte l]⟩)

def execClearFlags (p : Port) (tag : Byte) (flags : Byte) (s : State) :
    Host.Outcome State Fault Refusal :=
  .next (s.request p tag (clearFlags p (some flags)))

/-! ## DETACH -/

/-- An occupant whose scan, where `p` asked for it, wants no answer. -/
def Occupant.unwanted (p : Port) : Occupant → Occupant
  | .none => .none
  | .snapshot q => .snapshot q
  | .scan r => .scan (if r.requester = p then { r with wanted := false } else r)

/-- Every request of the port that is in work is left with no answer wanted (R147, R156): short
requests, region scans, the save in flight. -/
def State.unwantAnswers (s : State) (p : Port) : State :=
  let l := s.link p
  let s1 := s.setLink p { l with forming := l.forming.map fun f => { f with wanted := false } }
  let s2 := allPages.foldl (fun s pg => s.setOccupant pg ((s.page pg).occupant.unwanted p)) s1
  s2.setSave (s2.save.map fun v => if v.requester = p then { v with wanted := false } else v)

/-- The pens bound to a port have their activity ended, lowest pen first (R156, step 2; log 18). -/
def State.endBoundPens (s : State) (p : Port) : State :=
  allPens.foldl
    (fun s pen => if (s.penSettings pen).binding = some p then s.endPen pen .detached else s) s

/-- The DETACH of a port, in the order of R156. The answer is made ready in the same arrival
(log 11). -/
def State.detach (s : State) (p : Port) (tag : Byte) : State :=
  let s1 := (s.unwantAnswers p).releaseSnapshot p
  let s2 := s1.endBoundPens p
  let s3 := s2.setRing p ringDefault
  let s4 := s3.setLivePort p livePortDefault
  let s5 := s4.setLink p (s4.link p).attentionDefaults
  s5.answerReady p ⟨.ok, tag, []⟩

/-- DETACH admitted in IDLE; `empty` says that the payload is, as it has no fields. -/
def detachRequest (p : Port) (tag : Byte) (empty : Bool) (s : State) : State × Option Reply :=
  if ¬ empty then s.refuse .range else (s.detach p tag, none)

/-- DETACH taken in WORKING, by the exception of R145, case 3. -/
def State.detachWhileWorking (s : State) (p : Port) (tag : Byte) : State :=
  match s.phase, (s.link p).state with
  | .running, .working _ => s.detach p tag
  | _, _ => s

def execDetach (p : Port) (tag : Byte) (s : State) : Host.Outcome State Fault Refusal :=
  match (s.link p).state with
  | .idle => .next (s.request p tag (detachRequest p tag true))
  | .working _ => .next (s.detachWhileWorking p tag)
  | .answerReady _ => .next s

end Sys2Proof.Machine
end

