-- ==== Sys2Proof/Machine/Settings.lean ====
section
/-! DEFINITION. The settings store's commands and the reset of the device: DEVICE_INFO (R167),
SET_PERMISSIONS (R150, R151), SAVE_SETTINGS and SAVE_COMPLETE (R164), DEVICE_RESET (R157). -/

namespace Sys2Proof.Machine

/-- DEVICE_INFO (R167, R171); `empty` says that the payload is, as it has no fields. -/
def deviceInfo (empty : Bool) (s : State) : State × Option Reply :=
  if ¬ empty then s.refuse .range
  else
    s.report
      (wordBytes Config.partCode ++ [Config.revisionCode, 4, 8, 16] ++ natWord Config.strokeEntries
        ++ natWord Config.pointBlocks ++ natByte Config.pointsPerBlock
        ++ natWord s.pool.free.length ++ natWord s.strokes.freeCount
        ++ [indicatorCode s.indicator, flagByte s.save.isSome] ++ longBytes s.deviceTime)

def execDeviceInfo (p : Port) (tag : Byte) (s : State) : Host.Outcome State Fault Refusal :=
  .next (s.request p tag (deviceInfo true))

/-! ## SET_PERMISSIONS -/

/-- Some port holds ROOM (R150, R160). -/
def Mirror.someRoom (m : Mirror) : Bool := allPorts.any fun p => (look m.permissions p).room

/-- What the removal of VIEW does to a port (R151, step 1). -/
def State.viewRemoved (s : State) (q : Port) : State :=
  let s1 := s.releaseSnapshot q
  let s2 := s1.setRing q { s1.ring q with pageMask := 0, kindMask := 0 }
  s2.setLivePort q ((s2.livePort q).emptySlots 0xFF)

/-- SET_PERMISSIONS (R150, R151): the port named, then the set. -/
def setPermissions (p : Port) (fields : Option (Byte × Byte)) (s : State) : State × Option Reply :=
  if ¬ (s.permissions p).room then s.refuse .denied
  else
    match portOf (fields.map (·.1)), permissionsOf (fields.map (·.2)) with
    | some q, some set =>
      let s1 := s.setPermissions q set
      if ¬ s1.mirror.someRoom then s.refuse .lastRoom
      else
        let s2 := if (s.permissions q).view ∧ ¬ set.view then s1.viewRemoved q else s1
        (s2, some ⟨.ok, [portCode q, permissionsByte (s2.permissions q)]⟩)
    | some _, none => s.refuse .range
    | none, _ => s.refuse .range

def execSetPermissions (p : Port) (tag : Byte) (named permissions : Byte) (s : State) :
    Host.Outcome State Fault Refusal :=
  .next (s.request p tag (setPermissions p (some (named, permissions))))

/-! ## SAVE_SETTINGS -/

/-- The taking of a save (R164): the frozen copy and its check word, and the image with its check
word area erased (log 9). -/
def State.beginSave (s : State) (p : Port) (tag : Byte) : State :=
  let save : Save :=
    { requester := p, tag, wanted := true, frozen := s.mirror, check := mirrorCheckWord s.mirror
      before := s.image }
  (s.setSave (some save)).setImage (eraseCheckWord s.image)

/-- SAVE_SETTINGS (R164); a taken request has no answer before the save completes. -/
def saveSettings (p : Port) (tag : Byte) (empty : Bool) (s : State) : State × Option Reply :=
  if ¬ (s.permissions p).room then s.refuse .denied
  else if ¬ empty then s.refuse .range
  else if s.save.isSome then s.refuse .busy
  else (s.beginSave p tag, none)

def execSaveSettings (p : Port) (tag : Byte) (s : State) : Host.Outcome State Fault Refusal :=
  .next (s.request p tag (saveSettings p tag true))

/-- The completion of the save in flight (R164, R172). -/
def State.completeSave (s : State) (v : Save) : State :=
  ((s.setSave none).setImage (imageOfMirror v.frozen)).deliver v.requester v.wanted
    ⟨.ok, v.tag, wordBytes v.check⟩

/-- SAVE_COMPLETE; without a save in flight there is no completion (log 23). -/
def execSaveComplete (s : State) : Host.Outcome State Fault Refusal :=
  match s.phase, s.save with
  | .running, some v => .next (s.completeSave v)
  | _, _ => .next s

/-! ## DEVICE_RESET -/

/-- A frame in progress on another port when a DEVICE_RESET is taken (R158). -/
def Frame.cutByReset (f : Frame) : Frame := { f with course := .cutByDeviceReset }

/-- A link after a DEVICE_RESET taken on port `r` (R157, the bullets on links). -/
def Link.afterReset (r p : Port) (l : Link) : Link :=
  let l1 := { l.attentionDefaults with restarted := true }
  if p = r then l1
  else
    { l1 with
      state := .idle, lastTag := 0, forming := [], frame := l1.frame.map Frame.cutByReset }

/-- The blocks other than the links and the settings store, as DEVICE_RESET, power-on and the RESET
pin leave them (R21, R62, R65, R77, R100, R111, R113, R128, R129, R140). -/
def State.resetBlocks (s : State) : State :=
  { s with
    channels := Vector.replicate 8 channelDefault
    strokes := strokeTableDefault
    pool := poolDefault
    pages := Vector.replicate 16 pageDefault
    snapshots := Vector.replicate 4 none
    rings := Vector.replicate 4 ringDefault
    live := Vector.replicate 4 livePortDefault }

/-- A DEVICE_RESET taken on port `r` (R157). The answer is made ready in the same arrival
(log 11). -/
def State.deviceReset (s : State) (r : Port) (tag : Byte) : State :=
  let s1 := s.resetBlocks
  let s2 := s1.setLinks (each4 (Link.afterReset r) s1.links)
  s2.answerReady r ⟨.ok, tag, []⟩

/-- DEVICE_RESET (R157); `empty` says that the payload is, as it has no fields. -/
def deviceResetRequest (p : Port) (tag : Byte) (empty : Bool) (s : State) : State × Option Reply :=
  if ¬ (s.permissions p).room then s.refuse .denied
  else if ¬ empty then s.refuse .range
  else if s.save.isSome then s.refuse .busy
  else (s.deviceReset p tag, none)

def execDeviceReset (p : Port) (tag : Byte) (s : State) : Host.Outcome State Fault Refusal :=
  .next (s.request p tag (deviceResetRequest p tag true))

end Sys2Proof.Machine
end

