-- ==== Sys2Proof/Machine/Start.lean ====
section
/-! DEFINITION. Power, the RESET pin and start-up: POWER_ON, RESET_PIN, SETTINGS_LOAD_COMPLETE (R161),
POWER_LOSS (R166). -/

namespace Sys2Proof.Machine

/-! ## The image at an interrupted save -/

/-- The image that a save leaves when it ends at this point (R164, R166; log 8). -/
def cutImage (v : Save) : SavePoint → List Byte
  | .beforeErase => v.before
  | .writing k =>
    (imageBodyBytes v.frozen).take k ++ (v.before.take Config.imageBody).drop k ++ [0xFF, 0xFF]
  | .written => imageOfMirror v.frozen

/-- The image once the writing, if a save is in flight, has ended at this point. -/
def State.imageLeft (s : State) (reached : SavePoint) : List Byte :=
  match s.save with
  | none => s.image
  | some v => cutImage v reached

/-! ## Leaving and entering -/

/-- Every block at its power-on values and device time 0 (R161), no save in flight (R166), and this
link record on every port as given by its old one. The mirror and the load indicator stand as they
were until the load (log 6). -/
def State.powerUpValues (s : State) (phase : Phase) (reached : SavePoint) (link : Port → Link → Link) :
    State :=
  { s.resetBlocks with
    phase
    deviceTime := 0
    links := each4 link s.links
    image := s.imageLeft reached
    save := none }

/-- POWER_ON (R161). Of a part that has power it is a loss of power and a power-on (log 7). -/
def execPowerOn (reached : SavePoint) (s : State) : Host.Outcome State Fault Refusal :=
  .next (s.powerUpValues .starting reached fun _ _ => linkDefault)

/-- The course of a frame in progress at the RESET pin. One begun in STARTING goes on showing
NOT_READY and fill (R142, R161), and one cut by a DEVICE_RESET its fill (R158); of one begun in
RUNNING the manual does not say what is shifted out from then on (log 21). -/
def FrameCourse.atResetPin (seed : Nat) : FrameCourse → FrameCourse
  | .ordinary => .cutByResetPin seed
  | .starting => .starting
  | .cutByDeviceReset => .cutByDeviceReset
  | .cutByResetPin _ => .cutByResetPin seed

/-- A link at the RESET pin: the power-on values, and a frame in progress goes on. -/
def Link.atResetPin (seed : Nat) (l : Link) : Link :=
  { linkDefault with frame := l.frame.map fun f => { f with course := f.course.atResetPin seed } }

/-- RESET_PIN (R161, R166); it has no effect on a part without power. -/
def execResetPin (reached : SavePoint) (s : State) : Host.Outcome State Fault Refusal :=
  match s.phase with
  | .off => .next s
  | _ =>
    .next
      { s.powerUpValues .starting reached (fun _ => Link.atResetPin s.freeCount) with
        freeCount := s.freeCount + 1 }

/-- POWER_LOSS (R166; log 7). -/
def execPowerLoss (reached : SavePoint) (s : State) : Host.Outcome State Fault Refusal :=
  .next (s.powerUpValues .off reached fun _ _ => linkDefault)

/-! ## The load -/

/-- The mirror and the load indicator that the load of this image gives (R160, R161, R163). -/
def loadedSettings (image : List Byte) : Mirror × LoadIndicator :=
  if imageAccepted image then (mirrorOfImage image, .loaded) else (factoryMirror, .defaulted)

/-- The entry to RUNNING with the mirror filled (R161). -/
def State.enterRunning (s : State) : State :=
  let settings := loadedSettings s.image
  { s with
    phase := .running
    mirror := settings.1
    indicator := settings.2
    links := each4 (fun _ l => { l with restarted := true }) s.links }

/-- SETTINGS_LOAD_COMPLETE; a load is in progress in STARTING only (log 23). -/
def execSettingsLoadComplete (s : State) : Host.Outcome State Fault Refusal :=
  match s.phase with
  | .starting => .next s.enterRunning
  | .off => .next s
  | .running => .next s

end Sys2Proof.Machine
end

