-- ==== Sys2Proof/Machine/Frames.lean ====
section
/-! DEFINITION. The frames of a port: SELECT_FALL (R142, R161), the bytes that a frame shifts out,
SELECT_RISE (R143 to R146, R158, R161, R173) with the payloads of R169, ANSWER_MADE_READY (R146,
R147). -/

namespace Sys2Proof.Machine

/-! ## Select fall -/

/-- A header in place of an answer: its status, this tag, payload length 0 and a check byte. -/
def headerFrame (status : Status) (tag : Byte) (course : FrameCourse) : Frame :=
  { content := frameBytes status tag [], showsAnswer := false, course }

/-- The frame that a select fall begins in RUNNING (R142). -/
def Link.runningFrame (l : Link) : Frame :=
  match l.state with
  | .answerReady a => { content := answerBytes a, showsAnswer := true, course := .ordinary }
  | .working tag => headerFrame .pending tag .ordinary
  | .idle => headerFrame .idle l.lastTag .ordinary

/-- SELECT_FALL. Without power, or with select low already, nothing changes (log 7, 23). -/
def execSelectFall (p : Port) (s : State) : Host.Outcome State Fault Refusal :=
  match s.phase, (s.link p).frame with
  | .off, _ => .next s
  | _, some _ => .next s
  | .starting, none => .next (s.setLink p
      { s.link p with frame := some (headerFrame .notReady 0 .starting) })
  | .running, none => .next (s.setLink p
      { s.link p with frame := some (s.link p).runningFrame })

/-- The byte at place `k` of a frame, where it is shifted out while the frame stands like this: the
content and then fill (R142); fill after a DEVICE_RESET from another port (R158); a free value after
the RESET pin (log 21). -/
def Frame.byteOut (f : Frame) (k : Nat) : Byte :=
  match f.course with
  | .ordinary => f.content.getD k 0xFF
  | .starting => f.content.getD k 0xFF
  | .cutByDeviceReset => 0xFF
  | .cutByResetPin seed => Config.freeFrameByte seed k

/-- Bit `n` of what a frame shifts out, counted from its select fall: the most significant bit of a
byte goes first (R168). -/
def Frame.bitOut (f : Frame) (n : Nat) : Bool := (f.byteOut (n / 8)).getLsbD (7 - n % 8)

/-- The level of DOUT after `falls` falling edges of the port's clock in the frame: the first bit
stands from the select fall and each falling edge brings the next (R173). With select high the pin
is not driven (section 11.6): none. -/
def State.dataOut (s : State) (p : Port) (falls : Nat) : Option Bool :=
  (s.link p).frame.map fun f => f.bitOut falls

/-- The bits that a master has sampled of a frame after `n` rising edges. -/
def Frame.bitsOut (f : Frame) (n : Nat) : List Bool := (List.range n).map f.bitOut

/-! ## The request of a frame (R144) -/

/-- What the bytes shifted in carry. -/
inductive Carried where
  | nothing
  | incomplete
  /-- a declared length above 300 -/
  | tooLong (tag : Byte)
  | whole (code tag : Byte) (payload : List Byte) (checkRight : Bool)
  deriving DecidableEq, Repr

/-- The request after its four header bytes. -/
def carriedAfterHeader (code tag l1 l0 : Byte) (rest : List Byte) : Carried :=
  let n := (wordOf l1 l0).toNat
  let payload := rest.take n
  if Config.maxPayload < n then .tooLong tag
  else
    match rest.drop n with
    | [] => .incomplete
    | check :: _ => .whole code tag payload (decide (check = checkByte ([code, tag, l1, l0] ++ payload)))

/-- R144. -/
def carriedBy (bytes : List Byte) : Carried :=
  match bytes with
  | [] => .nothing
  | code :: rest =>
    if code = 0xFF then .nothing
    else
      match rest with
      | tag :: l1 :: l0 :: rest => carriedAfterHeader code tag l1 l0 rest
      | _ => .incomplete

/-! ## Payloads (R169): the fields of a request, none where the length is another -/

def oneField (payload : List Byte) : Option Byte :=
  match payload with
  | [b] => some b
  | _ => none

def twoFields (payload : List Byte) : Option (Byte × Byte) :=
  match payload with
  | [a, b] => some (a, b)
  | _ => none

/-- The field of a two-byte payload after its first byte. -/
def secondField (payload : List Byte) : Option Byte := (twoFields payload).map (·.2)

/-- The first byte of a two-byte payload. -/
def firstOfTwo (payload : List Byte) : Option Byte := (twoFields payload).map (·.1)

def toolFields (payload : List Byte) : Option (Byte × Byte) :=
  match payload with
  | [_, colour, width] => some (colour, width)
  | _ => none

/-- The sample records, where the length matches the count. -/
def sampleFields (payload : List Byte) : Option (List Sample) :=
  match payload with
  | _ :: count :: records =>
    if records.length = 8 * count.toNat then sampleRecords records else none
  | _ => none

def calibrationFields (payload : List Byte) : Option Calibration :=
  match payload with
  | [_, x1, x0, y1, y0, a1, a0, b1, b0] =>
    some ⟨wordOf x1 x0, wordOf y1 y0, wordOf a1 a0, wordOf b1 b0⟩
  | _ => none

/-- The fourteen tuning values that stand from index 1 of a payload. -/
def tuningAt (payload : List Byte) : Tuning :=
  let value (k : Nat) := wordAt payload (1 + 2 * k)
  { pressOn := value 0, pressOff := value 1, downCount := value 2, upCount := value 3
    tapMin := value 4, tapMax := value 5, tapTol := value 6, minExtent := value 7
    minStep := value 8, maxGap := value 9, rejoin := value 10, rejoinDist := value 11
    silence := value 12, priority := value 13 }

/-- The two forms of SET_PEN_TUNING are told apart by length alone. -/
def tuningFields (payload : List Byte) : Option (Tuning × Option Word) :=
  if payload.length = 29 then some (tuningAt payload, none)
  else if payload.length = 31 then some (tuningAt payload, some (wordAt payload 29))
  else none

def readFields (payload : List Byte) : Option (Serial × Word) :=
  match payload with
  | [a, b, c, d, i1, i0] => some (longOf a b c d, wordOf i1 i0)
  | _ => none

def serialField (payload : List Byte) : Option Serial :=
  match payload with
  | [a, b, c, d] => some (longOf a b c d)
  | _ => none

def regionPage (payload : List Byte) : Option Byte :=
  if payload.length = 10 then payload.head? else none

def regionFields (payload : List Byte) : Option RegionFields :=
  match payload with
  | [_, a1, a0, b1, b0, c1, c0, d1, d0, mode] =>
    some ⟨wordOf a1 a0, wordOf b1 b0, wordOf c1 c0, wordOf d1 d0, mode⟩
  | _ => none

def wordThenByte (payload : List Byte) : Option (Word × Byte) :=
  match payload with
  | [a, b, c] => some (wordOf a b, c)
  | _ => none

/-- The request with this payload, run by its owning block (R146). -/
def runRequest (p : Port) (tag : Byte) (r : Request) (payload : List Byte) :
    State → State × Option Reply :=
  let empty := payload.isEmpty
  match r with
  | .submitSamples => submitSamples p payload.head? (sampleFields payload)
  | .setCalibration => setCalibration p payload.head? (calibrationFields payload)
  | .setPenTuning => setPenTuning p payload.head? (tuningFields payload)
  | .setPenTool => setPenTool p payload.head? (toolFields payload)
  | .setPenPage => setPenPage p payload.head? (secondField payload)
  | .bindPen => bindPen p (firstOfTwo payload) (secondField payload)
  | .penStatus => penStatus (oneField payload)
  | .readStroke => readStroke p (readFields payload)
  | .eraseStroke => eraseStroke p (serialField payload)
  | .undo => undo p (oneField payload)
  | .pageStatus => pageStatus (oneField payload)
  | .lockPage => setLock p (oneField payload) true
  | .unlockPage => setLock p (oneField payload) false
  | .clearPage => clearPage p (oneField payload)
  | .eraseRegion => eraseRegion p tag (regionPage payload) (regionFields payload)
  | .snapshotBegin => snapshotBegin p (oneField payload)
  | .snapshotList => snapshotList p (wordThenByte payload)
  | .snapshotEnd => snapshotEnd p empty
  | .subscribe => subscribe p (wordThenByte payload)
  | .fetchNotices => fetchNotices p (oneField payload)
  | .ackNotices => ackNotices p (oneField payload)
  | .ringStatus => ringStatus p empty
  | .liveFetch => liveFetch p empty
  | .liveMute => liveMute p (oneField payload)
  | .portStatus => portStatus (oneField payload)
  | .setAttention => setAttention p (twoFields payload)
  | .clearFlags => clearFlags p (oneField payload)
  | .detach => detachRequest p tag empty
  | .deviceInfo => deviceInfo empty
  | .setPermissions => setPermissions p (twoFields payload)
  | .saveSettings => saveSettings p tag empty
  | .deviceReset => deviceResetRequest p tag empty

/-! ## Select rise -/

/-- A request answered by the link itself, with no payload (R145, cases 4 to 6). -/
def State.linkAnswer (s : State) (p : Port) (status : Status) (tag : Byte) : State :=
  s.answerReady p ⟨status, tag, []⟩

/-- A whole request judged on an IDLE link (R145, cases 5 to 7). -/
def State.judgeWhole (s : State) (p : Port) (code tag : Byte) (payload : List Byte)
    (checkRight : Bool) : State :=
  if ¬ checkRight then s.linkAnswer p .checkFailed tag
  else
    match requestOf code with
    | none => s.linkAnswer p .unknownRequest tag
    | some r => s.request p tag (runRequest p tag r payload)

/-- A request with a complete frame on a link in WORKING: not taken, but for a DETACH of length 0
with a right check byte (R145, case 3). -/
def State.judgeWorking (s : State) (p : Port) (carried : Carried) : State :=
  match carried with
  | .nothing => s
  | .incomplete => s
  | .tooLong _ => s
  | .whole code tag payload checkRight =>
    if requestOf code = some .detach ∧ payload = [] ∧ checkRight then s.detachWhileWorking p tag else s

/-- The judgement of R145. -/
def State.judge (s : State) (p : Port) (carried : Carried) : State :=
  match carried with
  | .nothing => s
  | .incomplete => s.setLink p { s.link p with frameFault := true }
  | .tooLong tag =>
    match (s.link p).state with
    | .idle => s.linkAnswer p .length tag
    | .working _ => s.judgeWorking p (.tooLong tag)
    | .answerReady _ => s
  | .whole code tag payload checkRight =>
    match (s.link p).state with
    | .idle => s.judgeWhole p code tag payload checkRight
    | .working _ => s.judgeWorking p (.whole code tag payload checkRight)
    | .answerReady _ => s

/-- The pending answer consumed (R143). -/
def Link.consumed (l : Link) : Link :=
  match l.state with
  | .idle => l
  | .working _ => l
  | .answerReady a => { l with state := .idle, lastTag := a.tag }

/-- Whether a frame that shifted this many bytes has shifted out the whole of a pending answer,
check byte included (R143). -/
def Frame.consumes (f : Frame) (shifted : Nat) : Bool :=
  f.showsAnswer && decide (f.content.length ≤ shifted)

/-- An ordinary frame ends: consumption, then judgement (R143, R145). -/
def State.endFrame (s : State) (p : Port) (f : Frame) (bytes : List Byte) : State :=
  let l := { s.link p with frame := none }
  let s1 := s.setLink p (if f.consumes bytes.length then l.consumed else l)
  s1.judge p (carriedBy bytes)

/-- SELECT_RISE. A frame begun in STARTING, one that ends in STARTING and one cut by a reset have
their request discarded, with nothing else changed (R158, R161; log 21). Without a frame there is
nothing to end (log 23). -/
def execSelectRise (p : Port) (edges : List Bool) (s : State) : Host.Outcome State Fault Refusal :=
  match (s.link p).frame with
  | none => .next s
  | some f =>
    if s.phase = .running ∧ f.course = .ordinary then .next (s.endFrame p f (bytesOfBits edges))
    else .next (s.setLink p { s.link p with frame := none })

/-! ## Answers made ready -/

/-- The oldest answer formed on the port is made ready where it is wanted, and discarded where it is
not (R146, R147; log 10). -/
def State.makeReady (s : State) (p : Port) : State :=
  match (s.link p).forming with
  | [] => s
  | f :: rest => (s.setLink p { s.link p with forming := rest }).deliver p f.wanted f.answer

/-- ANSWER_MADE_READY; with no answer formed nothing changes (log 23). -/
def execAnswerMadeReady (p : Port) (s : State) : Host.Outcome State Fault Refusal :=
  match s.phase with
  | .running => .next (s.makeReady p)
  | .off => .next s
  | .starting => .next s

end Sys2Proof.Machine
end

