-- ==== Sys2Proof/Machine/Dispatch.lean ====
section
/-! DEFINITION. The meaning of each command, one arm a constructor. -/

namespace Sys2Proof.Machine

def exec (i : Instr) (s : State) : Host.Outcome State Fault Refusal :=
  match i with
  | .powerOn reached => Sys2Proof.Machine.execPowerOn reached s
  | .resetPin reached => Sys2Proof.Machine.execResetPin reached s
  | .powerLoss reached => Sys2Proof.Machine.execPowerLoss reached s
  | .settingsLoadComplete => Sys2Proof.Machine.execSettingsLoadComplete s
  | .selectFall port => Sys2Proof.Machine.execSelectFall port s
  | .selectRise port edges => Sys2Proof.Machine.execSelectRise port edges s
  | .submitSamples port tag pen samples => Sys2Proof.Machine.execSubmitSamples port tag pen samples s
  | .silenceExpiry pen => Sys2Proof.Machine.execSilenceExpiry pen s
  | .rejoinExpiry pen => Sys2Proof.Machine.execRejoinExpiry pen s
  | .setCalibration port tag pen values => Sys2Proof.Machine.execSetCalibration port tag pen values s
  | .setPenTuning port tag pen values snapLimit => Sys2Proof.Machine.execSetPenTuning port tag pen values snapLimit s
  | .setPenTool port tag pen colour width => Sys2Proof.Machine.execSetPenTool port tag pen colour width s
  | .setPenPage port tag pen page => Sys2Proof.Machine.execSetPenPage port tag pen page s
  | .bindPen port tag pen source => Sys2Proof.Machine.execBindPen port tag pen source s
  | .penStatus port tag pen => Sys2Proof.Machine.execPenStatus port tag pen s
  | .readStroke port tag serial start => Sys2Proof.Machine.execReadStroke port tag serial start s
  | .eraseStroke port tag serial => Sys2Proof.Machine.execEraseStroke port tag serial s
  | .undo port tag pen => Sys2Proof.Machine.execUndo port tag pen s
  | .pageStatus port tag page => Sys2Proof.Machine.execPageStatus port tag page s
  | .lockPage port tag page => Sys2Proof.Machine.execLockPage port tag page s
  | .unlockPage port tag page => Sys2Proof.Machine.execUnlockPage port tag page s
  | .clearPage port tag page => Sys2Proof.Machine.execClearPage port tag page s
  | .eraseRegion port tag page x0 y0 x1 y1 mode => Sys2Proof.Machine.execEraseRegion port tag page x0 y0 x1 y1 mode s
  | .scanVisit page => Sys2Proof.Machine.execScanVisit page s
  | .scanComplete page => Sys2Proof.Machine.execScanComplete page s
  | .snapshotBegin port tag page => Sys2Proof.Machine.execSnapshotBegin port tag page s
  | .snapshotList port tag offset count => Sys2Proof.Machine.execSnapshotList port tag offset count s
  | .snapshotEnd port tag => Sys2Proof.Machine.execSnapshotEnd port tag s
  | .snapLimitExpiry port => Sys2Proof.Machine.execSnapLimitExpiry port s
  | .subscribe port tag pageMask kindMask => Sys2Proof.Machine.execSubscribe port tag pageMask kindMask s
  | .fetchNotices port tag count => Sys2Proof.Machine.execFetchNotices port tag count s
  | .ackNotices port tag index => Sys2Proof.Machine.execAckNotices port tag index s
  | .ringStatus port tag => Sys2Proof.Machine.execRingStatus port tag s
  | .liveFetch port tag => Sys2Proof.Machine.execLiveFetch port tag s
  | .liveMute port tag mask => Sys2Proof.Machine.execLiveMute port tag mask s
  | .portStatus port tag named => Sys2Proof.Machine.execPortStatus port tag named s
  | .setAttention port tag mask threshold => Sys2Proof.Machine.execSetAttention port tag mask threshold s
  | .clearFlags port tag flags => Sys2Proof.Machine.execClearFlags port tag flags s
  | .detach port tag => Sys2Proof.Machine.execDetach port tag s
  | .deviceInfo port tag => Sys2Proof.Machine.execDeviceInfo port tag s
  | .setPermissions port tag named permissions => Sys2Proof.Machine.execSetPermissions port tag named permissions s
  | .saveSettings port tag => Sys2Proof.Machine.execSaveSettings port tag s
  | .saveComplete => Sys2Proof.Machine.execSaveComplete s
  | .deviceReset port tag => Sys2Proof.Machine.execDeviceReset port tag s
  | .answerMadeReady port => Sys2Proof.Machine.execAnswerMadeReady port s

end Sys2Proof.Machine
end

