-- ==== Sys2Proof/Machine/Wire.lean ====
section
/-! DEFINITION. The frame that a master clocks in for each request: the payloads of R169 and the
layout of R168, from the sender's side. -/

namespace Sys2Proof.Machine

/-- A request as it stands in a frame. -/
structure WireRequest where
  port : Port
  request : Request
  tag : Byte
  payload : List Byte
  deriving DecidableEq, Repr

/-- A sample record (R171). -/
def sampleBytes (x : Sample) : List Byte :=
  wordBytes x.xRaw ++ wordBytes x.yRaw ++ wordBytes x.pressure ++ [x.inRange, x.dt]

def snapLimitBytes : Option Word → List Byte
  | none => []
  | some w => wordBytes w

/-- The request that a command is, with its payload (R169); none for a command that is no request. -/
def wireRequest : Instr → Option WireRequest
  | .submitSamples p tag pen samples =>
    some ⟨p, .submitSamples, tag,
      [pen] ++ natByte samples.length ++ samples.flatMap sampleBytes⟩
  | .setCalibration p tag pen values =>
    some ⟨p, .setCalibration, tag, [pen] ++ calibrationBytes values⟩
  | .setPenTuning p tag pen values snapLimit =>
    some ⟨p, .setPenTuning, tag, [pen] ++ tuningBytes values ++ snapLimitBytes snapLimit⟩
  | .setPenTool p tag pen colour width => some ⟨p, .setPenTool, tag, [pen, colour, width]⟩
  | .setPenPage p tag pen page => some ⟨p, .setPenPage, tag, [pen, page]⟩
  | .bindPen p tag pen source => some ⟨p, .bindPen, tag, [pen, source]⟩
  | .penStatus p tag pen => some ⟨p, .penStatus, tag, [pen]⟩
  | .readStroke p tag serial start =>
    some ⟨p, .readStroke, tag, longBytes serial ++ wordBytes start⟩
  | .eraseStroke p tag serial => some ⟨p, .eraseStroke, tag, longBytes serial⟩
  | .undo p tag pen => some ⟨p, .undo, tag, [pen]⟩
  | .pageStatus p tag page => some ⟨p, .pageStatus, tag, [page]⟩
  | .lockPage p tag page => some ⟨p, .lockPage, tag, [page]⟩
  | .unlockPage p tag page => some ⟨p, .unlockPage, tag, [page]⟩
  | .clearPage p tag page => some ⟨p, .clearPage, tag, [page]⟩
  | .eraseRegion p tag page x0 y0 x1 y1 mode =>
    some ⟨p, .eraseRegion, tag,
      [page] ++ wordBytes x0 ++ wordBytes y0 ++ wordBytes x1 ++ wordBytes y1 ++ [mode]⟩
  | .snapshotBegin p tag page => some ⟨p, .snapshotBegin, tag, [page]⟩
  | .snapshotList p tag offset count =>
    some ⟨p, .snapshotList, tag, wordBytes offset ++ [count]⟩
  | .snapshotEnd p tag => some ⟨p, .snapshotEnd, tag, []⟩
  | .subscribe p tag pageMask kindMask =>
    some ⟨p, .subscribe, tag, wordBytes pageMask ++ [kindMask]⟩
  | .fetchNotices p tag count => some ⟨p, .fetchNotices, tag, [count]⟩
  | .ackNotices p tag index => some ⟨p, .ackNotices, tag, [index]⟩
  | .ringStatus p tag => some ⟨p, .ringStatus, tag, []⟩
  | .liveFetch p tag => some ⟨p, .liveFetch, tag, []⟩
  | .liveMute p tag mask => some ⟨p, .liveMute, tag, [mask]⟩
  | .portStatus p tag named => some ⟨p, .portStatus, tag, [named]⟩
  | .setAttention p tag mask threshold => some ⟨p, .setAttention, tag, [mask, threshold]⟩
  | .clearFlags p tag flags => some ⟨p, .clearFlags, tag, [flags]⟩
  | .detach p tag => some ⟨p, .detach, tag, []⟩
  | .deviceInfo p tag => some ⟨p, .deviceInfo, tag, []⟩
  | .setPermissions p tag named permissions =>
    some ⟨p, .setPermissions, tag, [named, permissions]⟩
  | .saveSettings p tag => some ⟨p, .saveSettings, tag, []⟩
  | .deviceReset p tag => some ⟨p, .deviceReset, tag, []⟩
  | .powerOn _ => none
  | .resetPin _ => none
  | .powerLoss _ => none
  | .settingsLoadComplete => none
  | .selectFall _ => none
  | .selectRise _ _ => none
  | .silenceExpiry _ => none
  | .rejoinExpiry _ => none
  | .scanVisit _ => none
  | .scanComplete _ => none
  | .snapLimitExpiry _ => none
  | .saveComplete => none
  | .answerMadeReady _ => none

/-- A request frame: code, tag, declared length, payload, check byte (R144, R168). -/
def requestFrame (code tag : Byte) (payload : List Byte) : List Byte :=
  let body := [code, tag] ++ natWord payload.length ++ payload
  body ++ [checkByte body]

/-- The bytes of a request's frame. -/
def WireRequest.bytes (w : WireRequest) : List Byte :=
  requestFrame (requestCode w.request) w.tag w.payload

end Sys2Proof.Machine
end

