-- ==== Sys2Proof/Safety.lean ====
section
/-! DEFINITION. What the claims are stated in: the conditions on the machine that the manual says hold
in every state, when a request is taken, and what an answer is. -/

namespace Sys2Proof

/-- The commands that act on strokes, pages and snapshots and, beside those, on their requester's link
alone. -/
def Instr.onStrokes : Instr → Bool
  | .submitSamples .. => true
  | .silenceExpiry _ => true
  | .rejoinExpiry _ => true
  | .eraseStroke .. => true
  | .undo .. => true
  | .clearPage .. => true
  | .eraseRegion .. => true
  | .scanVisit _ => true
  | .snapshotBegin .. => true
  | .snapshotEnd .. => true
  | .snapLimitExpiry _ => true
  | _ => false

end Sys2Proof

namespace Sys2Proof.Machine

/-! ## Conditions that every state keeps -/

/-- At least one port holds ROOM in every state after STARTING (R150). -/
def State.RoomHeld (s : State) : Prop := s.phase = .running → s.mirror.someRoom = true

/-- The fill count and the indices of a ring agree, and the filled slots are those of the filled span
(R113). -/
structure Ring.Agrees (r : Ring) : Prop where
  fill_le : r.fill ≤ 32
  put_eq : r.put = r.get + BitVec.ofNat 5 r.fill
  filled : ∀ k < 32, (look r.slots (r.get + BitVec.ofNat 5 k).toFin).isSome = decide (k < r.fill)

def State.RingsAgree (s : State) : Prop := ∀ p, (s.ring p).Agrees

/-- No two entries hold one serial, and every block is on the free-block list or in exactly one
chain (R40, R65). -/
structure State.BlocksKept (s : State) : Prop where
  serials : (s.strokes.entries.map Stroke.serial).Nodup
  blocks : (s.pool.free ++ s.strokes.entries.flatMap Stroke.chain).Perm
    (List.range Config.pointBlocks)

/-- The entries that are not FREE stand in rising entry number, each below 512 (R39). -/
structure State.EntriesInOrder (s : State) : Prop where
  rising : s.strokes.entries.Pairwise (fun a b => a.entry < b.entry)
  bounded : ∀ e ∈ s.strokes.entries, e.entry < Config.strokeEntries

/-- The pool's places are held in their one canonical form. -/
def State.PlacesCanonical (s : State) : Prop := Memory.wf s.pool.cells

/-- A hold list holds at most 16 items (R101). -/
def State.HoldsBounded (s : State) : Prop :=
  ∀ p a, s.snapshot p = some (.active a) → a.hold.length ≤ Config.holdItems

/-- A ring threshold is 1 to 32 (R141). -/
def State.ThresholdsInRange (s : State) : Prop :=
  ∀ p, 1 ≤ (s.link p).threshold.toNat ∧ (s.link p).threshold.toNat ≤ 32

/-- The settings of a pen are in the ranges of R33, with a colour of at most 15 and a width class of
at most 7. -/
structure PenSettings.InRange (v : PenSettings) : Prop where
  calibration : calibrationIntoRange v.calibration = v.calibration
  tuning : tuningIntoRange v.tuning = v.tuning
  colour : v.colour.toNat ≤ 15
  width : v.width.toNat ≤ 7

/-- Every value of the mirror is in its range (R33, R159, R160). -/
structure Mirror.InRange (m : Mirror) : Prop where
  pens : ∀ pen, (look m.pens pen).InRange
  snapLimit : snapLimitIntoRange m.snapLimit = m.snapLimit

def State.SettingsInRange (s : State) : Prop := s.mirror.InRange

/-! ## Requests and answers -/

/-- A request that comes in on port `p` is admitted: RUNNING, with the link IDLE (R145, case 7). -/
def State.Admits (s : State) (p : Port) : Prop := s.phase = .running ∧ (s.link p).state = .idle

/-- The state with a request of this tag admitted: the link is WORKING on it (R146). -/
def State.admitted (s : State) (p : Port) (tag : Byte) : State :=
  s.setLink p { s.link p with state := .working tag }

/-- The state with a short request answered and nothing else changed: the link is WORKING, and the
answer is formed and waits to be made ready (R146). -/
def State.answered (s : State) (p : Port) (tag : Byte) (status : Status) (payload : List Byte) :
    State :=
  (s.admitted p tag).formAnswer p ⟨status, tag, payload⟩

/-- A port may change a pen's tool and target page (R19), and its calibration and tuning (R35, R36). -/
def State.MayTool (s : State) (p : Port) (pen : Pen) : Prop :=
  (s.permissions p).edit = true ∨
    ((s.permissions p).ink = true ∧ (s.penSettings pen).binding = some p)

def State.MayTune (s : State) (p : Port) (pen : Pen) : Prop :=
  (s.permissions p).room = true ∨
    ((s.permissions p).ink = true ∧ (s.penSettings pen).binding = some p)

/-- A timer of this kind runs and has reached its interval (R162). -/
def State.Due (s : State) (t : Option Timer) : Prop :=
  ∃ x, t = some x ∧ x.interval.toNat ≤ (s.deviceTime - x.started).toNat

/-- No snapshot holds the page (R100). -/
def State.Unheld (s : State) (pg : Page) : Prop := ∀ q, (s.page pg).occupant ≠ .snapshot q

/-- What a command on strokes, channels or pages leaves alone: the phase and the time base, the
settings store, the model's counter and queue, and of each link all but its SNAP_BROKEN flag. -/
structure State.SameOutside (s t : State) : Prop where
  phase : t.phase = s.phase
  deviceTime : t.deviceTime = s.deviceTime
  mirror : t.mirror = s.mirror
  image : t.image = s.image
  indicator : t.indicator = s.indicator
  save : t.save = s.save
  freeCount : t.freeCount = s.freeCount
  pending : t.pending = s.pending
  links : ∀ p, { t.link p with snapBroken := false } = { s.link p with snapBroken := false }

/-- The same, where the command was admitted as a request and answered with this status and payload:
the state before the answer was formed. -/
def State.AnsweredWith (s : State) (p : Port) (tag : Byte) (status : Status) (payload : List Byte)
    (u t : State) : Prop :=
  (s.admitted p tag).SameOutside u ∧ t = u.formAnswer p ⟨status, tag, payload⟩

/-- What the page store's commands leave of every pen channel: all but its undo stack. -/
def State.SameChannels (s t : State) : Prop :=
  ∀ pen, { t.channel pen with undo := [] } = { s.channel pen with undo := [] }

/-! ## Payloads of another length (R146, R169) -/

/-- The length that R169 gives the request's payload. -/
def Request.LengthFits (r : Request) (payload : List Byte) : Prop :=
  match r with
  | .submitSamples => 2 ≤ payload.length ∧ payload.length = 2 + 8 * (payload.getD 1 0).toNat
  | .setCalibration => payload.length = 9
  | .setPenTuning => payload.length = 29 ∨ payload.length = 31
  | .setPenTool => payload.length = 3
  | .setPenPage => payload.length = 2
  | .bindPen => payload.length = 2
  | .penStatus => payload.length = 1
  | .readStroke => payload.length = 6
  | .eraseStroke => payload.length = 4
  | .undo => payload.length = 1
  | .pageStatus => payload.length = 1
  | .lockPage => payload.length = 1
  | .unlockPage => payload.length = 1
  | .clearPage => payload.length = 1
  | .eraseRegion => payload.length = 10
  | .snapshotBegin => payload.length = 1
  | .snapshotList => payload.length = 3
  | .snapshotEnd => payload.length = 0
  | .subscribe => payload.length = 3
  | .fetchNotices => payload.length = 1
  | .ackNotices => payload.length = 1
  | .ringStatus => payload.length = 0
  | .liveFetch => payload.length = 0
  | .liveMute => payload.length = 1
  | .portStatus => payload.length = 1
  | .setAttention => payload.length = 2
  | .clearFlags => payload.length = 1
  | .detach => payload.length = 0
  | .deviceInfo => payload.length = 0
  | .setPermissions => payload.length = 2
  | .saveSettings => payload.length = 0
  | .deviceReset => payload.length = 0

/-- The permission that lets a port send the request for any pen, page or port (R149). -/
def Request.permittedBy (r : Request) (set : Permissions) : Bool :=
  match r with
  | .submitSamples => set.ink
  | .setPenTool | .setPenPage | .eraseStroke | .undo | .clearPage | .eraseRegion => set.edit
  | .readStroke | .snapshotBegin | .snapshotList | .snapshotEnd | .subscribe | .liveFetch
  | .liveMute => set.view
  | .setCalibration | .setPenTuning | .bindPen | .lockPage | .unlockPage | .setPermissions
  | .saveSettings | .deviceReset => set.room
  | .penStatus | .pageStatus | .fetchNotices | .ackNotices | .ringStatus | .portStatus
  | .setAttention | .clearFlags | .detach | .deviceInfo => true

/-- The requests that INK too permits, for a pen bound to the port (R19, R35, R36). -/
def Request.onPenSettings (r : Request) : Bool :=
  match r with
  | .setCalibration | .setPenTuning | .setPenTool | .setPenPage => true
  | _ => false

/-- The checks that stand before the length test let the request through: its permission, the binding
of the pen that the payload names, and for SNAPSHOT_LIST an ACTIVE record (R146; log 12). -/
structure State.ReachesLengthTest (s : State) (p : Port) (r : Request) (payload : List Byte) : Prop where
  permission : r.permittedBy (s.permissions p) = true ∨
    (r.onPenSettings = true ∧ (s.permissions p).ink = true ∧
      ∀ pen, payload.head? = some (penCode pen) → (s.penSettings pen).binding = some p)
  source : r = .submitSamples →
    ∀ pen, payload.head? = some (penCode pen) → (s.penSettings pen).binding = some p
  record : r = .snapshotList → ∃ a, s.snapshot p = some (.active a)

/-- The permission test, which stands before the length test, turns the request away; where the pen
number is tested first, that number passes or is missing (R19, R35, R36, R146; log 12). -/
def State.LacksPermission (s : State) (p : Port) (r : Request) (payload : List Byte) : Prop :=
  r.permittedBy (s.permissions p) = false ∧
    (r.onPenSettings = true → (s.permissions p).ink = false ∧
      ∀ b, payload.head? = some b → b.toNat < 8)

/-! ## Removal, clearing, breaking -/

/-- The freeing of a stroke's entry (R56): `u` is `s` without it, and nothing else is different. -/
structure State.EntryFreed (s : State) (kind : Freeing) (e : Stroke) (u : State) : Prop where
  outside : s.SameOutside u
  links : u.links = s.links
  channel : u.channel e.pen =
    { s.channel e.pen with undo := (s.channel e.pen).undo.erase e.serial }
  channels : ∀ k, k ≠ e.pen → u.channel k = s.channel k
  gone : u.stroke? e.serial = none
  others : ∀ k, k ≠ e.serial → u.stroke? k = s.stroke? k
  counter : u.strokes.counter = s.strokes.counter
  blocks : u.pool.free = s.pool.free ++ e.chain
  places : u.pool.cells = s.pool.cells
  slot : ∀ p, look (u.livePort p).slots e.pen =
    slotFreed kind e.serial (look (s.livePort p).slots e.pen)
  slots : ∀ p k, k ≠ e.pen → look (u.livePort p).slots k = look (s.livePort p).slots k
  mutes : ∀ p, (u.livePort p).mute = (s.livePort p).mute
  pages : u.pages = s.pages
  snapshots : u.snapshots = s.snapshots
  rings : u.rings = s.rings

/-- The removal of a committed stroke (R83): off its page and off the visit list of a scan there, the
revision raised, one ERASE notice routed, its entry freed. -/
structure State.StrokeRemoved (s : State) (e : Stroke) (cause : EraseCause) (u : State) : Prop where
  list : (u.page e.page).list = (s.page e.page).list.erase e.serial
  revision : (u.page e.page).revision = nextRevision (s.page e.page).revision
  locked : (u.page e.page).locked = (s.page e.page).locked
  visits : ∀ r, (s.page e.page).occupant = .scan r →
    (u.page e.page).occupant = .scan { r with visits := r.visits.erase e.serial }
  occupant : (∀ r, (s.page e.page).occupant ≠ .scan r) →
    (u.page e.page).occupant = (s.page e.page).occupant
  freed : ((s.setPage e.page (u.page e.page)).route
    (.erase e.page e.serial cause (u.page e.page).revision)).EntryFreed .removed e u

/-- The strokes that stand on a page, bottom first. -/
def State.strokesOn (s : State) (pg : Page) : List Stroke :=
  (s.page pg).list.eraseDups.filterMap s.stroke?

/-- The clear of a page (R89): `u` is `s` without the strokes on it, and one CLEAR notice the more
where there was a stroke. -/
structure State.PageCleared (s : State) (pg : Page) (u : State) : Prop where
  empty : (s.page pg).list = [] → u = s
  page : (s.page pg).list ≠ [] →
    u.page pg = { s.page pg with list := [], revision := nextRevision (s.page pg).revision }
  rings : (s.page pg).list ≠ [] → u.rings = (s.route
    (.clear pg (s.page pg).list.length (nextRevision (s.page pg).revision))).rings
  pages : ∀ k, k ≠ pg → u.page k = s.page k
  strokes : ∀ serial, u.stroke? serial =
    if serial ∈ (s.page pg).list then none else s.stroke? serial
  counter : u.strokes.counter = s.strokes.counter
  blocks : u.pool.free = s.pool.free ++ (s.strokesOn pg).flatMap Stroke.chain
  places : u.pool.cells = s.pool.cells
  channels : ∀ pen, u.channel pen =
    { s.channel pen with
      undo := (((s.strokesOn pg).filter (·.pen = pen)).map Stroke.serial).foldl List.erase
        (s.channel pen).undo }
  live : ∀ p pen, look (u.livePort p).slots pen = (look (s.livePort p).slots pen).filter fun f =>
    !(s.strokesOn pg).any fun e => e.pen = pen && e.serial = f.serial
  mutes : ∀ p, (u.livePort p).mute = (s.livePort p).mute
  snapshots : u.snapshots = s.snapshots

/-- The held items of an ACTIVE snapshot applied one after another, from the first filed to the last
(R105). -/
def State.itemsApplied (s : State) (a : ActiveSnapshot) : State :=
  a.hold.foldl (State.applyItem a.page) s

/-- The same, then the page freed and this record left (R106, R107, R108, R110). -/
def State.snapshotOver (s : State) (owner : Port) (a : ActiveSnapshot)
    (record : Option SnapshotRecord) : State :=
  ((s.itemsApplied a).setPage a.page
    { (s.itemsApplied a).page a.page with occupant := .none }).setSnapshot owner record

/-! ## A port leaves (R147, R156, R21) -/

/-- `u` is `s` with no answer wanted for any request of the port in work: those formed, the region
scans that it asked for, and its save in flight (R147, R156). -/
structure State.AnswersUnwanted (s : State) (p : Port) (u : State) : Prop where
  others : { u with links := s.links, pages := s.pages, save := s.save } = s
  formed : u.link p =
    { s.link p with forming := (s.link p).forming.map fun f => { f with wanted := false } }
  links : ∀ q, q ≠ p → u.link q = s.link q
  scans : ∀ pg r, (s.page pg).occupant = .scan r → u.page pg =
    { s.page pg with
      occupant := .scan { r with wanted := r.wanted && decide (r.requester ≠ p) } }
  pages : ∀ pg, (∀ r, (s.page pg).occupant ≠ .scan r) → u.page pg = s.page pg
  save : u.save = s.save.map fun v =>
    { v with wanted := v.wanted && decide (v.requester ≠ p) }

/-- A pen's activity ended with this cause (R20 steps 2 to 4, R21): its stroke closed and classified,
its buffers emptied and its silence timer stopped, the pen AWAY with its notice. -/
def State.activityEnded (s : State) (pen : Pen) (cause : CloseCause) : State :=
  ((s.closeCurrent pen cause).setChannel pen
    { (s.closeCurrent pen cause).channel pen with
      down := [], lift := [], silence := none }).enterPen pen .away

/-! ## Values brought into range -/

/-- `v` is `w` brought to the nearer end of the range from `low` to `high` (R36). -/
structure Brought (low high : Nat) (w v : Word) : Prop where
  below : w.toNat < low → v.toNat = low
  above : high < w.toNat → v.toNat = high
  inside : low ≤ w.toNat → w.toNat ≤ high → v = w

/-- The same for a signed offset (R35). -/
structure BroughtOffset (w v : Word) : Prop where
  below : w.toInt < -2048 → v.toInt = -2048
  above : 2047 < w.toInt → v.toInt = 2047
  inside : -2048 ≤ w.toInt → w.toInt ≤ 2047 → v = w

end Sys2Proof.Machine
end

