-- ==== Sys2Proof/Certificates/Slice0/Obligations.lean ====
section
/-! DEFINITION. The statements about the part, for the provers. A docstring names the part of the
manual that a statement is about; "log n" marks a clause that is the model's own choice. -/

open Sys2Proof Sys2Proof.Machine

/-! ## The machine as a whole -/

/-- A step with a command at the front of the queue is that command on the state with the queue's
rest (log 1). -/
def Obligations.StepRunsTheFrontCommand : Prop :=
  ∀ (c : Instr) (s : State), step { s with pending := c :: s.pending } = exec c s

/-- With nothing waiting, a step is one millisecond of device time while the part has power, and
nothing without power (log 2). -/
def Obligations.EmptyQueueCountsDeviceTime : Prop :=
  ∀ s : State, s.pending = [] →
    (s.phase ≠ .off → step s = .next { s with deviceTime := s.deviceTime + 1 }) ∧
    (s.phase = .off → step s = .next s)

/-- Every command answers a next state, in every state, and leaves the queue alone. The queue is the
model's (log 1); that a command with no power, or for an event that cannot happen, and one in a state
that no run reaches, answers too is the model's choice (logs 7, 23, 26). -/
def Obligations.EveryCommandAnswersAndKeepsTheQueue : Prop :=
  ∀ (c : Instr) (s : State), ∃ t, exec c s = .next t ∧ t.pending = s.pending

/-- The state right after power-on has the values of the manual's tables (R1, R39, R65, R77, R100,
R113, R129, R141, R161). -/
def Obligations.ResetHoldsPowerOnValues : Prop :=
  State.reset.phase = .starting ∧ State.reset.deviceTime = 0 ∧ State.reset.save = none ∧
  (∀ p, (State.reset.link p).state = .idle ∧ (State.reset.link p).lastTag = 0 ∧
    (State.reset.link p).frameFault = false ∧ (State.reset.link p).snapBroken = false ∧
    (State.reset.link p).attentionMask = 0x11 ∧ (State.reset.link p).threshold = 1 ∧
    State.reset.attentionAsserted p = false) ∧
  (∀ pen, (State.reset.channel pen).state = .away ∧ (State.reset.channel pen).down = [] ∧
    (State.reset.channel pen).lift = [] ∧ (State.reset.channel pen).clock = 0 ∧
    (State.reset.channel pen).silence = none ∧ (State.reset.channel pen).rejoin = none ∧
    (State.reset.channel pen).position = none ∧ (State.reset.channel pen).target = 0 ∧
    (State.reset.channel pen).current = none ∧ (State.reset.channel pen).undo = []) ∧
  State.reset.strokes.entries = [] ∧ State.reset.strokes.counter = 1 ∧
  State.reset.pool.free = List.range 1536 ∧
  (∀ pg, (State.reset.page pg).list = [] ∧ (State.reset.page pg).revision = 0 ∧
    (State.reset.page pg).locked = false ∧ (State.reset.page pg).occupant = .none) ∧
  (∀ p, State.reset.snapshot p = none) ∧
  (∀ p, (∀ i, look (State.reset.ring p).slots i = none) ∧ (State.reset.ring p).get = 0 ∧
    (State.reset.ring p).put = 0 ∧ (State.reset.ring p).fill = 0 ∧
    (State.reset.ring p).pageMask = 0 ∧ (State.reset.ring p).kindMask = 0 ∧
    (State.reset.ring p).resync = 0) ∧
  (∀ p, (∀ pen, look (State.reset.livePort p).slots pen = none) ∧ (State.reset.livePort p).mute = 0)

/-! ## Conditions that every step keeps -/

/-- The conditions of Safety.lean hold right after power-on. The mirror before the load has the factory
settings (log 5), and the pool's places are listed in the model's canonical form (log 19). -/
def Obligations.ConditionsHoldAtReset : Prop :=
  State.reset.RoomHeld ∧ State.reset.RingsAgree ∧ State.reset.BlocksKept ∧
    State.reset.EntriesInOrder ∧ State.reset.PlacesCanonical ∧ State.reset.HoldsBounded ∧
    State.reset.ThresholdsInRange ∧ State.reset.SettingsInRange

/-- At least one port holds ROOM in every state after STARTING (R150), whatever the image. -/
def Obligations.SomePortAlwaysHoldsRoom : Prop :=
  ∀ s t : State, s.RoomHeld → step s = .next t → t.RoomHeld

/-- Every block of the pool is on the free-block list or in exactly one chain, and no two entries
hold one serial (R40, R65). -/
def Obligations.BlocksAndSerialsAreConserved : Prop :=
  ∀ s t : State, s.BlocksKept → step s = .next t → t.BlocksKept

/-- Fill count, indices and filled slots of every ring agree (R113). -/
def Obligations.RingsStayInAgreement : Prop :=
  ∀ s t : State, s.RingsAgree → step s = .next t → t.RingsAgree

/-- Hold lists have at most 16 items, ring thresholds are 1 to 32 and every setting is in its range (R33,
R101, R141); entry numbers are below 512 (R39). That the entries that are not FREE are listed by rising
entry number (log 25), and the pool's places in one canonical form (log 19), is the model's
representation. -/
def Obligations.OrderAndBoundsAreKept : Prop :=
  (∀ s t : State, s.EntriesInOrder → step s = .next t → t.EntriesInOrder) ∧
  (∀ s t : State, s.PlacesCanonical → step s = .next t → t.PlacesCanonical) ∧
  (∀ s t : State, s.HoldsBounded → step s = .next t → t.HoldsBounded) ∧
  (∀ s t : State, s.ThresholdsInRange → step s = .next t → t.ThresholdsInRange) ∧
  (∀ s t : State, s.SettingsInRange → step s = .next t → t.SettingsInRange)

/-- No step lowers a page's revision, but for one that puts every page back to its reset values
(R78). -/
def Obligations.RevisionsNeverFallButAtAReset : Prop :=
  ∀ s t : State, step s = .next t →
    (∀ pg, (s.page pg).revision.toNat ≤ (t.page pg).revision.toNat) ∨
    (∀ pg, t.page pg = pageDefault)

/-! ## Frames and the image -/

/-- The frame of a request, clocked in bit by bit and ended on a link that is IDLE after any
consumption, runs that request: every field of every request is read back as it was sent (R144, R145,
R168, R169, R173). That a request is run by its own command, at the select rise, is log 4. -/
def Obligations.RequestFramesRunTheirCommands : Prop :=
  ∀ (c : Instr) (w : WireRequest) (s : State) (f : Frame) (l : Link),
    wireRequest c = some w → c.wellFormed = true →
    s.phase = .running → (s.link w.port).frame = some f → f.course = .ordinary →
    l = (if f.consumes w.bytes.length then { s.link w.port with frame := none }.consumed
      else { s.link w.port with frame := none }) →
    l.state = .idle →
    exec (.selectRise w.port (bitsOfBytes w.bytes)) s = exec c (s.setLink w.port l)

/-- Bytes come back from their bits, and a byte cut short at the end does not count (R168, R173). Of a
frame in progress DOUT shows the bits of its bytes, most significant first: the first from the select
fall on, the next from each falling edge on; with select high it is not driven (R168, R173, section
11.6). -/
def Obligations.BytesSurviveTheWire : Prop :=
  (∀ (bytes : List Byte) (cut : List Bool), cut.length < 8 →
    bytesOfBits (bitsOfBytes bytes ++ cut) = bytes) ∧
  (∀ (f : Frame) (n i : Nat), i < 8 →
    f.bitOut (8 * n + i) = (f.byteOut n).getLsbD (7 - i)) ∧
  (∀ (f : Frame) (n : Nat), bytesOfBits (f.bitsOut (8 * n)) = (List.range n).map f.byteOut) ∧
  (∀ (s : State) (p : Port) (falls : Nat),
    ((s.link p).frame = none → s.dataOut p falls = none) ∧
    (∀ f, (s.link p).frame = some f → s.dataOut p falls = some (f.bitOut falls)))

/-- The image that a save writes is 320 bytes, loads back as the mirror that was saved, and is accepted
where some port holds ROOM in it (R160, R164, R172). -/
def Obligations.SavedImageLoadsBack : Prop :=
  ∀ m : Mirror, m.InRange → m.someRoom = true →
    (imageOfMirror m).length = 320 ∧ loadedSettings (imageOfMirror m) = (m, .loaded)

/-- A save interrupted between its erase and its check word leaves an image that no load accepts, and
no check word is 0xFFFF (R160, R166). -/
def Obligations.InterruptedSaveIsRejected : Prop :=
  (∀ bytes : List Byte, checkWord bytes ≠ 0xFFFF) ∧
  ∀ (v : Save) (k : Nat), v.before.length = 320 → k ≤ 318 →
    loadedSettings (cutImage v (.writing k)) = (factoryMirror, .defaulted)

/-! ## Power and start-up -/

/-- POWER_ON from any state, and RESET_PIN on a part with power, enter STARTING with device time 0 and
every block at its power-on values; POWER_LOSS leaves a part without power (log 7). The image stands,
but for a save that was cut: then it is the old one, the new one whole, or one with an erased check
word, as far as the save had come (R161, R166; the order of the bytes is log 8). The model's choices:
that mirror and indicator stand until the load (log 6), RESTARTED clear in STARTING (log 5), no frame
in progress at POWER_ON (log 21), blank places of the pool (log 19). -/
def Obligations.PowerAndResetPin : Prop :=
  ∀ (reached : SavePoint) (s : State),
    (∃ t, exec (.powerOn reached) s = .next t ∧ t.phase = .starting ∧ t.deviceTime = 0 ∧
      t.resetBlocks = t ∧ (∀ p, t.link p = linkDefault) ∧ t.save = none ∧
      t.image = s.imageLeft reached ∧ t.mirror = s.mirror ∧ t.indicator = s.indicator) ∧
    (s.phase ≠ .off →
      ∃ t, exec (.resetPin reached) s = .next t ∧ t.phase = .starting ∧ t.deviceTime = 0 ∧
        t.resetBlocks = t ∧ (∀ p, { t.link p with frame := none } = linkDefault) ∧
        t.save = none ∧ t.image = s.imageLeft reached ∧ t.mirror = s.mirror ∧
        t.indicator = s.indicator) ∧
    (∃ t, exec (.powerLoss reached) s = .next t ∧ t.phase = .off ∧ t.resetBlocks = t ∧
      t.save = none ∧ t.image = s.imageLeft reached) ∧
    (s.save = none → s.imageLeft reached = s.image) ∧
    (∀ v, s.save = some v →
      (reached = .beforeErase → s.imageLeft reached = v.before) ∧
      (reached = .written → s.imageLeft reached = imageOfMirror v.frozen) ∧
      (∀ k, reached = .writing k →
        s.imageLeft reached = (imageBodyBytes v.frozen).take k ++ (v.before.take 318).drop k
          ++ [0xFF, 0xFF]))

/-- The load completes: the mirror is filled from an accepted image or with the factory defaults, the
indicator says which, RESTARTED is set on every port, every line whose mask names RESTARTED is
asserted, and the rest stands (R161, R163). -/
def Obligations.LoadCompletesIntoRunning : Prop :=
  ∀ s : State, s.phase = .starting →
    ∃ t, exec .settingsLoadComplete s = .next t ∧ t.phase = .running ∧
      (imageAccepted s.image = true →
        t.mirror = mirrorOfImage s.image ∧ t.indicator = .loaded) ∧
      (imageAccepted s.image = false → t.mirror = factoryMirror ∧ t.indicator = .defaulted) ∧
      (∀ p, t.link p = { s.link p with restarted := true }) ∧
      (∀ p, maskHas (s.link p).attentionMask 4 = true → t.attentionAsserted p = true) ∧
      t.image = s.image ∧ t.deviceTime = s.deviceTime ∧ t.channels = s.channels ∧
      t.strokes = s.strokes ∧ t.pool = s.pool ∧ t.pages = s.pages ∧
      t.snapshots = s.snapshots ∧ t.rings = s.rings ∧ t.live = s.live ∧ t.save = s.save

/-! ## Frames on a port -/

/-- A select fall fixes the content of the frame and changes nothing else: NOT_READY in STARTING, and
in RUNNING the pending answer, PENDING or IDLE as the link stands; 0xFF follows the content (R142,
R161, R168). -/
def Obligations.SelectFallFixesTheContent : Prop :=
  ∀ (p : Port) (s : State), s.phase ≠ .off → (s.link p).frame = none →
    ∃ f, exec (.selectFall p) s = .next (s.setLink p { s.link p with frame := some f }) ∧
      (s.phase = .starting → f.content = frameBytes .notReady 0 [] ∧ f.showsAnswer = false) ∧
      (s.phase = .running → f.course = .ordinary ∧
        (∀ a, (s.link p).state = .answerReady a →
          f.content = answerBytes a ∧ f.showsAnswer = true) ∧
        (∀ tag, (s.link p).state = .working tag →
          f.content = frameBytes .pending tag [] ∧ f.showsAnswer = false) ∧
        ((s.link p).state = .idle →
          f.content = frameBytes .idle (s.link p).lastTag [] ∧ f.showsAnswer = false)) ∧
      (∀ k, f.content.length ≤ k → f.byteOut k = 0xFF) ∧
      (∀ k (h : k < f.content.length), f.byteOut k = f.content[k])

/-- An answer is consumed at the select rise of a frame that has shifted out its check byte, and by no
shorter frame, whatever the master sent (R143). Here the master sent nothing: a first byte of 0xFF,
or no whole byte. -/
def Obligations.WholeAnswerIsConsumed : Prop :=
  ∀ (p : Port) (edges : List Bool) (s : State) (f : Frame) (a : Answer),
    s.phase = .running → (s.link p).state = .answerReady a → (s.link p).frame = some f →
    f.course = .ordinary → f.showsAnswer = true → f.content = answerBytes a →
    ((bytesOfBits edges).head? = some 0xFF ∨ bytesOfBits edges = []) →
    (f.content.length ≤ (bytesOfBits edges).length →
      exec (.selectRise p edges) s = .next (s.setLink p
        { s.link p with state := .idle, lastTag := a.tag, frame := none })) ∧
    ((bytesOfBits edges).length < f.content.length →
      exec (.selectRise p edges) s = .next (s.setLink p { s.link p with frame := none }))

/-- A request at the select rise of an ordinary frame in RUNNING, judged on the link after any
consumption (R145, cases 1 to 3). No request changes nothing; an incomplete one is discarded and sets
FRAME_FAULT, whatever the link's state. A complete request on a link that is not IDLE is not taken; but
a DETACH of length 0 with a right check byte in WORKING is, and runs the command DETACH (log 4). -/
def Obligations.RequestsThatAreNotTaken : Prop :=
  ∀ (p : Port) (edges : List Bool) (s : State) (f : Frame) (l : Link),
    s.phase = .running → (s.link p).frame = some f → f.course = .ordinary →
    l = (if f.consumes (bytesOfBits edges).length
      then { s.link p with frame := none }.consumed else { s.link p with frame := none }) →
    (carriedBy (bytesOfBits edges) = .nothing →
      exec (.selectRise p edges) s = .next (s.setLink p l)) ∧
    (carriedBy (bytesOfBits edges) = .incomplete →
      exec (.selectRise p edges) s = .next (s.setLink p { l with frameFault := true })) ∧
    (l.state ≠ .idle →
      (∀ tag, carriedBy (bytesOfBits edges) = .tooLong tag →
        exec (.selectRise p edges) s = .next (s.setLink p l)) ∧
      (∀ code tag payload right, carriedBy (bytesOfBits edges) = .whole code tag payload right →
        (code ≠ requestCode .detach ∨ payload ≠ [] ∨ right = false ∨
          ∃ a, l.state = .answerReady a) →
        exec (.selectRise p edges) s = .next (s.setLink p l))) ∧
    (∀ other tag, l.state = .working other →
      carriedBy (bytesOfBits edges) = .whole (requestCode .detach) tag [] true →
      exec (.selectRise p edges) s = exec (.detach p tag) (s.setLink p l))

/-- On a link that is IDLE after any consumption a request is answered by the link itself, with its
tag and no payload, where its length is above 300, its check byte is wrong, or its code is none of the
part's (R145, cases 4 to 6). One of the part's codes with a payload of another length than its fields
require is answered RANGE, after its permission test, which answers DENIED, and nothing else changes
(R146, R169; the place of the length test among a request's other checks is log 12). -/
def Obligations.LinkAnswersBadRequests : Prop :=
  ∀ (p : Port) (edges : List Bool) (s : State) (f : Frame) (l : Link)
    (answer : Status → Byte → State),
    s.phase = .running → (s.link p).frame = some f → f.course = .ordinary →
    l = (if f.consumes (bytesOfBits edges).length
      then { s.link p with frame := none }.consumed else { s.link p with frame := none }) →
    l.state = .idle →
    answer = (fun status tag => s.setLink p { l with state := .answerReady ⟨status, tag, []⟩ }) →
    (∀ tag, carriedBy (bytesOfBits edges) = .tooLong tag →
      exec (.selectRise p edges) s = .next (answer .length tag)) ∧
    (∀ code tag payload, carriedBy (bytesOfBits edges) = .whole code tag payload false →
      exec (.selectRise p edges) s = .next (answer .checkFailed tag)) ∧
    (∀ code tag payload, carriedBy (bytesOfBits edges) = .whole code tag payload true →
      requestOf code = none →
      exec (.selectRise p edges) s = .next (answer .unknownRequest tag)) ∧
    (∀ code tag payload r, carriedBy (bytesOfBits edges) = .whole code tag payload true →
      requestOf code = some r → ¬ r.LengthFits payload →
      (s.ReachesLengthTest p r payload →
        exec (.selectRise p edges) s = .next ((s.setLink p l).answered p tag .range [])) ∧
      (s.LacksPermission p r payload →
        exec (.selectRise p edges) s = .next ((s.setLink p l).answered p tag .denied [])))

/-- A frame begun in STARTING, one that ends in STARTING and one cut by a reset change nothing at
their select rise but that they end; after a DEVICE_RESET from another port only 0xFF is shifted out
(R158, R161). That a frame begun in RUNNING and cut by the RESET pin is discarded even where its select
rise comes in RUNNING is the model's choice (log 21). -/
def Obligations.CutFramesAreDiscarded : Prop :=
  ∀ (p : Port) (edges : List Bool) (s : State) (f : Frame), (s.link p).frame = some f →
    (s.phase ≠ .running ∨ f.course ≠ .ordinary) →
    exec (.selectRise p edges) s = .next (s.setLink p { s.link p with frame := none }) ∧
    (f.course = .cutByDeviceReset → ∀ k, f.byteOut k = 0xFF)

/-- The oldest answer formed on a port is made ready, or discarded where it is no longer wanted
(R146, R147; that they come in order is log 10). -/
def Obligations.FormedAnswersAreMadeReady : Prop :=
  ∀ (p : Port) (s : State) (f : Forming) (rest : List Forming), s.phase = .running →
    (s.link p).forming = f :: rest →
    (f.wanted = true → exec (.answerMadeReady p) s = .next (s.setLink p
      { s.link p with state := .answerReady f.answer, forming := rest })) ∧
    (f.wanted = false → exec (.answerMadeReady p) s = .next (s.setLink p
      { s.link p with forming := rest }))

/-! ## Refusals -/

/-- A request whose port lacks the permission it needs is answered DENIED and changes nothing (R149,
section 9.5). -/
def Obligations.MissingPermissionIsDenied : Prop :=
  ∀ (p : Port) (tag : Byte) (s : State), s.Admits p →
    ((s.permissions p).ink = false → ∀ pen samples,
      exec (.submitSamples p tag pen samples) s = .next (s.answered p tag .denied [])) ∧
    ((s.permissions p).edit = false → ∀ serial pen page x0 y0 x1 y1 mode,
      exec (.eraseStroke p tag serial) s = .next (s.answered p tag .denied []) ∧
      exec (.undo p tag pen) s = .next (s.answered p tag .denied []) ∧
      exec (.clearPage p tag page) s = .next (s.answered p tag .denied []) ∧
      exec (.eraseRegion p tag page x0 y0 x1 y1 mode) s = .next (s.answered p tag .denied [])) ∧
    ((s.permissions p).view = false → ∀ serial start page offset count pageMask kindMask mask,
      exec (.readStroke p tag serial start) s = .next (s.answered p tag .denied []) ∧
      exec (.snapshotBegin p tag page) s = .next (s.answered p tag .denied []) ∧
      exec (.snapshotList p tag offset count) s = .next (s.answered p tag .denied []) ∧
      exec (.snapshotEnd p tag) s = .next (s.answered p tag .denied []) ∧
      exec (.subscribe p tag pageMask kindMask) s = .next (s.answered p tag .denied []) ∧
      exec (.liveFetch p tag) s = .next (s.answered p tag .denied []) ∧
      exec (.liveMute p tag mask) s = .next (s.answered p tag .denied [])) ∧
    ((s.permissions p).room = false → ∀ pen source page named set,
      exec (.bindPen p tag pen source) s = .next (s.answered p tag .denied []) ∧
      exec (.lockPage p tag page) s = .next (s.answered p tag .denied []) ∧
      exec (.unlockPage p tag page) s = .next (s.answered p tag .denied []) ∧
      exec (.setPermissions p tag named set) s = .next (s.answered p tag .denied []) ∧
      exec (.saveSettings p tag) s = .next (s.answered p tag .denied []) ∧
      exec (.deviceReset p tag) s = .next (s.answered p tag .denied [])) ∧
    ((s.permissions p).ink = false → ∀ pen : Pen,
      ((s.permissions p).edit = false → ∀ colour width page,
        exec (.setPenTool p tag (penCode pen) colour width) s =
          .next (s.answered p tag .denied []) ∧
        exec (.setPenPage p tag (penCode pen) page) s = .next (s.answered p tag .denied [])) ∧
      ((s.permissions p).room = false → ∀ calibration tuning limit,
        exec (.setCalibration p tag (penCode pen) calibration) s =
          .next (s.answered p tag .denied []) ∧
        exec (.setPenTuning p tag (penCode pen) tuning limit) s =
          .next (s.answered p tag .denied [])))

/-- Numbers, modes, bindings, sets and samples out of range are answered RANGE, before any effect, from
a port that holds every permission. -/
def Obligations.NumbersOutOfRangeAreRefused : Prop :=
  ∀ (p : Port) (tag : Byte) (s : State) (b : Byte), s.Admits p →
    s.permissions p = factoryPermissions →
    (8 ≤ b.toNat → ∀ samples calibration tuning limit colour width page source,
      exec (.submitSamples p tag b samples) s = .next (s.answered p tag .range []) ∧
      exec (.setCalibration p tag b calibration) s = .next (s.answered p tag .range []) ∧
      exec (.setPenTuning p tag b tuning limit) s = .next (s.answered p tag .range []) ∧
      exec (.setPenTool p tag b colour width) s = .next (s.answered p tag .range []) ∧
      exec (.setPenPage p tag b page) s = .next (s.answered p tag .range []) ∧
      exec (.bindPen p tag b source) s = .next (s.answered p tag .range []) ∧
      exec (.penStatus p tag b) s = .next (s.answered p tag .range []) ∧
      exec (.undo p tag b) s = .next (s.answered p tag .range [])) ∧
    (16 ≤ b.toNat → ∀ (pen : Pen) x0 y0 x1 y1 mode,
      exec (.setPenPage p tag (penCode pen) b) s = .next (s.answered p tag .range []) ∧
      exec (.pageStatus p tag b) s = .next (s.answered p tag .range []) ∧
      exec (.lockPage p tag b) s = .next (s.answered p tag .range []) ∧
      exec (.unlockPage p tag b) s = .next (s.answered p tag .range []) ∧
      exec (.clearPage p tag b) s = .next (s.answered p tag .range []) ∧
      exec (.eraseRegion p tag b x0 y0 x1 y1 mode) s = .next (s.answered p tag .range []) ∧
      exec (.snapshotBegin p tag b) s = .next (s.answered p tag .range [])) ∧
    (4 ≤ b.toNat → ∀ set,
      exec (.portStatus p tag b) s = .next (s.answered p tag .range []) ∧
      exec (.setPermissions p tag b set) s = .next (s.answered p tag .range [])) ∧
    ((b = 0 ∨ 8 < b.toNat) →
      exec (.fetchNotices p tag b) s = .next (s.answered p tag .range [])) ∧
    (31 < b.toNat → exec (.ackNotices p tag b) s = .next (s.answered p tag .range [])) ∧
    (64 ≤ b.toNat → ∀ pageMask,
      exec (.subscribe p tag pageMask b) s = .next (s.answered p tag .range [])) ∧
    (128 ≤ b.toNat → ∀ threshold,
      exec (.setAttention p tag b threshold) s = .next (s.answered p tag .range []) ∧
      exec (.clearFlags p tag b) s = .next (s.answered p tag .range [])) ∧
    (2 ≤ b.toNat → ∀ (pg : Page) x0 y0 x1 y1,
      exec (.eraseRegion p tag (pageCode pg) x0 y0 x1 y1 b) s =
        .next (s.answered p tag .range [])) ∧
    (4 ≤ b.toNat → b ≠ 0xFF → ∀ pen : Pen,
      exec (.bindPen p tag (penCode pen) b) s = .next (s.answered p tag .range [])) ∧
    (16 ≤ b.toNat → ∀ q : Port,
      exec (.setPermissions p tag (portCode q) b) s = .next (s.answered p tag .range [])) ∧
    (∀ (pen : Pen) (samples : List Sample), (s.penSettings pen).binding = some p →
      (samples = [] ∨ 32 < samples.length ∨
        ∃ x ∈ samples, 1023 < x.pressure.toNat ∨ 1 < x.inRange.toNat) →
      exec (.submitSamples p tag (penCode pen) samples) s = .next (s.answered p tag .range []))

/-! ## Requests that report -/

/-- RING_STATUS is answered with the port's ring as it stands, and changes nothing (R124). -/
def Obligations.RingStatusReportsTheRing : Prop :=
  ∀ (p : Port) (tag : Byte) (s : State), s.Admits p →
    exec (.ringStatus p tag) s = .next (s.answered p tag .ok
      (natByte (s.ring p).fill ++ [(s.ring p).get.zeroExtend 8, (s.ring p).put.zeroExtend 8]
        ++ wordBytes (s.ring p).resync ++ [(s.link p).threshold]))

/-- PEN_STATUS, PAGE_STATUS, PORT_STATUS and DEVICE_INFO are open to every port, answer RANGE for a
number that names none, carry what stands, and change nothing (R18, R80, R155, R167). -/
def Obligations.StatusRequestsReportAndChangeNothing : Prop :=
  ∀ (p : Port) (tag : Byte) (s : State), s.Admits p →
    (∀ b : Byte, 7 < b.toNat →
      exec (.penStatus p tag b) s = .next (s.answered p tag .range [])) ∧
    (∀ b : Byte, 15 < b.toNat →
      exec (.pageStatus p tag b) s = .next (s.answered p tag .range [])) ∧
    (∀ b : Byte, 3 < b.toNat →
      exec (.portStatus p tag b) s = .next (s.answered p tag .range [])) ∧
    (∀ pen : Pen, exec (.penStatus p tag (penCode pen)) s = .next (s.answered p tag .ok
      ([penStateCode (s.channel pen).state, bindingCode (s.penSettings pen).binding,
          pageCode (s.channel pen).target]
        ++ serialBytes (s.channel pen).current ++ positionBytes (s.channel pen).position
        ++ longBytes (s.channel pen).clock ++ natByte (s.channel pen).undo.length))) ∧
    (∀ pg : Page, exec (.pageStatus p tag (pageCode pg)) s = .next (s.answered p tag .ok
      ([pageCode pg, flagByte (s.page pg).locked] ++ longBytes (s.page pg).revision
        ++ natWord (s.page pg).list.length ++ occupantBytes (s.page pg).occupant
        ++ natByte (s.holdCount pg)))) ∧
    (∀ q : Port, exec (.portStatus p tag (portCode q)) s = .next (s.answered p tag .ok
      ([linkStateCode ((s.admitted p tag).link q).state,
          tagInWork ((s.admitted p tag).link q).state, flagSetByte (s.link q),
          permissionsByte (s.permissions q)]
        ++ wordBytes (s.ring q).pageMask
        ++ [(s.ring q).kindMask, (s.livePort q).mute, (s.link q).attentionMask,
          (s.link q).threshold, (s.admitted p tag).conditionsHeld q,
          flagByte ((s.admitted p tag).attentionAsserted q)]))) ∧
    exec (.deviceInfo p tag) s = .next (s.answered p tag .ok
      ([0x4B, 0x16, 0x10, 4, 8, 16, 0x02, 0x00, 0x06, 0x00, 16]
        ++ natWord s.pool.free.length ++ natWord (512 - s.strokes.entries.length)
        ++ [indicatorCode s.indicator, flagByte s.save.isSome] ++ longBytes s.deviceTime))

/-- READ_STROKE, SNAPSHOT_LIST and FETCH_NOTICES give their pieces, bounded at 64 points, 16 headers
and 8 notices, and change nothing; each is refused by its own checks in their order (R60, R104,
R121). -/
def Obligations.ListingRequestsReportAndChangeNothing : Prop :=
  ∀ (p : Port) (tag : Byte) (s : State), s.Admits p →
    ((s.permissions p).view = false → ∀ serial start offset count,
      exec (.readStroke p tag serial start) s = .next (s.answered p tag .denied []) ∧
      exec (.snapshotList p tag offset count) s = .next (s.answered p tag .denied [])) ∧
    ((s.permissions p).view = true → ∀ (serial : Serial) (start : Word),
      (serial = 0 ∨ s.stroke? serial = none) →
      exec (.readStroke p tag serial start) s = .next (s.answered p tag .notFound [])) ∧
    ((s.permissions p).view = true → ∀ offset count,
      (s.snapshot p = none →
        exec (.snapshotList p tag offset count) s = .next (s.answered p tag .noSnapshot [])) ∧
      (∀ pg, s.snapshot p = some (.broken pg) →
        exec (.snapshotList p tag offset count) s = .next (s.answered p tag .snapshotBroken [])) ∧
      (∀ a, s.snapshot p = some (.active a) → (count = 0 ∨ 16 < count.toNat) →
        exec (.snapshotList p tag offset count) s = .next (s.answered p tag .range []))) ∧
    (∀ count : Byte, (count = 0 ∨ 8 < count.toNat) →
      exec (.fetchNotices p tag count) s = .next (s.answered p tag .range [])) ∧
    ((s.permissions p).view = true → ∀ (serial : Serial) (start : Word) (e : Stroke),
      serial ≠ 0 → s.stroke? serial = some e →
      exec (.readStroke p tag serial start) s = .next (s.answered p tag .ok
        (headerBytes e ++ wordBytes start ++ natByte (min (e.count - start.toNat) 64)
          ++ (pointsFrom s.pool e start.toNat (min (e.count - start.toNat) 64)).flatMap
            pointBytes))) ∧
    ((s.permissions p).view = true → ∀ (offset : Word) (count : Byte) (a : ActiveSnapshot),
      1 ≤ count.toNat → count.toNat ≤ 16 → s.snapshot p = some (.active a) →
      exec (.snapshotList p tag offset count) s = .next (s.answered p tag .ok
        ([pageCode a.page] ++ longBytes a.frozen ++ natWord (s.page a.page).list.length
          ++ wordBytes offset
          ++ natByte (((s.page a.page).list.drop offset.toNat).take count.toNat).length
          ++ headersOf s (((s.page a.page).list.drop offset.toNat).take count.toNat)))) ∧
    (∀ count : Byte, 1 ≤ count.toNat → count.toNat ≤ 8 →
      exec (.fetchNotices p tag count) s = .next (s.answered p tag .ok
        (natByte (s.ring p).fill ++ wordBytes (s.ring p).resync
          ++ natByte (min (s.ring p).fill count.toNat)
          ++ (ringNotices (s.ring p) (min (s.ring p).fill count.toNat)).flatMap
            fun x => noticeBytes x.1 x.2)))

/-! ## Settings of a pen -/

/-- SET_PEN_TOOL and SET_PEN_PAGE change the tool in the mirror and the target page of the channel,
and nothing else, for a port that may; they are refused by the checks of R19 in their order. -/
def Obligations.ToolAndPageAreSet : Prop :=
  (∀ (p : Port) (tag b colour width page : Byte) (s : State), s.Admits p → 7 < b.toNat →
    exec (.setPenTool p tag b colour width) s = .next (s.answered p tag .range []) ∧
    exec (.setPenPage p tag b page) s = .next (s.answered p tag .range [])) ∧
  (∀ (p : Port) (tag : Byte) (pen : Pen) (colour width page : Byte) (s : State), s.Admits p →
    (s.permissions p).edit = false →
    ((s.permissions p).ink = false →
      exec (.setPenTool p tag (penCode pen) colour width) s =
        .next (s.answered p tag .denied []) ∧
      exec (.setPenPage p tag (penCode pen) page) s = .next (s.answered p tag .denied [])) ∧
    ((s.permissions p).ink = true → (s.penSettings pen).binding ≠ some p →
      exec (.setPenTool p tag (penCode pen) colour width) s =
        .next (s.answered p tag .wrongSource []) ∧
      exec (.setPenPage p tag (penCode pen) page) s = .next (s.answered p tag .wrongSource []))) ∧
  ∀ (p : Port) (tag : Byte) (pen : Pen) (s : State), s.Admits p → s.MayTool p pen →
    (∀ colour width page : Byte,
      ((15 < colour.toNat ∨ 7 < width.toNat) →
        exec (.setPenTool p tag (penCode pen) colour width) s =
          .next (s.answered p tag .range [])) ∧
      (15 < page.toNat →
        exec (.setPenPage p tag (penCode pen) page) s = .next (s.answered p tag .range []))) ∧
    (∀ colour width : Byte, colour.toNat ≤ 15 → width.toNat ≤ 7 →
      exec (.setPenTool p tag (penCode pen) colour width) s = .next
        (((s.admitted p tag).setPenSettings pen { s.penSettings pen with colour, width }).formAnswer
          p ⟨.ok, tag, []⟩)) ∧
    (∀ pg : Page, exec (.setPenPage p tag (penCode pen) (pageCode pg)) s = .next
      (((s.admitted p tag).setChannel pen { s.channel pen with target := pg }).formAnswer
        p ⟨.ok, tag, []⟩))

/-- SET_CALIBRATION and SET_PEN_TUNING store their values brought into range, answer OK_ADJUSTED
where a value was changed, and change nothing else; SNAP_LIMIT needs ROOM (R35, R36). Before that: a pen
number above 7 is answered RANGE; a port without ROOM and INK DENIED; one with INK alone, whose pen is
bound elsewhere or to none, WRONG_SOURCE. -/
def Obligations.CalibrationAndTuningAreStoredInRange : Prop :=
  (∀ (p : Port) (tag : Byte) (s : State) (values : Calibration) (tuning : Tuning)
    (limit : Option Word), s.Admits p →
    (∀ b : Byte, 7 < b.toNat →
      exec (.setCalibration p tag b values) s = .next (s.answered p tag .range []) ∧
      exec (.setPenTuning p tag b tuning limit) s = .next (s.answered p tag .range [])) ∧
    ((s.permissions p).room = false → ∀ pen : Pen,
      ((s.permissions p).ink = false →
        exec (.setCalibration p tag (penCode pen) values) s =
          .next (s.answered p tag .denied []) ∧
        exec (.setPenTuning p tag (penCode pen) tuning limit) s =
          .next (s.answered p tag .denied [])) ∧
      ((s.permissions p).ink = true → (s.penSettings pen).binding ≠ some p →
        exec (.setCalibration p tag (penCode pen) values) s =
          .next (s.answered p tag .wrongSource []) ∧
        exec (.setPenTuning p tag (penCode pen) tuning limit) s =
          .next (s.answered p tag .wrongSource [])))) ∧
  ∀ (p : Port) (tag : Byte) (pen : Pen) (s : State), s.Admits p → s.MayTune p pen →
    (∀ sent : Calibration,
      exec (.setCalibration p tag (penCode pen) sent) s = .next
        (((s.admitted p tag).setPenSettings pen
            { s.penSettings pen with calibration := calibrationIntoRange sent }).formAnswer p
          ⟨if calibrationIntoRange sent = sent then .ok else .okAdjusted, tag,
            calibrationBytes (calibrationIntoRange sent)⟩)) ∧
    (∀ sent : Tuning,
      exec (.setPenTuning p tag (penCode pen) sent none) s = .next
        (((s.admitted p tag).setPenSettings pen
            { s.penSettings pen with tuning := tuningIntoRange sent }).formAnswer p
          ⟨if tuningIntoRange sent = sent then .ok else .okAdjusted, tag,
            tuningBytes (tuningIntoRange sent) ++ wordBytes s.mirror.snapLimit⟩)) ∧
    (∀ (sent : Tuning) (limit : Word),
      ((s.permissions p).room = false →
        exec (.setPenTuning p tag (penCode pen) sent (some limit)) s =
          .next (s.answered p tag .denied [])) ∧
      ((s.permissions p).room = true →
        ∃ u, u = (s.admitted p tag).setPenSettings pen
            { s.penSettings pen with tuning := tuningIntoRange sent } ∧
          exec (.setPenTuning p tag (penCode pen) sent (some limit)) s = .next
            ((u.setMirror { u.mirror with snapLimit := snapLimitIntoRange limit }).formAnswer p
              ⟨if tuningIntoRange sent = sent ∧ snapLimitIntoRange limit = limit then .ok
                else .okAdjusted, tag,
                tuningBytes (tuningIntoRange sent) ++ wordBytes (snapLimitIntoRange limit)⟩)))

/-- The range that each calibration and tuning value is brought into, by name: below it the lower end,
above it the upper end, inside it as sent (R33, R35, R36). PRESS_OFF is held to the new PRESS_ON, and
TAP_MAX to the new TAP_MIN. -/
def Obligations.ValuesAreBroughtToTheNearerEnd : Prop :=
  (∀ sent stored : Calibration, stored = calibrationIntoRange sent →
    BroughtOffset sent.offsetX stored.offsetX ∧ BroughtOffset sent.offsetY stored.offsetY ∧
    Brought 1024 65535 sent.scaleX stored.scaleX ∧
    Brought 1024 65535 sent.scaleY stored.scaleY) ∧
  (∀ sent stored : Tuning, stored = tuningIntoRange sent →
    Brought 1 1023 sent.pressOn stored.pressOn ∧
    Brought 0 stored.pressOn.toNat sent.pressOff stored.pressOff ∧
    Brought 0 7 sent.downCount stored.downCount ∧ Brought 0 7 sent.upCount stored.upCount ∧
    Brought 1 63 sent.tapMin stored.tapMin ∧
    Brought stored.tapMin.toNat 63 sent.tapMax stored.tapMax ∧
    Brought 0 255 sent.tapTol stored.tapTol ∧ Brought 0 255 sent.minExtent stored.minExtent ∧
    Brought 0 255 sent.minStep stored.minStep ∧ Brought 1 255 sent.maxGap stored.maxGap ∧
    Brought 0 255 sent.rejoin stored.rejoin ∧
    Brought 0 255 sent.rejoinDist stored.rejoinDist ∧
    Brought 20 2000 sent.silence stored.silence ∧ Brought 0 7 sent.priority stored.priority ∧
    stored.pressOff.toNat ≤ stored.pressOn.toNat ∧ stored.tapMin.toNat ≤ stored.tapMax.toNat) ∧
  (∀ sent : Word, Brought 20 2000 sent (snapLimitIntoRange sent))

/-- BIND_PEN stores the binding, even an equal one, and ends the pen's activity: its current stroke
leaves it with the rejoin timer and is classified with REBOUND (R45), then the buffers are emptied and
the silence timer stops, then the pen goes to AWAY with its notice; its clock, position and target page, and those of every
other pen, are kept, and so is the rest of the mirror (R20). A port number that is none and not NONE is
answered RANGE. -/
def Obligations.BindPenEndsTheActivity : Prop :=
  (∀ (p : Port) (tag source : Byte) (pen : Pen) (s : State), s.Admits p →
    (s.permissions p).room = true → 3 < source.toNat → source ≠ 0xFF →
    exec (.bindPen p tag (penCode pen) source) s = .next (s.answered p tag .range [])) ∧
  ∀ (p : Port) (tag : Byte) (pen : Pen) (binding : Option Port) (s : State), s.Admits p →
    (s.permissions p).room = true →
    ∃ bound c closed u, exec (.bindPen p tag (penCode pen) (bindingCode binding)) s =
        .next (u.formAnswer p ⟨.ok, tag, []⟩) ∧
      bound = (s.admitted p tag).setPenSettings pen { s.penSettings pen with binding } ∧
      c = { s.channel pen with current := none, working := none, rejoin := none } ∧
      (∀ e, s.currentStroke pen = some e →
        closed = (bound.setChannel pen c).classify e .rebound) ∧
      (s.currentStroke pen = none → closed = bound.setChannel pen c) ∧
      u = (closed.setChannel pen
        { closed.channel pen with down := [], lift := [], silence := none }).enterPen pen .away ∧
      bound.SameOutside u ∧
      (u.channel pen).state = .away ∧ (u.channel pen).current = none ∧
      (u.channel pen).down = [] ∧ (u.channel pen).lift = [] ∧ (u.channel pen).silence = none ∧
      (u.channel pen).rejoin = none ∧
      (∀ k, (u.channel k).clock = (s.channel k).clock ∧
        (u.channel k).position = (s.channel k).position ∧
        (u.channel k).target = (s.channel k).target) ∧
      (∀ pg, (u.page pg).locked = (s.page pg).locked)

/-! ## Samples, points and strokes -/

/-- A raw position mapped to the canvas (R24), each axis separately: below zero it is 0 and clamped;
otherwise v times scale over 65536, rounded to the nearest with an exact half upward, and the axis
maximum, clamped, where that is larger. The point is CLAMPED where either axis was. -/
def Obligations.RawPositionsAreMappedToTheCanvas : Prop :=
  (∀ (c : Calibration) (x : Sample), mapSample c x =
    ((mapAxis x.xRaw c.offsetX c.scaleX 15999).1, (mapAxis x.yRaw c.offsetY c.scaleY 8999).1,
      (mapAxis x.xRaw c.offsetX c.scaleX 15999).2 || (mapAxis x.yRaw c.offsetY c.scaleY 8999).2)) ∧
  ∀ (raw offset scale : Word) (axisMax : Nat), ∃ v : Int, v = raw.toNat + offset.toInt ∧
    (v < 0 → mapAxis raw offset scale axisMax = (0, true)) ∧
    (∀ c : Nat, 0 ≤ v → 65536 * (c : Int) ≤ v * scale.toNat + 32768 →
      v * scale.toNat + 32768 < 65536 * (c + 1) →
      (axisMax < c → mapAxis raw offset scale axisMax = (axisMax, true)) ∧
      (c ≤ axisMax → mapAxis raw offset scale axisMax = (c, false))) ∧
    (mapAxis raw offset scale axisMax).1 ≤ axisMax

/-- The pressure byte of a point is the sample's pressure divided by 4, the remainder discarded;
thinning does not use it, and contact detection works on the full pressure (R26). -/
def Obligations.PressureByteIsAQuarter : Prop :=
  (∀ (c : Calibration) (zero : Long) (b : Buffered) (lift : Bool), b.sample.pressure.toNat ≤ 1023 →
    (conditionedPoint c zero b lift).pressure.toNat = b.sample.pressure.toNat / 4) ∧
  (∀ (t : Tuning) (kept : KeptPoint) (p : Point) (clock : Long) (byte : Byte),
    thinningKeeps t kept { p with pressure := byte } clock = thinningKeeps t kept p clock) ∧
  (∀ (t : Tuning) (x : Sample),
    (samplePressed t x = true ↔ x.inRange = 1 ∧ t.pressOn.toNat ≤ x.pressure.toNat) ∧
    (sampleHeld t x = true ↔ x.inRange = 1 ∧ t.pressOff.toNat ≤ x.pressure.toNat))

/-- A point's time offset is the pen clock less the zero of time, modulo 2³², and 65535 where that is
more; the first point of a new stroke and of a continuation has offset 0 (R27). A sample in contact is
kept by the step and gap tests in exact arithmetic, with the values of the mirror as they stand, or as
the first point of a rejoin, which carries LIFT_BEFORE; a kept point goes to the append, a dropped one
leaves its charge and stays the last conditioned point (R23, R28, R30, R31). The closing point is the
last conditioned point where thinning dropped it, appended as it was conditioned and not charged
(R29). -/
def Obligations.TimeOffsetAndThinning : Prop :=
  (∀ (c : Calibration) (zero : Long) (b : Buffered) (lift : Bool),
    ((b.clock - zero).toNat ≤ 65535 →
      (conditionedPoint c zero b lift).offset = (b.clock - zero).toNat) ∧
    (65535 < (b.clock - zero).toNat → (conditionedPoint c zero b lift).offset = 65535) ∧
    (b.clock = zero → (conditionedPoint c zero b lift).offset = 0)) ∧
  (∀ last : Point, (continuationPoint last).offset = 0) ∧
  (∀ (t : Tuning) (kept : KeptPoint) (p : Point) (clock : Long),
    thinningKeeps t kept p clock = true ↔
      ((t.minStep.toNat : Int) ^ 2 ≤
          ((p.x : Int) - kept.x) ^ 2 + ((p.y : Int) - kept.y) ^ 2) ∨
        t.maxGap.toNat ≤ (clock - kept.clock).toNat) ∧
  (∀ (s : State) (pen : Pen) (e : Stroke) (w : Working), s.currentStroke pen = some e →
    (s.channel pen).working = some w →
    (∀ (b : Buffered) (rejoin : Bool), ∃ pt : Point,
      pt = conditionedPoint (s.penSettings pen).calibration w.zeroOfTime b rejoin ∧
      pt.liftBefore = rejoin ∧
      ((rejoin = true ∨ thinningKeeps (s.penSettings pen).tuning w.lastKept pt b.clock = true) →
        s.conditionSample pen b rejoin = s.appendPoint e w pt b.clock true) ∧
      (rejoin = false → thinningKeeps (s.penSettings pen).tuning w.lastKept pt b.clock = false →
        s.conditionSample pen b rejoin =
          ((s.setStrokes (s.strokes.update e.serial fun x =>
              { x with contact := min (x.contact + 1) 65535 })).setChannel e.pen
            { s.channel e.pen with
              working := some { w with lastConditioned := ⟨pt, b.clock, false⟩ } }, .judge))) ∧
    (w.lastConditioned.kept = true → s.closingPoint pen = (s, .judge)) ∧
    (w.lastConditioned.kept = false → s.closingPoint pen =
      s.appendPoint e w w.lastConditioned.point w.lastConditioned.clock false))

/-- The outcome of a closed stroke: TAP for a pen-up of few samples in a small extent, else NOISE for
a small extent that no split closed, else INK (R48). Cause and outcome are recorded, and the slots that
follow the stroke take the outcome (R133). Then a TAP sends one TAP notice of its first point, and TAP
and NOISE free the entry and touch no page (R49, R50). INK is committed on a page that no snapshot
holds; under a snapshot it is HELD with a commit item at the end of the hold list; as the seventeenth
item it breaks the snapshot and is committed (R54, R107). A pen's closed stroke leaves it without
current stroke, working values and rejoin timer (R44, R45). -/
def Obligations.ClassificationTestsInOrder : Prop :=
  (∀ (t : Tuning) (cause : CloseCause) (n : Nat) (b : Box) (extent : Nat),
    extent = max (b.xmax - b.xmin) (b.ymax - b.ymin) →
    (cause = .penUp → t.tapMin.toNat ≤ n → n ≤ t.tapMax.toNat → extent ≤ t.tapTol.toNat →
      classifiedAs t cause n b = .tap) ∧
    ((cause ≠ .penUp ∨ n < t.tapMin.toNat ∨ t.tapMax.toNat < n ∨ t.tapTol.toNat < extent) →
      (cause ≠ .split → extent < t.minExtent.toNat → classifiedAs t cause n b = .noise) ∧
      ((cause = .split ∨ t.minExtent.toNat ≤ extent) → classifiedAs t cause n b = .ink))) ∧
  (∀ (s : State) (e : Stroke) (cause : CloseCause) (outcome : StrokeOutcome),
    s.stroke? e.serial = some e →
    classifiedAs (s.penSettings e.pen).tuning cause e.contact e.box = outcome →
    ∃ judged : State,
      judged = (s.setStrokes (s.strokes.update e.serial fun x =>
        { x with cause := some cause, outcome := some outcome })).mapReachedSlots e
          (slotJudged e.serial outcome) ∧
      (outcome = .tap → ∀ pt, pointAt s.pool e 0 = pt →
        (judged.route (.tap e.page e.pen pt.x pt.y pt.clamped)).EntryFreed .classified e
          (s.classify e cause)) ∧
      (outcome = .noise → judged.EntryFreed .classified e (s.classify e cause)) ∧
      (outcome = .ink → s.Unheld e.page → s.classify e cause = judged.commitStroke e) ∧
      (outcome = .ink → ∀ owner a, (s.page e.page).occupant = .snapshot owner →
        s.snapshot owner = some (.active a) →
        (a.hold.length < 16 → s.classify e cause =
          (judged.setStrokes (judged.strokes.update e.serial fun x =>
            { x with state := .held })).setSnapshot owner
              (some (.active { a with hold := a.hold ++ [.commit e.serial] }))) ∧
        (16 ≤ a.hold.length →
          s.classify e cause = (judged.breakSnapshot owner a).commitStroke e))) ∧
  (∀ (s : State) (pen : Pen) (cause : CloseCause), ∃ c : Channel,
    c = { s.channel pen with current := none, working := none, rejoin := none } ∧
    (s.currentStroke pen = none → s.closeCurrent pen cause = s.setChannel pen c) ∧
    (∀ e, s.currentStroke pen = some e →
      s.closeCurrent pen cause = (s.setChannel pen c).classify e cause))

/-- SUBMIT_SAMPLES is refused by the checks of R3; taken, it judges its samples one after another,
restarts the silence timer and is answered with the pen state and the current stroke; it leaves the
settings, the time base and the links alone (R4, R5, R6). Each sample adds its dt to the pen clock and
in range sets the position; after a shortage the rest are consumed (R10). In INKING a held sample is
conditioned and a low one begins a lift; in LIFTING a held sample feeds the run's in-range samples and
itself back, and the low one that completes UP_COUNT + 1 settles the closing point and closes the
stroke, to CLOSING with its timer, or classified where REJOIN is 0 (R10, R11, R12, R44). A PEN notice
is sent for each change of state that R17 names. -/
def Obligations.SubmitSamplesIsAnswered : Prop :=
  (∀ (p : Port) (tag b : Byte) (samples : List Sample) (s : State), s.Admits p →
    ((s.permissions p).ink = false →
      exec (.submitSamples p tag b samples) s = .next (s.answered p tag .denied [])) ∧
    ((s.permissions p).ink = true → 7 < b.toNat →
      exec (.submitSamples p tag b samples) s = .next (s.answered p tag .range []))) ∧
  (∀ (p : Port) (tag : Byte) (pen : Pen) (samples : List Sample) (s : State), s.Admits p →
    (s.permissions p).ink = true →
    ((s.penSettings pen).binding ≠ some p →
      exec (.submitSamples p tag (penCode pen) samples) s =
        .next (s.answered p tag .wrongSource [])) ∧
    ((s.penSettings pen).binding = some p →
      (samples = [] ∨ 32 < samples.length ∨
        ∃ x ∈ samples, 1023 < x.pressure.toNat ∨ 1 < x.inRange.toNat) →
      exec (.submitSamples p tag (penCode pen) samples) s =
        .next (s.answered p tag .range [])) ∧
    ((s.penSettings pen).binding = some p → 1 ≤ samples.length → samples.length ≤ 32 →
      samples.all sampleInRange = true →
      ∃ judged u t,
        exec (.submitSamples p tag (penCode pen) samples) s = .next t ∧
        judged = (samples.foldl (State.takeSample pen p) (s.admitted p tag, .judge)).1 ∧
        u = judged.setChannel pen
          { judged.channel pen with
            silence := some ⟨s.deviceTime, (s.penSettings pen).tuning.silence⟩ } ∧
        s.AnsweredWith p tag .ok
          ([penStateCode (u.channel pen).state] ++ serialBytes (u.channel pen).current) u t ∧
        (u.channel pen).clock =
          samples.foldl (fun clock x => clock + x.dt.zeroExtend 32) (s.channel pen).clock ∧
        (u.channel pen).position =
          samples.foldl (fun position x => if x.inRange = 1 then
            some ((mapSample (s.penSettings pen).calibration x).1,
              (mapSample (s.penSettings pen).calibration x).2.1) else position)
            (s.channel pen).position ∧
        (u.channel pen).silence = some ⟨s.deviceTime, (s.penSettings pen).tuning.silence⟩ ∧
        (∀ k, k ≠ pen → (u.channel k).clock = (s.channel k).clock ∧
          (u.channel k).position = (s.channel k).position) ∧
        (∀ pg, (u.page pg).locked = (s.page pg).locked ∧
          (s.page pg).revision.toNat ≤ (u.page pg).revision.toNat))) ∧
  (∀ (pen : Pen) (source : Port) (s : State) (x : Sample), ∃ heard : State,
    heard = s.setChannel pen
      { s.channel pen with
        clock := (s.channel pen).clock + x.dt.zeroExtend 32
        position := if x.inRange = 1 then
            some ((mapSample (s.penSettings pen).calibration x).1,
              (mapSample (s.penSettings pen).calibration x).2.1)
          else (s.channel pen).position } ∧
    State.takeSample pen source (s, .consume) x = (heard, .consume) ∧
    State.takeSample pen source (s, .judge) x =
      heard.judgeSample pen source ⟨x, (s.channel pen).clock + x.dt.zeroExtend 32⟩) ∧
  (∀ (s : State) (pen : Pen) (source : Port) (b : Buffered),
    ((s.channel pen).state = .inking → sampleHeld (s.penSettings pen).tuning b.sample = true →
      s.judgeSample pen source b = s.conditionSample pen b false) ∧
    ((s.channel pen).state = .lifting → sampleHeld (s.penSettings pen).tuning b.sample = true →
      s.judgeSample pen source b =
        ((s.setChannel pen { s.channel pen with lift := [] }).enterPen pen .inking).conditionAll
          pen ((s.channel pen).lift.filter (fun x => x.sample.inRange = 1) ++ [b])) ∧
    (((s.channel pen).state = .inking ∨ (s.channel pen).state = .lifting) →
      sampleHeld (s.penSettings pen).tuning b.sample = false →
      ∃ low : State,
        low = (s.setChannel pen { s.channel pen with
          lift := (s.channel pen).lift ++ [b] }).enterPen pen .lifting ∧
        ((s.channel pen).lift.length + 1 ≤ (s.penSettings pen).tuning.upCount.toNat →
          s.judgeSample pen source b = (low, .judge)) ∧
        ((s.penSettings pen).tuning.upCount.toNat < (s.channel pen).lift.length + 1 →
          s.judgeSample pen source b = low.penUp pen b.sample))) ∧
  (∀ (s : State) (pen : Pen), s.conditionAll pen [] = (s, .judge) ∧
    ∀ b rest u,
      (s.conditionSample pen b false = (u, .consume) →
        s.conditionAll pen (b :: rest) = (u, .consume)) ∧
      (s.conditionSample pen b false = (u, .judge) →
        s.conditionAll pen (b :: rest) = u.conditionAll pen rest)) ∧
  (∀ (s u : State) (pen : Pen) (x : Sample),
    ((s.setChannel pen { s.channel pen with lift := [] }).closingPoint pen = (u, .consume) →
      s.penUp pen x = (u, .consume)) ∧
    ((s.setChannel pen { s.channel pen with lift := [] }).closingPoint pen = (u, .judge) →
      ((u.penSettings pen).tuning.rejoin = 0 →
        s.penUp pen x = ((u.closeCurrent pen .penUp).enterPen pen
          (if x.inRange = 1 then .hover else .away), .judge)) ∧
      (∀ e, (u.penSettings pen).tuning.rejoin ≠ 0 → u.currentStroke pen = some e →
        s.penUp pen x =
          (((u.setStrokes (u.strokes.update e.serial fun y =>
              { y with state := .closing, cause := some .penUp })).setChannel pen
            { u.channel pen with
              rejoin := some ⟨u.deviceTime, (u.penSettings pen).tuning.rejoin⟩ }).enterPen pen
                (if x.inRange = 1 then .hover else .away), .judge)))) ∧
  (∀ (s : State) (pen : Pen) (after : PenState), s.enterPen pen after =
    if (s.channel pen).state ≠ after ∧ after ≠ .pressing ∧ after ≠ .lifting ∧
        (after = .inking → (s.channel pen).state ≠ .lifting) then
      (s.setChannel pen { s.channel pen with state := after }).route (.pen pen after)
    else s.setChannel pen { s.channel pen with state := after })

/-- With DOWN_COUNT 0, one pressed sample of a hovering pen without a stroke opens a stroke on an
unlocked page, while an entry and a block are free: entry (R42), serial (R40), block (R67), point (R66),
pen state, answer (R4, R9). In general: pressed samples fill the down buffer to DOWN_COUNT + 1, another
empties it (R7, R8). Pen-down rejoins a CLOSING stroke within REJOIN_DIST, or classifies it first (R9,
R30, R46); it leads to BLOCKED on a locked page and to STARVED without an entry or a block, which a low
sample leaves (R9, R14, R70). An append takes a block at each multiple of 16 points; without one the
stroke closes with POOL_FULL, its sample charged, and the pen starves (R43, R53, R71, R72, R73). At 2048
points it splits: the copy of the last point, then the splitting point, a closing point as conditioned
(R29) and any other with its offset from the continuation's zero (log 13), begin the continuation; refused
one, the pen starves and the sample is charged to the stroke closed (R51, R52; log 14). -/
def Obligations.PenDownOpensAStroke : Prop :=
  (∀ (p : Port) (tag : Byte) (pen : Pen) (x : Sample) (block : Nat) (rest : List Nat) (s : State),
    s.Admits p → s.PlacesCanonical → (s.permissions p).ink = true →
    (s.penSettings pen).binding = some p → sampleInRange x = true → x.inRange = 1 →
    (s.penSettings pen).tuning.pressOn.toNat ≤ x.pressure.toNat →
    (s.penSettings pen).tuning.downCount = 0 →
    (s.channel pen).state = .hover → (s.channel pen).down = [] → (s.channel pen).current = none →
    (s.page (s.channel pen).target).locked = false →
    s.strokes.entries.length < 512 → s.pool.free = block :: rest →
    ∃ (t : State) (e : Stroke) (pt : Point),
      exec (.submitSamples p tag (penCode pen) [x]) s = .next t ∧
      t.stroke? e.serial = some e ∧ e.serial = freshSerial s.strokes ∧
      t.strokes.counter = nextSerial e.serial ∧ e.state = .opened ∧
      e.page = (s.channel pen).target ∧ e.pen = pen ∧ e.source = p ∧
      e.colour = (s.penSettings pen).colour ∧ e.width = (s.penSettings pen).width ∧
      e.start = s.deviceTime ∧ e.count = 1 ∧ e.contact = 1 ∧ e.chain = [block] ∧
      e.cause = none ∧ e.outcome = none ∧ e.predecessor = none ∧
      e.box = ⟨pt.x, pt.x, pt.y, pt.y⟩ ∧ pt.offset = 0 ∧ pt.liftBefore = false ∧
      (pt.x, pt.y, pt.clamped) = mapSample (s.penSettings pen).calibration x ∧
      t.pool.free = rest ∧ pointAt t.pool e 0 = pt ∧
      (∀ key, key ≠ 16 * block → Memory.read t.pool.cells key = Memory.read s.pool.cells key) ∧
      (t.channel pen).state = .inking ∧ (t.channel pen).current = some e.serial ∧
      (t.channel pen).down = [] ∧
      (t.link p).forming = (s.link p).forming ++
        [⟨⟨.ok, tag, [3] ++ longBytes e.serial⟩, true⟩]) ∧
  (∀ (s : State) (pen : Pen) (source : Port) (b : Buffered) (low : PenState),
    low = (if b.sample.inRange = 1 then .hover else .away) →
    (((s.channel pen).state = .away ∨ (s.channel pen).state = .hover ∨
        (s.channel pen).state = .pressing) →
      samplePressed (s.penSettings pen).tuning b.sample = true →
      ∃ pressing : State,
        pressing = (s.setChannel pen { s.channel pen with
          down := (s.channel pen).down ++ [b] }).enterPen pen .pressing ∧
        ((s.channel pen).down.length + 1 ≤ (s.penSettings pen).tuning.downCount.toNat →
          s.judgeSample pen source b = (pressing, .judge)) ∧
        ((s.penSettings pen).tuning.downCount.toNat < (s.channel pen).down.length + 1 →
          s.judgeSample pen source b = pressing.penDown pen source)) ∧
    (((s.channel pen).state = .away ∨ (s.channel pen).state = .hover) →
      samplePressed (s.penSettings pen).tuning b.sample = false →
      s.judgeSample pen source b = (s.enterPen pen low, .judge)) ∧
    ((s.channel pen).state = .pressing →
      samplePressed (s.penSettings pen).tuning b.sample = false →
      s.judgeSample pen source b =
        ((s.setChannel pen { s.channel pen with down := [] }).enterPen pen low, .judge)) ∧
    (((s.channel pen).state = .blocked ∨ (s.channel pen).state = .starved) →
      (sampleHeld (s.penSettings pen).tuning b.sample = true →
        s.judgeSample pen source b = (s, .judge)) ∧
      (sampleHeld (s.penSettings pen).tuning b.sample = false →
        s.judgeSample pen source b = (s.enterPen pen low, .judge)))) ∧
  (∀ (s : State) (pen : Pen) (source : Port) (first : Buffered) (rest : List Buffered),
    (s.channel pen).down = first :: rest →
    (s.currentStroke pen = none →
      s.penDown pen source = s.openNew pen source first rest) ∧
    (∀ e w d, s.currentStroke pen = some e → (s.channel pen).working = some w →
      d = distanceSquared (mapSample (s.penSettings pen).calibration first.sample).1
        (mapSample (s.penSettings pen).calibration first.sample).2.1 w.lastKept.x w.lastKept.y →
      (d ≤ (s.penSettings pen).tuning.rejoinDist.toNat ^ 2 →
        ∃ reopened : State,
          reopened = ((s.setStrokes (s.strokes.update e.serial fun x =>
            { x with state := .opened, cause := none })).setChannel pen
              { s.channel pen with down := [], rejoin := none }).enterPen pen .inking ∧
          (∀ u, reopened.conditionSample pen first true = (u, .consume) →
            s.penDown pen source = (u, .consume)) ∧
          (∀ u, reopened.conditionSample pen first true = (u, .judge) →
            s.penDown pen source = u.conditionAll pen rest)) ∧
      ((s.penSettings pen).tuning.rejoinDist.toNat ^ 2 < d →
        s.penDown pen source =
          (s.closeCurrent pen .penUp).openNew pen source first rest))) ∧
  (∀ (s ready : State) (pen : Pen) (source : Port) (first : Buffered) (rest : List Buffered),
    ready = s.setChannel pen { s.channel pen with down := [] } →
    ((s.page (s.channel pen).target).locked = true →
      s.openNew pen source first rest = (ready.enterPen pen .blocked, .judge)) ∧
    ((s.page (s.channel pen).target).locked = false →
      (512 ≤ s.strokes.entries.length ∨ s.pool.free = []) →
      s.openNew pen source first rest = (ready.enterPen pen .starved, .judge)) ∧
    ((s.page (s.channel pen).target).locked = false → ∀ block free,
      s.strokes.entries.length < 512 → s.pool.free = block :: free →
      ∃ (e : Stroke) (pt : Point),
        pt = conditionedPoint (s.penSettings pen).calibration first.clock first false ∧
        e = { entry := lowestFreeFrom 0 s.strokes.entries, serial := freshSerial s.strokes
              page := (s.channel pen).target, pen, source, state := .opened
              colour := (s.penSettings pen).colour, width := (s.penSettings pen).width
              start := s.deviceTime, count := 1, contact := 1, box := ⟨pt.x, pt.x, pt.y, pt.y⟩
              chain := [block], cause := none, outcome := none, predecessor := none } ∧
        s.openNew pen source first rest =
          ((ready.openStroke { s.pool with free } e pt first.clock).enterPen pen
            .inking).conditionAll pen rest)) ∧
  (∀ (s : State) (e : Stroke) (w : Working) (p : Point) (clock : Long) (charged : Bool)
    (charge : Stroke → Stroke),
    charge = (fun x => { x with contact := if charged then min (x.contact + 1) 65535
                                  else x.contact }) →
    (e.count ≠ 2048 → e.count % 16 ≠ 0 →
      s.appendPoint e w p clock charged =
        (s.storePoint e none s.pool p clock charged, .judge)) ∧
    (e.count ≠ 2048 → e.count % 16 = 0 → ∀ block free, s.pool.free = block :: free →
      s.appendPoint e w p clock charged =
        (s.storePoint e (some block) { s.pool with free } p clock charged, .judge)) ∧
    (e.count ≠ 2048 → e.count % 16 = 0 → s.pool.free = [] →
      s.appendPoint e w p clock charged =
        (((s.setStrokes (s.strokes.update e.serial charge)).closeCurrent e.pen
          .poolFull).enterPen e.pen .starved, .consume)) ∧
    (e.count = 2048 → ∀ closed, closed = s.closeCurrent e.pen .split →
      ((512 ≤ closed.strokes.entries.length ∨ closed.pool.free = []) →
        s.appendPoint e w p clock charged =
          ((closed.setStrokes (closed.strokes.update e.serial charge)).enterPen e.pen .starved,
            .consume)) ∧
      (∀ block free, closed.strokes.entries.length < 512 → closed.pool.free = block :: free →
        ∃ (c : Stroke) (first : Point) (opened : State),
          first = { pointAt s.pool e 2047 with liftBefore := false, offset := 0 } ∧
          c = { entry := lowestFreeFrom 0 closed.strokes.entries
                serial := freshSerial closed.strokes, page := e.page, pen := e.pen
                source := e.source, state := .opened, colour := e.colour, width := e.width
                start := s.deviceTime, count := 1, contact := 0
                box := ⟨first.x, first.x, first.y, first.y⟩, chain := [block], cause := none
                outcome := none, predecessor := some e.serial } ∧
          opened = closed.openStroke { closed.pool with free } c first w.lastKept.clock ∧
          (charged = true → s.appendPoint e w p clock charged =
            (opened.storePoint c none opened.pool
              { p with offset := min (clock - w.lastKept.clock).toNat 65535 } clock charged,
              .judge)) ∧
          (charged = false → s.appendPoint e w p clock charged =
            (opened.storePoint c none opened.pool p clock charged, .judge))))) ∧
  (∀ (s : State) (pool : Pool) (e : Stroke) (first : Point) (clock : Long),
    s.openStroke pool e first clock =
      (((s.setStrokes ⟨insertStroke e s.strokes.entries, nextSerial e.serial⟩).setPool
          { pool with cells := Memory.write pool.cells (pointKey e.chain 0) first }).setChannel
        e.pen { s.channel e.pen with
          current := some e.serial
          working := some ⟨clock, ⟨first.x, first.y, clock⟩, ⟨first, clock, true⟩⟩ }).mapReachedSlots
            e (slotOpened e)) ∧
  (∀ (s : State) (e grown : Stroke) (block : Option Nat) (pool : Pool) (p : Point) (clock : Long)
    (charged : Bool) (grow : Stroke → Stroke),
    grow = (fun x =>
      { x with
        count := x.count + 1
        contact := if charged then min (x.contact + 1) 65535 else x.contact
        box := ⟨min x.box.xmin p.x, max x.box.xmax p.x, min x.box.ymin p.y, max x.box.ymax p.y⟩
        chain := x.chain ++ block.toList }) →
    grown = grow e →
    s.storePoint e block pool p clock charged =
      (((s.setStrokes (s.strokes.update e.serial grow)).setPool
          { pool with
            cells := Memory.write pool.cells (pointKey grown.chain e.count) p }).setChannel e.pen
        { s.channel e.pen with
          working := (s.channel e.pen).working.map fun w =>
            { w with lastKept := ⟨p.x, p.y, clock⟩, lastConditioned := ⟨p, clock, true⟩ } }
        ).mapReachedSlots e (slotExtended grown))

/-- A commit marks the stroke, puts it on top of its page, raises the revision by one, pushes the undo
stack and sends a COMMIT notice to every ring that asks for it; a revision at its largest value stays
there (R55, R58, R78). No other stroke, pen, page, block, snapshot or live slot is touched. -/
def Obligations.CommitEntersThePage : Prop :=
  (∀ (s : State) (e : Stroke), s.stroke? e.serial = some e →
    (s.page e.page).revision.toNat < 2 ^ 32 - 1 →
    ((s.commitStroke e).stroke? e.serial = some { e with state := .committed }) ∧
    (s.commitStroke e).page e.page =
      { s.page e.page with
        list := (s.page e.page).list ++ [e.serial], revision := (s.page e.page).revision + 1 } ∧
    ((s.commitStroke e).channel e.pen).undo = e.serial :: (s.channel e.pen).undo.take 7 ∧
    (∀ p, (s.commitStroke e).ring p =
      if maskHas (s.ring p).kindMask 0 && maskHas (s.ring p).pageMask e.page.val then
        ringReceive (.commit e.page e.serial e.pen e.count e.box e.colour e.width
          ((s.page e.page).revision + 1) e.predecessor) (s.ring p)
      else s.ring p) ∧
    (s.commitStroke e).pool = s.pool ∧
    (∀ pg, pg ≠ e.page → (s.commitStroke e).page pg = s.page pg)) ∧
  (∀ (s : State) (e : Stroke), s.SameOutside (s.commitStroke e) ∧
    (s.commitStroke e).links = s.links ∧
    (∀ k, k ≠ e.serial → (s.commitStroke e).stroke? k = s.stroke? k) ∧
    (s.commitStroke e).strokes.counter = s.strokes.counter ∧
    ((s.commitStroke e).page e.page).list = (s.page e.page).list ++ [e.serial] ∧
    ((s.page e.page).revision.toNat = 2 ^ 32 - 1 →
      ((s.commitStroke e).page e.page).revision = (s.page e.page).revision) ∧
    (s.commitStroke e).channel e.pen =
      { s.channel e.pen with undo := e.serial :: (s.channel e.pen).undo.take 7 } ∧
    (∀ pen, pen ≠ e.pen → (s.commitStroke e).channel pen = s.channel pen) ∧
    (s.commitStroke e).snapshots = s.snapshots ∧ (s.commitStroke e).live = s.live)

/-- What the commands on strokes, pages and timers leave alone (the frame of `Instr.onStrokes`),
whatever they answer: the phase, the time base, the settings store, every lock flag, the masks and get
index of every ring, every mute mask, the rest of every link but SNAP_BROKEN, and the pen clock,
position and target page of every pen but the one whose samples are taken. -/
def Obligations.StrokeCommandsLeaveTheRestAlone : Prop :=
  ∀ (c : Instr) (s t : State), c.onStrokes = true → exec c s = .next t →
    t.phase = s.phase ∧ t.deviceTime = s.deviceTime ∧ t.mirror = s.mirror ∧ t.image = s.image ∧
    t.indicator = s.indicator ∧ t.save = s.save ∧ t.freeCount = s.freeCount ∧
    (∀ pg, (t.page pg).locked = (s.page pg).locked ∧
      (s.page pg).revision.toNat ≤ (t.page pg).revision.toNat) ∧
    (∀ q, (t.ring q).pageMask = (s.ring q).pageMask ∧ (t.ring q).kindMask = (s.ring q).kindMask ∧
      (t.ring q).get = (s.ring q).get ∧ (t.livePort q).mute = (s.livePort q).mute) ∧
    (∀ q, (t.link q).lastTag = (s.link q).lastTag ∧ (t.link q).restarted = (s.link q).restarted ∧
      (t.link q).frameFault = (s.link q).frameFault ∧
      (t.link q).attentionMask = (s.link q).attentionMask ∧
      (t.link q).threshold = (s.link q).threshold ∧ (t.link q).frame = (s.link q).frame) ∧
    (∀ q, (∀ w, wireRequest c = some w → w.port ≠ q) →
      (t.link q).state = (s.link q).state ∧ (t.link q).forming = (s.link q).forming) ∧
    (∀ pen, (∀ p tag samples, c ≠ .submitSamples p tag (penCode pen) samples) →
      (t.channel pen).clock = (s.channel pen).clock ∧
      (t.channel pen).position = (s.channel pen).position ∧
      (t.channel pen).target = (s.channel pen).target)

/-! ## Timers -/

/-- The silence timer's expiry stops the timer and puts the pen in AWAY with its notice. It ends the
stroke of a pen that was drawing, classified with PEN_LOST, after the lift buffer was emptied; it empties
the buffer of a pen that was confirming; it touches no stroke otherwise (R15). The rejoin timer's expiry
classifies the CLOSING stroke with PEN_UP: the pen has no current stroke and no rejoin timer, and its
state does not change (R13, R47). An expiry of a timer that is stopped or not yet due changes nothing
(log 3). -/
def Obligations.PenTimersExpire : Prop :=
  ∀ (pen : Pen) (s : State),
    (s.phase = .running → s.Due (s.channel pen).silence →
      ∃ t, exec (.silenceExpiry pen) s = .next t ∧ s.SameOutside t ∧
        (t.channel pen).state = .away ∧ (t.channel pen).silence = none ∧
        ((s.channel pen).state = .away →
          t = s.setChannel pen { s.channel pen with silence := none }) ∧
        (((s.channel pen).state = .hover ∨ (s.channel pen).state = .blocked ∨
            (s.channel pen).state = .starved) →
          t = (s.setChannel pen { s.channel pen with silence := none }).enterPen pen .away) ∧
        ((s.channel pen).state = .pressing →
          t = (s.setChannel pen { s.channel pen with silence := none, down := [] }).enterPen pen
            .away) ∧
        (∀ c, ((s.channel pen).state = .inking ∧ c = (s.channel pen).lift ∨
            (s.channel pen).state = .lifting ∧ c = []) →
          (s.currentStroke pen = none →
            t = (s.setChannel pen { s.channel pen with
              silence := none, lift := c, current := none, working := none
              rejoin := none }).enterPen pen .away) ∧
          (∀ e, s.currentStroke pen = some e →
            t = ((s.setChannel pen { s.channel pen with
              silence := none, lift := c, current := none, working := none
              rejoin := none }).classify e .penLost).enterPen pen .away)) ∧
        (((s.channel pen).state = .inking ∨ (s.channel pen).state = .lifting) →
          (t.channel pen).current = none) ∧
        ((s.channel pen).state ≠ .inking → (s.channel pen).state ≠ .lifting →
          (t.channel pen).current = (s.channel pen).current ∧ t.strokes = s.strokes ∧
          t.pool = s.pool ∧ t.pages = s.pages ∧ t.snapshots = s.snapshots)) ∧
    ((s.phase ≠ .running ∨ ¬ s.Due (s.channel pen).silence) →
      exec (.silenceExpiry pen) s = .next s) ∧
    (s.phase = .running → s.Due (s.channel pen).rejoin →
      ∃ t c, exec (.rejoinExpiry pen) s = .next t ∧ s.SameOutside t ∧
        c = { s.channel pen with current := none, working := none, rejoin := none } ∧
        (∀ e, s.currentStroke pen = some e →
          t = (s.setChannel pen c).classify e .penUp) ∧
        (s.currentStroke pen = none → t = s.setChannel pen c) ∧
        (t.channel pen).current = none ∧ (t.channel pen).rejoin = none ∧
        (t.channel pen).working = none ∧ (t.channel pen).state = (s.channel pen).state ∧
        (∀ k, (t.channel k).clock = (s.channel k).clock ∧
          (t.channel k).silence = (s.channel k).silence)) ∧
    ((s.phase ≠ .running ∨ ¬ s.Due (s.channel pen).rejoin) →
      exec (.rejoinExpiry pen) s = .next s)

/-- The limit timer's expiry breaks the snapshot: the held items are applied from the first filed to the
last, its record is BROKEN, its page has no occupant, the owner's SNAP_BROKEN flag is set, and nothing
else is changed (R108; log 3 for an expiry that is not due); a break by overflow is the same change
(R107). An item is applied to the page as it stands at its turn (R105): a commit item commits its
stroke; an erase item removes its stroke with the item's cause where it is still COMMITTED on the page,
and does nothing where it is gone; a clear item clears the page. -/
def Obligations.SnapLimitExpiryBreaksTheSnapshot : Prop :=
  (∀ (p : Port) (s : State) (a : ActiveSnapshot), s.snapshot p = some (.active a) →
    (s.phase = .running → s.Due (some a.timer) →
      ∃ t ended, exec (.snapLimitExpiry p) s = .next t ∧ s.SameOutside t ∧ s.SameChannels t ∧
        ended = s.snapshotOver p a (some (.broken a.page)) ∧
        t = ended.setLink p { s.link p with snapBroken := true } ∧ t = s.breakSnapshot p a ∧
        t.snapshot p = some (.broken a.page) ∧ (t.page a.page).occupant = .none ∧
        (t.link p).snapBroken = true ∧
        (a.hold = [] → t.page a.page = { s.page a.page with occupant := .none } ∧
          t.strokes = s.strokes ∧ t.pool = s.pool ∧ t.rings = s.rings)) ∧
    ((s.phase ≠ .running ∨ ¬ s.Due (some a.timer)) → exec (.snapLimitExpiry p) s = .next s)) ∧
  (∀ (s : State) (a : ActiveSnapshot) (item : HoldItem) (rest : List HoldItem),
    s.itemsApplied { a with hold := [] } = s ∧
    s.itemsApplied { a with hold := item :: rest } =
      (State.applyItem a.page s item).itemsApplied { a with hold := rest }) ∧
  (∀ (s : State) (pg : Page) (e : Stroke) (cause : EraseCause), s.stroke? e.serial = some e →
    State.applyItem pg s (.commit e.serial) = s.commitStroke e ∧
    (e.state = .committed → e.page = pg →
      s.StrokeRemoved e cause (State.applyItem pg s (.erase e.serial cause)))) ∧
  (∀ (s : State) (pg : Page) (serial : Serial) (cause : EraseCause), s.stroke? serial = none →
    State.applyItem pg s (.erase serial cause) = s) ∧
  (∀ (s : State) (pg : Page), s.PageCleared pg (State.applyItem pg s .clear))

/-! ## Erasing -/

/-- ERASE_STROKE of a COMMITTED stroke, and UNDO of the stroke on top of the pen's undo stack, on an
unlocked page that no snapshot holds, remove the stroke and nothing else: off the page and off a scan's
visit list, revision up by one, one ERASE notice with its cause, its chain at the tail of the free-block
list, its entry FREE, off its pen's undo stack, its live slots emptied. Both answers carry the serial
and the page, that of ERASE_STROKE the revision too (R56, R59, R68, R83, R84, R85). ERASE_STROKE is
refused NOT_FOUND, STROKE_ACTIVE and LOCKED, UNDO NOT_FOUND and LOCKED, in that order. -/
def Obligations.EraseAndUndoRemoveOneStroke : Prop :=
  (∀ (p : Port) (tag : Byte) (s : State), s.Admits p → (s.permissions p).edit = true →
    (∀ serial : Serial, (serial = 0 ∨ s.stroke? serial = none) →
      exec (.eraseStroke p tag serial) s = .next (s.answered p tag .notFound [])) ∧
    (∀ e : Stroke, e.serial ≠ 0 → s.stroke? e.serial = some e →
      ((e.state = .opened ∨ e.state = .closing) →
        exec (.eraseStroke p tag e.serial) s = .next (s.answered p tag .strokeActive [])) ∧
      ((e.state = .held ∨ e.state = .committed) → (s.page e.page).locked = true →
        exec (.eraseStroke p tag e.serial) s = .next (s.answered p tag .locked []))) ∧
    (∀ pen : Pen, (s.channel pen).undo = [] →
      exec (.undo p tag (penCode pen)) s = .next (s.answered p tag .notFound [])) ∧
    (∀ (pen : Pen) (e : Stroke) (rest : List Serial), (s.channel pen).undo = e.serial :: rest →
      s.stroke? e.serial = some e → (s.page e.page).locked = true →
      exec (.undo p tag (penCode pen)) s = .next (s.answered p tag .locked []))) ∧
  ∀ (p : Port) (tag : Byte) (s : State) (e : Stroke), s.Admits p →
    (s.permissions p).edit = true → s.stroke? e.serial = some e →
    (s.page e.page).locked = false → s.Unheld e.page →
    (e.serial ≠ 0 → e.state = .committed →
      ∃ u t, exec (.eraseStroke p tag e.serial) s = .next t ∧
        s.AnsweredWith p tag .ok
          (longBytes e.serial ++ [pageCode e.page] ++ longBytes (u.page e.page).revision) u t ∧
        (s.admitted p tag).StrokeRemoved e .request u ∧
        (u.channel e.pen).undo = (s.channel e.pen).undo.erase e.serial) ∧
    (∀ rest, (s.channel e.pen).undo = e.serial :: rest →
      ∃ popped u t, exec (.undo p tag (penCode e.pen)) s = .next t ∧
        popped = (s.admitted p tag).setChannel e.pen { s.channel e.pen with undo := rest } ∧
        s.AnsweredWith p tag .ok (longBytes e.serial ++ [pageCode e.page]) u t ∧
        popped.StrokeRemoved e .undo u ∧
        (u.channel e.pen).undo = rest.erase e.serial)

/-- On a page held by a snapshot with room in its hold list, ERASE_STROKE of a COMMITTED stroke, UNDO
and CLEAR_PAGE file an item at the end of the list, or none where it is there already, and are answered
OK_DEFERRED; the page, its strokes and the rings stand (R59, R86, R90, R101, R103). CLEAR_PAGE then
carries the frozen revision and a count of 0. ERASE_STROKE of a HELD stroke withdraws its commit item
and frees its entry (R87). As the seventeenth item each breaks the snapshot and is then carried out on
the page as it stands: a stroke still COMMITTED is removed, a page is cleared, and the answer is OK
(R107; that UNDO carries the revision then is log 15). -/
def Obligations.ErasuresUnderASnapshotAreFiled : Prop :=
  ∀ (p owner : Port) (tag : Byte) (pg : Page) (a : ActiveSnapshot) (s : State), s.Admits p →
    (s.permissions p).edit = true → (s.page pg).locked = false →
    (s.page pg).occupant = .snapshot owner → s.snapshot owner = some (.active a) →
    (∀ e : Stroke, e.serial ≠ 0 → s.stroke? e.serial = some e → e.page = pg →
      ∃ payload, payload =
          longBytes e.serial ++ [pageCode pg] ++ longBytes (s.page pg).revision ∧
        (e.state = .committed → (∃ cause, HoldItem.erase e.serial cause ∈ a.hold) →
          exec (.eraseStroke p tag e.serial) s =
            .next (s.answered p tag .okDeferred payload)) ∧
        (e.state = .committed → (∀ cause, HoldItem.erase e.serial cause ∉ a.hold) →
          a.hold.length < 16 →
          exec (.eraseStroke p tag e.serial) s = .next
            (((s.admitted p tag).setSnapshot owner (some (.active
              { a with hold := a.hold ++ [.erase e.serial .request] }))).formAnswer p
                ⟨.okDeferred, tag, payload⟩)) ∧
        (e.state = .committed → (∀ cause, HoldItem.erase e.serial cause ∉ a.hold) →
          16 ≤ a.hold.length →
          ∃ broken u, broken = (s.admitted p tag).breakSnapshot owner a ∧
            (∀ e', broken.stroke? e.serial = some e' → e'.state = .committed → e'.page = pg →
              broken.StrokeRemoved e' .request u) ∧
            (broken.stroke? e.serial = none → u = broken) ∧
            exec (.eraseStroke p tag e.serial) s = .next (u.formAnswer p ⟨.ok, tag,
              longBytes e.serial ++ [pageCode pg] ++ longBytes (u.page pg).revision⟩)) ∧
        (e.state = .held →
          ∃ u, exec (.eraseStroke p tag e.serial) s = .next (u.formAnswer p ⟨.ok, tag, payload⟩) ∧
            ((s.admitted p tag).setSnapshot owner (some (.active
              { a with hold := a.hold.erase (.commit e.serial) }))).EntryFreed .removed e u)) ∧
    (∀ (e : Stroke) (pen : Pen) (rest : List Serial), (s.channel pen).undo = e.serial :: rest →
      s.stroke? e.serial = some e → e.page = pg →
      ∃ popped payload,
        popped = (s.admitted p tag).setChannel pen { s.channel pen with undo := rest } ∧
        payload = longBytes e.serial ++ [pageCode pg] ∧
        ((∃ cause, HoldItem.erase e.serial cause ∈ a.hold) →
          exec (.undo p tag (penCode pen)) s =
            .next (popped.formAnswer p ⟨.okDeferred, tag, payload⟩)) ∧
        ((∀ cause, HoldItem.erase e.serial cause ∉ a.hold) → a.hold.length < 16 →
          exec (.undo p tag (penCode pen)) s = .next
            ((popped.setSnapshot owner (some (.active
              { a with hold := a.hold ++ [.erase e.serial .undo] }))).formAnswer p
                ⟨.okDeferred, tag, payload⟩)) ∧
        ((∀ cause, HoldItem.erase e.serial cause ∉ a.hold) → 16 ≤ a.hold.length →
          ∃ broken u, broken = popped.breakSnapshot owner a ∧
            (∀ e', broken.stroke? e.serial = some e' → e'.state = .committed → e'.page = pg →
              broken.StrokeRemoved e' .undo u) ∧
            (broken.stroke? e.serial = none → u = broken) ∧
            exec (.undo p tag (penCode pen)) s = .next (u.formAnswer p ⟨.ok, tag,
              payload ++ longBytes (u.page pg).revision⟩))) ∧
    (HoldItem.clear ∈ a.hold →
      exec (.clearPage p tag (pageCode pg)) s = .next
        (s.answered p tag .okDeferred (longBytes a.frozen ++ natWord 0))) ∧
    (HoldItem.clear ∉ a.hold → a.hold.length < 16 →
      exec (.clearPage p tag (pageCode pg)) s = .next
        (((s.admitted p tag).setSnapshot owner (some (.active
          { a with hold := a.hold ++ [.clear] }))).formAnswer p
            ⟨.okDeferred, tag, longBytes a.frozen ++ natWord 0⟩)) ∧
    (HoldItem.clear ∉ a.hold → 16 ≤ a.hold.length →
      ∃ broken u, broken = (s.admitted p tag).breakSnapshot owner a ∧ broken.PageCleared pg u ∧
        exec (.clearPage p tag (pageCode pg)) s = .next (u.formAnswer p ⟨.ok, tag,
          natWord (broken.page pg).list.length ++ longBytes (u.page pg).revision⟩))

/-- CLEAR_PAGE on an unlocked page without an occupant empties its list, raises its revision once where
a stroke stood on it, frees the strokes from the bottom up, sends one CLEAR notice with the count, and
answers with the count and the revision (R89, R90). On a page being scanned it is answered PAGE_BUSY,
on a locked one LOCKED. -/
def Obligations.ClearPageEmptiesThePage : Prop :=
  ∀ (p : Port) (tag : Byte) (pg : Page) (s : State), s.Admits p → (s.permissions p).edit = true →
    ((s.page pg).locked = true →
      exec (.clearPage p tag (pageCode pg)) s = .next (s.answered p tag .locked [])) ∧
    ((s.page pg).locked = false → ∀ r, (s.page pg).occupant = .scan r →
      exec (.clearPage p tag (pageCode pg)) s = .next (s.answered p tag .pageBusy [])) ∧
    ((s.page pg).locked = false → (s.page pg).occupant = .none →
      ∃ u t, exec (.clearPage p tag (pageCode pg)) s = .next t ∧
        s.AnsweredWith p tag .ok
          (natWord (s.page pg).list.length ++ longBytes (u.page pg).revision) u t ∧
        (s.admitted p tag).PageCleared pg u ∧
        s.SameChannels u ∧ (u.page pg).list = [] ∧
        (u.page pg).revision = (if (s.page pg).list = [] then (s.page pg).revision
          else nextRevision (s.page pg).revision) ∧
        u.pool.cells = s.pool.cells ∧ u.snapshots = s.snapshots ∧
        (∀ k, k ≠ pg → u.page k = s.page k))

/-- ERASE_REGION on an unlocked page without an occupant begins its scan and leaves its link WORKING
with no answer: the rectangle in order and on the canvas, marked adjusted where that changed a corner,
the visit list the committed list (R91, R93). A mode that is none is answered RANGE, a locked page
LOCKED, a page with an occupant PAGE_BUSY, in that order. -/
def Obligations.EraseRegionBeginsAScan : Prop :=
  ∀ (p : Port) (tag : Byte) (pg : Page) (x0 y0 x1 y1 : Word) (mode : Byte) (s : State), s.Admits p →
    (s.permissions p).edit = true →
    (1 < mode.toNat → exec (.eraseRegion p tag (pageCode pg) x0 y0 x1 y1 mode) s =
      .next (s.answered p tag .range [])) ∧
    (mode.toNat ≤ 1 → (s.page pg).locked = true →
      exec (.eraseRegion p tag (pageCode pg) x0 y0 x1 y1 mode) s =
        .next (s.answered p tag .locked [])) ∧
    (mode.toNat ≤ 1 → (s.page pg).locked = false → (s.page pg).occupant ≠ .none →
      exec (.eraseRegion p tag (pageCode pg) x0 y0 x1 y1 mode) s =
        .next (s.answered p tag .pageBusy [])) ∧
    (mode.toNat ≤ 1 → (s.page pg).locked = false → (s.page pg).occupant = .none →
    ∃ r : Scan, exec (.eraseRegion p tag (pageCode pg) x0 y0 x1 y1 mode) s = .next
        ((s.admitted p tag).setPage pg { s.page pg with occupant := .scan r }) ∧
      r.requester = p ∧ r.tag = tag ∧ r.removed = 0 ∧ r.wanted = true ∧
      r.visits = (s.page pg).list ∧
      r.mode = (if mode = 0 then .inside else .touch) ∧
      r.rect = ⟨min (min x0.toNat x1.toNat) 15999, min (min y0.toNat y1.toNat) 8999,
        min (max x0.toNat x1.toNat) 15999, min (max y0.toNat y1.toNat) 8999⟩ ∧
      (r.adjusted = false ↔ x0.toNat ≤ x1.toNat ∧ y0.toNat ≤ y1.toNat ∧
        x1.toNat ≤ 15999 ∧ y1.toNat ≤ 8999))

/-- A stroke's box matches the scan rectangle by the scan's mode (R92). -/
def Obligations.BoxesMatchByMode : Prop :=
  ∀ (r : Rect) (b : Box),
    (boxMatches .inside r b = true ↔
      b.xmin ≥ r.x0 ∧ b.xmax ≤ r.x1 ∧ b.ymin ≥ r.y0 ∧ b.ymax ≤ r.y1) ∧
    (boxMatches .touch r b = true ↔
      b.xmin ≤ r.x1 ∧ b.xmax ≥ r.x0 ∧ b.ymin ≤ r.y1 ∧ b.ymax ≥ r.y0) ∧
    (b.xmin ≤ b.xmax → b.ymin ≤ b.ymax → r.x0 ≤ r.x1 → r.y0 ≤ r.y1 →
      boxMatches .inside r b = true → boxMatches .touch r b = true)

/-- A visit takes the bottom serial off the visit list; its stroke is removed with cause REGION, with
its ERASE notice, and counted, where its box matches, and left where it does not (R94). A scan whose visit list is empty completes: the page is
free, and the answer is ready on the requester's link where it is still wanted, and discarded where it
is not (R95, R147). -/
def Obligations.ScansVisitAndComplete : Prop :=
  ∀ (pg : Page) (r : Scan) (s : State), s.phase = .running → (s.page pg).occupant = .scan r →
    (∀ serial rest e, r.visits = serial :: rest → s.stroke? serial = some e → e.page = pg →
      (boxMatches r.mode r.rect e.box = false →
        exec (.scanVisit pg) s = .next (s.setPage pg
          { s.page pg with occupant := .scan { r with visits := rest } })) ∧
      (boxMatches r.mode r.rect e.box = true →
        ∃ t counted, exec (.scanVisit pg) s = .next t ∧ s.SameOutside t ∧ s.SameChannels t ∧
          counted = s.setPage pg { s.page pg with
            occupant := .scan { r with visits := rest, removed := r.removed + 1 } } ∧
          counted.StrokeRemoved e .region t ∧
          t.stroke? serial = none ∧ t.pool.free = s.pool.free ++ e.chain ∧
          (t.page pg).list = (s.page pg).list.erase serial ∧
          (t.page pg).revision = nextRevision (s.page pg).revision ∧
          (t.page pg).occupant =
            .scan { r with visits := rest.erase serial, removed := r.removed + 1 } ∧
          (∀ k, k ≠ pg → t.page k = s.page k))) ∧
    (r.visits = [] →
      ∃ answer : Answer,
        answer = ⟨if r.adjusted then .okAdjusted else .ok, r.tag,
          [pageCode pg] ++ natWord r.removed ++ longBytes (s.page pg).revision⟩ ∧
        (r.wanted = true → exec (.scanComplete pg) s = .next
          ((s.setPage pg { s.page pg with occupant := .none }).setLink r.requester
            { s.link r.requester with state := .answerReady answer })) ∧
        (r.wanted = false → exec (.scanComplete pg) s = .next
          (s.setPage pg { s.page pg with occupant := .none })))

/-! ## Pages, snapshots, rings -/

/-- LOCK_PAGE and UNLOCK_PAGE set and clear the flag, send a PAGE notice where it changes, and answer
with the flag and the revision; without ROOM they are DENIED, and above page 15 RANGE (R81). -/
def Obligations.LockAndUnlockSetTheFlag : Prop :=
  (∀ (p : Port) (tag b : Byte) (s : State), s.Admits p →
    ((s.permissions p).room = false →
      exec (.lockPage p tag b) s = .next (s.answered p tag .denied []) ∧
      exec (.unlockPage p tag b) s = .next (s.answered p tag .denied [])) ∧
    ((s.permissions p).room = true → 15 < b.toNat →
      exec (.lockPage p tag b) s = .next (s.answered p tag .range []) ∧
      exec (.unlockPage p tag b) s = .next (s.answered p tag .range []))) ∧
  ∀ (p : Port) (tag : Byte) (pg : Page) (s : State), s.Admits p → (s.permissions p).room = true →
    (∀ (c : Instr) (want : Bool),
      ((c = .lockPage p tag (pageCode pg) ∧ want = true) ∨
        (c = .unlockPage p tag (pageCode pg) ∧ want = false)) →
      ((s.page pg).locked = want → exec c s = .next
        (s.answered p tag .ok ([flagByte want] ++ longBytes (s.page pg).revision))) ∧
      ((s.page pg).locked ≠ want → exec c s = .next
        ((((s.admitted p tag).setPage pg { s.page pg with locked := want }).route
          (.page pg want (s.page pg).revision)).formAnswer p
            ⟨.ok, tag, [flagByte want] ++ longBytes (s.page pg).revision⟩)))

/-- SNAPSHOT_BEGIN on a page without an occupant freezes it for the port, with the limit timer started
at SNAP_LIMIT and an empty hold list; it is refused by the four checks in their order (R102). That the
answer sends SNAP_LIMIT in two bytes is log 22. -/
def Obligations.SnapshotBeginFreezesThePage : Prop :=
  (∀ (p : Port) (tag b : Byte) (s : State), s.Admits p →
    ((s.permissions p).view = false →
      exec (.snapshotBegin p tag b) s = .next (s.answered p tag .denied [])) ∧
    ((s.permissions p).view = true → 15 < b.toNat →
      exec (.snapshotBegin p tag b) s = .next (s.answered p tag .range []))) ∧
  ∀ (p : Port) (tag : Byte) (pg : Page) (s : State), s.Admits p → (s.permissions p).view = true →
    ((∃ a, s.snapshot p = some (.active a)) →
      exec (.snapshotBegin p tag (pageCode pg)) s = .next (s.answered p tag .already [])) ∧
    ((∀ a, s.snapshot p ≠ some (.active a)) →
      ((s.page pg).occupant ≠ .none →
        exec (.snapshotBegin p tag (pageCode pg)) s = .next (s.answered p tag .pageBusy [])) ∧
      ((s.page pg).occupant = .none →
        exec (.snapshotBegin p tag (pageCode pg)) s = .next
          ((((s.admitted p tag).setSnapshot p (some (.active
            { page := pg, frozen := (s.page pg).revision
              timer := ⟨s.deviceTime, s.mirror.snapLimit⟩, hold := [] }))).setPage pg
            { s.page pg with occupant := .snapshot p }).formAnswer p
              ⟨.ok, tag, [pageCode pg] ++ longBytes (s.page pg).revision
                ++ natWord (s.page pg).list.length ++ wordBytes s.mirror.snapLimit⟩)))

/-- SNAPSHOT_END frees the page and clears the record: the page leaves the port's resync set, then the
held items are applied (R105), the page has no occupant and the port no record; with an empty hold list
nothing else changes (R106). The answer carries the page, both revisions and the number of items (that it
has one byte is log 22). A BROKEN record is cleared and answered SNAPSHOT_BROKEN with its page; without a record the answer is
NO_SNAPSHOT. -/
def Obligations.SnapshotEndFreesThePage : Prop :=
  ∀ (p : Port) (tag : Byte) (s : State), s.Admits p → (s.permissions p).view = true →
    (s.snapshot p = none →
      exec (.snapshotEnd p tag) s = .next (s.answered p tag .noSnapshot [])) ∧
    (∀ pg, s.snapshot p = some (.broken pg) →
      exec (.snapshotEnd p tag) s = .next
        (((s.admitted p tag).setSnapshot p none).formAnswer p
          ⟨.snapshotBroken, tag, [pageCode pg]⟩)) ∧
    (∀ a, s.snapshot p = some (.active a) →
      ∃ resynced u t, exec (.snapshotEnd p tag) s = .next t ∧
        resynced = (s.admitted p tag).setRing p
          { s.ring p with resync := maskDrop (s.ring p).resync a.page.val } ∧
        u = resynced.snapshotOver p a none ∧
        s.AnsweredWith p tag .ok
          ([pageCode a.page] ++ longBytes a.frozen ++ longBytes (u.page a.page).revision
            ++ natByte a.hold.length) u t ∧
        s.SameChannels u ∧ u.snapshot p = none ∧ (u.page a.page).occupant = .none ∧
        (a.hold = [] → u = (resynced.setPage a.page
          { s.page a.page with occupant := .none }).setSnapshot p none))

/-- A notice goes to every ring whose kind mask has its kind and whose page mask has its page; a PEN
notice has none and goes by the kind alone (R115). A notice that reaches a ring with room is written at the put index, which advances by one modulo
32 with the fill count, and moves nothing else (R116). One that reaches a full ring is dropped: slots,
indices and fill count stand, and the page of the notice, where it has one, enters the resync set
(R118). Each ring goes by its own fill count and masks. -/
def Obligations.NoticesAreEnteredOrDropped : Prop :=
  (∀ (n : Notice) (r : Ring), r.fill < 32 →
    look (ringReceive n r).slots r.put.toFin = some n ∧
    (∀ i, i ≠ r.put.toFin → look (ringReceive n r).slots i = look r.slots i) ∧
    (ringReceive n r).put = r.put + 1 ∧ (ringReceive n r).fill = r.fill + 1 ∧
    (ringReceive n r).get = r.get ∧ (ringReceive n r).resync = r.resync ∧
    (ringReceive n r).pageMask = r.pageMask ∧ (ringReceive n r).kindMask = r.kindMask) ∧
  (∀ (n : Notice) (r : Ring), r.fill = 32 →
    (∀ pg, noticePage n = some pg →
      ringReceive n r = { r with resync := maskAdd r.resync pg.val }) ∧
    (noticePage n = none → ringReceive n r = r)) ∧
  (∀ (n : Notice) (s : State) (p : Port),
    (s.route n).ring p = if ringWants (s.ring p) n then ringReceive n (s.ring p) else s.ring p) ∧
  (∀ (n : Notice) (r : Ring), ringWants r n = true ↔
    maskHas r.kindMask (noticeKind n - 1) = true ∧
      ∀ pg, noticePage n = some pg → maskHas r.pageMask pg.val = true) ∧
  (∀ (n : Notice), (noticePage n = none ↔ noticeKind n = 5)) ∧
  (∀ (n : Notice) (s : State), s.route n = { s with rings := (s.route n).rings })

/-- SUBSCRIBE replaces the two masks and nothing else; it needs VIEW and a kind mask of the six kinds
(R120). ACK_NOTICES retires from the get index to the index given, which must be in the filled span
(R122). That the answer of ACK_NOTICES sends the number retired in one byte is log 22. -/
def Obligations.SubscribeAndAcknowledge : Prop :=
  ∀ (p : Port) (tag : Byte) (s : State), s.Admits p →
    ((s.permissions p).view = false → ∀ pageMask kindMask,
      exec (.subscribe p tag pageMask kindMask) s = .next (s.answered p tag .denied [])) ∧
    ((s.permissions p).view = true → ∀ (pageMask : Word) (kindMask : Byte), 63 < kindMask.toNat →
      exec (.subscribe p tag pageMask kindMask) s = .next (s.answered p tag .range [])) ∧
    (∀ b : Byte, 31 < b.toNat →
      exec (.ackNotices p tag b) s = .next (s.answered p tag .range [])) ∧
    ((s.permissions p).view = true → ∀ (pageMask : Word) (kindMask : Byte), kindMask.toNat < 64 →
      exec (.subscribe p tag pageMask kindMask) s = .next
        (((s.admitted p tag).setRing p { s.ring p with pageMask, kindMask }).formAnswer p
          ⟨.ok, tag, wordBytes pageMask ++ [kindMask]⟩)) ∧
    (∀ index : BitVec 5,
      ((s.ring p).fill ≤ (index - (s.ring p).get).toNat →
        exec (.ackNotices p tag (index.zeroExtend 8)) s = .next (s.answered p tag .range [])) ∧
      ((index - (s.ring p).get).toNat < (s.ring p).fill →
        ∃ (r : Ring) (n : Nat), n = (index - (s.ring p).get).toNat + 1 ∧
          exec (.ackNotices p tag (index.zeroExtend 8)) s = .next
            (((s.admitted p tag).setRing p r).formAnswer p
              ⟨.ok, tag, [r.get.zeroExtend 8] ++ natByte n ++ natByte r.fill⟩) ∧
          r.get = index + 1 ∧ r.fill = (s.ring p).fill - n ∧ r.put = (s.ring p).put ∧
          r.resync = (s.ring p).resync ∧ r.pageMask = (s.ring p).pageMask ∧
          r.kindMask = (s.ring p).kindMask ∧
          (∀ j : BitVec 5, look r.slots j.toFin =
            if (j - (s.ring p).get).toNat < n then none else look (s.ring p).slots j.toFin)))

/-! ## Live ink -/

/-- LIVE_FETCH without VIEW is DENIED; with no pending slot it is answered with no slot and changes
nothing; with a pending slot it serves the pen of the lowest priority value, the lower pen number among
equals: it gives up to 24 points, its next index moves by them, SKIPPED clears, and the slot is emptied
when its outcome is carried (R136, R137); it says how many slots are pending after it, also where it
gives no point, as of a stroke that a classification to TAP or NOISE has freed (R134). The page, colour, width class and predecessor it gives are the
slot's copies from the open (log 17). A slot is reached where VIEW, page mask and mute mask let it
(R130); it takes a stroke at its open, with SKIPPED where it was still pending (R131; at a split, points
below its available count: log 28), its point count at
each point (R132), its outcome (R133); at a freeing it is cut or emptied (R134); it is pending with
points to give or an outcome (R135). -/
def Obligations.LiveFetchServesOnePendingSlot : Prop :=
  (∀ (p : Port) (tag : Byte) (s : State), s.Admits p →
    ((s.permissions p).view = false →
      exec (.liveFetch p tag) s = .next (s.answered p tag .denied [])) ∧
    ((s.permissions p).view = true →
      (∀ pen, slotPending (look (s.livePort p).slots pen) = false) →
      exec (.liveFetch p tag) s = .next (s.answered p tag .ok [])) ∧
    ((s.permissions p).view = true → ∀ (pen : Pen) (f : Follow), look (s.livePort p).slots pen = some f →
      slotPending (some f) = true →
      (∀ k, k ≠ pen → slotPending (look (s.livePort p).slots k) = true →
        (s.penSettings pen).tuning.priority.toNat < (s.penSettings k).tuning.priority.toNat ∨
          ((s.penSettings pen).tuning.priority = (s.penSettings k).tuning.priority ∧ pen < k)) →
      ∃ (l : LivePort) (k : Nat) (payload : List Byte), k = min (f.available - f.next) 24 ∧
        exec (.liveFetch p tag) s = .next
          (((s.admitted p tag).setLivePort p l).formAnswer p ⟨.ok, tag, payload⟩) ∧
        payload.take 12 = [penCode pen] ++ longBytes f.serial ++
          [pageCode f.page, f.colour, f.width] ++ serialBytes f.predecessor ∧
        (payload.drop 12).take 5 = natWord f.next ++ natByte k ++
          [if f.next + k = f.available then outcomeCode f.outcome else 0, flagByte f.skipped] ∧
        (∀ e, s.stroke? f.serial = some e → payload.drop 17 =
          natByte (allPens.countP fun q => slotPending (look l.slots q)) ++
            (pointsFrom s.pool e f.next k).flatMap pointBytes) ∧
        (k = 0 → payload.drop 17 =
          natByte (allPens.countP fun q => slotPending (look l.slots q))) ∧
        look l.slots pen = (if f.next + k = f.available ∧ f.outcome.isSome then none
          else some { f with next := f.next + k, skipped := false }) ∧
        (∀ q, q ≠ pen → look l.slots q = look (s.livePort p).slots q) ∧
        l.mute = (s.livePort p).mute)) ∧
  (∀ (s : State) (p : Port) (page : Page) (pen : Pen), s.liveReaches p page pen = true ↔
    (s.permissions p).view = true ∧ maskHas (s.ring p).pageMask page.val = true ∧
      maskHas (s.livePort p).mute pen.val = false) ∧
  (∀ (s : State) (e : Stroke) (f : Option Follow → Option Follow),
    s.mapReachedSlots e f = { s with live := (s.mapReachedSlots e f).live } ∧
    ∀ p, ((s.mapReachedSlots e f).livePort p).mute = (s.livePort p).mute ∧
      ∀ pen, look ((s.mapReachedSlots e f).livePort p).slots pen =
        if pen = e.pen ∧ s.liveReaches p e.page e.pen = true then
          f (look (s.livePort p).slots pen)
        else look (s.livePort p).slots pen) ∧
  (∀ (e : Stroke) (slot : Option Follow), ∃ skipped : Bool,
    slotOpened e slot = some
      { serial := e.serial, next := 0, available := e.count, outcome := none, skipped
        page := e.page, colour := e.colour, width := e.width, predecessor := e.predecessor } ∧
    (slot = none → skipped = false) ∧
    (∀ f, slot = some f →
      (e.predecessor = some f.serial → (skipped = true ↔ f.next < f.available)) ∧
      (e.predecessor ≠ some f.serial → skipped = slotPending slot))) ∧
  (∀ (e : Stroke) (outcome : StrokeOutcome) (kind : Freeing),
    slotExtended e none = none ∧ slotJudged e.serial outcome none = none ∧
      slotFreed kind e.serial none = none ∧
    ∀ f : Follow,
      (f.serial = e.serial →
        slotExtended e (some f) = some { f with available := e.count } ∧
        slotJudged e.serial outcome (some f) = some { f with outcome := some outcome } ∧
        slotFreed .classified e.serial (some f) = some { f with available := f.next } ∧
        slotFreed .removed e.serial (some f) = none) ∧
      (f.serial ≠ e.serial →
        slotExtended e (some f) = some f ∧ slotJudged e.serial outcome (some f) = some f ∧
        slotFreed kind e.serial (some f) = some f)) ∧
  slotPending none = false ∧
  (∀ f : Follow, slotPending (some f) = true ↔ f.next < f.available ∨ f.outcome ≠ none)

/-- LIVE_MUTE empties the slots of the pens it newly mutes, stores the mask, answers with it, and
changes nothing else (R139). -/
def Obligations.LiveMuteEmptiesNewlyMutedSlots : Prop :=
  ∀ (p : Port) (tag mask : Byte) (s : State), s.Admits p →
    ((s.permissions p).view = false →
      exec (.liveMute p tag mask) s = .next (s.answered p tag .denied [])) ∧
    ((s.permissions p).view = true →
      ∃ l : LivePort, exec (.liveMute p tag mask) s = .next
          (((s.admitted p tag).setLivePort p l).formAnswer p ⟨.ok, tag, [mask]⟩) ∧
        l.mute = mask ∧
        (∀ pen : Pen, look l.slots pen =
          if maskHas mask pen.val && !maskHas (s.livePort p).mute pen.val then none
          else look (s.livePort p).slots pen))

/-! ## Ports -/

/-- SET_ATTENTION stores the mask and the threshold brought into 1 to 32, and refuses a mask of
anything but the seven conditions (R153); CLEAR_FLAGS clears the flags it names and no other, and
refuses a set of anything but the three flags (R154). That the answer of CLEAR_FLAGS sends the three
flags as one flag set is log 16. -/
def Obligations.AttentionAndFlagsAreSet : Prop :=
  ∀ (p : Port) (tag : Byte) (s : State), s.Admits p →
    (∀ mask threshold : Byte, 127 < mask.toNat →
      exec (.setAttention p tag mask threshold) s = .next (s.answered p tag .range [])) ∧
    (∀ set : Byte, set &&& 0x8F ≠ 0 →
      exec (.clearFlags p tag set) s = .next (s.answered p tag .range [])) ∧
    (∀ mask threshold : Byte, mask.toNat < 128 →
      ∃ stored : Byte, stored.toNat = max 1 (min 32 threshold.toNat) ∧
        exec (.setAttention p tag mask threshold) s = .next
          (((s.admitted p tag).setLink p
              { (s.admitted p tag).link p with attentionMask := mask, threshold := stored }).formAnswer
            p ⟨if stored = threshold then .ok else .okAdjusted, tag, [mask, stored]⟩)) ∧
    (∀ set : Byte, set &&& 0x8F = 0 →
      ∃ l : Link, l = { (s.admitted p tag).link p with
          restarted := (s.link p).restarted && !maskHas set 4
          frameFault := (s.link p).frameFault && !maskHas set 5
          snapBroken := (s.link p).snapBroken && !maskHas set 6 } ∧
        exec (.clearFlags p tag set) s = .next
          (((s.admitted p tag).setLink p l).formAnswer p ⟨.ok, tag, [flagSetByte l]⟩))

/-- The attention line is asserted in RUNNING exactly while a condition in the mask holds: each of the
seven by its own rule (R125, R135, R152, R161). -/
def Obligations.AttentionLineFollowsItsConditions : Prop :=
  ∀ (s : State) (p : Port),
    (s.phase ≠ .running → s.attentionAsserted p = false) ∧
    (s.phase = .running → (s.attentionAsserted p = true ↔
      ∃ i < 7, maskHas (s.link p).attentionMask i = true ∧
        maskHas (s.conditionsHeld p) i = true)) ∧
    (maskHas (s.conditionsHeld p) 0 = true ↔ ∃ a, (s.link p).state = .answerReady a) ∧
    (maskHas (s.conditionsHeld p) 1 = true ↔ (s.link p).threshold.toNat ≤ (s.ring p).fill) ∧
    (maskHas (s.conditionsHeld p) 2 = true ↔
      ∃ pen, slotPending (look (s.livePort p).slots pen) = true) ∧
    (maskHas (s.conditionsHeld p) 3 = true ↔ (s.ring p).resync ≠ 0) ∧
    (maskHas (s.conditionsHeld p) 4 = true ↔ (s.link p).restarted = true) ∧
    (maskHas (s.conditionsHeld p) 5 = true ↔ (s.link p).frameFault = true) ∧
    (maskHas (s.conditionsHeld p) 6 = true ↔ (s.link p).snapBroken = true)

/-- DETACH, on an IDLE link or a WORKING one (R156). The port's answers in work, its scans and its save
are left with no answer wanted (R147). Its snapshot is released, the held items applied and the page
freed (R110). The pens bound to it, in rising pen number (log 18), have their strokes classified with
DETACHED, their buffers emptied and silence timers stopped, and go to AWAY with their notices; every
other pen keeps all but its undo stack (R21). Then ring, live slots and attention take their defaults and
the answer OK is ready. RESTARTED, the last consumed tag, settings, locks, clocks and target pages stand.
That the answer is ready in the same arrival is log 11. -/
def Obligations.DetachResetsThePort : Prop :=
  ∀ (p : Port) (tag : Byte) (s : State), s.phase = .running →
    ((s.link p).state = .idle ∨ ∃ other, (s.link p).state = .working other) →
    ∃ begun unwanted released ended t, exec (.detach p tag) s = .next t ∧
      ((s.link p).state = .idle → begun = s.admitted p tag) ∧
      ((∃ other, (s.link p).state = .working other) → begun = s) ∧
      begun.AnswersUnwanted p unwanted ∧
      (s.snapshot p = none → released = unwanted) ∧
      (∀ pg, s.snapshot p = some (.broken pg) → released = unwanted.setSnapshot p none) ∧
      (∀ a, s.snapshot p = some (.active a) → released = unwanted.snapshotOver p a none) ∧
      ended = allPens.foldl (fun u pen =>
        if (s.penSettings pen).binding = some p then u.activityEnded pen .detached else u) released ∧
      t = ((ended.setRing p ringDefault).setLivePort p livePortDefault).setLink p
        { ended.link p with
          state := .answerReady ⟨.ok, tag, []⟩, frameFault := false, snapBroken := false
          attentionMask := 0x11, threshold := 1 } ∧
      (t.link p).state = .answerReady ⟨.ok, tag, []⟩ ∧
      (t.link p).frameFault = false ∧ (t.link p).snapBroken = false ∧
      (t.link p).attentionMask = 0x11 ∧ (t.link p).threshold = 1 ∧
      (t.link p).restarted = (s.link p).restarted ∧ (t.link p).lastTag = (s.link p).lastTag ∧
      (∀ f ∈ (t.link p).forming, f.wanted = false) ∧
      t.snapshot p = none ∧ t.ring p = ringDefault ∧ t.livePort p = livePortDefault ∧
      (∀ pen, (s.penSettings pen).binding = some p →
        (t.channel pen).state = .away ∧ (t.channel pen).current = none ∧
        (t.channel pen).down = [] ∧ (t.channel pen).lift = [] ∧
        (t.channel pen).silence = none ∧ (t.channel pen).rejoin = none) ∧
      (∀ pen, (s.penSettings pen).binding ≠ some p →
        t.channel pen = { s.channel pen with undo := (t.channel pen).undo }) ∧
      (∀ pen, (t.channel pen).clock = (s.channel pen).clock ∧
        (t.channel pen).position = (s.channel pen).position ∧
        (t.channel pen).target = (s.channel pen).target) ∧
      (∀ pg, (t.page pg).locked = (s.page pg).locked ∧
        (s.page pg).revision.toNat ≤ (t.page pg).revision.toNat) ∧
      (∀ v, s.save = some v →
        t.save = some { v with wanted := v.wanted && decide (v.requester ≠ p) }) ∧
      t.mirror = s.mirror ∧ t.image = s.image ∧ t.deviceTime = s.deviceTime ∧
      (∀ q, q ≠ p → { t.link q with snapBroken := false } = { s.link q with snapBroken := false })

/-! ## Settings of the device -/

/-- SET_PERMISSIONS stores the set, unless no port would hold ROOM; where it removes VIEW the named
port loses its snapshot, with the held items applied first and no flag set (R110), its masks and its
live slots, and keeps its ring, its resync set and its mute mask (R150, R151). A port number above 3 and
a set beyond the four are answered RANGE. -/
def Obligations.SetPermissionsStoresTheSet : Prop :=
  (∀ (p : Port) (tag named set : Byte) (s : State), s.Admits p → (s.permissions p).room = true →
    (3 < named.toNat ∨ 15 < set.toNat) →
    exec (.setPermissions p tag named set) s = .next (s.answered p tag .range [])) ∧
  ∀ (p q : Port) (tag : Byte) (set : Permissions) (s : State), s.Admits p →
    (s.permissions p).room = true →
    ((s.setPermissions q set).mirror.someRoom = false →
      exec (.setPermissions p tag (portCode q) (permissionsByte set)) s =
        .next (s.answered p tag .lastRoom [])) ∧
    ((s.setPermissions q set).mirror.someRoom = true →
      (((s.permissions q).view = false ∨ set.view = true) →
        exec (.setPermissions p tag (portCode q) (permissionsByte set)) s = .next
          (((s.admitted p tag).setPermissions q set).formAnswer p
            ⟨.ok, tag, [portCode q, permissionsByte set]⟩)) ∧
      ((s.permissions q).view = true → set.view = false →
        ∃ stored released u, stored = (s.admitted p tag).setPermissions q set ∧
          (s.snapshot q = none → released = stored) ∧
          (∀ pg, s.snapshot q = some (.broken pg) → released = stored.setSnapshot q none) ∧
          (∀ a, s.snapshot q = some (.active a) → released = stored.snapshotOver q a none) ∧
          u = (released.setRing q { released.ring q with pageMask := 0, kindMask := 0 }).setLivePort
            q ⟨Vector.replicate 8 none, (s.livePort q).mute⟩ ∧
          exec (.setPermissions p tag (portCode q) (permissionsByte set)) s =
            .next (u.formAnswer p ⟨.ok, tag, [portCode q, permissionsByte set]⟩) ∧
          stored.SameOutside u ∧ s.SameChannels u ∧
          u.snapshot q = none ∧ (u.ring q).pageMask = 0 ∧ (u.ring q).kindMask = 0 ∧
          (u.ring q).get = (s.ring q).get ∧
          ((∀ a, s.snapshot q ≠ some (.active a)) →
            u.ring q = { s.ring q with pageMask := 0, kindMask := 0 }) ∧
          (∀ pen, look (u.livePort q).slots pen = none) ∧
          (u.livePort q).mute = (s.livePort q).mute))

/-- SAVE_SETTINGS freezes a copy of the mirror and erases the image's check word, with no answer yet;
its completion leaves the image holding the frozen copy and answers with the check word where the
answer is still wanted; a second save is answered BUSY (R164, R165, R172; log 9). That the answer sends
the check word in two bytes is log 22. -/
def Obligations.SaveWritesTheFrozenMirror : Prop :=
  (∀ (p : Port) (tag : Byte) (s : State), s.Admits p → (s.permissions p).room = true →
    ((∃ v, s.save = some v) →
      exec (.saveSettings p tag) s = .next (s.answered p tag .busy [])) ∧
    (s.save = none →
      exec (.saveSettings p tag) s = .next
        { s.admitted p tag with
          save := some
            { requester := p, tag, wanted := true, frozen := s.mirror
              check := checkWord (imageBodyBytes s.mirror), before := s.image }
          image := s.image.take 318 ++ [0xFF, 0xFF] })) ∧
  (∀ (s : State) (v : Save), s.phase = .running → s.save = some v →
    (v.wanted = true → exec .saveComplete s = .next
      { s.setLink v.requester
          { s.link v.requester with state := .answerReady ⟨.ok, v.tag, wordBytes v.check⟩ } with
        save := none, image := imageOfMirror v.frozen }) ∧
    (v.wanted = false → exec .saveComplete s = .next
      { s with save := none, image := imageOfMirror v.frozen }))

/-- DEVICE_RESET puts the blocks and the links back to their reset values in one step, sets RESTARTED
on every port, drops what the other links had in work, cuts their frames, and keeps the settings and
device time; while a save is in flight it is answered BUSY (R157, R158). That its answer is ready in
the same arrival is log 11; that the pool's places are blank after it is log 19. -/
def Obligations.DeviceResetKeepsTheSettings : Prop :=
  ∀ (r : Port) (tag : Byte) (s : State), s.Admits r → (s.permissions r).room = true →
    ((∃ v, s.save = some v) →
      exec (.deviceReset r tag) s = .next (s.answered r tag .busy [])) ∧
    (s.save = none →
      ∃ t, exec (.deviceReset r tag) s = .next t ∧ t.resetBlocks = t ∧
        t.mirror = s.mirror ∧ t.image = s.image ∧ t.indicator = s.indicator ∧
        t.deviceTime = s.deviceTime ∧ t.phase = .running ∧ t.save = none ∧
        t.link r = { s.link r with
          state := .answerReady ⟨.ok, tag, []⟩, restarted := true, frameFault := false
          snapBroken := false, attentionMask := 0x11, threshold := 1 } ∧
        (∀ q, q ≠ r → t.link q =
          { state := .idle, lastTag := 0, restarted := true, frameFault := false
            snapBroken := false, attentionMask := 0x11, threshold := 1, forming := []
            frame := (s.link q).frame.map fun f => { f with course := .cutByDeviceReset } }))
end

