-- ==== Sys2Proof/Laws/State.lean ====
section
/-! SUPPORT. What each update of the state does to each field and to each accessor. -/

namespace Sys2Proof.Machine.State

section
variable (s : State)


/-! ### setLink -/

@[simp] theorem setLink_phase (p : Port) (l : Link) : (s.setLink p l).phase = s.phase := rfl
@[simp] theorem setLink_deviceTime (p : Port) (l : Link) :
    (s.setLink p l).deviceTime =
      s.deviceTime := rfl
@[simp] theorem setLink_links (p : Port) (l : Link) : (s.setLink p l).links = put s.links p l := rfl
@[simp] theorem setLink_channels (p : Port) (l : Link) :
    (s.setLink p l).channels =
      s.channels := rfl
@[simp] theorem setLink_strokes (p : Port) (l : Link) : (s.setLink p l).strokes = s.strokes := rfl
@[simp] theorem setLink_pool (p : Port) (l : Link) : (s.setLink p l).pool = s.pool := rfl
@[simp] theorem setLink_pages (p : Port) (l : Link) : (s.setLink p l).pages = s.pages := rfl
@[simp] theorem setLink_snapshots (p : Port) (l : Link) :
    (s.setLink p l).snapshots =
      s.snapshots := rfl
@[simp] theorem setLink_rings (p : Port) (l : Link) : (s.setLink p l).rings = s.rings := rfl
@[simp] theorem setLink_live (p : Port) (l : Link) : (s.setLink p l).live = s.live := rfl
@[simp] theorem setLink_mirror (p : Port) (l : Link) : (s.setLink p l).mirror = s.mirror := rfl
@[simp] theorem setLink_image (p : Port) (l : Link) : (s.setLink p l).image = s.image := rfl
@[simp] theorem setLink_indicator (p : Port) (l : Link) :
    (s.setLink p l).indicator =
      s.indicator := rfl
@[simp] theorem setLink_save (p : Port) (l : Link) : (s.setLink p l).save = s.save := rfl
@[simp] theorem setLink_freeCount (p : Port) (l : Link) :
    (s.setLink p l).freeCount =
      s.freeCount := rfl
@[simp] theorem setLink_pending (p : Port) (l : Link) : (s.setLink p l).pending = s.pending := rfl
theorem setLink_link (p : Port) (l : Link) (k : Port) :
    (s.setLink p l).link k = if p = k then l else s.link k := look_put _ _ _ _
@[simp] theorem setLink_link_self (p : Port) (l : Link) :
    (s.setLink p l).link p = l := look_put_self _ _ _
theorem setLink_link_of_ne (p : Port) (l : Link) {k : Port} (h : p ≠ k) :
    (s.setLink p l).link k = s.link k := look_put_of_ne _ _ h
@[simp] theorem setLink_channel (p : Port) (l : Link) (k : Pen) : (s.setLink p l).channel k = s.channel k := rfl
@[simp] theorem setLink_page (p : Port) (l : Link) (k : Page) : (s.setLink p l).page k = s.page k := rfl
@[simp] theorem setLink_snapshot (p : Port) (l : Link) (k : Port) : (s.setLink p l).snapshot k = s.snapshot k := rfl
@[simp] theorem setLink_ring (p : Port) (l : Link) (k : Port) : (s.setLink p l).ring k = s.ring k := rfl
@[simp] theorem setLink_livePort (p : Port) (l : Link) (k : Port) : (s.setLink p l).livePort k = s.livePort k := rfl
@[simp] theorem setLink_permissions (p : Port) (l : Link) (k : Port) : (s.setLink p l).permissions k = s.permissions k := rfl
@[simp] theorem setLink_penSettings (p : Port) (l : Link) (k : Pen) : (s.setLink p l).penSettings k = s.penSettings k := rfl
@[simp] theorem setLink_stroke? (p : Port) (l : Link) (serial : Serial) :
    (s.setLink p l).stroke? serial = s.stroke? serial := rfl

/-! ### setLinks -/

@[simp] theorem setLinks_phase (v : Vector Link 4) : (s.setLinks v).phase = s.phase := rfl
@[simp] theorem setLinks_deviceTime (v : Vector Link 4) :
    (s.setLinks v).deviceTime =
      s.deviceTime := rfl
@[simp] theorem setLinks_links (v : Vector Link 4) : (s.setLinks v).links = v := rfl
@[simp] theorem setLinks_channels (v : Vector Link 4) : (s.setLinks v).channels = s.channels := rfl
@[simp] theorem setLinks_strokes (v : Vector Link 4) : (s.setLinks v).strokes = s.strokes := rfl
@[simp] theorem setLinks_pool (v : Vector Link 4) : (s.setLinks v).pool = s.pool := rfl
@[simp] theorem setLinks_pages (v : Vector Link 4) : (s.setLinks v).pages = s.pages := rfl
@[simp] theorem setLinks_snapshots (v : Vector Link 4) :
    (s.setLinks v).snapshots =
      s.snapshots := rfl
@[simp] theorem setLinks_rings (v : Vector Link 4) : (s.setLinks v).rings = s.rings := rfl
@[simp] theorem setLinks_live (v : Vector Link 4) : (s.setLinks v).live = s.live := rfl
@[simp] theorem setLinks_mirror (v : Vector Link 4) : (s.setLinks v).mirror = s.mirror := rfl
@[simp] theorem setLinks_image (v : Vector Link 4) : (s.setLinks v).image = s.image := rfl
@[simp] theorem setLinks_indicator (v : Vector Link 4) :
    (s.setLinks v).indicator =
      s.indicator := rfl
@[simp] theorem setLinks_save (v : Vector Link 4) : (s.setLinks v).save = s.save := rfl
@[simp] theorem setLinks_freeCount (v : Vector Link 4) :
    (s.setLinks v).freeCount =
      s.freeCount := rfl
@[simp] theorem setLinks_pending (v : Vector Link 4) : (s.setLinks v).pending = s.pending := rfl
@[simp] theorem setLinks_link (v : Vector Link 4) (k : Port) : (s.setLinks v).link k = look v k := rfl
@[simp] theorem setLinks_channel (v : Vector Link 4) (k : Pen) : (s.setLinks v).channel k = s.channel k := rfl
@[simp] theorem setLinks_page (v : Vector Link 4) (k : Page) : (s.setLinks v).page k = s.page k := rfl
@[simp] theorem setLinks_snapshot (v : Vector Link 4) (k : Port) : (s.setLinks v).snapshot k = s.snapshot k := rfl
@[simp] theorem setLinks_ring (v : Vector Link 4) (k : Port) : (s.setLinks v).ring k = s.ring k := rfl
@[simp] theorem setLinks_livePort (v : Vector Link 4) (k : Port) : (s.setLinks v).livePort k = s.livePort k := rfl
@[simp] theorem setLinks_permissions (v : Vector Link 4) (k : Port) : (s.setLinks v).permissions k = s.permissions k := rfl
@[simp] theorem setLinks_penSettings (v : Vector Link 4) (k : Pen) : (s.setLinks v).penSettings k = s.penSettings k := rfl
@[simp] theorem setLinks_stroke? (v : Vector Link 4) (serial : Serial) :
    (s.setLinks v).stroke? serial = s.stroke? serial := rfl

/-! ### setChannel -/

@[simp] theorem setChannel_phase (pen : Pen) (c : Channel) :
    (s.setChannel pen c).phase =
      s.phase := rfl
@[simp] theorem setChannel_deviceTime (pen : Pen) (c : Channel) :
    (s.setChannel pen c).deviceTime =
      s.deviceTime := rfl
@[simp] theorem setChannel_links (pen : Pen) (c : Channel) :
    (s.setChannel pen c).links =
      s.links := rfl
@[simp] theorem setChannel_channels (pen : Pen) (c : Channel) :
    (s.setChannel pen c).channels =
      put s.channels pen c := rfl
@[simp] theorem setChannel_strokes (pen : Pen) (c : Channel) :
    (s.setChannel pen c).strokes =
      s.strokes := rfl
@[simp] theorem setChannel_pool (pen : Pen) (c : Channel) :
    (s.setChannel pen c).pool =
      s.pool := rfl
@[simp] theorem setChannel_pages (pen : Pen) (c : Channel) :
    (s.setChannel pen c).pages =
      s.pages := rfl
@[simp] theorem setChannel_snapshots (pen : Pen) (c : Channel) :
    (s.setChannel pen c).snapshots =
      s.snapshots := rfl
@[simp] theorem setChannel_rings (pen : Pen) (c : Channel) :
    (s.setChannel pen c).rings =
      s.rings := rfl
@[simp] theorem setChannel_live (pen : Pen) (c : Channel) :
    (s.setChannel pen c).live =
      s.live := rfl
@[simp] theorem setChannel_mirror (pen : Pen) (c : Channel) :
    (s.setChannel pen c).mirror =
      s.mirror := rfl
@[simp] theorem setChannel_image (pen : Pen) (c : Channel) :
    (s.setChannel pen c).image =
      s.image := rfl
@[simp] theorem setChannel_indicator (pen : Pen) (c : Channel) :
    (s.setChannel pen c).indicator =
      s.indicator := rfl
@[simp] theorem setChannel_save (pen : Pen) (c : Channel) :
    (s.setChannel pen c).save =
      s.save := rfl
@[simp] theorem setChannel_freeCount (pen : Pen) (c : Channel) :
    (s.setChannel pen c).freeCount =
      s.freeCount := rfl
@[simp] theorem setChannel_pending (pen : Pen) (c : Channel) :
    (s.setChannel pen c).pending =
      s.pending := rfl
@[simp] theorem setChannel_link (pen : Pen) (c : Channel) (k : Port) : (s.setChannel pen c).link k = s.link k := rfl
theorem setChannel_channel (pen : Pen) (c : Channel) (k : Pen) :
    (s.setChannel pen c).channel k = if pen = k then c else s.channel k := look_put _ _ _ _
@[simp] theorem setChannel_channel_self (pen : Pen) (c : Channel) :
    (s.setChannel pen c).channel pen = c := look_put_self _ _ _
theorem setChannel_channel_of_ne (pen : Pen) (c : Channel) {k : Pen} (h : pen ≠ k) :
    (s.setChannel pen c).channel k = s.channel k := look_put_of_ne _ _ h
@[simp] theorem setChannel_page (pen : Pen) (c : Channel) (k : Page) : (s.setChannel pen c).page k = s.page k := rfl
@[simp] theorem setChannel_snapshot (pen : Pen) (c : Channel) (k : Port) : (s.setChannel pen c).snapshot k = s.snapshot k := rfl
@[simp] theorem setChannel_ring (pen : Pen) (c : Channel) (k : Port) : (s.setChannel pen c).ring k = s.ring k := rfl
@[simp] theorem setChannel_livePort (pen : Pen) (c : Channel) (k : Port) : (s.setChannel pen c).livePort k = s.livePort k := rfl
@[simp] theorem setChannel_permissions (pen : Pen) (c : Channel) (k : Port) : (s.setChannel pen c).permissions k = s.permissions k := rfl
@[simp] theorem setChannel_penSettings (pen : Pen) (c : Channel) (k : Pen) : (s.setChannel pen c).penSettings k = s.penSettings k := rfl
@[simp] theorem setChannel_stroke? (pen : Pen) (c : Channel) (serial : Serial) :
    (s.setChannel pen c).stroke? serial = s.stroke? serial := rfl

/-! ### setPage -/

@[simp] theorem setPage_phase (pg : Page) (r : PageRecord) : (s.setPage pg r).phase = s.phase := rfl
@[simp] theorem setPage_deviceTime (pg : Page) (r : PageRecord) :
    (s.setPage pg r).deviceTime =
      s.deviceTime := rfl
@[simp] theorem setPage_links (pg : Page) (r : PageRecord) : (s.setPage pg r).links = s.links := rfl
@[simp] theorem setPage_channels (pg : Page) (r : PageRecord) :
    (s.setPage pg r).channels =
      s.channels := rfl
@[simp] theorem setPage_strokes (pg : Page) (r : PageRecord) :
    (s.setPage pg r).strokes =
      s.strokes := rfl
@[simp] theorem setPage_pool (pg : Page) (r : PageRecord) : (s.setPage pg r).pool = s.pool := rfl
@[simp] theorem setPage_pages (pg : Page) (r : PageRecord) :
    (s.setPage pg r).pages =
      put s.pages pg r := rfl
@[simp] theorem setPage_snapshots (pg : Page) (r : PageRecord) :
    (s.setPage pg r).snapshots =
      s.snapshots := rfl
@[simp] theorem setPage_rings (pg : Page) (r : PageRecord) : (s.setPage pg r).rings = s.rings := rfl
@[simp] theorem setPage_live (pg : Page) (r : PageRecord) : (s.setPage pg r).live = s.live := rfl
@[simp] theorem setPage_mirror (pg : Page) (r : PageRecord) :
    (s.setPage pg r).mirror =
      s.mirror := rfl
@[simp] theorem setPage_image (pg : Page) (r : PageRecord) : (s.setPage pg r).image = s.image := rfl
@[simp] theorem setPage_indicator (pg : Page) (r : PageRecord) :
    (s.setPage pg r).indicator =
      s.indicator := rfl
@[simp] theorem setPage_save (pg : Page) (r : PageRecord) : (s.setPage pg r).save = s.save := rfl
@[simp] theorem setPage_freeCount (pg : Page) (r : PageRecord) :
    (s.setPage pg r).freeCount =
      s.freeCount := rfl
@[simp] theorem setPage_pending (pg : Page) (r : PageRecord) :
    (s.setPage pg r).pending =
      s.pending := rfl
@[simp] theorem setPage_link (pg : Page) (r : PageRecord) (k : Port) : (s.setPage pg r).link k = s.link k := rfl
@[simp] theorem setPage_channel (pg : Page) (r : PageRecord) (k : Pen) : (s.setPage pg r).channel k = s.channel k := rfl
theorem setPage_page (pg : Page) (r : PageRecord) (k : Page) :
    (s.setPage pg r).page k = if pg = k then r else s.page k := look_put _ _ _ _
@[simp] theorem setPage_page_self (pg : Page) (r : PageRecord) :
    (s.setPage pg r).page pg = r := look_put_self _ _ _
theorem setPage_page_of_ne (pg : Page) (r : PageRecord) {k : Page} (h : pg ≠ k) :
    (s.setPage pg r).page k = s.page k := look_put_of_ne _ _ h
@[simp] theorem setPage_snapshot (pg : Page) (r : PageRecord) (k : Port) : (s.setPage pg r).snapshot k = s.snapshot k := rfl
@[simp] theorem setPage_ring (pg : Page) (r : PageRecord) (k : Port) : (s.setPage pg r).ring k = s.ring k := rfl
@[simp] theorem setPage_livePort (pg : Page) (r : PageRecord) (k : Port) : (s.setPage pg r).livePort k = s.livePort k := rfl
@[simp] theorem setPage_permissions (pg : Page) (r : PageRecord) (k : Port) : (s.setPage pg r).permissions k = s.permissions k := rfl
@[simp] theorem setPage_penSettings (pg : Page) (r : PageRecord) (k : Pen) : (s.setPage pg r).penSettings k = s.penSettings k := rfl
@[simp] theorem setPage_stroke? (pg : Page) (r : PageRecord) (serial : Serial) :
    (s.setPage pg r).stroke? serial = s.stroke? serial := rfl

/-! ### setSnapshot -/

@[simp] theorem setSnapshot_phase (p : Port) (r : Option SnapshotRecord) :
    (s.setSnapshot p r).phase =
      s.phase := rfl
@[simp] theorem setSnapshot_deviceTime (p : Port) (r : Option SnapshotRecord) :
    (s.setSnapshot p r).deviceTime =
      s.deviceTime := rfl
@[simp] theorem setSnapshot_links (p : Port) (r : Option SnapshotRecord) :
    (s.setSnapshot p r).links =
      s.links := rfl
@[simp] theorem setSnapshot_channels (p : Port) (r : Option SnapshotRecord) :
    (s.setSnapshot p r).channels =
      s.channels := rfl
@[simp] theorem setSnapshot_strokes (p : Port) (r : Option SnapshotRecord) :
    (s.setSnapshot p r).strokes =
      s.strokes := rfl
@[simp] theorem setSnapshot_pool (p : Port) (r : Option SnapshotRecord) :
    (s.setSnapshot p r).pool =
      s.pool := rfl
@[simp] theorem setSnapshot_pages (p : Port) (r : Option SnapshotRecord) :
    (s.setSnapshot p r).pages =
      s.pages := rfl
@[simp] theorem setSnapshot_snapshots (p : Port) (r : Option SnapshotRecord) :
    (s.setSnapshot p r).snapshots =
      put s.snapshots p r := rfl
@[simp] theorem setSnapshot_rings (p : Port) (r : Option SnapshotRecord) :
    (s.setSnapshot p r).rings =
      s.rings := rfl
@[simp] theorem setSnapshot_live (p : Port) (r : Option SnapshotRecord) :
    (s.setSnapshot p r).live =
      s.live := rfl
@[simp] theorem setSnapshot_mirror (p : Port) (r : Option SnapshotRecord) :
    (s.setSnapshot p r).mirror =
      s.mirror := rfl
@[simp] theorem setSnapshot_image (p : Port) (r : Option SnapshotRecord) :
    (s.setSnapshot p r).image =
      s.image := rfl
@[simp] theorem setSnapshot_indicator (p : Port) (r : Option SnapshotRecord) :
    (s.setSnapshot p r).indicator =
      s.indicator := rfl
@[simp] theorem setSnapshot_save (p : Port) (r : Option SnapshotRecord) :
    (s.setSnapshot p r).save =
      s.save := rfl
@[simp] theorem setSnapshot_freeCount (p : Port) (r : Option SnapshotRecord) :
    (s.setSnapshot p r).freeCount =
      s.freeCount := rfl
@[simp] theorem setSnapshot_pending (p : Port) (r : Option SnapshotRecord) :
    (s.setSnapshot p r).pending =
      s.pending := rfl
@[simp] theorem setSnapshot_link (p : Port) (r : Option SnapshotRecord) (k : Port) : (s.setSnapshot p r).link k = s.link k := rfl
@[simp] theorem setSnapshot_channel (p : Port) (r : Option SnapshotRecord) (k : Pen) : (s.setSnapshot p r).channel k = s.channel k := rfl
@[simp] theorem setSnapshot_page (p : Port) (r : Option SnapshotRecord) (k : Page) : (s.setSnapshot p r).page k = s.page k := rfl
theorem setSnapshot_snapshot (p : Port) (r : Option SnapshotRecord) (k : Port) :
    (s.setSnapshot p r).snapshot k = if p = k then r else s.snapshot k := look_put _ _ _ _
@[simp] theorem setSnapshot_snapshot_self (p : Port) (r : Option SnapshotRecord) :
    (s.setSnapshot p r).snapshot p = r := look_put_self _ _ _
theorem setSnapshot_snapshot_of_ne (p : Port) (r : Option SnapshotRecord) {k : Port} (h : p ≠ k) :
    (s.setSnapshot p r).snapshot k = s.snapshot k := look_put_of_ne _ _ h
@[simp] theorem setSnapshot_ring (p : Port) (r : Option SnapshotRecord) (k : Port) : (s.setSnapshot p r).ring k = s.ring k := rfl
@[simp] theorem setSnapshot_livePort (p : Port) (r : Option SnapshotRecord) (k : Port) : (s.setSnapshot p r).livePort k = s.livePort k := rfl
@[simp] theorem setSnapshot_permissions (p : Port) (r : Option SnapshotRecord) (k : Port) : (s.setSnapshot p r).permissions k = s.permissions k := rfl
@[simp] theorem setSnapshot_penSettings (p : Port) (r : Option SnapshotRecord) (k : Pen) : (s.setSnapshot p r).penSettings k = s.penSettings k := rfl
@[simp] theorem setSnapshot_stroke? (p : Port) (r : Option SnapshotRecord) (serial : Serial) :
    (s.setSnapshot p r).stroke? serial = s.stroke? serial := rfl

/-! ### setRing -/

@[simp] theorem setRing_phase (p : Port) (r : Ring) : (s.setRing p r).phase = s.phase := rfl
@[simp] theorem setRing_deviceTime (p : Port) (r : Ring) :
    (s.setRing p r).deviceTime =
      s.deviceTime := rfl
@[simp] theorem setRing_links (p : Port) (r : Ring) : (s.setRing p r).links = s.links := rfl
@[simp] theorem setRing_channels (p : Port) (r : Ring) :
    (s.setRing p r).channels =
      s.channels := rfl
@[simp] theorem setRing_strokes (p : Port) (r : Ring) : (s.setRing p r).strokes = s.strokes := rfl
@[simp] theorem setRing_pool (p : Port) (r : Ring) : (s.setRing p r).pool = s.pool := rfl
@[simp] theorem setRing_pages (p : Port) (r : Ring) : (s.setRing p r).pages = s.pages := rfl
@[simp] theorem setRing_snapshots (p : Port) (r : Ring) :
    (s.setRing p r).snapshots =
      s.snapshots := rfl
@[simp] theorem setRing_rings (p : Port) (r : Ring) : (s.setRing p r).rings = put s.rings p r := rfl
@[simp] theorem setRing_live (p : Port) (r : Ring) : (s.setRing p r).live = s.live := rfl
@[simp] theorem setRing_mirror (p : Port) (r : Ring) : (s.setRing p r).mirror = s.mirror := rfl
@[simp] theorem setRing_image (p : Port) (r : Ring) : (s.setRing p r).image = s.image := rfl
@[simp] theorem setRing_indicator (p : Port) (r : Ring) :
    (s.setRing p r).indicator =
      s.indicator := rfl
@[simp] theorem setRing_save (p : Port) (r : Ring) : (s.setRing p r).save = s.save := rfl
@[simp] theorem setRing_freeCount (p : Port) (r : Ring) :
    (s.setRing p r).freeCount =
      s.freeCount := rfl
@[simp] theorem setRing_pending (p : Port) (r : Ring) : (s.setRing p r).pending = s.pending := rfl
@[simp] theorem setRing_link (p : Port) (r : Ring) (k : Port) : (s.setRing p r).link k = s.link k := rfl
@[simp] theorem setRing_channel (p : Port) (r : Ring) (k : Pen) : (s.setRing p r).channel k = s.channel k := rfl
@[simp] theorem setRing_page (p : Port) (r : Ring) (k : Page) : (s.setRing p r).page k = s.page k := rfl
@[simp] theorem setRing_snapshot (p : Port) (r : Ring) (k : Port) : (s.setRing p r).snapshot k = s.snapshot k := rfl
theorem setRing_ring (p : Port) (r : Ring) (k : Port) :
    (s.setRing p r).ring k = if p = k then r else s.ring k := look_put _ _ _ _
@[simp] theorem setRing_ring_self (p : Port) (r : Ring) :
    (s.setRing p r).ring p = r := look_put_self _ _ _
theorem setRing_ring_of_ne (p : Port) (r : Ring) {k : Port} (h : p ≠ k) :
    (s.setRing p r).ring k = s.ring k := look_put_of_ne _ _ h
@[simp] theorem setRing_livePort (p : Port) (r : Ring) (k : Port) : (s.setRing p r).livePort k = s.livePort k := rfl
@[simp] theorem setRing_permissions (p : Port) (r : Ring) (k : Port) : (s.setRing p r).permissions k = s.permissions k := rfl
@[simp] theorem setRing_penSettings (p : Port) (r : Ring) (k : Pen) : (s.setRing p r).penSettings k = s.penSettings k := rfl
@[simp] theorem setRing_stroke? (p : Port) (r : Ring) (serial : Serial) :
    (s.setRing p r).stroke? serial = s.stroke? serial := rfl

/-! ### setRings -/

@[simp] theorem setRings_phase (v : Vector Ring 4) : (s.setRings v).phase = s.phase := rfl
@[simp] theorem setRings_deviceTime (v : Vector Ring 4) :
    (s.setRings v).deviceTime =
      s.deviceTime := rfl
@[simp] theorem setRings_links (v : Vector Ring 4) : (s.setRings v).links = s.links := rfl
@[simp] theorem setRings_channels (v : Vector Ring 4) : (s.setRings v).channels = s.channels := rfl
@[simp] theorem setRings_strokes (v : Vector Ring 4) : (s.setRings v).strokes = s.strokes := rfl
@[simp] theorem setRings_pool (v : Vector Ring 4) : (s.setRings v).pool = s.pool := rfl
@[simp] theorem setRings_pages (v : Vector Ring 4) : (s.setRings v).pages = s.pages := rfl
@[simp] theorem setRings_snapshots (v : Vector Ring 4) :
    (s.setRings v).snapshots =
      s.snapshots := rfl
@[simp] theorem setRings_rings (v : Vector Ring 4) : (s.setRings v).rings = v := rfl
@[simp] theorem setRings_live (v : Vector Ring 4) : (s.setRings v).live = s.live := rfl
@[simp] theorem setRings_mirror (v : Vector Ring 4) : (s.setRings v).mirror = s.mirror := rfl
@[simp] theorem setRings_image (v : Vector Ring 4) : (s.setRings v).image = s.image := rfl
@[simp] theorem setRings_indicator (v : Vector Ring 4) :
    (s.setRings v).indicator =
      s.indicator := rfl
@[simp] theorem setRings_save (v : Vector Ring 4) : (s.setRings v).save = s.save := rfl
@[simp] theorem setRings_freeCount (v : Vector Ring 4) :
    (s.setRings v).freeCount =
      s.freeCount := rfl
@[simp] theorem setRings_pending (v : Vector Ring 4) : (s.setRings v).pending = s.pending := rfl
@[simp] theorem setRings_link (v : Vector Ring 4) (k : Port) : (s.setRings v).link k = s.link k := rfl
@[simp] theorem setRings_channel (v : Vector Ring 4) (k : Pen) : (s.setRings v).channel k = s.channel k := rfl
@[simp] theorem setRings_page (v : Vector Ring 4) (k : Page) : (s.setRings v).page k = s.page k := rfl
@[simp] theorem setRings_snapshot (v : Vector Ring 4) (k : Port) : (s.setRings v).snapshot k = s.snapshot k := rfl
@[simp] theorem setRings_ring (v : Vector Ring 4) (k : Port) : (s.setRings v).ring k = look v k := rfl
@[simp] theorem setRings_livePort (v : Vector Ring 4) (k : Port) : (s.setRings v).livePort k = s.livePort k := rfl
@[simp] theorem setRings_permissions (v : Vector Ring 4) (k : Port) : (s.setRings v).permissions k = s.permissions k := rfl
@[simp] theorem setRings_penSettings (v : Vector Ring 4) (k : Pen) : (s.setRings v).penSettings k = s.penSettings k := rfl
@[simp] theorem setRings_stroke? (v : Vector Ring 4) (serial : Serial) :
    (s.setRings v).stroke? serial = s.stroke? serial := rfl

/-! ### setLivePort -/

@[simp] theorem setLivePort_phase (p : Port) (l : LivePort) :
    (s.setLivePort p l).phase =
      s.phase := rfl
@[simp] theorem setLivePort_deviceTime (p : Port) (l : LivePort) :
    (s.setLivePort p l).deviceTime =
      s.deviceTime := rfl
@[simp] theorem setLivePort_links (p : Port) (l : LivePort) :
    (s.setLivePort p l).links =
      s.links := rfl
@[simp] theorem setLivePort_channels (p : Port) (l : LivePort) :
    (s.setLivePort p l).channels =
      s.channels := rfl
@[simp] theorem setLivePort_strokes (p : Port) (l : LivePort) :
    (s.setLivePort p l).strokes =
      s.strokes := rfl
@[simp] theorem setLivePort_pool (p : Port) (l : LivePort) :
    (s.setLivePort p l).pool =
      s.pool := rfl
@[simp] theorem setLivePort_pages (p : Port) (l : LivePort) :
    (s.setLivePort p l).pages =
      s.pages := rfl
@[simp] theorem setLivePort_snapshots (p : Port) (l : LivePort) :
    (s.setLivePort p l).snapshots =
      s.snapshots := rfl
@[simp] theorem setLivePort_rings (p : Port) (l : LivePort) :
    (s.setLivePort p l).rings =
      s.rings := rfl
@[simp] theorem setLivePort_live (p : Port) (l : LivePort) :
    (s.setLivePort p l).live =
      put s.live p l := rfl
@[simp] theorem setLivePort_mirror (p : Port) (l : LivePort) :
    (s.setLivePort p l).mirror =
      s.mirror := rfl
@[simp] theorem setLivePort_image (p : Port) (l : LivePort) :
    (s.setLivePort p l).image =
      s.image := rfl
@[simp] theorem setLivePort_indicator (p : Port) (l : LivePort) :
    (s.setLivePort p l).indicator =
      s.indicator := rfl
@[simp] theorem setLivePort_save (p : Port) (l : LivePort) :
    (s.setLivePort p l).save =
      s.save := rfl
@[simp] theorem setLivePort_freeCount (p : Port) (l : LivePort) :
    (s.setLivePort p l).freeCount =
      s.freeCount := rfl
@[simp] theorem setLivePort_pending (p : Port) (l : LivePort) :
    (s.setLivePort p l).pending =
      s.pending := rfl
@[simp] theorem setLivePort_link (p : Port) (l : LivePort) (k : Port) : (s.setLivePort p l).link k = s.link k := rfl
@[simp] theorem setLivePort_channel (p : Port) (l : LivePort) (k : Pen) : (s.setLivePort p l).channel k = s.channel k := rfl
@[simp] theorem setLivePort_page (p : Port) (l : LivePort) (k : Page) : (s.setLivePort p l).page k = s.page k := rfl
@[simp] theorem setLivePort_snapshot (p : Port) (l : LivePort) (k : Port) : (s.setLivePort p l).snapshot k = s.snapshot k := rfl
@[simp] theorem setLivePort_ring (p : Port) (l : LivePort) (k : Port) : (s.setLivePort p l).ring k = s.ring k := rfl
theorem setLivePort_livePort (p : Port) (l : LivePort) (k : Port) :
    (s.setLivePort p l).livePort k = if p = k then l else s.livePort k := look_put _ _ _ _
@[simp] theorem setLivePort_livePort_self (p : Port) (l : LivePort) :
    (s.setLivePort p l).livePort p = l := look_put_self _ _ _
theorem setLivePort_livePort_of_ne (p : Port) (l : LivePort) {k : Port} (h : p ≠ k) :
    (s.setLivePort p l).livePort k = s.livePort k := look_put_of_ne _ _ h
@[simp] theorem setLivePort_permissions (p : Port) (l : LivePort) (k : Port) : (s.setLivePort p l).permissions k = s.permissions k := rfl
@[simp] theorem setLivePort_penSettings (p : Port) (l : LivePort) (k : Pen) : (s.setLivePort p l).penSettings k = s.penSettings k := rfl
@[simp] theorem setLivePort_stroke? (p : Port) (l : LivePort) (serial : Serial) :
    (s.setLivePort p l).stroke? serial = s.stroke? serial := rfl

/-! ### setLive -/

@[simp] theorem setLive_phase (v : Vector LivePort 4) : (s.setLive v).phase = s.phase := rfl
@[simp] theorem setLive_deviceTime (v : Vector LivePort 4) :
    (s.setLive v).deviceTime =
      s.deviceTime := rfl
@[simp] theorem setLive_links (v : Vector LivePort 4) : (s.setLive v).links = s.links := rfl
@[simp] theorem setLive_channels (v : Vector LivePort 4) :
    (s.setLive v).channels =
      s.channels := rfl
@[simp] theorem setLive_strokes (v : Vector LivePort 4) : (s.setLive v).strokes = s.strokes := rfl
@[simp] theorem setLive_pool (v : Vector LivePort 4) : (s.setLive v).pool = s.pool := rfl
@[simp] theorem setLive_pages (v : Vector LivePort 4) : (s.setLive v).pages = s.pages := rfl
@[simp] theorem setLive_snapshots (v : Vector LivePort 4) :
    (s.setLive v).snapshots =
      s.snapshots := rfl
@[simp] theorem setLive_rings (v : Vector LivePort 4) : (s.setLive v).rings = s.rings := rfl
@[simp] theorem setLive_live (v : Vector LivePort 4) : (s.setLive v).live = v := rfl
@[simp] theorem setLive_mirror (v : Vector LivePort 4) : (s.setLive v).mirror = s.mirror := rfl
@[simp] theorem setLive_image (v : Vector LivePort 4) : (s.setLive v).image = s.image := rfl
@[simp] theorem setLive_indicator (v : Vector LivePort 4) :
    (s.setLive v).indicator =
      s.indicator := rfl
@[simp] theorem setLive_save (v : Vector LivePort 4) : (s.setLive v).save = s.save := rfl
@[simp] theorem setLive_freeCount (v : Vector LivePort 4) :
    (s.setLive v).freeCount =
      s.freeCount := rfl
@[simp] theorem setLive_pending (v : Vector LivePort 4) : (s.setLive v).pending = s.pending := rfl
@[simp] theorem setLive_link (v : Vector LivePort 4) (k : Port) : (s.setLive v).link k = s.link k := rfl
@[simp] theorem setLive_channel (v : Vector LivePort 4) (k : Pen) : (s.setLive v).channel k = s.channel k := rfl
@[simp] theorem setLive_page (v : Vector LivePort 4) (k : Page) : (s.setLive v).page k = s.page k := rfl
@[simp] theorem setLive_snapshot (v : Vector LivePort 4) (k : Port) : (s.setLive v).snapshot k = s.snapshot k := rfl
@[simp] theorem setLive_ring (v : Vector LivePort 4) (k : Port) : (s.setLive v).ring k = s.ring k := rfl
@[simp] theorem setLive_livePort (v : Vector LivePort 4) (k : Port) : (s.setLive v).livePort k = look v k := rfl
@[simp] theorem setLive_permissions (v : Vector LivePort 4) (k : Port) : (s.setLive v).permissions k = s.permissions k := rfl
@[simp] theorem setLive_penSettings (v : Vector LivePort 4) (k : Pen) : (s.setLive v).penSettings k = s.penSettings k := rfl
@[simp] theorem setLive_stroke? (v : Vector LivePort 4) (serial : Serial) :
    (s.setLive v).stroke? serial = s.stroke? serial := rfl

/-! ### setStrokes -/

@[simp] theorem setStrokes_phase (t : StrokeTable) : (s.setStrokes t).phase = s.phase := rfl
@[simp] theorem setStrokes_deviceTime (t : StrokeTable) :
    (s.setStrokes t).deviceTime =
      s.deviceTime := rfl
@[simp] theorem setStrokes_links (t : StrokeTable) : (s.setStrokes t).links = s.links := rfl
@[simp] theorem setStrokes_channels (t : StrokeTable) :
    (s.setStrokes t).channels =
      s.channels := rfl
@[simp] theorem setStrokes_strokes (t : StrokeTable) : (s.setStrokes t).strokes = t := rfl
@[simp] theorem setStrokes_pool (t : StrokeTable) : (s.setStrokes t).pool = s.pool := rfl
@[simp] theorem setStrokes_pages (t : StrokeTable) : (s.setStrokes t).pages = s.pages := rfl
@[simp] theorem setStrokes_snapshots (t : StrokeTable) :
    (s.setStrokes t).snapshots =
      s.snapshots := rfl
@[simp] theorem setStrokes_rings (t : StrokeTable) : (s.setStrokes t).rings = s.rings := rfl
@[simp] theorem setStrokes_live (t : StrokeTable) : (s.setStrokes t).live = s.live := rfl
@[simp] theorem setStrokes_mirror (t : StrokeTable) : (s.setStrokes t).mirror = s.mirror := rfl
@[simp] theorem setStrokes_image (t : StrokeTable) : (s.setStrokes t).image = s.image := rfl
@[simp] theorem setStrokes_indicator (t : StrokeTable) :
    (s.setStrokes t).indicator =
      s.indicator := rfl
@[simp] theorem setStrokes_save (t : StrokeTable) : (s.setStrokes t).save = s.save := rfl
@[simp] theorem setStrokes_freeCount (t : StrokeTable) :
    (s.setStrokes t).freeCount =
      s.freeCount := rfl
@[simp] theorem setStrokes_pending (t : StrokeTable) : (s.setStrokes t).pending = s.pending := rfl
@[simp] theorem setStrokes_link (t : StrokeTable) (k : Port) : (s.setStrokes t).link k = s.link k := rfl
@[simp] theorem setStrokes_channel (t : StrokeTable) (k : Pen) : (s.setStrokes t).channel k = s.channel k := rfl
@[simp] theorem setStrokes_page (t : StrokeTable) (k : Page) : (s.setStrokes t).page k = s.page k := rfl
@[simp] theorem setStrokes_snapshot (t : StrokeTable) (k : Port) : (s.setStrokes t).snapshot k = s.snapshot k := rfl
@[simp] theorem setStrokes_ring (t : StrokeTable) (k : Port) : (s.setStrokes t).ring k = s.ring k := rfl
@[simp] theorem setStrokes_livePort (t : StrokeTable) (k : Port) : (s.setStrokes t).livePort k = s.livePort k := rfl
@[simp] theorem setStrokes_permissions (t : StrokeTable) (k : Port) : (s.setStrokes t).permissions k = s.permissions k := rfl
@[simp] theorem setStrokes_penSettings (t : StrokeTable) (k : Pen) : (s.setStrokes t).penSettings k = s.penSettings k := rfl
@[simp] theorem setStrokes_stroke? (t : StrokeTable) (serial : Serial) :
    (s.setStrokes t).stroke? serial = t.find serial := rfl

/-! ### setPool -/

@[simp] theorem setPool_phase (q : Pool) : (s.setPool q).phase = s.phase := rfl
@[simp] theorem setPool_deviceTime (q : Pool) : (s.setPool q).deviceTime = s.deviceTime := rfl
@[simp] theorem setPool_links (q : Pool) : (s.setPool q).links = s.links := rfl
@[simp] theorem setPool_channels (q : Pool) : (s.setPool q).channels = s.channels := rfl
@[simp] theorem setPool_strokes (q : Pool) : (s.setPool q).strokes = s.strokes := rfl
@[simp] theorem setPool_pool (q : Pool) : (s.setPool q).pool = q := rfl
@[simp] theorem setPool_pages (q : Pool) : (s.setPool q).pages = s.pages := rfl
@[simp] theorem setPool_snapshots (q : Pool) : (s.setPool q).snapshots = s.snapshots := rfl
@[simp] theorem setPool_rings (q : Pool) : (s.setPool q).rings = s.rings := rfl
@[simp] theorem setPool_live (q : Pool) : (s.setPool q).live = s.live := rfl
@[simp] theorem setPool_mirror (q : Pool) : (s.setPool q).mirror = s.mirror := rfl
@[simp] theorem setPool_image (q : Pool) : (s.setPool q).image = s.image := rfl
@[simp] theorem setPool_indicator (q : Pool) : (s.setPool q).indicator = s.indicator := rfl
@[simp] theorem setPool_save (q : Pool) : (s.setPool q).save = s.save := rfl
@[simp] theorem setPool_freeCount (q : Pool) : (s.setPool q).freeCount = s.freeCount := rfl
@[simp] theorem setPool_pending (q : Pool) : (s.setPool q).pending = s.pending := rfl
@[simp] theorem setPool_link (q : Pool) (k : Port) : (s.setPool q).link k = s.link k := rfl
@[simp] theorem setPool_channel (q : Pool) (k : Pen) : (s.setPool q).channel k = s.channel k := rfl
@[simp] theorem setPool_page (q : Pool) (k : Page) : (s.setPool q).page k = s.page k := rfl
@[simp] theorem setPool_snapshot (q : Pool) (k : Port) : (s.setPool q).snapshot k = s.snapshot k := rfl
@[simp] theorem setPool_ring (q : Pool) (k : Port) : (s.setPool q).ring k = s.ring k := rfl
@[simp] theorem setPool_livePort (q : Pool) (k : Port) : (s.setPool q).livePort k = s.livePort k := rfl
@[simp] theorem setPool_permissions (q : Pool) (k : Port) : (s.setPool q).permissions k = s.permissions k := rfl
@[simp] theorem setPool_penSettings (q : Pool) (k : Pen) : (s.setPool q).penSettings k = s.penSettings k := rfl
@[simp] theorem setPool_stroke? (q : Pool) (serial : Serial) :
    (s.setPool q).stroke? serial = s.stroke? serial := rfl

/-! ### setMirror -/

@[simp] theorem setMirror_phase (m : Mirror) : (s.setMirror m).phase = s.phase := rfl
@[simp] theorem setMirror_deviceTime (m : Mirror) : (s.setMirror m).deviceTime = s.deviceTime := rfl
@[simp] theorem setMirror_links (m : Mirror) : (s.setMirror m).links = s.links := rfl
@[simp] theorem setMirror_channels (m : Mirror) : (s.setMirror m).channels = s.channels := rfl
@[simp] theorem setMirror_strokes (m : Mirror) : (s.setMirror m).strokes = s.strokes := rfl
@[simp] theorem setMirror_pool (m : Mirror) : (s.setMirror m).pool = s.pool := rfl
@[simp] theorem setMirror_pages (m : Mirror) : (s.setMirror m).pages = s.pages := rfl
@[simp] theorem setMirror_snapshots (m : Mirror) : (s.setMirror m).snapshots = s.snapshots := rfl
@[simp] theorem setMirror_rings (m : Mirror) : (s.setMirror m).rings = s.rings := rfl
@[simp] theorem setMirror_live (m : Mirror) : (s.setMirror m).live = s.live := rfl
@[simp] theorem setMirror_mirror (m : Mirror) : (s.setMirror m).mirror = m := rfl
@[simp] theorem setMirror_image (m : Mirror) : (s.setMirror m).image = s.image := rfl
@[simp] theorem setMirror_indicator (m : Mirror) : (s.setMirror m).indicator = s.indicator := rfl
@[simp] theorem setMirror_save (m : Mirror) : (s.setMirror m).save = s.save := rfl
@[simp] theorem setMirror_freeCount (m : Mirror) : (s.setMirror m).freeCount = s.freeCount := rfl
@[simp] theorem setMirror_pending (m : Mirror) : (s.setMirror m).pending = s.pending := rfl
@[simp] theorem setMirror_link (m : Mirror) (k : Port) : (s.setMirror m).link k = s.link k := rfl
@[simp] theorem setMirror_channel (m : Mirror) (k : Pen) : (s.setMirror m).channel k = s.channel k := rfl
@[simp] theorem setMirror_page (m : Mirror) (k : Page) : (s.setMirror m).page k = s.page k := rfl
@[simp] theorem setMirror_snapshot (m : Mirror) (k : Port) : (s.setMirror m).snapshot k = s.snapshot k := rfl
@[simp] theorem setMirror_ring (m : Mirror) (k : Port) : (s.setMirror m).ring k = s.ring k := rfl
@[simp] theorem setMirror_livePort (m : Mirror) (k : Port) : (s.setMirror m).livePort k = s.livePort k := rfl
@[simp] theorem setMirror_permissions (m : Mirror) (k : Port) : (s.setMirror m).permissions k = look m.permissions k := rfl
@[simp] theorem setMirror_penSettings (m : Mirror) (k : Pen) : (s.setMirror m).penSettings k = look m.pens k := rfl
@[simp] theorem setMirror_stroke? (m : Mirror) (serial : Serial) :
    (s.setMirror m).stroke? serial = s.stroke? serial := rfl

/-! ### setImage -/

@[simp] theorem setImage_phase (i : List Byte) : (s.setImage i).phase = s.phase := rfl
@[simp] theorem setImage_deviceTime (i : List Byte) :
    (s.setImage i).deviceTime =
      s.deviceTime := rfl
@[simp] theorem setImage_links (i : List Byte) : (s.setImage i).links = s.links := rfl
@[simp] theorem setImage_channels (i : List Byte) : (s.setImage i).channels = s.channels := rfl
@[simp] theorem setImage_strokes (i : List Byte) : (s.setImage i).strokes = s.strokes := rfl
@[simp] theorem setImage_pool (i : List Byte) : (s.setImage i).pool = s.pool := rfl
@[simp] theorem setImage_pages (i : List Byte) : (s.setImage i).pages = s.pages := rfl
@[simp] theorem setImage_snapshots (i : List Byte) : (s.setImage i).snapshots = s.snapshots := rfl
@[simp] theorem setImage_rings (i : List Byte) : (s.setImage i).rings = s.rings := rfl
@[simp] theorem setImage_live (i : List Byte) : (s.setImage i).live = s.live := rfl
@[simp] theorem setImage_mirror (i : List Byte) : (s.setImage i).mirror = s.mirror := rfl
@[simp] theorem setImage_image (i : List Byte) : (s.setImage i).image = i := rfl
@[simp] theorem setImage_indicator (i : List Byte) : (s.setImage i).indicator = s.indicator := rfl
@[simp] theorem setImage_save (i : List Byte) : (s.setImage i).save = s.save := rfl
@[simp] theorem setImage_freeCount (i : List Byte) : (s.setImage i).freeCount = s.freeCount := rfl
@[simp] theorem setImage_pending (i : List Byte) : (s.setImage i).pending = s.pending := rfl
@[simp] theorem setImage_link (i : List Byte) (k : Port) : (s.setImage i).link k = s.link k := rfl
@[simp] theorem setImage_channel (i : List Byte) (k : Pen) : (s.setImage i).channel k = s.channel k := rfl
@[simp] theorem setImage_page (i : List Byte) (k : Page) : (s.setImage i).page k = s.page k := rfl
@[simp] theorem setImage_snapshot (i : List Byte) (k : Port) : (s.setImage i).snapshot k = s.snapshot k := rfl
@[simp] theorem setImage_ring (i : List Byte) (k : Port) : (s.setImage i).ring k = s.ring k := rfl
@[simp] theorem setImage_livePort (i : List Byte) (k : Port) : (s.setImage i).livePort k = s.livePort k := rfl
@[simp] theorem setImage_permissions (i : List Byte) (k : Port) : (s.setImage i).permissions k = s.permissions k := rfl
@[simp] theorem setImage_penSettings (i : List Byte) (k : Pen) : (s.setImage i).penSettings k = s.penSettings k := rfl
@[simp] theorem setImage_stroke? (i : List Byte) (serial : Serial) :
    (s.setImage i).stroke? serial = s.stroke? serial := rfl

/-! ### setSave -/

@[simp] theorem setSave_phase (v : Option Save) : (s.setSave v).phase = s.phase := rfl
@[simp] theorem setSave_deviceTime (v : Option Save) :
    (s.setSave v).deviceTime =
      s.deviceTime := rfl
@[simp] theorem setSave_links (v : Option Save) : (s.setSave v).links = s.links := rfl
@[simp] theorem setSave_channels (v : Option Save) : (s.setSave v).channels = s.channels := rfl
@[simp] theorem setSave_strokes (v : Option Save) : (s.setSave v).strokes = s.strokes := rfl
@[simp] theorem setSave_pool (v : Option Save) : (s.setSave v).pool = s.pool := rfl
@[simp] theorem setSave_pages (v : Option Save) : (s.setSave v).pages = s.pages := rfl
@[simp] theorem setSave_snapshots (v : Option Save) : (s.setSave v).snapshots = s.snapshots := rfl
@[simp] theorem setSave_rings (v : Option Save) : (s.setSave v).rings = s.rings := rfl
@[simp] theorem setSave_live (v : Option Save) : (s.setSave v).live = s.live := rfl
@[simp] theorem setSave_mirror (v : Option Save) : (s.setSave v).mirror = s.mirror := rfl
@[simp] theorem setSave_image (v : Option Save) : (s.setSave v).image = s.image := rfl
@[simp] theorem setSave_indicator (v : Option Save) : (s.setSave v).indicator = s.indicator := rfl
@[simp] theorem setSave_save (v : Option Save) : (s.setSave v).save = v := rfl
@[simp] theorem setSave_freeCount (v : Option Save) : (s.setSave v).freeCount = s.freeCount := rfl
@[simp] theorem setSave_pending (v : Option Save) : (s.setSave v).pending = s.pending := rfl
@[simp] theorem setSave_link (v : Option Save) (k : Port) : (s.setSave v).link k = s.link k := rfl
@[simp] theorem setSave_channel (v : Option Save) (k : Pen) : (s.setSave v).channel k = s.channel k := rfl
@[simp] theorem setSave_page (v : Option Save) (k : Page) : (s.setSave v).page k = s.page k := rfl
@[simp] theorem setSave_snapshot (v : Option Save) (k : Port) : (s.setSave v).snapshot k = s.snapshot k := rfl
@[simp] theorem setSave_ring (v : Option Save) (k : Port) : (s.setSave v).ring k = s.ring k := rfl
@[simp] theorem setSave_livePort (v : Option Save) (k : Port) : (s.setSave v).livePort k = s.livePort k := rfl
@[simp] theorem setSave_permissions (v : Option Save) (k : Port) : (s.setSave v).permissions k = s.permissions k := rfl
@[simp] theorem setSave_penSettings (v : Option Save) (k : Pen) : (s.setSave v).penSettings k = s.penSettings k := rfl
@[simp] theorem setSave_stroke? (v : Option Save) (serial : Serial) :
    (s.setSave v).stroke? serial = s.stroke? serial := rfl

/-! ### setPermissions -/

@[simp] theorem setPermissions_phase (p : Port) (set : Permissions) :
    (s.setPermissions p set).phase =
      s.phase := rfl
@[simp] theorem setPermissions_deviceTime (p : Port) (set : Permissions) :
    (s.setPermissions p set).deviceTime =
      s.deviceTime := rfl
@[simp] theorem setPermissions_links (p : Port) (set : Permissions) :
    (s.setPermissions p set).links =
      s.links := rfl
@[simp] theorem setPermissions_channels (p : Port) (set : Permissions) :
    (s.setPermissions p set).channels =
      s.channels := rfl
@[simp] theorem setPermissions_strokes (p : Port) (set : Permissions) :
    (s.setPermissions p set).strokes =
      s.strokes := rfl
@[simp] theorem setPermissions_pool (p : Port) (set : Permissions) :
    (s.setPermissions p set).pool =
      s.pool := rfl
@[simp] theorem setPermissions_pages (p : Port) (set : Permissions) :
    (s.setPermissions p set).pages =
      s.pages := rfl
@[simp] theorem setPermissions_snapshots (p : Port) (set : Permissions) :
    (s.setPermissions p set).snapshots =
      s.snapshots := rfl
@[simp] theorem setPermissions_rings (p : Port) (set : Permissions) :
    (s.setPermissions p set).rings =
      s.rings := rfl
@[simp] theorem setPermissions_live (p : Port) (set : Permissions) :
    (s.setPermissions p set).live =
      s.live := rfl
@[simp] theorem setPermissions_mirror (p : Port) (set : Permissions) :
    (s.setPermissions p set).mirror =
      { s.mirror with permissions := put s.mirror.permissions p set } := rfl
@[simp] theorem setPermissions_image (p : Port) (set : Permissions) :
    (s.setPermissions p set).image =
      s.image := rfl
@[simp] theorem setPermissions_indicator (p : Port) (set : Permissions) :
    (s.setPermissions p set).indicator =
      s.indicator := rfl
@[simp] theorem setPermissions_save (p : Port) (set : Permissions) :
    (s.setPermissions p set).save =
      s.save := rfl
@[simp] theorem setPermissions_freeCount (p : Port) (set : Permissions) :
    (s.setPermissions p set).freeCount =
      s.freeCount := rfl
@[simp] theorem setPermissions_pending (p : Port) (set : Permissions) :
    (s.setPermissions p set).pending =
      s.pending := rfl
@[simp] theorem setPermissions_link (p : Port) (set : Permissions) (k : Port) : (s.setPermissions p set).link k = s.link k := rfl
@[simp] theorem setPermissions_channel (p : Port) (set : Permissions) (k : Pen) : (s.setPermissions p set).channel k = s.channel k := rfl
@[simp] theorem setPermissions_page (p : Port) (set : Permissions) (k : Page) : (s.setPermissions p set).page k = s.page k := rfl
@[simp] theorem setPermissions_snapshot (p : Port) (set : Permissions) (k : Port) : (s.setPermissions p set).snapshot k = s.snapshot k := rfl
@[simp] theorem setPermissions_ring (p : Port) (set : Permissions) (k : Port) : (s.setPermissions p set).ring k = s.ring k := rfl
@[simp] theorem setPermissions_livePort (p : Port) (set : Permissions) (k : Port) : (s.setPermissions p set).livePort k = s.livePort k := rfl
theorem setPermissions_permissions (p : Port) (set : Permissions) (k : Port) :
    (s.setPermissions p set).permissions k = if p = k then set else s.permissions k := look_put _ _ _ _
@[simp] theorem setPermissions_permissions_self (p : Port) (set : Permissions) :
    (s.setPermissions p set).permissions p = set := look_put_self _ _ _
theorem setPermissions_permissions_of_ne (p : Port) (set : Permissions) {k : Port} (h : p ≠ k) :
    (s.setPermissions p set).permissions k = s.permissions k := look_put_of_ne _ _ h
@[simp] theorem setPermissions_penSettings (p : Port) (set : Permissions) (k : Pen) : (s.setPermissions p set).penSettings k = s.penSettings k := rfl
@[simp] theorem setPermissions_stroke? (p : Port) (set : Permissions) (serial : Serial) :
    (s.setPermissions p set).stroke? serial = s.stroke? serial := rfl

/-! ### setPenSettings -/

@[simp] theorem setPenSettings_phase (pen : Pen) (v : PenSettings) :
    (s.setPenSettings pen v).phase =
      s.phase := rfl
@[simp] theorem setPenSettings_deviceTime (pen : Pen) (v : PenSettings) :
    (s.setPenSettings pen v).deviceTime =
      s.deviceTime := rfl
@[simp] theorem setPenSettings_links (pen : Pen) (v : PenSettings) :
    (s.setPenSettings pen v).links =
      s.links := rfl
@[simp] theorem setPenSettings_channels (pen : Pen) (v : PenSettings) :
    (s.setPenSettings pen v).channels =
      s.channels := rfl
@[simp] theorem setPenSettings_strokes (pen : Pen) (v : PenSettings) :
    (s.setPenSettings pen v).strokes =
      s.strokes := rfl
@[simp] theorem setPenSettings_pool (pen : Pen) (v : PenSettings) :
    (s.setPenSettings pen v).pool =
      s.pool := rfl
@[simp] theorem setPenSettings_pages (pen : Pen) (v : PenSettings) :
    (s.setPenSettings pen v).pages =
      s.pages := rfl
@[simp] theorem setPenSettings_snapshots (pen : Pen) (v : PenSettings) :
    (s.setPenSettings pen v).snapshots =
      s.snapshots := rfl
@[simp] theorem setPenSettings_rings (pen : Pen) (v : PenSettings) :
    (s.setPenSettings pen v).rings =
      s.rings := rfl
@[simp] theorem setPenSettings_live (pen : Pen) (v : PenSettings) :
    (s.setPenSettings pen v).live =
      s.live := rfl
@[simp] theorem setPenSettings_mirror (pen : Pen) (v : PenSettings) :
    (s.setPenSettings pen v).mirror =
      { s.mirror with pens := put s.mirror.pens pen v } := rfl
@[simp] theorem setPenSettings_image (pen : Pen) (v : PenSettings) :
    (s.setPenSettings pen v).image =
      s.image := rfl
@[simp] theorem setPenSettings_indicator (pen : Pen) (v : PenSettings) :
    (s.setPenSettings pen v).indicator =
      s.indicator := rfl
@[simp] theorem setPenSettings_save (pen : Pen) (v : PenSettings) :
    (s.setPenSettings pen v).save =
      s.save := rfl
@[simp] theorem setPenSettings_freeCount (pen : Pen) (v : PenSettings) :
    (s.setPenSettings pen v).freeCount =
      s.freeCount := rfl
@[simp] theorem setPenSettings_pending (pen : Pen) (v : PenSettings) :
    (s.setPenSettings pen v).pending =
      s.pending := rfl
@[simp] theorem setPenSettings_link (pen : Pen) (v : PenSettings) (k : Port) : (s.setPenSettings pen v).link k = s.link k := rfl
@[simp] theorem setPenSettings_channel (pen : Pen) (v : PenSettings) (k : Pen) : (s.setPenSettings pen v).channel k = s.channel k := rfl
@[simp] theorem setPenSettings_page (pen : Pen) (v : PenSettings) (k : Page) : (s.setPenSettings pen v).page k = s.page k := rfl
@[simp] theorem setPenSettings_snapshot (pen : Pen) (v : PenSettings) (k : Port) : (s.setPenSettings pen v).snapshot k = s.snapshot k := rfl
@[simp] theorem setPenSettings_ring (pen : Pen) (v : PenSettings) (k : Port) : (s.setPenSettings pen v).ring k = s.ring k := rfl
@[simp] theorem setPenSettings_livePort (pen : Pen) (v : PenSettings) (k : Port) : (s.setPenSettings pen v).livePort k = s.livePort k := rfl
@[simp] theorem setPenSettings_permissions (pen : Pen) (v : PenSettings) (k : Port) : (s.setPenSettings pen v).permissions k = s.permissions k := rfl
theorem setPenSettings_penSettings (pen : Pen) (v : PenSettings) (k : Pen) :
    (s.setPenSettings pen v).penSettings k = if pen = k then v else s.penSettings k := look_put _ _ _ _
@[simp] theorem setPenSettings_penSettings_self (pen : Pen) (v : PenSettings) :
    (s.setPenSettings pen v).penSettings pen = v := look_put_self _ _ _
theorem setPenSettings_penSettings_of_ne (pen : Pen) (v : PenSettings) {k : Pen} (h : pen ≠ k) :
    (s.setPenSettings pen v).penSettings k = s.penSettings k := look_put_of_ne _ _ h
@[simp] theorem setPenSettings_stroke? (pen : Pen) (v : PenSettings) (serial : Serial) :
    (s.setPenSettings pen v).stroke? serial = s.stroke? serial := rfl

/-! ### setOccupant -/

@[simp] theorem setOccupant_phase (pg : Page) (o : Occupant) :
    (s.setOccupant pg o).phase =
      s.phase := rfl
@[simp] theorem setOccupant_deviceTime (pg : Page) (o : Occupant) :
    (s.setOccupant pg o).deviceTime =
      s.deviceTime := rfl
@[simp] theorem setOccupant_links (pg : Page) (o : Occupant) :
    (s.setOccupant pg o).links =
      s.links := rfl
@[simp] theorem setOccupant_channels (pg : Page) (o : Occupant) :
    (s.setOccupant pg o).channels =
      s.channels := rfl
@[simp] theorem setOccupant_strokes (pg : Page) (o : Occupant) :
    (s.setOccupant pg o).strokes =
      s.strokes := rfl
@[simp] theorem setOccupant_pool (pg : Page) (o : Occupant) :
    (s.setOccupant pg o).pool =
      s.pool := rfl
@[simp] theorem setOccupant_pages (pg : Page) (o : Occupant) :
    (s.setOccupant pg o).pages =
      put s.pages pg { s.page pg with occupant := o } := rfl
@[simp] theorem setOccupant_snapshots (pg : Page) (o : Occupant) :
    (s.setOccupant pg o).snapshots =
      s.snapshots := rfl
@[simp] theorem setOccupant_rings (pg : Page) (o : Occupant) :
    (s.setOccupant pg o).rings =
      s.rings := rfl
@[simp] theorem setOccupant_live (pg : Page) (o : Occupant) :
    (s.setOccupant pg o).live =
      s.live := rfl
@[simp] theorem setOccupant_mirror (pg : Page) (o : Occupant) :
    (s.setOccupant pg o).mirror =
      s.mirror := rfl
@[simp] theorem setOccupant_image (pg : Page) (o : Occupant) :
    (s.setOccupant pg o).image =
      s.image := rfl
@[simp] theorem setOccupant_indicator (pg : Page) (o : Occupant) :
    (s.setOccupant pg o).indicator =
      s.indicator := rfl
@[simp] theorem setOccupant_save (pg : Page) (o : Occupant) :
    (s.setOccupant pg o).save =
      s.save := rfl
@[simp] theorem setOccupant_freeCount (pg : Page) (o : Occupant) :
    (s.setOccupant pg o).freeCount =
      s.freeCount := rfl
@[simp] theorem setOccupant_pending (pg : Page) (o : Occupant) :
    (s.setOccupant pg o).pending =
      s.pending := rfl
@[simp] theorem setOccupant_link (pg : Page) (o : Occupant) (k : Port) : (s.setOccupant pg o).link k = s.link k := rfl
@[simp] theorem setOccupant_channel (pg : Page) (o : Occupant) (k : Pen) : (s.setOccupant pg o).channel k = s.channel k := rfl
theorem setOccupant_page (pg : Page) (o : Occupant) (k : Page) :
    (s.setOccupant pg o).page k = if pg = k then { s.page pg with occupant := o } else s.page k := look_put _ _ _ _
@[simp] theorem setOccupant_page_self (pg : Page) (o : Occupant) :
    (s.setOccupant pg o).page pg = { s.page pg with occupant := o } := look_put_self _ _ _
theorem setOccupant_page_of_ne (pg : Page) (o : Occupant) {k : Page} (h : pg ≠ k) :
    (s.setOccupant pg o).page k = s.page k := look_put_of_ne _ _ h
@[simp] theorem setOccupant_snapshot (pg : Page) (o : Occupant) (k : Port) : (s.setOccupant pg o).snapshot k = s.snapshot k := rfl
@[simp] theorem setOccupant_ring (pg : Page) (o : Occupant) (k : Port) : (s.setOccupant pg o).ring k = s.ring k := rfl
@[simp] theorem setOccupant_livePort (pg : Page) (o : Occupant) (k : Port) : (s.setOccupant pg o).livePort k = s.livePort k := rfl
@[simp] theorem setOccupant_permissions (pg : Page) (o : Occupant) (k : Port) : (s.setOccupant pg o).permissions k = s.permissions k := rfl
@[simp] theorem setOccupant_penSettings (pg : Page) (o : Occupant) (k : Pen) : (s.setOccupant pg o).penSettings k = s.penSettings k := rfl
@[simp] theorem setOccupant_stroke? (pg : Page) (o : Occupant) (serial : Serial) :
    (s.setOccupant pg o).stroke? serial = s.stroke? serial := rfl

/-! ### route -/

@[simp] theorem route_phase (n : Notice) : (s.route n).phase = s.phase := rfl
@[simp] theorem route_deviceTime (n : Notice) : (s.route n).deviceTime = s.deviceTime := rfl
@[simp] theorem route_links (n : Notice) : (s.route n).links = s.links := rfl
@[simp] theorem route_channels (n : Notice) : (s.route n).channels = s.channels := rfl
@[simp] theorem route_strokes (n : Notice) : (s.route n).strokes = s.strokes := rfl
@[simp] theorem route_pool (n : Notice) : (s.route n).pool = s.pool := rfl
@[simp] theorem route_pages (n : Notice) : (s.route n).pages = s.pages := rfl
@[simp] theorem route_snapshots (n : Notice) : (s.route n).snapshots = s.snapshots := rfl
@[simp] theorem route_rings (n : Notice) : (s.route n).rings = routeRings n s.rings := rfl
@[simp] theorem route_live (n : Notice) : (s.route n).live = s.live := rfl
@[simp] theorem route_mirror (n : Notice) : (s.route n).mirror = s.mirror := rfl
@[simp] theorem route_image (n : Notice) : (s.route n).image = s.image := rfl
@[simp] theorem route_indicator (n : Notice) : (s.route n).indicator = s.indicator := rfl
@[simp] theorem route_save (n : Notice) : (s.route n).save = s.save := rfl
@[simp] theorem route_freeCount (n : Notice) : (s.route n).freeCount = s.freeCount := rfl
@[simp] theorem route_pending (n : Notice) : (s.route n).pending = s.pending := rfl
@[simp] theorem route_link (n : Notice) (k : Port) : (s.route n).link k = s.link k := rfl
@[simp] theorem route_channel (n : Notice) (k : Pen) : (s.route n).channel k = s.channel k := rfl
@[simp] theorem route_page (n : Notice) (k : Page) : (s.route n).page k = s.page k := rfl
@[simp] theorem route_snapshot (n : Notice) (k : Port) : (s.route n).snapshot k = s.snapshot k := rfl
@[simp] theorem route_ring (n : Notice) (k : Port) :
    (s.route n).ring k = if ringWants (s.ring k) n then ringReceive n (s.ring k) else s.ring k :=
  look_each4 _ _ _
@[simp] theorem route_livePort (n : Notice) (k : Port) : (s.route n).livePort k = s.livePort k := rfl
@[simp] theorem route_permissions (n : Notice) (k : Port) : (s.route n).permissions k = s.permissions k := rfl
@[simp] theorem route_penSettings (n : Notice) (k : Pen) : (s.route n).penSettings k = s.penSettings k := rfl
@[simp] theorem route_stroke? (n : Notice) (serial : Serial) :
    (s.route n).stroke? serial = s.stroke? serial := rfl

/-! ### formAnswer -/

@[simp] theorem formAnswer_phase (p : Port) (a : Answer) : (s.formAnswer p a).phase = s.phase := rfl
@[simp] theorem formAnswer_deviceTime (p : Port) (a : Answer) :
    (s.formAnswer p a).deviceTime =
      s.deviceTime := rfl
@[simp] theorem formAnswer_links (p : Port) (a : Answer) :
    (s.formAnswer p a).links =
      put s.links p { s.link p with forming := (s.link p).forming ++ [{ answer := a, wanted := true }] } := rfl
@[simp] theorem formAnswer_channels (p : Port) (a : Answer) :
    (s.formAnswer p a).channels =
      s.channels := rfl
@[simp] theorem formAnswer_strokes (p : Port) (a : Answer) :
    (s.formAnswer p a).strokes =
      s.strokes := rfl
@[simp] theorem formAnswer_pool (p : Port) (a : Answer) : (s.formAnswer p a).pool = s.pool := rfl
@[simp] theorem formAnswer_pages (p : Port) (a : Answer) : (s.formAnswer p a).pages = s.pages := rfl
@[simp] theorem formAnswer_snapshots (p : Port) (a : Answer) :
    (s.formAnswer p a).snapshots =
      s.snapshots := rfl
@[simp] theorem formAnswer_rings (p : Port) (a : Answer) : (s.formAnswer p a).rings = s.rings := rfl
@[simp] theorem formAnswer_live (p : Port) (a : Answer) : (s.formAnswer p a).live = s.live := rfl
@[simp] theorem formAnswer_mirror (p : Port) (a : Answer) :
    (s.formAnswer p a).mirror =
      s.mirror := rfl
@[simp] theorem formAnswer_image (p : Port) (a : Answer) : (s.formAnswer p a).image = s.image := rfl
@[simp] theorem formAnswer_indicator (p : Port) (a : Answer) :
    (s.formAnswer p a).indicator =
      s.indicator := rfl
@[simp] theorem formAnswer_save (p : Port) (a : Answer) : (s.formAnswer p a).save = s.save := rfl
@[simp] theorem formAnswer_freeCount (p : Port) (a : Answer) :
    (s.formAnswer p a).freeCount =
      s.freeCount := rfl
@[simp] theorem formAnswer_pending (p : Port) (a : Answer) :
    (s.formAnswer p a).pending =
      s.pending := rfl
theorem formAnswer_link (p : Port) (a : Answer) (k : Port) :
    (s.formAnswer p a).link k = if p = k then { s.link p with forming := (s.link p).forming ++ [{ answer := a, wanted := true }] } else s.link k := look_put _ _ _ _
@[simp] theorem formAnswer_link_self (p : Port) (a : Answer) :
    (s.formAnswer p a).link p = { s.link p with forming := (s.link p).forming ++ [{ answer := a, wanted := true }] } := look_put_self _ _ _
theorem formAnswer_link_of_ne (p : Port) (a : Answer) {k : Port} (h : p ≠ k) :
    (s.formAnswer p a).link k = s.link k := look_put_of_ne _ _ h
@[simp] theorem formAnswer_channel (p : Port) (a : Answer) (k : Pen) : (s.formAnswer p a).channel k = s.channel k := rfl
@[simp] theorem formAnswer_page (p : Port) (a : Answer) (k : Page) : (s.formAnswer p a).page k = s.page k := rfl
@[simp] theorem formAnswer_snapshot (p : Port) (a : Answer) (k : Port) : (s.formAnswer p a).snapshot k = s.snapshot k := rfl
@[simp] theorem formAnswer_ring (p : Port) (a : Answer) (k : Port) : (s.formAnswer p a).ring k = s.ring k := rfl
@[simp] theorem formAnswer_livePort (p : Port) (a : Answer) (k : Port) : (s.formAnswer p a).livePort k = s.livePort k := rfl
@[simp] theorem formAnswer_permissions (p : Port) (a : Answer) (k : Port) : (s.formAnswer p a).permissions k = s.permissions k := rfl
@[simp] theorem formAnswer_penSettings (p : Port) (a : Answer) (k : Pen) : (s.formAnswer p a).penSettings k = s.penSettings k := rfl
@[simp] theorem formAnswer_stroke? (p : Port) (a : Answer) (serial : Serial) :
    (s.formAnswer p a).stroke? serial = s.stroke? serial := rfl

/-! ### answerReady -/

@[simp] theorem answerReady_phase (p : Port) (a : Answer) :
    (s.answerReady p a).phase =
      s.phase := rfl
@[simp] theorem answerReady_deviceTime (p : Port) (a : Answer) :
    (s.answerReady p a).deviceTime =
      s.deviceTime := rfl
@[simp] theorem answerReady_links (p : Port) (a : Answer) :
    (s.answerReady p a).links =
      put s.links p { s.link p with state := .answerReady a } := rfl
@[simp] theorem answerReady_channels (p : Port) (a : Answer) :
    (s.answerReady p a).channels =
      s.channels := rfl
@[simp] theorem answerReady_strokes (p : Port) (a : Answer) :
    (s.answerReady p a).strokes =
      s.strokes := rfl
@[simp] theorem answerReady_pool (p : Port) (a : Answer) : (s.answerReady p a).pool = s.pool := rfl
@[simp] theorem answerReady_pages (p : Port) (a : Answer) :
    (s.answerReady p a).pages =
      s.pages := rfl
@[simp] theorem answerReady_snapshots (p : Port) (a : Answer) :
    (s.answerReady p a).snapshots =
      s.snapshots := rfl
@[simp] theorem answerReady_rings (p : Port) (a : Answer) :
    (s.answerReady p a).rings =
      s.rings := rfl
@[simp] theorem answerReady_live (p : Port) (a : Answer) : (s.answerReady p a).live = s.live := rfl
@[simp] theorem answerReady_mirror (p : Port) (a : Answer) :
    (s.answerReady p a).mirror =
      s.mirror := rfl
@[simp] theorem answerReady_image (p : Port) (a : Answer) :
    (s.answerReady p a).image =
      s.image := rfl
@[simp] theorem answerReady_indicator (p : Port) (a : Answer) :
    (s.answerReady p a).indicator =
      s.indicator := rfl
@[simp] theorem answerReady_save (p : Port) (a : Answer) : (s.answerReady p a).save = s.save := rfl
@[simp] theorem answerReady_freeCount (p : Port) (a : Answer) :
    (s.answerReady p a).freeCount =
      s.freeCount := rfl
@[simp] theorem answerReady_pending (p : Port) (a : Answer) :
    (s.answerReady p a).pending =
      s.pending := rfl
theorem answerReady_link (p : Port) (a : Answer) (k : Port) :
    (s.answerReady p a).link k = if p = k then { s.link p with state := .answerReady a } else s.link k := look_put _ _ _ _
@[simp] theorem answerReady_link_self (p : Port) (a : Answer) :
    (s.answerReady p a).link p = { s.link p with state := .answerReady a } := look_put_self _ _ _
theorem answerReady_link_of_ne (p : Port) (a : Answer) {k : Port} (h : p ≠ k) :
    (s.answerReady p a).link k = s.link k := look_put_of_ne _ _ h
@[simp] theorem answerReady_channel (p : Port) (a : Answer) (k : Pen) : (s.answerReady p a).channel k = s.channel k := rfl
@[simp] theorem answerReady_page (p : Port) (a : Answer) (k : Page) : (s.answerReady p a).page k = s.page k := rfl
@[simp] theorem answerReady_snapshot (p : Port) (a : Answer) (k : Port) : (s.answerReady p a).snapshot k = s.snapshot k := rfl
@[simp] theorem answerReady_ring (p : Port) (a : Answer) (k : Port) : (s.answerReady p a).ring k = s.ring k := rfl
@[simp] theorem answerReady_livePort (p : Port) (a : Answer) (k : Port) : (s.answerReady p a).livePort k = s.livePort k := rfl
@[simp] theorem answerReady_permissions (p : Port) (a : Answer) (k : Port) : (s.answerReady p a).permissions k = s.permissions k := rfl
@[simp] theorem answerReady_penSettings (p : Port) (a : Answer) (k : Pen) : (s.answerReady p a).penSettings k = s.penSettings k := rfl
@[simp] theorem answerReady_stroke? (p : Port) (a : Answer) (serial : Serial) :
    (s.answerReady p a).stroke? serial = s.stroke? serial := rfl

end

end Sys2Proof.Machine.State
end

