-- ==== Sys2Proof/Laws/Ops.lean ====
section
/-! SUPPORT. What the operations on strokes, channels, pages, hold lists and notices can do: each is a
sequence of the moves below (`InkReach`), so that a property that every move keeps, they keep. -/

namespace Sys2Proof.Machine

/-! ## The stroke table's searches -/

namespace StrokeTable

theorem serial_of_find {t : StrokeTable} {serial : Serial} {e : Stroke}
    (h : t.find serial = some e) : e.serial = serial := by
  simpa using List.find?_some h

theorem find_self {t : StrokeTable} {serial : Serial} {e : Stroke}
    (h : t.find serial = some e) : t.find e.serial = some e := by
  rw [serial_of_find h, h]

theorem find_update (t : StrokeTable) (serial k : Serial) (f : Stroke → Stroke)
    (hf : ∀ x, (f x).serial = x.serial) :
    (t.update serial f).find k = (t.find k).map fun e => if e.serial = serial then f e else e := by
  have hp : (fun e : Stroke => decide ((if e.serial = serial then f e else e).serial = k)) =
      fun e => decide (e.serial = k) := by
    funext e
    split <;> simp [hf]
  simp [find, update, List.find?_map, hp]

end StrokeTable

/-- The entry of this stroke is the one the table finds under its serial. -/
def State.Holds (s : State) (e : Stroke) : Prop := s.stroke? e.serial = some e

theorem State.holds_of_stroke? {s : State} {serial : Serial} {e : Stroke}
    (h : s.stroke? serial = some e) : s.Holds e := StrokeTable.find_self h

theorem State.holds_of_currentStroke {s : State} {pen : Pen} {e : Stroke}
    (h : s.currentStroke pen = some e) : s.Holds e := by
  unfold State.currentStroke at h
  cases hc : (s.channel pen).current with
  | none => simp [hc] at h
  | some serial => simp only [hc, Option.bind_some] at h; exact State.holds_of_stroke? h

/-! ## The moves -/

/-- How a point is stored: in a block that the stroke has, or in one just taken. -/
def blockFor (pool : Pool) (block : Option Nat) (pool' : Pool) : Prop :=
  match block with
  | none => pool' = pool
  | some b => takeBlock pool = some (b, pool')

/-- The moves of the page store, the stroke table's freeing and marking, the snapshots and the rings:
of a channel they touch the undo stack alone. -/
inductive PageMove : State → State → Prop where
  | undo (s : State) (pen : Pen) (stack : List Serial) :
      PageMove s (s.setChannel pen { s.channel pen with undo := stack })
  | live (s : State) (v : Vector LivePort 4) (h : ∀ p, (look v p).mute = (s.livePort p).mute) :
      PageMove s (s.setLive v)
  | page (s : State) (pg : Page) (r : PageRecord)
      (hr : (s.page pg).revision.toNat ≤ r.revision.toNat) (hl : r.locked = (s.page pg).locked) :
      PageMove s (s.setPage pg r)
  | snapshot (s : State) (p : Port) (r : Option SnapshotRecord)
      (h : ∀ a, r = some (.active a) → a.hold.length ≤ Config.holdItems ∨
        ∃ b, s.snapshot p = some (.active b) ∧ a.hold.length ≤ b.hold.length) :
      PageMove s (s.setSnapshot p r)
  | broken (s : State) (p : Port) : PageMove s (s.setLink p { s.link p with snapBroken := true })
  | route (s : State) (n : Notice) : PageMove s (s.route n)
  | edit (s : State) (serial : Serial) (f : Stroke → Stroke) (hs : ∀ x, (f x).serial = x.serial)
      (hc : ∀ x, (f x).chain = x.chain) (he : ∀ x, (f x).entry = x.entry) :
      PageMove s (s.setStrokes (s.strokes.update serial f))
  | free (s : State) (e e' : Stroke) (h : s.stroke? e.serial = some e') (hc : e'.chain = e.chain) :
      PageMove s ((s.setPool (returnChain s.pool e.chain)).setStrokes (s.strokes.remove e.serial))

/-- The moves of a pen that draws, beside those. -/
inductive InkMove : State → State → Prop where
  | ofPage {s t : State} (h : PageMove s t) : InkMove s t
  | channel (s : State) (pen : Pen) (c : Channel) (h : c.clock = (s.channel pen).clock ∧
      c.position = (s.channel pen).position ∧ c.target = (s.channel pen).target) :
      InkMove s (s.setChannel pen c)
  | opened (s : State) (g : Grant) (pool : Pool) (e : Stroke) (key : Nat) (p : Point)
      (h : s.grant = some (g, pool)) (hs : e.serial = freshSerial s.strokes)
      (he : e.entry = g.entry) (hc : e.chain = [g.block]) :
      InkMove s ((s.setStrokes
        { entries := insertStroke e s.strokes.entries, counter := nextSerial e.serial }).setPool
          { pool with cells := Memory.write pool.cells key p })
  | store (s : State) (e : Stroke) (block : Option Nat) (pool : Pool) (key : Nat) (p : Point)
      (charged : Bool) (hb : blockFor s.pool block pool)
      (h : block = none ∨ ∃ e', s.stroke? e.serial = some e') :
      InkMove s ((s.setStrokes
        (s.strokes.update e.serial fun x => x.withPoint block p charged)).setPool
          { pool with cells := Memory.write pool.cells key p })

/-- Any number of moves of the page store. -/
inductive PageReach : State → State → Prop where
  | refl (s : State) : PageReach s s
  | tail {s t u : State} (h : PageReach s t) (m : PageMove t u) : PageReach s u

namespace PageReach

theorem of_move {s t : State} (h : PageMove s t) : PageReach s t := .tail (.refl s) h

theorem trans {s t u : State} (h : PageReach s t) (h' : PageReach t u) : PageReach s u := by
  induction h' with
  | refl => exact h
  | tail _ m ih => exact .tail ih m

theorem foldl {β : Type} (f : State → β → State) (h : ∀ s b, PageReach s (f s b)) (l : List β) :
    ∀ s, PageReach s (l.foldl f s) := by
  induction l with
  | nil => exact fun s => .refl s
  | cons b l ih => exact fun s => (h s b).trans (ih _)

end PageReach

/-- Any number of moves. -/
inductive InkReach : State → State → Prop where
  | refl (s : State) : InkReach s s
  | tail {s t u : State} (h : InkReach s t) (m : InkMove t u) : InkReach s u

namespace InkReach

theorem of_move {s t : State} (h : InkMove s t) : InkReach s t := .tail (.refl s) h

theorem of_page {s t : State} (h : PageReach s t) : InkReach s t := by
  induction h with
  | refl => exact .refl _
  | tail _ m ih => exact .tail ih (.ofPage m)

theorem trans {s t u : State} (h : InkReach s t) (h' : InkReach t u) : InkReach s u := by
  induction h' with
  | refl => exact h
  | tail _ m ih => exact .tail ih m

theorem foldl {β : Type} (f : State → β → State) (h : ∀ s b, InkReach s (f s b)) (l : List β) :
    ∀ s, InkReach s (l.foldl f s) := by
  induction l with
  | nil => exact fun s => .refl s
  | cons b l ih => exact fun s => (h s b).trans (ih _)

end InkReach

/-! ## What each operation reaches -/

section
variable (s : State)

theorem nextRevision_le (r : Revision) : r.toNat ≤ (nextRevision r).toNat := by
  unfold nextRevision
  split
  · exact le_refl _
  · rename_i h
    rw [BitVec.toNat_add]
    have hr := r.isLt
    have hne : r.toNat ≠ 2 ^ 32 - 1 := fun hc => h (BitVec.eq_of_toNat_eq (by simp [hc]))
    have : (1 : Revision).toNat = 1 := rfl
    omega

theorem mute_mapSlot (l : LivePort) (pen : Pen) (f : Option Follow → Option Follow) :
    (l.mapSlot pen f).mute = l.mute := rfl

theorem reach_mapReachedSlots (e : Stroke) (f : Option Follow → Option Follow) :
    PageReach s (s.mapReachedSlots e f) := by
  refine .of_move (.live s _ fun p => ?_)
  rw [look_each4]
  split <;> rfl

theorem reach_route (n : Notice) : PageReach s (s.route n) := .of_move (.route s n)

theorem reach_undo_stack (pen : Pen) (stack : List Serial) :
    PageReach s (s.setChannel pen { s.channel pen with undo := stack }) := .of_move (.undo s pen stack)

theorem reach_setOccupant (pg : Page) (o : Occupant) : PageReach s (s.setOccupant pg o) :=
  .of_move (.page s pg _ (le_refl _) rfl)

theorem reach_edit (serial : Serial) (f : Stroke → Stroke) (hs : ∀ x, (f x).serial = x.serial)
    (hc : ∀ x, (f x).chain = x.chain) (he : ∀ x, (f x).entry = x.entry) :
    PageReach s (s.setStrokes (s.strokes.update serial f)) := .of_move (.edit s serial f hs hc he)

theorem reach_snapshot_none (p : Port) : PageReach s (s.setSnapshot p none) :=
  .of_move (.snapshot s p none (by simp))

theorem reach_snapshot_broken (p : Port) (pg : Page) :
    PageReach s (s.setSnapshot p (some (.broken pg))) :=
  .of_move (.snapshot s p _ (by simp))

theorem reach_freeStroke (kind : Freeing) (e e' : Stroke) (h : s.stroke? e.serial = some e')
    (hc : e'.chain = e.chain) : PageReach s (s.freeStroke kind e) := by
  let s1 := s.setChannel e.pen { s.channel e.pen with undo := (s.channel e.pen).undo.erase e.serial }
  let s2 := s1.setLive (each4 (fun _ l => l.mapSlot e.pen (slotFreed kind e.serial)) s1.live)
  have h1 : PageReach s s1 := reach_undo_stack s _ _
  have h2 : PageReach s1 s2 := .of_move (.live s1 _ fun p => by rw [look_each4]; rfl)
  have h3 : PageMove s2 (s.freeStroke kind e) := PageMove.free s2 e e' h hc
  exact (h1.trans h2).tail h3

theorem reach_freeStroke_of_holds (kind : Freeing) (e : Stroke) (h : s.Holds e) :
    PageReach s (s.freeStroke kind e) := reach_freeStroke s kind e e h rfl

theorem reach_commitStroke (e : Stroke) : PageReach s (s.commitStroke e) := by
  let f : Stroke → Stroke := fun x => { x with state := .committed }
  let s1 := s.setStrokes (s.strokes.update e.serial f)
  have h1 : PageReach s s1 := reach_edit s e.serial f (fun _ => rfl) (fun _ => rfl) (fun _ => rfl)
  have h2 := h1.tail (.page s1 e.page
    { s1.page e.page with
      list := (s1.page e.page).list ++ [e.serial], revision := nextRevision (s1.page e.page).revision }
    (nextRevision_le _) rfl)
  exact (h2.trans (reach_undo_stack _ _ _)).trans (reach_route _ _)

theorem reach_removeStroke (e : Stroke) (cause : EraseCause) (h : s.Holds e) :
    PageReach s (s.removeStroke e cause) := by
  have h1 : PageReach s (s.setPage e.page
      { s.page e.page with
        list := (s.page e.page).list.erase e.serial
        occupant := strikeVisit e.serial (s.page e.page).occupant
        revision := nextRevision (s.page e.page).revision }) :=
    .of_move (.page s e.page _ (nextRevision_le _) rfl)
  exact (h1.trans (reach_route _ _)).trans (reach_freeStroke_of_holds _ _ _ h)

theorem reach_freeAll (serials : List Serial) : PageReach s (s.freeAll serials) := by
  refine PageReach.foldl _ (fun t serial => ?_) _ _
  split
  · exact .refl _
  · rename_i e h
    exact reach_freeStroke_of_holds _ _ _ (State.holds_of_stroke? h)

theorem reach_clearStrokes (pg : Page) : PageReach s (s.clearStrokes pg) := by
  unfold State.clearStrokes
  dsimp only
  split
  · exact .refl _
  · have h1 : PageReach s (s.setPage pg { s.page pg with list := [] }) :=
      .of_move (.page s pg _ (le_refl _) rfl)
    have h2 := h1.trans (reach_freeAll _ (s.page pg).list)
    have h3 := h2.tail (.page _ pg { State.page _ pg with revision := nextRevision (State.page _ pg).revision }
      (nextRevision_le _) rfl)
    exact h3.trans (reach_route _ _)

theorem reach_applyItem (pg : Page) (item : HoldItem) : PageReach s (State.applyItem pg s item) := by
  cases item with
  | commit serial =>
    simp only [State.applyItem]
    split
    · exact .refl _
    · exact reach_commitStroke _ _
  | erase serial cause =>
    simp only [State.applyItem]
    split
    · exact .refl _
    · rename_i e h
      split
      · exact reach_removeStroke _ _ _ (State.holds_of_stroke? h)
      · exact .refl _
  | clear => exact reach_clearStrokes _ _

theorem reach_applyHeld_none (owner : Port) (a : ActiveSnapshot) :
    PageReach s (s.applyHeld owner a none) :=
  ((PageReach.foldl _ (reach_applyItem · a.page) _ _).trans (reach_setOccupant _ _ _)).trans
    (reach_snapshot_none _ _)

theorem reach_applyHeld_broken (owner : Port) (a : ActiveSnapshot) (pg : Page) :
    PageReach s (s.applyHeld owner a (some (.broken pg))) :=
  ((PageReach.foldl _ (reach_applyItem · a.page) _ _).trans (reach_setOccupant _ _ _)).trans
    (reach_snapshot_broken _ _ _)

theorem reach_breakSnapshot (owner : Port) (a : ActiveSnapshot) :
    PageReach s (s.breakSnapshot owner a) :=
  (reach_applyHeld_broken s owner a _).trans (.of_move (.broken _ _))

theorem reach_releaseSnapshot (owner : Port) : PageReach s (s.releaseSnapshot owner) := by
  unfold State.releaseSnapshot
  split
  · exact .refl _
  · exact reach_applyHeld_none _ _ _
  · exact reach_snapshot_none _ _

/-- A page's holder is the owner of an ACTIVE record. -/
theorem snapshot_of_holder {pg : Page} {owner : Port} {a : ActiveSnapshot}
    (h : s.holder pg = some (owner, a)) : s.snapshot owner = some (.active a) := by
  unfold State.holder at h
  split at h
  · simp at h
  · simp at h
  · split at h
    · rename_i hs
      simp only [Option.some.injEq, Prod.mk.injEq] at h
      rw [← h.1, ← h.2]; exact hs
    · simp at h
    · simp at h

theorem reach_fileItem (owner : Port) (a : ActiveSnapshot) (item : HoldItem)
    (h : a.hold.length < Config.holdItems) : PageReach s (s.fileItem owner a item) :=
  .of_move (.snapshot s owner _ fun b hb => .inl (by
    simp only [Option.some.injEq, SnapshotRecord.active.injEq] at hb
    rw [← hb]; simpa using h))

theorem reach_inkOutcome (e : Stroke) : PageReach s (s.inkOutcome e) := by
  unfold State.inkOutcome
  split
  · exact reach_commitStroke _ _
  · rename_i owner a h
    split
    · rename_i hlt
      exact (reach_edit s e.serial (fun x => { x with state := .held }) (fun _ => rfl)
        (fun _ => rfl) (fun _ => rfl)).trans (reach_fileItem _ owner a _ hlt)
    · exact (reach_breakSnapshot _ _ _).trans (reach_commitStroke _ _)

theorem reach_classify (e : Stroke) (cause : CloseCause) (h : s.Holds e) :
    PageReach s (s.classify e cause) := by
  unfold State.classify
  dsimp only
  generalize hout : classifiedAs _ _ _ _ = outcome
  let f : Stroke → Stroke := fun x => { x with cause := some cause, outcome := some outcome }
  let s1 := s.setStrokes (s.strokes.update e.serial f)
  let s2 := s1.mapReachedSlots e (slotJudged e.serial outcome)
  have h1 : PageReach s s1 := reach_edit s e.serial f (fun _ => rfl) (fun _ => rfl) (fun _ => rfl)
  have h2 : PageReach s s2 := h1.trans (reach_mapReachedSlots _ _ _)
  have hf : s2.stroke? e.serial = some (f e) := by
    have : s2.stroke? e.serial = (s.strokes.update e.serial f).find e.serial := rfl
    rw [this, StrokeTable.find_update _ _ _ f (fun _ => rfl)]
    have hh : s.strokes.find e.serial = some e := h
    simp [hh]
  cases outcome with
  | tap => exact (h2.trans (reach_route _ _)).trans (reach_freeStroke _ _ e (f e) hf rfl)
  | noise => exact h2.trans (reach_freeStroke _ _ e (f e) hf rfl)
  | ink => exact h2.trans (reach_inkOutcome _ _)

theorem reach_setChannel (pen : Pen) (c : Channel)
    (h : c.clock = (s.channel pen).clock ∧ c.position = (s.channel pen).position ∧
      c.target = (s.channel pen).target) :
    InkReach s (s.setChannel pen c) := .of_move (.channel s pen c h)

theorem reach_closeCurrent (pen : Pen) (cause : CloseCause) :
    InkReach s (s.closeCurrent pen cause) := by
  unfold State.closeCurrent
  dsimp only
  split
  · exact reach_setChannel _ _ _ (by exact ⟨rfl, rfl, rfl⟩)
  · rename_i e h
    have hh : s.Holds e := State.holds_of_currentStroke h
    exact (reach_setChannel _ _ _ (by exact ⟨rfl, rfl, rfl⟩)).trans (.of_page (reach_classify _ _ _ hh))

theorem reach_enterPen (pen : Pen) (after : PenState) : InkReach s (s.enterPen pen after) := by
  unfold State.enterPen
  dsimp only
  split
  · exact (reach_setChannel _ _ _ (by exact ⟨rfl, rfl, rfl⟩)).trans (.of_page (reach_route _ _))
  · exact reach_setChannel _ _ _ (by exact ⟨rfl, rfl, rfl⟩)

theorem reach_endPen (pen : Pen) (cause : CloseCause) : InkReach s (s.endPen pen cause) :=
  ((reach_closeCurrent _ _ _).trans (reach_setChannel _ _ _ (by exact ⟨rfl, rfl, rfl⟩))).trans (reach_enterPen _ _ _)

/-! ## Growing a stroke -/

theorem reach_openStroke (g : Grant) (pool : Pool) (e : Stroke) (first : Point) (clock : Long)
    (h : s.grant = some (g, pool)) (hs : e.serial = freshSerial s.strokes)
    (he : e.entry = g.entry) (hc : e.chain = [g.block]) :
    InkReach s (s.openStroke pool e first clock) :=
  ((InkReach.of_move (.opened s g pool e (pointKey e.chain 0) first h hs he hc)).trans
    (reach_setChannel _ _ _ (by exact ⟨rfl, rfl, rfl⟩))).trans (.of_page (reach_mapReachedSlots _ _ _))

theorem reach_storePoint (e : Stroke) (block : Option Nat) (pool : Pool) (p : Point) (clock : Long)
    (charged : Bool) (hb : blockFor s.pool block pool)
    (h : block = none ∨ ∃ e', s.stroke? e.serial = some e') :
    InkReach s (s.storePoint e block pool p clock charged) :=
  ((InkReach.of_move
    (.store s e block pool (pointKey (e.withPoint block p charged).chain e.count) p charged hb h)).trans
    (reach_setChannel _ _ _ (by exact ⟨rfl, rfl, rfl⟩))).trans (.of_page (reach_mapReachedSlots _ _ _))

theorem reach_charge (serial : Serial) (charged : Bool) :
    InkReach s (s.chargeSample serial charged) :=
  .of_page (reach_edit s serial _ (fun _ => rfl) (fun _ => rfl) (fun _ => rfl))

theorem reach_poolFullClose (e : Stroke) (charged : Bool) :
    InkReach s (s.poolFullClose e charged).1 :=
  ((reach_charge s _ _).trans (reach_closeCurrent _ _ _)).trans (reach_enterPen _ _ _)

theorem reach_splitStroke (e : Stroke) (w : Working) (p : Point) (clock : Long) (charged : Bool) :
    InkReach s (s.splitStroke e w p clock charged).1 := by
  unfold State.splitStroke
  dsimp only
  split
  · exact ((reach_closeCurrent _ _ _).trans (reach_charge _ _ _)).trans (reach_enterPen _ _ _)
  · rename_i g pool hg
    exact ((reach_closeCurrent _ _ _).trans
      (reach_openStroke _ g pool _ _ _ hg rfl rfl rfl)).trans
      (reach_storePoint _ _ none _ _ _ _ rfl (.inl rfl))

theorem reach_appendPoint (e : Stroke) (w : Working) (p : Point) (clock : Long) (charged : Bool)
    (h : s.Holds e) : InkReach s (s.appendPoint e w p clock charged).1 := by
  unfold State.appendPoint
  split
  · exact reach_splitStroke _ _ _ _ _ _
  · split
    · split
      · exact reach_poolFullClose _ _ _
      · rename_i b pool hb
        exact reach_storePoint _ _ (some b) _ _ _ _ hb (.inr ⟨e, h⟩)
    · exact reach_storePoint _ _ none _ _ _ _ rfl (.inl rfl)

/-! ## Samples -/

theorem reach_conditionSample (pen : Pen) (b : Buffered) (rejoin : Bool) :
    InkReach s (s.conditionSample pen b rejoin).1 := by
  unfold State.conditionSample
  split
  · rename_i e w he hw
    dsimp only
    split
    · exact reach_appendPoint _ _ _ _ _ _ (State.holds_of_currentStroke he)
    · exact (reach_charge s _ _).trans (reach_setChannel _ _ _ (by exact ⟨rfl, rfl, rfl⟩))
  · exact .refl _
  · exact .refl _

theorem reach_conditionAll (pen : Pen) (l : List Buffered) :
    ∀ s : State, InkReach s (s.conditionAll pen l).1 := by
  induction l with
  | nil => exact fun s => .refl _
  | cons b l ih =>
    intro s
    unfold State.conditionAll
    have h := reach_conditionSample s pen b false
    split
    · rename_i s1 heq; rw [heq] at h; exact h
    · rename_i s1 heq; rw [heq] at h; exact h.trans (ih s1)

theorem reach_openNew (pen : Pen) (source : Port) (first : Buffered) (rest : List Buffered) :
    InkReach s (s.openNew pen source first rest).1 := by
  unfold State.openNew
  dsimp only
  split
  · exact (reach_setChannel _ _ _ (by exact ⟨rfl, rfl, rfl⟩)).trans (reach_enterPen _ _ _)
  · split
    · exact (reach_setChannel _ _ _ (by exact ⟨rfl, rfl, rfl⟩)).trans (reach_enterPen _ _ _)
    · rename_i g pool hg
      exact (((reach_setChannel _ _ _ (by exact ⟨rfl, rfl, rfl⟩)).trans
        (reach_openStroke _ g pool _ _ _ hg rfl rfl rfl)).trans (reach_enterPen _ _ _)).trans
        (reach_conditionAll _ _ _)

theorem reach_rejoinStroke (pen : Pen) (e : Stroke) (first : Buffered) (rest : List Buffered) :
    InkReach s (s.rejoinStroke pen e first rest).1 := by
  unfold State.rejoinStroke
  dsimp only
  generalize hs3 : State.enterPen _ _ _ = s3
  have h3 : InkReach s s3 := by
    rw [← hs3]
    exact ((InkReach.of_page (reach_edit s e.serial (fun x => { x with state := .opened, cause := none })
      (fun _ => rfl) (fun _ => rfl) (fun _ => rfl))).trans (reach_setChannel _ _ _ (by exact ⟨rfl, rfl, rfl⟩))).trans
      (reach_enterPen _ _ _)
  have h := reach_conditionSample s3 pen first true
  split
  · rename_i s1 heq; rw [heq] at h; exact h3.trans h
  · rename_i s1 heq; rw [heq] at h; exact (h3.trans h).trans (reach_conditionAll _ _ _)

theorem reach_penDown (pen : Pen) (source : Port) : InkReach s (s.penDown pen source).1 := by
  unfold State.penDown
  split
  · exact .refl _
  · split
    · split
      · exact reach_rejoinStroke _ _ _ _ _
      · exact (reach_closeCurrent _ _ _).trans (reach_openNew _ _ _ _ _)
    · exact (reach_closeCurrent _ _ _).trans (reach_openNew _ _ _ _ _)
    · exact reach_openNew _ _ _ _ _

theorem reach_closingPoint (pen : Pen) : InkReach s (s.closingPoint pen).1 := by
  unfold State.closingPoint
  split
  · rename_i e w he hw
    split
    · exact .refl _
    · exact reach_appendPoint _ _ _ _ _ _ (State.holds_of_currentStroke he)
  · exact .refl _
  · exact .refl _

theorem reach_closePenUp (pen : Pen) : InkReach s (s.closePenUp pen) := by
  unfold State.closePenUp
  dsimp only
  split
  · exact reach_closeCurrent _ _ _
  · split
    · exact .refl _
    · exact (InkReach.of_page (reach_edit s _
        (fun x => { x with state := .closing, cause := some .penUp })
        (fun _ => rfl) (fun _ => rfl) (fun _ => rfl))).trans (reach_setChannel _ _ _ (by exact ⟨rfl, rfl, rfl⟩))

theorem reach_penUp (pen : Pen) (x : Sample) : InkReach s (s.penUp pen x).1 := by
  unfold State.penUp
  have h := (reach_setChannel s pen _ (by exact ⟨rfl, rfl, rfl⟩)).trans (reach_closingPoint (s.emptyLift pen) pen)
  split
  · rename_i s1 heq; rw [heq] at h; exact h
  · rename_i s1 heq; rw [heq] at h
    exact (h.trans (reach_closePenUp _ _)).trans (reach_enterPen _ _ _)

theorem reach_pressSample (pen : Pen) (source : Port) (b : Buffered) :
    InkReach s (s.pressSample pen source b).1 := by
  unfold State.pressSample
  dsimp only
  have h := (reach_setChannel s pen
    { s.channel pen with down := (s.channel pen).down ++ [b] } (by exact ⟨rfl, rfl, rfl⟩)).trans (reach_enterPen _ pen .pressing)
  split
  · exact h.trans (reach_penDown _ _ _)
  · exact h

theorem reach_liftSample (pen : Pen) (b : Buffered) : InkReach s (s.liftSample pen b).1 := by
  unfold State.liftSample
  dsimp only
  have h := (reach_setChannel s pen
    { s.channel pen with lift := (s.channel pen).lift ++ [b] } (by exact ⟨rfl, rfl, rfl⟩)).trans (reach_enterPen _ pen .lifting)
  split
  · exact h.trans (reach_penUp _ _ _)
  · exact h

theorem reach_breakLift (pen : Pen) (b : Buffered) : InkReach s (s.breakLift pen b).1 :=
  ((reach_setChannel _ _ _ (by exact ⟨rfl, rfl, rfl⟩)).trans (reach_enterPen _ _ _)).trans (reach_conditionAll _ _ _)

theorem reach_judgeSample (pen : Pen) (source : Port) (b : Buffered) :
    InkReach s (s.judgeSample pen source b).1 := by
  have low := reach_enterPen s pen (lowState b.sample)
  unfold State.judgeSample
  dsimp only
  split
  · split
    · exact reach_pressSample _ _ _ _
    · exact low
  · split
    · exact reach_pressSample _ _ _ _
    · exact low
  · split
    · exact reach_pressSample _ _ _ _
    · exact (reach_setChannel _ _ _ (by exact ⟨rfl, rfl, rfl⟩)).trans (reach_enterPen _ _ _)
  · split
    · exact reach_conditionSample _ _ _ _
    · exact reach_liftSample _ _ _
  · split
    · exact reach_breakLift _ _ _
    · exact reach_liftSample _ _ _
  · split
    · exact .refl _
    · exact low
  · split
    · exact .refl _
    · exact low

/-- Judging a sample, and hearing it: the samples of a request, in moves and in new pen clocks and
positions. -/
inductive SampleReach : State → State → Prop where
  | refl (s : State) : SampleReach s s
  | tail {s t u : State} (h : SampleReach s t) (m : InkMove t u) : SampleReach s u
  | hear {s t : State} (h : SampleReach s t) (pen : Pen) (c : Channel) :
      SampleReach s (t.setChannel pen c)

theorem SampleReach.append {s t u : State} (h : SampleReach s t) (h' : InkReach t u) :
    SampleReach s u := by
  induction h' with
  | refl => exact h
  | tail _ m ih => exact .tail ih m

theorem reach_takeSample (pen : Pen) (source : Port) (r : State × Flow) (x : Sample)
    (h : SampleReach s r.1) : SampleReach s (State.takeSample pen source r x).1 := by
  unfold State.takeSample
  dsimp only
  split
  · exact h.hear _ _
  · exact (h.hear _ _).append (reach_judgeSample _ _ _ _)

theorem reach_takeSamples (pen : Pen) (source : Port) (samples : List Sample) :
    SampleReach s (s.takeSamples pen source samples) := by
  have h : ∀ (l : List Sample) (r : State × Flow), SampleReach s r.1 →
      SampleReach s (l.foldl (State.takeSample pen source) r).1 := by
    intro l
    induction l with
    | nil => exact fun r h => h
    | cons x l ih => exact fun r h => ih _ (reach_takeSample s pen source r x h)
  exact (h samples (s, .judge) (.refl s)).append (reach_setChannel _ _ _ (by exact ⟨rfl, rfl, rfl⟩))

theorem reach_silencePen (pen : Pen) : InkReach s (s.silencePen pen) := by
  have away := reach_enterPen s pen .away
  unfold State.silencePen
  split
  · exact .refl _
  · exact away
  · exact (reach_setChannel _ _ _ (by exact ⟨rfl, rfl, rfl⟩)).trans (reach_enterPen _ _ _)
  · exact (reach_closeCurrent _ _ _).trans (reach_enterPen _ _ _)
  · exact ((reach_setChannel _ _ _ (by exact ⟨rfl, rfl, rfl⟩)).trans (reach_closeCurrent _ _ _)).trans (reach_enterPen _ _ _)
  · exact away
  · exact away

theorem reach_expireSilence (pen : Pen) : InkReach s (s.expireSilence pen) := by
  unfold State.expireSilence
  split
  · exact .refl _
  · split
    · exact (reach_setChannel _ _ _ (by exact ⟨rfl, rfl, rfl⟩)).trans (reach_silencePen _ _)
    · exact .refl _

theorem reach_expireRejoin (pen : Pen) : InkReach s (s.expireRejoin pen) := by
  unfold State.expireRejoin
  split
  · exact .refl _
  · split
    · exact reach_closeCurrent _ _ _
    · exact .refl _

end

end Sys2Proof.Machine
end

