-- ==== Sys2Proof/Laws/Moves.lean ====
section
/-! SUPPORT. What no sequence of `InkMove`s changes, and what every command can do: from one state to
the next by the moves below (`Reach`), or a restart of the blocks (`Restarted`). -/

namespace Sys2Proof.Machine

/-! ## What the moves on strokes leave alone -/

theorem State.SameOutside.refl (s : State) : s.SameOutside s :=
  ⟨rfl, rfl, rfl, rfl, rfl, rfl, rfl, rfl, fun _ => rfl⟩

theorem State.SameOutside.trans {s t u : State} (h : s.SameOutside t) (h' : t.SameOutside u) :
    s.SameOutside u :=
  ⟨h'.phase.trans h.phase, h'.deviceTime.trans h.deviceTime, h'.mirror.trans h.mirror,
    h'.image.trans h.image, h'.indicator.trans h.indicator, h'.save.trans h.save,
    h'.freeCount.trans h.freeCount, h'.pending.trans h.pending,
    fun p => (h'.links p).trans (h.links p)⟩

theorem PageMove.sameOutside {s t : State} (h : PageMove s t) : s.SameOutside t := by
  cases h <;> constructor <;> try first | rfl | exact fun _ => rfl
  rename_i p
  intro q
  rw [State.setLink_link]
  split
  · rename_i hpq; subst hpq; rfl
  · rfl

theorem InkMove.sameOutside {s t : State} (h : InkMove s t) : s.SameOutside t := by
  cases h with
  | ofPage h => exact h.sameOutside
  | channel => exact ⟨rfl, rfl, rfl, rfl, rfl, rfl, rfl, rfl, fun _ => rfl⟩
  | opened => exact ⟨rfl, rfl, rfl, rfl, rfl, rfl, rfl, rfl, fun _ => rfl⟩
  | store => exact ⟨rfl, rfl, rfl, rfl, rfl, rfl, rfl, rfl, fun _ => rfl⟩

theorem InkReach.sameOutside {s t : State} (h : InkReach s t) : s.SameOutside t := by
  induction h with
  | refl => exact .refl _
  | tail _ m ih => exact ih.trans m.sameOutside

theorem PageReach.sameOutside {s t : State} (h : PageReach s t) : s.SameOutside t :=
  (InkReach.of_page h).sameOutside

theorem SampleReach.sameOutside {s t : State} (h : SampleReach s t) : s.SameOutside t := by
  induction h with
  | refl => exact .refl _
  | tail _ m ih => exact ih.trans m.sameOutside
  | hear _ pen c ih => exact ih.trans ⟨rfl, rfl, rfl, rfl, rfl, rfl, rfl, rfl, fun _ => rfl⟩

/-- The link's fields other than SNAP_BROKEN, one by one. -/
theorem State.SameOutside.link_fields {s t : State} (h : s.SameOutside t) (p : Port) :
    (t.link p).state = (s.link p).state ∧ (t.link p).lastTag = (s.link p).lastTag ∧
      (t.link p).restarted = (s.link p).restarted ∧ (t.link p).frameFault = (s.link p).frameFault ∧
      (t.link p).attentionMask = (s.link p).attentionMask ∧
      (t.link p).threshold = (s.link p).threshold ∧ (t.link p).forming = (s.link p).forming ∧
      (t.link p).frame = (s.link p).frame := by
  have := h.links p
  simp only [Link.mk.injEq] at this
  tauto

/-! ### Rings and mute masks -/

theorem ringReceive_masks (n : Notice) (r : Ring) :
    (ringReceive n r).pageMask = r.pageMask ∧ (ringReceive n r).kindMask = r.kindMask ∧
      (ringReceive n r).get = r.get := by
  unfold ringReceive
  split
  · exact ⟨rfl, rfl, rfl⟩
  · split <;> exact ⟨rfl, rfl, rfl⟩

theorem PageMove.rings {s t : State} (h : PageMove s t) (p : Port) :
    (t.ring p).pageMask = (s.ring p).pageMask ∧ (t.ring p).kindMask = (s.ring p).kindMask ∧
      (t.ring p).get = (s.ring p).get := by
  cases h <;> try exact ⟨rfl, rfl, rfl⟩
  rw [State.route_ring]
  split
  · exact ringReceive_masks _ _
  · exact ⟨rfl, rfl, rfl⟩

theorem InkMove.rings {s t : State} (h : InkMove s t) (p : Port) :
    (t.ring p).pageMask = (s.ring p).pageMask ∧ (t.ring p).kindMask = (s.ring p).kindMask ∧
      (t.ring p).get = (s.ring p).get := by
  cases h <;> first | exact ⟨rfl, rfl, rfl⟩ | exact PageMove.rings (by assumption) p

/-- The masks and the get index of every ring. -/
theorem InkReach.rings {s t : State} (h : InkReach s t) (p : Port) :
    (t.ring p).pageMask = (s.ring p).pageMask ∧ (t.ring p).kindMask = (s.ring p).kindMask ∧
      (t.ring p).get = (s.ring p).get := by
  induction h with
  | refl => exact ⟨rfl, rfl, rfl⟩
  | tail _ m ih =>
    have := m.rings p
    exact ⟨this.1.trans ih.1, this.2.1.trans ih.2.1, this.2.2.trans ih.2.2⟩

theorem PageMove.mute {s t : State} (h : PageMove s t) (p : Port) :
    (t.livePort p).mute = (s.livePort p).mute := by
  cases h <;> try rfl
  rename_i h
  exact h p

theorem InkMove.mute {s t : State} (h : InkMove s t) (p : Port) :
    (t.livePort p).mute = (s.livePort p).mute := by
  cases h <;> first | rfl | exact PageMove.mute (by assumption) p

/-- Every mute mask. -/
theorem InkReach.mute {s t : State} (h : InkReach s t) (p : Port) :
    (t.livePort p).mute = (s.livePort p).mute := by
  induction h with
  | refl => rfl
  | tail _ m ih => exact (m.mute p).trans ih

/-! ### Channels -/

theorem PageMove.channels {s t : State} (h : PageMove s t) (pen : Pen) :
    { t.channel pen with undo := [] } = { s.channel pen with undo := [] } := by
  cases h <;> try rfl
  rename_i q stack
  rw [State.setChannel_channel]
  split
  · rename_i hq; subst hq; rfl
  · rfl

/-- The moves of the page store leave of every channel all but its undo stack. -/
theorem PageReach.channels {s t : State} (h : PageReach s t) (pen : Pen) :
    { t.channel pen with undo := [] } = { s.channel pen with undo := [] } := by
  induction h with
  | refl => rfl
  | tail _ m ih => exact (m.channels pen).trans ih

theorem PageReach.channel_fields {s t : State} (h : PageReach s t) (pen : Pen) :
    (t.channel pen).state = (s.channel pen).state ∧ (t.channel pen).down = (s.channel pen).down ∧
      (t.channel pen).lift = (s.channel pen).lift ∧ (t.channel pen).clock = (s.channel pen).clock ∧
      (t.channel pen).silence = (s.channel pen).silence ∧
      (t.channel pen).rejoin = (s.channel pen).rejoin ∧
      (t.channel pen).position = (s.channel pen).position ∧
      (t.channel pen).target = (s.channel pen).target ∧
      (t.channel pen).current = (s.channel pen).current ∧
      (t.channel pen).working = (s.channel pen).working := by
  have := h.channels pen
  simp only [Channel.mk.injEq] at this
  tauto

theorem InkMove.channel_fields {s t : State} (h : InkMove s t) (pen : Pen) :
    (t.channel pen).clock = (s.channel pen).clock ∧
      (t.channel pen).position = (s.channel pen).position ∧
      (t.channel pen).target = (s.channel pen).target := by
  cases h with
  | ofPage h =>
    have := h.channels pen
    simp only [Channel.mk.injEq] at this
    tauto
  | channel q c h =>
    rw [State.setChannel_channel]
    split
    · rename_i hq; subst hq; exact h
    · exact ⟨rfl, rfl, rfl⟩
  | opened => exact ⟨rfl, rfl, rfl⟩
  | store => exact ⟨rfl, rfl, rfl⟩

/-- Every pen clock, last calibrated position and target page. -/
theorem InkReach.channel_fields {s t : State} (h : InkReach s t) (pen : Pen) :
    (t.channel pen).clock = (s.channel pen).clock ∧
      (t.channel pen).position = (s.channel pen).position ∧
      (t.channel pen).target = (s.channel pen).target := by
  induction h with
  | refl => exact ⟨rfl, rfl, rfl⟩
  | tail _ m ih =>
    have := m.channel_fields pen
    exact ⟨this.1.trans ih.1, this.2.1.trans ih.2.1, this.2.2.trans ih.2.2⟩

/-! ### Pages and places -/

theorem PageMove.page_fields {s t : State} (h : PageMove s t) (pg : Page) :
    (t.page pg).locked = (s.page pg).locked ∧
      (s.page pg).revision.toNat ≤ (t.page pg).revision.toNat := by
  cases h <;> try exact ⟨rfl, le_refl _⟩
  rename_i q r hr hl
  rw [State.setPage_page]
  split
  · rename_i h; subst h; exact ⟨hl, hr⟩
  · exact ⟨rfl, le_refl _⟩

theorem InkMove.page_fields {s t : State} (h : InkMove s t) (pg : Page) :
    (t.page pg).locked = (s.page pg).locked ∧
      (s.page pg).revision.toNat ≤ (t.page pg).revision.toNat := by
  cases h <;> first | exact ⟨rfl, le_refl _⟩ | exact PageMove.page_fields (by assumption) pg

/-- Every lock flag stands, and no revision decreases. -/
theorem InkReach.page_fields {s t : State} (h : InkReach s t) (pg : Page) :
    (t.page pg).locked = (s.page pg).locked ∧
      (s.page pg).revision.toNat ≤ (t.page pg).revision.toNat := by
  induction h with
  | refl => exact ⟨rfl, le_refl _⟩
  | tail _ m ih =>
    have := m.page_fields pg
    exact ⟨this.1.trans ih.1, ih.2.trans this.2⟩

theorem PageMove.store {s t : State} (h : PageMove s t) :
    t.pool.cells = s.pool.cells ∧ t.strokes.counter = s.strokes.counter := by
  cases h <;> exact ⟨rfl, rfl⟩

/-- The moves of the page store write no place of the pool and take no serial. -/
theorem PageReach.store {s t : State} (h : PageReach s t) :
    t.pool.cells = s.pool.cells ∧ t.strokes.counter = s.strokes.counter := by
  induction h with
  | refl => exact ⟨rfl, rfl⟩
  | tail _ m ih => exact ⟨m.store.1.trans ih.1, m.store.2.trans ih.2⟩

/-! ## Every command -/

/-- A threshold stands or is in range. -/
def thresholdKept (l l' : Link) : Prop :=
  l'.threshold = l.threshold ∨ (1 ≤ l'.threshold.toNat ∧ l'.threshold.toNat ≤ 32)

inductive Move : State → State → Prop where
  | ink {s t : State} (h : InkMove s t) : Move s t
  | channel (s : State) (pen : Pen) (c : Channel) : Move s (s.setChannel pen c)
  | link (s : State) (p : Port) (l : Link) (h : thresholdKept (s.link p) l) : Move s (s.setLink p l)
  | ring (s : State) (p : Port) (r : Ring) (h : (s.ring p).Agrees → r.Agrees) :
      Move s (s.setRing p r)
  | livePort (s : State) (p : Port) (l : LivePort) : Move s (s.setLivePort p l)
  | page (s : State) (pg : Page) (r : PageRecord)
      (h : (s.page pg).revision.toNat ≤ r.revision.toNat) : Move s (s.setPage pg r)
  | mirror (s : State) (m : Mirror) (hr : s.mirror.InRange → m.InRange)
      (hm : s.mirror.someRoom = true → m.someRoom = true) : Move s (s.setMirror m)
  | image (s : State) (i : List Byte) : Move s (s.setImage i)
  | save (s : State) (v : Option Save) : Move s (s.setSave v)
  | load (s : State) (h : s.phase = .starting) : Move s s.enterRunning

inductive Reach : State → State → Prop where
  | refl (s : State) : Reach s s
  | tail {s t u : State} (h : Reach s t) (m : Move t u) : Reach s u

namespace Reach

theorem of_move {s t : State} (h : Move s t) : Reach s t := .tail (.refl s) h

theorem trans {s t u : State} (h : Reach s t) (h' : Reach t u) : Reach s u := by
  induction h' with
  | refl => exact h
  | tail _ m ih => exact .tail ih m

theorem of_ink {s t : State} (h : InkReach s t) : Reach s t := by
  induction h with
  | refl => exact .refl _
  | tail _ m ih => exact .tail ih (.ink m)

theorem of_page {s t : State} (h : PageReach s t) : Reach s t := of_ink (.of_page h)

theorem of_samples {s t : State} (h : SampleReach s t) : Reach s t := by
  induction h with
  | refl => exact .refl _
  | tail _ m ih => exact .tail ih (.ink m)
  | hear _ pen c ih => exact .tail ih (.channel _ pen c)

theorem foldl {β : Type} (f : State → β → State) (h : ∀ s b, Reach s (f s b)) (l : List β) :
    ∀ s, Reach s (l.foldl f s) := by
  induction l with
  | nil => exact fun s => .refl s
  | cons b l ih => exact fun s => (h s b).trans (ih _)

end Reach

/-- The blocks at their reset values, the settings kept, no port taken into RUNNING. -/
structure Restarted (s t : State) : Prop where
  blocks : t.resetBlocks = t
  mirror : t.mirror = s.mirror
  pending : t.pending = s.pending
  phase : t.phase = .running → s.phase = .running
  links : ∀ p, thresholdKept (s.link p) (t.link p)

/-- What one command can do. -/
def Moved (s t : State) : Prop := Reach s t ∨ Restarted s t

theorem Moved.of_ink {s t : State} (h : InkReach s t) : Moved s t := .inl (.of_ink h)

theorem Moved.refl (s : State) : Moved s s := .inl (.refl s)

section
variable (s : State)

theorem reach_link (p : Port) (l : Link) (h : l.threshold = (s.link p).threshold) :
    Reach s (s.setLink p l) := .of_move (.link s p l (.inl h))

theorem reach_formAnswer (p : Port) (a : Answer) : Reach s (s.formAnswer p a) :=
  reach_link s p _ rfl

theorem reach_answerReady (p : Port) (a : Answer) : Reach s (s.answerReady p a) :=
  reach_link s p _ rfl

theorem reach_deliver (p : Port) (wanted : Bool) (a : Answer) : Reach s (s.deliver p wanted a) := by
  unfold State.deliver
  split
  · exact reach_answerReady _ _ _
  · exact .refl _

/-! ### Values brought into range stay as they are -/

theorem clampWord_toNat (low high : Nat) (w : Word) (h : low ≤ high) (hh : high < 65536) :
    low ≤ (clampWord low high w).toNat ∧ (clampWord low high w).toNat ≤ high := by
  unfold clampWord
  split
  · simp only [BitVec.toNat_ofNat]; omega
  · split
    · simp only [BitVec.toNat_ofNat]; omega
    · omega

theorem clampWord_of_mem (low high : Nat) (w : Word) (hl : low ≤ w.toNat) (hh : w.toNat ≤ high) :
    clampWord low high w = w := by
  unfold clampWord
  rw [if_neg (by omega), if_neg (by omega)]

theorem clampWord_clampWord (low high : Nat) (w : Word) (h : low ≤ high) (hh : high < 65536) :
    clampWord low high (clampWord low high w) = clampWord low high w :=
  clampWord_of_mem _ _ _ (clampWord_toNat low high w h hh).1 (clampWord_toNat low high w h hh).2

theorem clampOffset_clampOffset (w : Word) : clampOffset (clampOffset w) = clampOffset w := by
  unfold clampOffset
  by_cases h1 : w.toInt < -2048
  · simp [h1]
  · by_cases h2 : 2047 < w.toInt
    · simp [h1, h2]
    · simp [h1, h2]

theorem calibrationIntoRange_idem (c : Calibration) :
    calibrationIntoRange (calibrationIntoRange c) = calibrationIntoRange c := by
  simp only [calibrationIntoRange, clampOffset_clampOffset,
    clampWord_clampWord 1024 65535 _ (by omega) (by omega)]

theorem tuningIntoRange_idem (t : Tuning) :
    tuningIntoRange (tuningIntoRange t) = tuningIntoRange t := by
  have ho := clampWord_toNat 1 1023 t.pressOn (by omega) (by omega)
  have ht := clampWord_toNat 1 63 t.tapMin (by omega) (by omega)
  simp only [tuningIntoRange, clampWord_clampWord 1 1023 _ (by omega) (by omega),
    clampWord_clampWord 1 63 _ (by omega) (by omega),
    clampWord_clampWord 0 _ _ (Nat.zero_le _) (lt_of_le_of_lt ho.2 (by omega)),
    clampWord_clampWord 0 7 _ (by omega) (by omega),
    clampWord_clampWord _ 63 _ ht.2 (by omega),
    clampWord_clampWord 0 255 _ (by omega) (by omega),
    clampWord_clampWord 1 255 _ (by omega) (by omega),
    clampWord_clampWord 20 2000 _ (by omega) (by omega)]

theorem snapLimitIntoRange_idem (w : Word) :
    snapLimitIntoRange (snapLimitIntoRange w) = snapLimitIntoRange w :=
  clampWord_clampWord 20 2000 w (by omega) (by omega)

theorem reach_setPenSettings (pen : Pen) (v : PenSettings)
    (h : (s.penSettings pen).InRange → v.InRange) : Reach s (s.setPenSettings pen v) :=
  .of_move (.mirror s _ (fun hm => ⟨fun k => by
    dsimp only
    rw [look_put]
    split
    · exact h (hm.pens pen)
    · exact hm.pens k, hm.snapLimit⟩) id)

theorem reach_storeSnapLimit (limit : Option Word) : Reach s (s.storeSnapLimit limit) := by
  unfold State.storeSnapLimit
  split
  · exact .refl _
  · exact .of_move (.mirror s _ (fun hm => ⟨hm.pens, snapLimitIntoRange_idem _⟩) id)

/-! ### Handlers -/

theorem reach_penRequest (p : Port) (anyPen : Bool) (field : Option Byte)
    (act : Pen → State × Option Reply) (h : ∀ pen, Reach s (act pen).1) :
    Reach s (s.penRequest p anyPen field act).1 := by
  unfold State.penRequest
  split
  · split <;> exact .refl _
  · split
    · exact .refl _
    · split
      · exact h _
      · split
        · exact .refl _
        · split
          · exact h _
          · exact .refl _

theorem reach_submitSamples (p : Port) (pen : Option Byte) (samples : Option (List Sample)) :
    Reach s (submitSamples p pen samples s).1 := by
  unfold submitSamples
  split
  · exact .refl _
  · split
    · exact .refl _
    · split
      · exact .refl _
      · split
        · exact .refl _
        · exact .of_samples (reach_takeSamples _ _ _ _)

theorem reach_setCalibration (p : Port) (pen : Option Byte) (values : Option Calibration) :
    Reach s (setCalibration p pen values s).1 := by
  refine reach_penRequest s p _ pen _ fun pen => ?_
  split
  · exact .refl _
  · exact reach_setPenSettings _ _ _ fun h =>
      ⟨calibrationIntoRange_idem _, h.tuning, h.colour, h.width⟩

theorem reach_setPenTuning (p : Port) (pen : Option Byte)
    (values : Option (Tuning × Option Word)) : Reach s (setPenTuning p pen values s).1 := by
  refine reach_penRequest s p _ pen _ fun pen => ?_
  split
  · exact .refl _
  · rename_i sent limit
    split
    · exact .refl _
    · have h1 := reach_setPenSettings s pen
        { s.penSettings pen with tuning := tuningIntoRange sent } fun h =>
          ⟨h.calibration, tuningIntoRange_idem _, h.colour, h.width⟩
      exact h1.trans (reach_storeSnapLimit _ _)

theorem reach_setPenTool (p : Port) (pen : Option Byte) (tool : Option (Byte × Byte)) :
    Reach s (setPenTool p pen tool s).1 := by
  refine reach_penRequest s p _ pen _ fun pen => ?_
  split
  · exact .refl _
  · split
    · exact .refl _
    · rename_i h
      exact reach_setPenSettings _ _ _ fun hv =>
        ⟨hv.calibration, hv.tuning, by dsimp only; omega, by dsimp only; omega⟩

theorem reach_setPenPage (p : Port) (pen page : Option Byte) :
    Reach s (setPenPage p pen page s).1 := by
  refine reach_penRequest s p _ pen _ fun pen => ?_
  split
  · exact .refl _
  · exact .of_move (.channel _ _ _)

theorem reach_bindPen (p : Port) (pen source : Option Byte) :
    Reach s (bindPen p pen source s).1 := by
  unfold bindPen
  split
  · exact .refl _
  · split
    · rename_i pen binding _ _
      have h1 := reach_setPenSettings s pen { s.penSettings pen with binding } fun h =>
        ⟨h.calibration, h.tuning, h.colour, h.width⟩
      exact h1.trans (.of_ink (reach_endPen _ _ _))
    · exact .refl _
    · exact .refl _

theorem reach_eraseCommitted (e : Stroke) (cause : EraseCause) (h : s.Holds e) :
    PageReach s (s.eraseCommitted e cause).1 := by
  unfold State.eraseCommitted
  split
  · exact reach_removeStroke _ _ _ h
  · rename_i owner a hh
    split
    · exact .refl _
    · split
      · rename_i hlt
        exact reach_fileItem _ _ _ _ hlt
      · refine (reach_breakSnapshot s owner a).trans ?_
        dsimp only
        unfold State.removeIfCommitted
        split
        · exact .refl _
        · rename_i e' he'
          split
          · exact reach_removeStroke _ _ _ (State.holds_of_stroke? he')
          · exact .refl _

theorem reach_withdraw (e : Stroke) (h : s.Holds e) : PageReach s (s.withdraw e) := by
  unfold State.withdraw
  dsimp only
  split
  · exact reach_freeStroke_of_holds _ _ _ h
  · rename_i owner a hh
    have h1 : PageReach s (s.setSnapshot owner
        (some (.active { a with hold := a.hold.erase (.commit e.serial) }))) :=
      .of_move (.snapshot s owner _ fun b hb => .inr ⟨a, snapshot_of_holder s hh, by
        simp only [Option.some.injEq, SnapshotRecord.active.injEq] at hb
        rw [← hb]; exact List.length_erase_le⟩)
    exact h1.trans (reach_freeStroke_of_holds _ _ _ h)

theorem reach_eraseStroke (p : Port) (serial : Option Serial) :
    Reach s (eraseStroke p serial s).1 := by
  unfold eraseStroke
  split
  · exact .refl _
  · split
    · exact .refl _
    · split
      · exact .refl _
      · rename_i e he
        have hh := State.holds_of_stroke? he
        split
        · exact .refl _
        · split
          · exact .refl _
          · split
            · exact .refl _
            · split
              · exact .of_page (reach_withdraw _ _ hh)
              · exact .of_page (reach_eraseCommitted _ _ _ hh)

theorem reach_undo (p : Port) (pen : Option Byte) : Reach s (undo p pen s).1 := by
  unfold undo
  split
  · exact .refl _
  · split
    · exact .refl _
    · split
      · exact .refl _
      · split
        · exact .refl _
        · rename_i e he
          split
          · exact .refl _
          · have hh : s.Holds e := State.holds_of_stroke? he
            exact .of_page ((reach_undo_stack _ _ _).trans (reach_eraseCommitted _ _ _ hh))

theorem reach_setLock (p : Port) (page : Option Byte) (locked : Bool) :
    Reach s (setLock p page locked s).1 := by
  unfold setLock
  split
  · exact .refl _
  · split
    · exact .refl _
    · dsimp only
      split
      · exact .refl _
      · rename_i pg _ _
        have h1 : Reach s (s.setPage pg { s.page pg with locked }) :=
          .of_move (.page s pg _ (le_refl _))
        exact h1.trans (.of_page (reach_route _ _))

theorem reach_clearPage (p : Port) (page : Option Byte) : Reach s (clearPage p page s).1 := by
  unfold clearPage
  split
  · exact .refl _
  · split
    · exact .refl _
    · split
      · exact .refl _
      · split
        · exact .refl _
        · exact .of_page (reach_clearStrokes _ _)
        · split
          · exact .of_page (reach_clearStrokes _ _)
          · split
            · exact .refl _
            · split
              · rename_i h; exact .of_page (reach_fileItem _ _ _ _ h)
              · exact .of_page ((reach_breakSnapshot _ _ _).trans (reach_clearStrokes _ _))

theorem reach_eraseRegion (p : Port) (tag : Byte) (page : Option Byte)
    (fields : Option RegionFields) : Reach s (eraseRegion p tag page fields s).1 := by
  unfold eraseRegion
  split
  · exact .refl _
  · split
    · split
      · exact .refl _
      · split
        · exact .refl _
        · exact .of_page (reach_setOccupant _ _ _)
    · exact .refl _
    · exact .refl _
    · exact .refl _

theorem reach_visitScan (pg : Page) (r : Scan) : PageReach s (s.visitScan pg r) := by
  unfold State.visitScan
  split
  · exact .refl _
  · split
    · exact reach_setOccupant _ _ _
    · rename_i e he
      split
      · have hh : s.Holds e := State.holds_of_stroke? he
        exact (reach_setOccupant _ _ _).trans (reach_removeStroke _ _ _ hh)
      · exact reach_setOccupant _ _ _

theorem reach_completeScan (pg : Page) (r : Scan) : Reach s (s.completeScan pg r) :=
  (Reach.of_page (reach_setOccupant _ _ _)).trans (reach_deliver _ _ _ _)

theorem reach_snapshotBegin (p : Port) (page : Option Byte) :
    Reach s (snapshotBegin p page s).1 := by
  unfold snapshotBegin
  split
  · exact .refl _
  · split
    · exact .refl _
    · split
      · exact .refl _
      · split
        · exact .refl _
        · refine .of_page ((PageReach.of_move (.snapshot s p _ fun a ha => .inl ?_)).trans
            (reach_setOccupant _ _ _))
          simp only [Option.some.injEq, SnapshotRecord.active.injEq] at ha
          rw [← ha]; exact Nat.zero_le _

theorem agrees_of_slots {r r' : Ring} (h : r.Agrees) (hs : r'.slots = r.slots) (hg : r'.get = r.get)
    (hp : r'.put = r.put) (hf : r'.fill = r.fill) : r'.Agrees :=
  ⟨by rw [hf]; exact h.fill_le, by rw [hp, hg, hf]; exact h.put_eq, by
    rw [hs, hg, hf]; exact h.filled⟩

theorem reach_endSnapshot (p : Port) (a : ActiveSnapshot) : Reach s (s.endSnapshot p a) := by
  have h1 : Reach s (s.setRing p
      { s.ring p with resync := maskDrop (s.ring p).resync a.page.val }) :=
    .of_move (.ring s p _ fun h => agrees_of_slots h rfl rfl rfl rfl)
  exact h1.trans (.of_page (reach_applyHeld_none _ _ _))

theorem reach_snapshotEnd (p : Port) (empty : Bool) : Reach s (snapshotEnd p empty s).1 := by
  unfold snapshotEnd
  split
  · exact .refl _
  · split
    · exact .refl _
    · split
      · exact .refl _
      · exact .of_page (reach_snapshot_none _ _)
      · exact reach_endSnapshot _ _ _

theorem reach_expireSnapLimit (p : Port) : PageReach s (s.expireSnapLimit p) := by
  unfold State.expireSnapLimit
  split
  · exact .refl _
  · exact .refl _
  · split
    · exact reach_breakSnapshot _ _ _
    · exact .refl _

theorem reach_subscribe (p : Port) (masks : Option (Word × Byte)) :
    Reach s (subscribe p masks s).1 := by
  unfold subscribe
  split
  · exact .refl _
  · split
    · exact .of_move (.ring s p _ fun h => agrees_of_slots h rfl rfl rfl rfl)
    · exact .refl _
    · exact .refl _

theorem look_emptySlots (j : BitVec 5) (n : Nat) :
    ∀ (i : BitVec 5) (slots : Vector (Option Notice) 32), n ≤ 32 →
      look (emptySlots slots i n) j.toFin =
        if (j - i).toNat < n then none else look slots j.toFin := by
  induction n with
  | zero => intro i slots _; simp [emptySlots]
  | succ n ih =>
    intro i slots hn
    rw [emptySlots, ih (i + 1) _ (by omega), look_put]
    have key : (j - (i + 1)).toNat = if j = i then 31 else (j - i).toNat - 1 := by
      split
      · rename_i h; subst h
        have : j - (j + 1) = (31 : BitVec 5) := by bv_omega
        rw [this]; rfl
      · rename_i h
        have : (j - i) ≠ 0 := fun hc => h (by bv_omega)
        bv_omega
    rw [key]
    have hi : (i.toFin = j.toFin) ↔ (j = i) := by
      rw [← BitVec.toFin_inj]; exact eq_comm
    by_cases h : j = i
    · subst h
      simp only [↓reduceIte, BitVec.sub_self, BitVec.toNat_zero, Nat.zero_lt_succ]
      split <;> simp
    · have : (j - i).toNat ≠ 0 := by
        intro hc
        exact h (by bv_omega)
      rw [if_neg h, if_neg (fun hc => h (hi.1 hc))]
      by_cases h' : (j - i).toNat < n + 1
      · rw [if_pos h', if_pos (by omega)]
      · rw [if_neg h', if_neg (by omega)]

theorem ringRetire_agrees (r : Ring) (index : BitVec 5) (h : r.Agrees)
    (hi : inFilledSpan r index = true) : (ringRetire r index).Agrees := by
  have hfill := h.fill_le
  simp only [inFilledSpan, decide_eq_true_eq] at hi
  refine ⟨?_, ?_, ?_⟩
  · simp only [ringRetire, retiredBy]; omega
  · simp only [ringRetire, retiredBy]
    rw [h.put_eq]
    apply BitVec.eq_of_toNat_eq
    simp only [BitVec.toNat_add, BitVec.toNat_ofNat, BitVec.toNat_sub] at *
    have h1 := r.get.isLt
    have h2 := index.isLt
    have : (1 : BitVec 5).toNat = 1 := rfl
    omega
  · intro k hk
    have hidx : (ringRetire r index).get + BitVec.ofNat 5 k =
        r.get + BitVec.ofNat 5 ((index - r.get).toNat + 1 + k) := by
      simp only [ringRetire]
      apply BitVec.eq_of_toNat_eq
      simp only [BitVec.toNat_add, BitVec.toNat_ofNat, BitVec.toNat_sub]
      have h1 := r.get.isLt
      have h2 := index.isLt
      have : (1 : BitVec 5).toNat = 1 := rfl
      omega
    have hsub (d : Nat) : (r.get + BitVec.ofNat 5 d - r.get).toNat = d % 32 := by
      have h1 := r.get.isLt
      simp only [BitVec.toNat_sub, BitVec.toNat_add, BitVec.toNat_ofNat]
      omega
    have hslots : (ringRetire r index).slots = emptySlots r.slots r.get (retiredBy r index) := rfl
    have hr : retiredBy r index = (index - r.get).toNat + 1 := rfl
    have hf : (ringRetire r index).fill = r.fill - retiredBy r index := rfl
    rw [hidx, hslots, look_emptySlots _ _ _ _ (by omega), hsub, hr]
    by_cases hlt : (index - r.get).toNat + 1 + k < 32
    · rw [Nat.mod_eq_of_lt hlt, if_neg (by omega), h.filled _ hlt, Bool.eq_iff_iff]
      simp only [decide_eq_true_eq]; omega
    · rw [if_pos (by omega), Bool.eq_iff_iff]
      simp only [Option.isSome_none, Bool.false_eq_true, decide_eq_true_eq, false_iff]; omega

theorem reach_ackNotices (p : Port) (index : Option Byte) : Reach s (ackNotices p index s).1 := by
  unfold ackNotices
  split
  · exact .refl _
  · dsimp only
    split
    · exact .refl _
    · split
      · exact .refl _
      · rename_i h
        exact .of_move (.ring s p _ fun hr => ringRetire_agrees _ _ hr (by simpa using h))

theorem reach_liveFetch (p : Port) (empty : Bool) : Reach s (liveFetch p empty s).1 := by
  unfold liveFetch
  split
  · exact .refl _
  · split
    · exact .refl _
    · split
      · exact .refl _
      · split
        · exact .refl _
        · exact .of_move (.livePort s p _)

theorem reach_liveMute (p : Port) (mask : Option Byte) : Reach s (liveMute p mask s).1 := by
  unfold liveMute
  split
  · exact .refl _
  · split
    · exact .refl _
    · exact .of_move (.livePort s p _)

theorem thresholdIntoRange_mem (b : Byte) :
    1 ≤ (thresholdIntoRange b).toNat ∧ (thresholdIntoRange b).toNat ≤ 32 := by
  unfold thresholdIntoRange
  split
  · decide
  · split
    · decide
    · rename_i h h'
      have : b.toNat ≠ 0 := fun hc => h (BitVec.eq_of_toNat_eq (by simp [hc]))
      omega

theorem reach_setAttention (p : Port) (fields : Option (Byte × Byte)) :
    Reach s (setAttention p fields s).1 := by
  unfold setAttention
  split
  · exact .of_move (.link s p _ (.inr (thresholdIntoRange_mem _)))
  · exact .refl _
  · exact .refl _

theorem reach_clearFlags (p : Port) (flags : Option Byte) : Reach s (clearFlags p flags s).1 := by
  unfold clearFlags
  split
  · exact .refl _
  · exact reach_link _ _ _ rfl

theorem reach_unwantAnswers (p : Port) : Reach s (s.unwantAnswers p) := by
  unfold State.unwantAnswers
  dsimp only
  refine Reach.trans ?_ (.of_move (.save _ _))
  have h1 := reach_link s p
    { s.link p with forming := (s.link p).forming.map fun f => { f with wanted := false } } rfl
  exact h1.trans (Reach.foldl _ (fun s pg => .of_page (reach_setOccupant _ _ _)) _ _)

theorem reach_endBoundPens (p : Port) : InkReach s (s.endBoundPens p) := by
  refine InkReach.foldl _ (fun s pen => ?_) _ _
  split
  · exact reach_endPen _ _ _
  · exact .refl _

theorem ringDefault_agrees : ringDefault.Agrees :=
  ⟨by decide, by decide, fun k _ => by simp [ringDefault]⟩

theorem attentionDefaults_threshold {l : Link} :
    1 ≤ l.attentionDefaults.threshold.toNat ∧ l.attentionDefaults.threshold.toNat ≤ 32 := by
  simp [Link.attentionDefaults]

theorem reach_detach (p : Port) (tag : Byte) : Reach s (s.detach p tag) := by
  unfold State.detach
  dsimp only
  refine Reach.trans ?_ (reach_answerReady _ _ _)
  refine Reach.trans ?_ (.of_move (.link _ p _ (.inr attentionDefaults_threshold)))
  refine Reach.trans ?_ (.of_move (.livePort _ p _))
  refine Reach.trans ?_ (.of_move (.ring _ p _ fun _ => ringDefault_agrees))
  exact (reach_unwantAnswers s p).trans
    (.of_ink ((InkReach.of_page (reach_releaseSnapshot _ _)).trans (reach_endBoundPens _ _)))

theorem reach_detachRequest (p : Port) (tag : Byte) (empty : Bool) :
    Reach s (detachRequest p tag empty s).1 := by
  unfold detachRequest
  split
  · exact .refl _
  · exact reach_detach _ _ _

theorem reach_detachWhileWorking (p : Port) (tag : Byte) :
    Reach s (s.detachWhileWorking p tag) := by
  unfold State.detachWhileWorking
  split
  · exact reach_detach _ _ _
  · exact .refl _

theorem reach_viewRemoved (q : Port) : Reach s (s.viewRemoved q) := by
  unfold State.viewRemoved
  dsimp only
  refine Reach.trans ?_ (.of_move (.livePort _ q _))
  exact (Reach.of_page (reach_releaseSnapshot _ _)).trans
    (.of_move (.ring _ q _ fun h => agrees_of_slots h rfl rfl rfl rfl))

theorem reach_setPermissions (p : Port) (fields : Option (Byte × Byte)) :
    Reach s (setPermissions p fields s).1 := by
  unfold setPermissions
  split
  · exact .refl _
  · split
    · dsimp only
      split
      · exact .refl _
      · rename_i q set _ _ h
        have h1 : Reach s (s.setPermissions q set) :=
          .of_move (.mirror s _ (fun hm => ⟨hm.pens, hm.snapLimit⟩) fun _ => by simpa using h)
        dsimp only
        split
        · exact h1.trans (reach_viewRemoved _ _)
        · exact h1
    · exact .refl _
    · exact .refl _

theorem reach_saveSettings (p : Port) (tag : Byte) (empty : Bool) :
    Reach s (saveSettings p tag empty s).1 := by
  unfold saveSettings
  split
  · exact .refl _
  · split
    · exact .refl _
    · split
      · exact .refl _
      · exact (Reach.of_move (.save s _)).trans (.of_move (.image _ _))

theorem reach_completeSave (v : Save) : Reach s (s.completeSave v) :=
  ((Reach.of_move (.save s _)).trans (.of_move (.image _ _))).trans (reach_deliver _ _ _ _)

/-! ### Requests and frames -/

theorem thresholdKept_trans {a b c : Link} (h : thresholdKept a b) (h' : thresholdKept b c) :
    thresholdKept a c := by
  rcases h' with h' | h'
  · rcases h with h | h
    · exact .inl (h'.trans h)
    · exact .inr (by rw [h']; exact h)
  · exact .inr h'

/-- A restart stands across a change of a link before it and after it. -/
theorem Restarted.of_links {s t : State} {p q : Port} {l l' : Link}
    (h : Restarted (s.setLink p l) t) (hl : l.threshold = (s.link p).threshold)
    (hl' : l'.threshold = (t.link q).threshold) : Restarted s (t.setLink q l') := by
  have hb : (t.setLink q l').resetBlocks = t.setLink q l' := by
    have : (t.setLink q l').resetBlocks = t.resetBlocks.setLink q l' := rfl
    rw [this, h.blocks]
  refine ⟨hb, h.mirror, h.pending, h.phase, fun k => ?_⟩
  have h1 : thresholdKept (s.link k) ((s.setLink p l).link k) := by
    rw [State.setLink_link]
    split
    · rename_i hk; subst hk; exact .inl hl
    · exact .inl rfl
  have h2 : thresholdKept (t.link k) ((t.setLink q l').link k) := by
    rw [State.setLink_link]
    split
    · rename_i hk; subst hk; exact .inl hl'
    · exact .inl rfl
  exact thresholdKept_trans (thresholdKept_trans h1 (h.links k)) h2

theorem Restarted.of_link {s t : State} {p : Port} {l : Link} (h : Restarted (s.setLink p l) t)
    (hl : l.threshold = (s.link p).threshold) : Restarted s t :=
  ⟨h.blocks, h.mirror, h.pending, h.phase, fun k => by
    refine thresholdKept_trans ?_ (h.links k)
    rw [State.setLink_link]
    split
    · rename_i hk; subst hk; exact .inl hl
    · exact .inl rfl⟩

theorem moved_request (p : Port) (tag : Byte) (act : State → State × Option Reply)
    (h : ∀ s, Moved s (act s).1) : Moved s (s.request p tag act) := by
  unfold State.request
  split
  · dsimp only
    have hl : Reach s (s.setLink p { s.link p with state := .working tag }) := reach_link _ _ _ rfl
    have hact := h (s.setLink p { s.link p with state := .working tag })
    split
    · rcases hact with hact | hact
      · exact .inl (hl.trans hact)
      · exact .inr (hact.of_link rfl)
    · rcases hact with hact | hact
      · exact .inl ((hl.trans hact).trans (reach_formAnswer _ _ _))
      · exact .inr (hact.of_links rfl rfl)
  · exact .refl _

end

end Sys2Proof.Machine
end

