-- ==== Sys2Proof/Laws/Exec.lean ====
section
/-! SUPPORT. Every command answers a next state, reached by the moves of Laws/Moves.lean. -/

namespace Sys2Proof.Machine

section
variable (s : State)

theorem moved_deviceReset (r : Port) (tag : Byte) : Moved s (s.deviceReset r tag) := by
  refine .inr ⟨rfl, rfl, rfl, id, fun k => .inr ?_⟩
  have hk : ∀ l, (Link.afterReset r k l).threshold = 1 := by
    intro l
    unfold Link.afterReset
    dsimp only
    split <;> rfl
  have : ((s.deviceReset r tag).link k).threshold = 1 := by
    unfold State.deviceReset State.answerReady
    dsimp only
    rw [State.setLink_link]
    split
    · rename_i h; subst h; simp [hk]
    · simp [hk]
  rw [this]
  decide

theorem moved_deviceResetRequest (p : Port) (tag : Byte) (empty : Bool) :
    Moved s (deviceResetRequest p tag empty s).1 := by
  unfold deviceResetRequest
  split
  · exact .refl _
  · split
    · exact .refl _
    · split
      · exact .refl _
      · exact moved_deviceReset _ _ _

theorem penStatus_state (pen : Option Byte) : (penStatus pen s).1 = s := by
  unfold penStatus; split <;> rfl

theorem pageStatus_state (page : Option Byte) : (pageStatus page s).1 = s := by
  unfold pageStatus; split <;> rfl

theorem readStroke_state (p : Port) (fields : Option (Serial × Word)) :
    (readStroke p fields s).1 = s := by
  unfold readStroke
  split
  · rfl
  · split
    · rfl
    · split
      · rfl
      · split <;> rfl

theorem snapshotList_state (p : Port) (fields : Option (Word × Byte)) :
    (snapshotList p fields s).1 = s := by
  unfold snapshotList
  split
  · rfl
  · split
    · rfl
    · rfl
    · split
      · rfl
      · split <;> rfl

theorem fetchNotices_state (p : Port) (count : Option Byte) : (fetchNotices p count s).1 = s := by
  unfold fetchNotices
  split
  · rfl
  · split <;> rfl

theorem ringStatus_state (p : Port) (empty : Bool) : (ringStatus p empty s).1 = s := by
  unfold ringStatus; split <;> rfl

theorem portStatus_state (named : Option Byte) : (portStatus named s).1 = s := by
  unfold portStatus; split <;> rfl

theorem deviceInfo_state (empty : Bool) : (deviceInfo empty s).1 = s := by
  unfold deviceInfo; split <;> rfl

theorem moved_of_eq {t : State} (h : t = s) : Moved s t := h ▸ .refl s

theorem moved_runRequest (p : Port) (tag : Byte) (r : Request) (payload : List Byte) :
    Moved s (runRequest p tag r payload s).1 := by
  cases r
  · exact .inl (reach_submitSamples _ _ _ _)
  · exact .inl (reach_setCalibration _ _ _ _)
  · exact .inl (reach_setPenTuning _ _ _ _)
  · exact .inl (reach_setPenTool _ _ _ _)
  · exact .inl (reach_setPenPage _ _ _ _)
  · exact .inl (reach_bindPen _ _ _ _)
  · exact moved_of_eq _ (penStatus_state _ _)
  · exact moved_of_eq _ (readStroke_state _ _ _)
  · exact .inl (reach_eraseStroke _ _ _)
  · exact .inl (reach_undo _ _ _)
  · exact moved_of_eq _ (pageStatus_state _ _)
  · exact .inl (reach_setLock _ _ _ _)
  · exact .inl (reach_setLock _ _ _ _)
  · exact .inl (reach_clearPage _ _ _)
  · exact .inl (reach_eraseRegion _ _ _ _ _)
  · exact .inl (reach_snapshotBegin _ _ _)
  · exact moved_of_eq _ (snapshotList_state _ _ _)
  · exact .inl (reach_snapshotEnd _ _ _)
  · exact .inl (reach_subscribe _ _ _)
  · exact moved_of_eq _ (fetchNotices_state _ _ _)
  · exact .inl (reach_ackNotices _ _ _)
  · exact moved_of_eq _ (ringStatus_state _ _ _)
  · exact .inl (reach_liveFetch _ _ _)
  · exact .inl (reach_liveMute _ _ _)
  · exact moved_of_eq _ (portStatus_state _ _)
  · exact .inl (reach_setAttention _ _ _)
  · exact .inl (reach_clearFlags _ _ _)
  · exact .inl (reach_detachRequest _ _ _ _)
  · exact moved_of_eq _ (deviceInfo_state _ _)
  · exact .inl (reach_setPermissions _ _ _)
  · exact .inl (reach_saveSettings _ _ _ _)
  · exact moved_deviceResetRequest _ _ _ _

theorem moved_judge (p : Port) (carried : Carried) : Moved s (s.judge p carried) := by
  have working (c : Carried) : Moved s (s.judgeWorking p c) := by
    unfold State.judgeWorking
    split
    · exact .refl _
    · exact .refl _
    · exact .refl _
    · split
      · exact .inl (reach_detachWhileWorking _ _ _)
      · exact .refl _
  unfold State.judge
  split
  · exact .refl _
  · exact .inl (reach_link _ _ _ rfl)
  · split
    · exact .inl (reach_answerReady _ _ _)
    · exact working _
    · exact .refl _
  · split
    · unfold State.judgeWhole
      split
      · exact .inl (reach_answerReady _ _ _)
      · split
        · exact .inl (reach_answerReady _ _ _)
        · exact moved_request _ _ _ _ fun s => moved_runRequest s _ _ _ _
    · exact working _
    · exact .refl _

theorem consumed_threshold (l : Link) : l.consumed.threshold = l.threshold := by
  unfold Link.consumed
  split <;> rfl

theorem moved_endFrame (p : Port) (f : Frame) (bytes : List Byte) :
    Moved s (s.endFrame p f bytes) := by
  unfold State.endFrame
  dsimp only
  generalize hl : (if f.consumes bytes.length = true then
    Link.consumed { s.link p with frame := none } else { s.link p with frame := none }) = l
  have hth : l.threshold = (s.link p).threshold := by
    rw [← hl]
    split
    · exact consumed_threshold _
    · rfl
  rcases moved_judge (s.setLink p l) p (carriedBy bytes) with h | h
  · exact .inl ((reach_link s p l hth).trans h)
  · exact .inr (h.of_link hth)

theorem moved_powerUpValues (phase : Phase) (reached : SavePoint) (link : Port → Link → Link)
    (hp : phase ≠ .running) (hl : ∀ p l, (link p l).threshold = 1) :
    Restarted s (s.powerUpValues phase reached link) := by
  refine ⟨rfl, rfl, rfl, fun h => absurd h hp, fun k => .inr ?_⟩
  have : ((s.powerUpValues phase reached link).link k).threshold = 1 := by
    have h : (s.powerUpValues phase reached link).link k = link k (s.link k) :=
      look_each4 _ _ _
    rw [h, hl]
  rw [this]
  decide

theorem reach_makeReady (p : Port) : Reach s (s.makeReady p) := by
  unfold State.makeReady
  split
  · exact .refl _
  · rename_i f rest _
    have h1 := reach_link s p { s.link p with forming := rest } rfl
    exact h1.trans (reach_deliver _ _ _ _)

end

/-- Every command answers a next state; none faults and none is refused. -/
theorem exec_moved (c : Instr) (s : State) : ∃ t, exec c s = .next t ∧ Moved s t := by
  have ink {t : State} (h : InkReach s t) : Moved s t := .of_ink h
  have page {t : State} (h : PageReach s t) : Moved s t := .of_ink (.of_page h)
  cases c with
  | powerOn reached =>
    exact ⟨_, rfl, .inr (moved_powerUpValues s _ _ _ (by decide) fun _ _ => rfl)⟩
  | resetPin reached =>
    simp only [exec, execResetPin]
    split
    · exact ⟨_, rfl, .refl _⟩
    · have h := moved_powerUpValues s .starting reached (fun _ => Link.atResetPin s.freeCount)
        (by decide) fun _ _ => rfl
      exact ⟨_, rfl, .inr ⟨rfl, h.mirror, h.pending, h.phase, h.links⟩⟩
  | powerLoss reached =>
    exact ⟨_, rfl, .inr (moved_powerUpValues s _ _ _ (by decide) fun _ _ => rfl)⟩
  | settingsLoadComplete =>
    simp only [exec, execSettingsLoadComplete]
    split
    · rename_i h; exact ⟨_, rfl, .inl (.of_move (.load s h))⟩
    · exact ⟨_, rfl, .refl _⟩
    · exact ⟨_, rfl, .refl _⟩
  | selectFall p =>
    simp only [exec, execSelectFall]
    split
    · exact ⟨_, rfl, .refl _⟩
    · exact ⟨_, rfl, .refl _⟩
    · exact ⟨_, rfl, .inl (reach_link s p _ rfl)⟩
    · exact ⟨_, rfl, .inl (reach_link s p _ rfl)⟩
  | selectRise p edges =>
    simp only [exec, execSelectRise]
    split
    · exact ⟨_, rfl, .refl _⟩
    · split
      · exact ⟨_, rfl, moved_endFrame _ _ _ _⟩
      · exact ⟨_, rfl, .inl (reach_link s p _ rfl)⟩
  | submitSamples => exact ⟨_, rfl, moved_request s _ _ _ fun s => .inl (reach_submitSamples s _ _ _)⟩
  | silenceExpiry pen => exact ⟨_, rfl, ink (reach_expireSilence s pen)⟩
  | rejoinExpiry pen => exact ⟨_, rfl, ink (reach_expireRejoin s pen)⟩
  | setCalibration =>
    exact ⟨_, rfl, moved_request s _ _ _ fun s => .inl (reach_setCalibration s _ _ _)⟩
  | setPenTuning => exact ⟨_, rfl, moved_request s _ _ _ fun s => .inl (reach_setPenTuning s _ _ _)⟩
  | setPenTool => exact ⟨_, rfl, moved_request s _ _ _ fun s => .inl (reach_setPenTool s _ _ _)⟩
  | setPenPage => exact ⟨_, rfl, moved_request s _ _ _ fun s => .inl (reach_setPenPage s _ _ _)⟩
  | bindPen => exact ⟨_, rfl, moved_request s _ _ _ fun s => .inl (reach_bindPen s _ _ _)⟩
  | penStatus => exact ⟨_, rfl, moved_request s _ _ _ fun s => moved_of_eq _ (penStatus_state s _)⟩
  | readStroke =>
    exact ⟨_, rfl, moved_request s _ _ _ fun s => moved_of_eq _ (readStroke_state s _ _)⟩
  | eraseStroke => exact ⟨_, rfl, moved_request s _ _ _ fun s => .inl (reach_eraseStroke s _ _)⟩
  | undo => exact ⟨_, rfl, moved_request s _ _ _ fun s => .inl (reach_undo s _ _)⟩
  | pageStatus => exact ⟨_, rfl, moved_request s _ _ _ fun s => moved_of_eq _ (pageStatus_state s _)⟩
  | lockPage => exact ⟨_, rfl, moved_request s _ _ _ fun s => .inl (reach_setLock s _ _ _)⟩
  | unlockPage => exact ⟨_, rfl, moved_request s _ _ _ fun s => .inl (reach_setLock s _ _ _)⟩
  | clearPage => exact ⟨_, rfl, moved_request s _ _ _ fun s => .inl (reach_clearPage s _ _)⟩
  | eraseRegion => exact ⟨_, rfl, moved_request s _ _ _ fun s => .inl (reach_eraseRegion s _ _ _ _)⟩
  | scanVisit pg =>
    simp only [exec, execScanVisit]
    split
    · exact ⟨_, rfl, page (reach_visitScan _ _ _)⟩
    · exact ⟨_, rfl, .refl _⟩
  | scanComplete pg =>
    simp only [exec, execScanComplete]
    split
    · split
      · exact ⟨_, rfl, .inl (reach_completeScan _ _ _)⟩
      · exact ⟨_, rfl, .refl _⟩
    · exact ⟨_, rfl, .refl _⟩
  | snapshotBegin => exact ⟨_, rfl, moved_request s _ _ _ fun s => .inl (reach_snapshotBegin s _ _)⟩
  | snapshotList =>
    exact ⟨_, rfl, moved_request s _ _ _ fun s => moved_of_eq _ (snapshotList_state s _ _)⟩
  | snapshotEnd => exact ⟨_, rfl, moved_request s _ _ _ fun s => .inl (reach_snapshotEnd s _ _)⟩
  | snapLimitExpiry p => exact ⟨_, rfl, page (reach_expireSnapLimit s p)⟩
  | subscribe => exact ⟨_, rfl, moved_request s _ _ _ fun s => .inl (reach_subscribe s _ _)⟩
  | fetchNotices =>
    exact ⟨_, rfl, moved_request s _ _ _ fun s => moved_of_eq _ (fetchNotices_state s _ _)⟩
  | ackNotices => exact ⟨_, rfl, moved_request s _ _ _ fun s => .inl (reach_ackNotices s _ _)⟩
  | ringStatus =>
    exact ⟨_, rfl, moved_request s _ _ _ fun s => moved_of_eq _ (ringStatus_state s _ _)⟩
  | liveFetch => exact ⟨_, rfl, moved_request s _ _ _ fun s => .inl (reach_liveFetch s _ _)⟩
  | liveMute => exact ⟨_, rfl, moved_request s _ _ _ fun s => .inl (reach_liveMute s _ _)⟩
  | portStatus => exact ⟨_, rfl, moved_request s _ _ _ fun s => moved_of_eq _ (portStatus_state s _)⟩
  | setAttention => exact ⟨_, rfl, moved_request s _ _ _ fun s => .inl (reach_setAttention s _ _)⟩
  | clearFlags => exact ⟨_, rfl, moved_request s _ _ _ fun s => .inl (reach_clearFlags s _ _)⟩
  | detach p tag =>
    simp only [exec, execDetach]
    split
    · exact ⟨_, rfl, moved_request s _ _ _ fun s => .inl (reach_detachRequest s _ _ _)⟩
    · exact ⟨_, rfl, .inl (reach_detachWhileWorking _ _ _)⟩
    · exact ⟨_, rfl, .refl _⟩
  | deviceInfo => exact ⟨_, rfl, moved_request s _ _ _ fun s => moved_of_eq _ (deviceInfo_state s _)⟩
  | setPermissions =>
    exact ⟨_, rfl, moved_request s _ _ _ fun s => .inl (reach_setPermissions s _ _)⟩
  | saveSettings => exact ⟨_, rfl, moved_request s _ _ _ fun s => .inl (reach_saveSettings s _ _ _)⟩
  | saveComplete =>
    simp only [exec, execSaveComplete]
    split
    · exact ⟨_, rfl, .inl (reach_completeSave _ _)⟩
    · exact ⟨_, rfl, .refl _⟩
  | deviceReset =>
    exact ⟨_, rfl, moved_request s _ _ _ fun s => moved_deviceResetRequest s _ _ _⟩
  | answerMadeReady p =>
    simp only [exec, execAnswerMadeReady]
    split
    · exact ⟨_, rfl, .inl (reach_makeReady _ _)⟩
    · exact ⟨_, rfl, .refl _⟩
    · exact ⟨_, rfl, .refl _⟩

theorem Move.pending {s t : State} (h : Move s t) : t.pending = s.pending := by
  cases h <;> try rfl
  rename_i h
  exact h.sameOutside.pending

/-- No command touches the queue. -/
theorem Moved.pending {s t : State} (h : Moved s t) : t.pending = s.pending := by
  rcases h with h | h
  · induction h with
    | refl => rfl
    | tail _ m ih => exact m.pending.trans ih
  · exact h.pending

theorem State.tick_eq (s : State) : ∃ d, s.tick = { s with deviceTime := d } := by
  unfold State.tick
  split
  · exact ⟨s.deviceTime, rfl⟩
  · exact ⟨_, rfl⟩
  · exact ⟨_, rfl⟩

/-- A step with a command waiting is that command on the rest of the queue; with none, it is one
millisecond of device time. -/
theorem step_cons (s : State) (c : Instr) (rest : List Instr) (h : s.pending = c :: rest) :
    step s = exec c { s with pending := rest } := by
  simp [step, h]

theorem step_nil (s : State) (h : s.pending = []) : step s = .next s.tick := by
  simp [step, h]

end Sys2Proof.Machine
end

