-- ==== Sys2Proof/Laws/Memory.lean ====
section
/-! SUPPORT. The pool's places: every operation on them keeps the canonical form, and a write changes
the place it names and no other. -/

namespace Sys2Proof.Machine

namespace Memory

theorem wf_nil : Memory.wf [] := ⟨.nil, by simp⟩

/-- The keys of a write are among the old ones and the one written. -/
theorem mem_write {cells : List (Nat × Point)} {key : Nat} {p : Point} {c : Nat × Point}
    (h : c ∈ Memory.write cells key p) : c ∈ cells ∨ (c = (key, p) ∧ p ≠ blankPoint) := by
  induction cells with
  | nil =>
    simp only [Memory.write] at h
    split at h <;> simp_all
  | cons d rest ih =>
    obtain ⟨k, q⟩ := d
    simp only [Memory.write] at h
    split at h
    · split at h <;> simp_all; tauto
    · split at h
      · split at h <;> simp_all; tauto
      · rcases List.mem_cons.1 h with h | h
        · exact .inl (h ▸ List.mem_cons_self)
        · rcases ih h with h | h
          · exact .inl (List.mem_cons_of_mem _ h)
          · exact .inr h

theorem write_wf {cells : List (Nat × Point)} (key : Nat) (p : Point) (h : Memory.wf cells) :
    Memory.wf (Memory.write cells key p) := by
  refine ⟨?_, fun c hc => ?_⟩
  · have hs := h.1
    clear h
    induction cells with
    | nil => simp only [Memory.write]; split <;> simp
    | cons d rest ih =>
      obtain ⟨k, q⟩ := d
      have hr := List.pairwise_cons.1 hs
      simp only [Memory.write]
      split
      · rename_i hk
        split
        · exact hs
        · refine List.pairwise_cons.2 ⟨fun c hc => ?_, hs⟩
          rcases List.mem_cons.1 hc with rfl | hc
          · exact hk
          · exact lt_trans hk (hr.1 c hc)
      · split
        · rename_i hk
          subst hk
          split
          · exact hr.2
          · exact List.pairwise_cons.2 ⟨hr.1, hr.2⟩
        · refine List.pairwise_cons.2 ⟨fun c hc => ?_, ih hr.2⟩
          rcases mem_write hc with hc | ⟨rfl, _⟩
          · exact hr.1 c hc
          · simp only; omega
  · rcases mem_write hc with hc | ⟨rfl, hp⟩
    · exact h.2 c hc
    · exact hp

theorem read_of_lt {cells : List (Nat × Point)} {key : Nat} (h : ∀ c ∈ cells, key < c.1) :
    Memory.read cells key = blankPoint := by
  induction cells with
  | nil => rfl
  | cons d rest ih =>
    have hd := h d List.mem_cons_self
    simp only [Memory.read]
    rw [if_neg (by omega)]
    exact ih fun c hc => h c (List.mem_cons_of_mem _ hc)

/-- A place reads as it was last written; every other place reads as before. -/
theorem read_write {cells : List (Nat × Point)} (key k : Nat) (p : Point) (h : Memory.wf cells) :
    Memory.read (Memory.write cells key p) k = if k = key then p else Memory.read cells k := by
  have hs := h.1
  clear h
  induction cells with
  | nil =>
    simp only [Memory.write]
    split
    · rename_i hp; subst hp; simp [Memory.read]
    · simp only [Memory.read]
      by_cases hk : k = key
      · rw [if_pos hk, if_pos hk.symm]
      · rw [if_neg hk, if_neg fun h => hk h.symm]
  | cons d rest ih =>
    obtain ⟨j, q⟩ := d
    have hr := List.pairwise_cons.1 hs
    simp only [Memory.write]
    split
    · rename_i hk
      split
      · rename_i hp
        split
        · rename_i hkk
          subst hkk
          rw [hp]
          refine read_of_lt fun c hc => ?_
          rcases List.mem_cons.1 hc with rfl | hc
          · exact hk
          · exact lt_trans hk (hr.1 c hc)
        · rfl
      · rw [Memory.read]
        by_cases hkk : key = k
        · simp [hkk]
        · rw [if_neg hkk, if_neg (fun h => hkk h.symm)]
    · split
      · rename_i hk
        subst hk
        by_cases hkk : k = key
        · subst hkk
          rw [if_pos rfl]
          split
          · rename_i hp
            rw [hp]
            exact read_of_lt fun c hc => hr.1 c hc
          · rw [Memory.read, if_pos rfl]
        · rw [if_neg hkk]
          have : Memory.read ((key, q) :: rest) k = Memory.read rest k := by
            rw [Memory.read, if_neg (fun h => hkk h.symm)]
          rw [this]
          split
          · rfl
          · rw [Memory.read, if_neg (fun h => hkk h.symm)]
      · rename_i h1 h2
        rw [Memory.read, ih hr.2, Memory.read]
        by_cases hj : j = k
        · rw [if_pos hj, if_pos hj, if_neg (by omega)]
        · rw [if_neg hj, if_neg hj]

theorem reset_wf : Memory.wf State.reset.pool.cells := wf_nil

end Memory

/-- Taking a block and returning a chain write no place. -/
theorem takeBlock_cells {pool pool' : Pool} {b : Nat} (h : takeBlock pool = some (b, pool')) :
    pool'.cells = pool.cells ∧ pool.free = b :: pool'.free := by
  unfold takeBlock at h
  split at h
  · simp at h
  · rename_i hf
    simp only [Option.some.injEq, Prod.mk.injEq] at h
    obtain ⟨rfl, rfl⟩ := h
    exact ⟨rfl, hf⟩

@[simp] theorem returnChain_cells (pool : Pool) (chain : List Nat) :
    (returnChain pool chain).cells = pool.cells := rfl

@[simp] theorem returnChain_free (pool : Pool) (chain : List Nat) :
    (returnChain pool chain).free = pool.free ++ chain := rfl

end Sys2Proof.Machine
end

