-- ==== Sys2Proof/Laws/Blocks.lean ====
section
/-! SUPPORT. How the moves treat the conditions of Safety.lean: rings, serials and blocks, entry
numbers, hold lists. -/

namespace Sys2Proof.Machine

/-! ## Rings -/

theorem ringReceive_agrees (n : Notice) (r : Ring) (h : r.Agrees) : (ringReceive n r).Agrees := by
  unfold ringReceive
  split
  · rename_i hlt
    have hlt : r.fill < 32 := hlt
    refine ⟨by dsimp only; omega, ?_, fun k hk => ?_⟩
    · dsimp only
      rw [h.put_eq, BitVec.add_assoc]
      congr 1
      apply BitVec.eq_of_toNat_eq
      have : (1 : BitVec 5).toNat = 1 := rfl
      simp only [BitVec.toNat_add, BitVec.toNat_ofNat]
      omega
    · dsimp only
      rw [look_put]
      have hiff : (r.put.toFin = (r.get + BitVec.ofNat 5 k).toFin) ↔ k = r.fill := by
        rw [BitVec.toFin_inj, h.put_eq]
        constructor
        · intro he
          have := congrArg BitVec.toNat he
          simp only [BitVec.toNat_add, BitVec.toNat_ofNat] at this
          have := r.get.isLt
          omega
        · rintro rfl; rfl
      by_cases hkf : k = r.fill
      · rw [if_pos (hiff.2 hkf)]
        simp [hkf]
      · rw [if_neg (fun hc => hkf (hiff.1 hc)), h.filled k hk]
        simp only [decide_eq_decide]
        omega
  · split
    · exact h
    · exact agrees_of_slots h rfl rfl rfl rfl

theorem PageMove.ringsAgree {s t : State} (h : PageMove s t) (hs : s.RingsAgree) : t.RingsAgree := by
  intro p
  cases h <;> try exact hs p
  rw [State.route_ring]
  split
  · exact ringReceive_agrees _ _ (hs p)
  · exact hs p

theorem InkMove.ringsAgree {s t : State} (h : InkMove s t) (hs : s.RingsAgree) : t.RingsAgree := by
  cases h with
  | ofPage h => exact h.ringsAgree hs
  | channel => exact hs
  | opened => exact hs
  | store => exact hs

/-! ## Serials -/

theorem nextSerial_toNat (c : Serial) (h : c ≠ 0) :
    (nextSerial c).toNat = (c.toNat - 1 + 1) % (2 ^ 32 - 1) + 1 := by
  have hc : c.toNat ≠ 0 := fun hc => h (BitVec.eq_of_toNat_eq (by simp [hc]))
  have hlt := c.isLt
  unfold nextSerial
  split
  · rename_i he
    subst he
    rfl
  · rename_i he
    have hne : c.toNat ≠ 2 ^ 32 - 1 := fun hc => he (BitVec.eq_of_toNat_eq (by simp [hc]))
    rw [BitVec.toNat_add]
    have : (1 : Serial).toNat = 1 := rfl
    omega

/-- The n-th value that the counter passes. -/
def serialAfter (c : Serial) : Nat → Serial
  | 0 => c
  | n + 1 => serialAfter (nextSerial c) n

theorem serialAfter_toNat (n : Nat) : ∀ c : Serial, c ≠ 0 →
    (serialAfter c n).toNat = (c.toNat - 1 + n) % (2 ^ 32 - 1) + 1 := by
  induction n with
  | zero =>
    intro c h
    have hc : c.toNat ≠ 0 := fun hc => h (BitVec.eq_of_toNat_eq (by simp [hc]))
    have := c.isLt
    simp only [serialAfter]
    omega
  | succ n ih =>
    intro c h
    have h1 := nextSerial_toNat c h
    have hne : nextSerial c ≠ 0 := fun hc => by rw [hc] at h1; simp at h1
    rw [serialAfter, ih _ hne, h1]
    omega

theorem serialAfter_inj (c : Serial) {i j : Nat} (hi : i < 2 ^ 32 - 1) (hj : j < 2 ^ 32 - 1)
    (h : serialAfter c i = serialAfter c j) : i = j := by
  by_cases hc : c = 0
  · subst hc
    have h1 : nextSerial (0 : Serial) = 1 := by decide
    have key (n : Nat) : (serialAfter 0 (n + 1)).toNat = n % (2 ^ 32 - 1) + 1 := by
      rw [serialAfter, h1, serialAfter_toNat n 1 (by decide)]
      simp
    have h' := congrArg BitVec.toNat h
    match i, j with
    | 0, 0 => rfl
    | 0, j + 1 => rw [key] at h'; simp [serialAfter] at h'
    | i + 1, 0 => rw [key] at h'; simp [serialAfter] at h'
    | i + 1, j + 1 => rw [key, key] at h'; omega
  · have h' := congrArg BitVec.toNat h
    rw [serialAfter_toNat _ _ hc, serialAfter_toNat _ _ hc] at h'
    have := c.isLt
    omega

theorem freshSerialFrom_used (t : StrokeTable) (fuel : Nat) : ∀ c : Serial,
    (t.find (freshSerialFrom fuel t c)).isSome →
      ∀ i ≤ fuel, (t.find (serialAfter c i)).isSome := by
  induction fuel with
  | zero =>
    intro c h i hi
    obtain rfl : i = 0 := by omega
    exact h
  | succ fuel ih =>
    intro c h i hi
    rw [freshSerialFrom] at h
    split at h
    · rename_i hc
      match i with
      | 0 => exact hc
      | i + 1 => exact ih _ h i (by omega)
    · rename_i hc; exact absurd h hc

theorem mem_serials_of_find {t : StrokeTable} {k : Serial} (h : (t.find k).isSome) :
    k ∈ t.entries.map Stroke.serial := by
  obtain ⟨e, he⟩ := Option.isSome_iff_exists.1 h
  exact List.mem_map.2 ⟨e, List.mem_of_find?_eq_some he, StrokeTable.serial_of_find he⟩

theorem find_none_of_not_mem {t : StrokeTable} {k : Serial} (h : k ∉ t.entries.map Stroke.serial) :
    t.find k = none := by
  cases hf : t.find k with
  | none => rfl
  | some e => exact absurd (mem_serials_of_find (by rw [hf]; rfl)) h

/-- The serial given to a new stroke is held by no entry (R40). -/
theorem freshSerial_fresh (t : StrokeTable) (h : t.entries.length < 2 ^ 32 - 2) :
    freshSerial t ∉ t.entries.map Stroke.serial := by
  intro hmem
  have hsome : (t.find (freshSerial t)).isSome := by
    obtain ⟨e, he, hes⟩ := List.mem_map.1 hmem
    exact List.find?_isSome.2 ⟨e, he, by simpa using hes⟩
  have used := freshSerialFrom_used t t.entries.length t.counter hsome
  let l := (List.range (t.entries.length + 1)).map (serialAfter t.counter)
  have hnd : l.Nodup := by
    refine List.Nodup.map_on (fun i hi j hj he => ?_) List.nodup_range
    have hi := List.mem_range.1 hi
    have hj := List.mem_range.1 hj
    exact serialAfter_inj t.counter (by omega) (by omega) he
  have hsub : l ⊆ t.entries.map Stroke.serial := by
    intro k hk
    obtain ⟨i, hi, rfl⟩ := List.mem_map.1 hk
    exact mem_serials_of_find (used i (by have := List.mem_range.1 hi; omega))
  have := (List.subperm_of_subset hnd hsub).length_le
  simp [l] at this

/-! ## Entries and blocks -/

theorem insertStroke_perm (e : Stroke) (l : List Stroke) : (insertStroke e l).Perm (e :: l) := by
  induction l with
  | nil => exact .refl _
  | cons f rest ih =>
    simp only [insertStroke]
    split
    · exact .refl _
    · exact (ih.cons f).trans (.swap e f rest)

theorem grant_eq {s : State} {g : Grant} {pool : Pool} (h : s.grant = some (g, pool)) :
    s.strokes.entries.length < Config.strokeEntries ∧ g.entry = lowestFreeFrom 0 s.strokes.entries ∧
      takeBlock s.pool = some (g.block, pool) := by
  unfold State.grant at h
  split at h
  · rename_i hlt
    obtain ⟨⟨b, q⟩, hb, he⟩ := Option.map_eq_some_iff.1 h
    simp only [Prod.mk.injEq] at he
    obtain ⟨rfl, rfl⟩ := he
    exact ⟨hlt, rfl, hb⟩
  · simp at h

/-- An update keeps every serial and, where it keeps chains, every chain. -/
theorem map_update {α : Type} (t : StrokeTable) (serial : Serial) (f : Stroke → Stroke)
    (g : Stroke → α) (h : ∀ x, g (f x) = g x) :
    (t.update serial f).entries.map g = t.entries.map g := by
  simp only [StrokeTable.update, List.map_map]
  refine List.map_congr_left fun e _ => ?_
  simp only [Function.comp]
  split <;> simp [h]

theorem flatMap_eq_map (l : List Stroke) :
    l.flatMap Stroke.chain = (l.map Stroke.chain).flatten := by
  rw [List.flatMap_def]

/-- Taking an entry out of a table whose serials differ takes its chain out and no other. -/
theorem chains_remove {l : List Stroke} {e : Stroke} (hn : (l.map Stroke.serial).Nodup)
    (he : l.find? (fun x => x.serial = e.serial) = some e) :
    (e.chain ++ (l.filter fun x => x.serial ≠ e.serial).flatMap Stroke.chain).Perm
      (l.flatMap Stroke.chain) := by
  induction l with
  | nil => simp at he
  | cons f rest ih =>
    rw [List.map_cons, List.nodup_cons] at hn
    by_cases hf : f.serial = e.serial
    · rw [List.find?_cons_of_pos (by simpa using hf)] at he
      simp only [Option.some.injEq] at he
      subst he
      have : rest.filter (fun x => x.serial ≠ f.serial) = rest := by
        refine List.filter_eq_self.2 fun x hx => ?_
        simp only [ne_eq, decide_eq_true_eq]
        exact fun hc => hn.1 (List.mem_map.2 ⟨x, hx, hc⟩)
      rw [List.filter_cons_of_neg (by simp), this, List.flatMap_cons]
    · rw [List.find?_cons_of_neg (by simpa using hf)] at he
      rw [List.filter_cons_of_pos (by simpa using hf), List.flatMap_cons, List.flatMap_cons]
      refine List.Perm.trans ?_ ((ih hn.2 he).append_left f.chain)
      rw [← List.append_assoc, ← List.append_assoc]
      exact List.perm_append_comm.append_right _

theorem PageMove.blocksKept {s t : State} (h : PageMove s t) (hs : s.BlocksKept) : t.BlocksKept := by
  have same {u : State} (h1 : u.strokes = s.strokes) (h2 : u.pool = s.pool) : u.BlocksKept :=
    ⟨by rw [h1]; exact hs.serials, by rw [h1, h2]; exact hs.blocks⟩
  cases h with
  | undo => exact same rfl rfl
  | live => exact same rfl rfl
  | page => exact same rfl rfl
  | snapshot => exact same rfl rfl
  | broken => exact same rfl rfl
  | route => exact same rfl rfl
  | edit serial f hf hc he =>
    refine ⟨?_, ?_⟩
    · simp only [State.setStrokes_strokes]
      rw [map_update _ _ _ _ hf]; exact hs.serials
    · simp only [State.setStrokes_strokes, State.setStrokes_pool]
      rw [flatMap_eq_map, map_update _ _ _ _ hc, ← flatMap_eq_map]; exact hs.blocks
  | free e e' h hc =>
    have he' : e'.serial = e.serial := StrokeTable.serial_of_find h
    refine ⟨?_, ?_⟩
    · exact hs.serials.sublist (List.Sublist.map _ List.filter_sublist)
    · simp only [State.setStrokes_strokes, State.setStrokes_pool, State.setPool_pool,
        returnChain_free, StrokeTable.remove]
      refine List.Perm.trans ?_ hs.blocks
      rw [List.append_assoc, ← hc, ← he']
      refine List.Perm.append_left _ (chains_remove hs.serials ?_)
      rw [he']; exact h

theorem InkMove.blocksKept {s t : State} (h : InkMove s t) (hs : s.BlocksKept) : t.BlocksKept := by
  have same {u : State} (h1 : u.strokes = s.strokes) (h2 : u.pool = s.pool) : u.BlocksKept :=
    ⟨by rw [h1]; exact hs.serials, by rw [h1, h2]; exact hs.blocks⟩
  cases h with
  | ofPage h => exact h.blocksKept hs
  | channel => exact same rfl rfl
  | opened g pool e key p h hse he hc =>
    obtain ⟨hlen, _, htb⟩ := grant_eq h
    have hfree := (takeBlock_cells htb).2
    have hlen : s.strokes.entries.length < 512 := hlen
    refine ⟨?_, ?_⟩
    · simp only [State.setPool_strokes, State.setStrokes_strokes]
      refine (((insertStroke_perm e _).map Stroke.serial).nodup_iff).2 ?_
      rw [List.map_cons, List.nodup_cons, hse]
      exact ⟨freshSerial_fresh _ (by omega), hs.serials⟩
    · simp only [State.setPool_strokes, State.setStrokes_strokes, State.setPool_pool]
      refine List.Perm.trans ?_ hs.blocks
      refine ((((insertStroke_perm e _).flatMap_right Stroke.chain)).append_left _).trans ?_
      rw [List.flatMap_cons, hc, hfree]
      exact (List.perm_append_comm_assoc _ _ _).trans (by simp)
  | store e block pool key p charged hb h =>
    refine ⟨?_, ?_⟩
    · simp only [State.setPool_strokes, State.setStrokes_strokes]
      rw [map_update _ _ (fun x => x.withPoint block p charged) _ (fun _ => rfl)]
      exact hs.serials
    · simp only [State.setPool_strokes, State.setStrokes_strokes, State.setPool_pool]
      cases block with
      | none =>
        have hb : pool = s.pool := hb
        rw [flatMap_eq_map, map_update _ _ (fun x => x.withPoint none p charged) _
          (fun x => by simp [Stroke.withPoint]), ← flatMap_eq_map, hb]
        exact hs.blocks
      | some b =>
        obtain ⟨e', he'⟩ := h.resolve_left (by simp)
        have hes : e'.serial = e.serial := StrokeTable.serial_of_find he'
        have hfree := (takeBlock_cells hb).2
        refine List.Perm.trans ?_ hs.blocks
        have hn := hs.serials
        have he'' : s.strokes.entries.find? (fun x => x.serial = e.serial) = some e' := he'
        rw [hfree]
        simp only [StrokeTable.update]
        refine List.Perm.trans (l₂ := pool.free ++ (b :: s.strokes.entries.flatMap Stroke.chain)) ?_
          List.perm_middle
        refine List.Perm.append_left _ ?_
        clear hs hfree hb he' h
        generalize s.strokes.entries = l at *
        induction l with
        | nil => simp at he''
        | cons f rest ih =>
          rw [List.map_cons, List.nodup_cons] at hn
          by_cases hf : f.serial = e.serial
          · have hrest : rest.map (fun x => if x.serial = e.serial then
                x.withPoint (some b) p charged else x) = rest := by
              refine (List.map_congr_left fun x hx => ?_).trans (List.map_id rest)
              rw [if_neg]
              · rfl
              · exact fun hc => hn.1 (List.mem_map.2 ⟨x, hx, hc.trans hf.symm⟩)
            rw [List.map_cons, if_pos hf, hrest, List.flatMap_cons, List.flatMap_cons]
            simp only [Stroke.withPoint, Option.toList_some]
            rw [List.append_assoc]
            exact List.perm_middle
          · rw [List.find?_cons_of_neg (by simpa using hf)] at he''
            rw [List.map_cons, if_neg hf, List.flatMap_cons, List.flatMap_cons]
            exact ((ih hn.2 he'').append_left f.chain).trans List.perm_middle

/-! ## Entry numbers -/

theorem lowestFreeFrom_le (l : List Stroke) : ∀ n, n ≤ lowestFreeFrom n l ∧
    lowestFreeFrom n l ≤ n + l.length := by
  induction l with
  | nil => intro n; simp [lowestFreeFrom]
  | cons e rest ih =>
    intro n
    simp only [lowestFreeFrom, List.length_cons]
    split
    · have := ih (n + 1); omega
    · omega

/-- The number granted is held by no entry of a table in rising order. -/
theorem lowestFreeFrom_fresh (l : List Stroke) : ∀ n, l.Pairwise (fun a b => a.entry < b.entry) →
    (∀ e ∈ l, n ≤ e.entry) → ∀ e ∈ l, e.entry ≠ lowestFreeFrom n l := by
  induction l with
  | nil => intro n _ _ e he; simp at he
  | cons f rest ih =>
    intro n hp hn e he
    have hp := List.pairwise_cons.1 hp
    simp only [lowestFreeFrom]
    split
    · rename_i hf
      rcases List.mem_cons.1 he with rfl | he
      · have := lowestFreeFrom_le rest (n + 1); omega
      · exact ih (n + 1) hp.2 (fun x hx => by have := hp.1 x hx; omega) e he
    · rename_i hf
      rcases List.mem_cons.1 he with rfl | he
      · exact hf
      · have := hp.1 e he
        have := hn f List.mem_cons_self
        omega

theorem insertStroke_rising (e : Stroke) (l : List Stroke)
    (h : l.Pairwise (fun a b => a.entry < b.entry)) (hne : ∀ x ∈ l, x.entry ≠ e.entry) :
    (insertStroke e l).Pairwise (fun a b => a.entry < b.entry) := by
  induction l with
  | nil => simp [insertStroke]
  | cons f rest ih =>
    have hp := List.pairwise_cons.1 h
    simp only [insertStroke]
    split
    · rename_i hlt
      refine List.pairwise_cons.2 ⟨fun x hx => ?_, h⟩
      rcases List.mem_cons.1 hx with rfl | hx
      · exact hlt
      · exact lt_trans hlt (hp.1 x hx)
    · rename_i hlt
      refine List.pairwise_cons.2 ⟨fun x hx => ?_, ih hp.2 fun x hx => hne x (List.mem_cons_of_mem _ hx)⟩
      rcases List.mem_cons.1 ((insertStroke_perm e rest).mem_iff.1 hx) with rfl | hx
      · have := hne f List.mem_cons_self; omega
      · exact hp.1 x hx

theorem rising_update (t : StrokeTable) (serial : Serial) (f : Stroke → Stroke)
    (he : ∀ x, (f x).entry = x.entry) (h : t.entries.Pairwise (fun a b => a.entry < b.entry)) :
    (t.update serial f).entries.Pairwise (fun a b => a.entry < b.entry) := by
  have := List.pairwise_map.2 h
  rw [← map_update t serial f Stroke.entry he] at this
  exact List.pairwise_map.1 this

theorem bounded_update (t : StrokeTable) (serial : Serial) (f : Stroke → Stroke)
    (he : ∀ x, (f x).entry = x.entry) (h : ∀ e ∈ t.entries, e.entry < Config.strokeEntries) :
    ∀ e ∈ (t.update serial f).entries, e.entry < Config.strokeEntries := by
  intro e hm
  have : e.entry ∈ (t.update serial f).entries.map Stroke.entry := List.mem_map.2 ⟨e, hm, rfl⟩
  rw [map_update t serial f Stroke.entry he] at this
  obtain ⟨x, hx, hxe⟩ := List.mem_map.1 this
  rw [← hxe]; exact h x hx

theorem PageMove.entriesInOrder {s t : State} (h : PageMove s t) (hs : s.EntriesInOrder) :
    t.EntriesInOrder := by
  cases h with
  | undo => exact ⟨hs.rising, hs.bounded⟩
  | live => exact ⟨hs.rising, hs.bounded⟩
  | page => exact ⟨hs.rising, hs.bounded⟩
  | snapshot => exact ⟨hs.rising, hs.bounded⟩
  | broken => exact ⟨hs.rising, hs.bounded⟩
  | route => exact ⟨hs.rising, hs.bounded⟩
  | edit serial f hf hc he =>
    exact ⟨rising_update _ _ _ he hs.rising, bounded_update _ _ _ he hs.bounded⟩
  | free e e' h hc =>
    exact ⟨hs.rising.sublist List.filter_sublist,
      fun x hx => hs.bounded x (List.mem_of_mem_filter hx)⟩

theorem InkMove.entriesInOrder {s t : State} (h : InkMove s t) (hs : s.EntriesInOrder) :
    t.EntriesInOrder := by
  cases h with
  | ofPage h => exact h.entriesInOrder hs
  | channel => exact ⟨hs.rising, hs.bounded⟩
  | opened g pool e key p h hse he hc =>
    obtain ⟨hlen, hg, _⟩ := grant_eq h
    have hle := (lowestFreeFrom_le s.strokes.entries 0).2
    refine ⟨insertStroke_rising e _ hs.rising fun x hx => ?_, fun x hx => ?_⟩
    · rw [he, hg]
      exact lowestFreeFrom_fresh _ 0 hs.rising (fun _ _ => Nat.zero_le _) x hx
    · rcases List.mem_cons.1 ((insertStroke_perm e _).mem_iff.1 hx) with rfl | hx
      · rw [he, hg]; omega
      · exact hs.bounded x hx
  | store e block pool key p charged hb h =>
    exact ⟨rising_update _ _ _ (fun _ => rfl) hs.rising,
      bounded_update _ _ _ (fun _ => rfl) hs.bounded⟩

/-! ## Places and hold lists -/

theorem PageMove.placesCanonical {s t : State} (h : PageMove s t) (hs : s.PlacesCanonical) :
    t.PlacesCanonical := by
  cases h with
  | undo => exact hs
  | live => exact hs
  | page => exact hs
  | snapshot => exact hs
  | broken => exact hs
  | route => exact hs
  | edit => exact hs
  | free => exact hs

theorem InkMove.placesCanonical {s t : State} (h : InkMove s t) (hs : s.PlacesCanonical) :
    t.PlacesCanonical := by
  cases h with
  | ofPage h => exact h.placesCanonical hs
  | channel => exact hs
  | opened g pool e key p h hse he hc =>
    refine Memory.write_wf _ _ ?_
    rw [(takeBlock_cells (grant_eq h).2.2).1]; exact hs
  | store e block pool key p charged hb h =>
    refine Memory.write_wf _ _ ?_
    cases block with
    | none => have hb : pool = s.pool := hb; rw [hb]; exact hs
    | some b => rw [(takeBlock_cells hb).1]; exact hs

theorem PageMove.holdsBounded {s t : State} (h : PageMove s t) (hs : s.HoldsBounded) :
    t.HoldsBounded := by
  intro p a ha
  cases h with
  | undo => exact hs p a ha
  | live => exact hs p a ha
  | page => exact hs p a ha
  | broken => exact hs p a ha
  | route => exact hs p a ha
  | edit => exact hs p a ha
  | free => exact hs p a ha
  | snapshot q r h =>
    rw [State.setSnapshot_snapshot] at ha
    split at ha
    · rcases h a ha with h | ⟨b, hb, hl⟩
      · exact h
      · exact hl.trans (hs q b hb)
    · exact hs p a ha

theorem InkMove.holdsBounded {s t : State} (h : InkMove s t) (hs : s.HoldsBounded) :
    t.HoldsBounded := by
  cases h with
  | ofPage h => exact h.holdsBounded hs
  | channel => exact hs
  | opened => exact hs
  | store => exact hs

end Sys2Proof.Machine
end

