-- ==== Sys2Proof/Laws/Requests.lean ====
section
/-! SUPPORT. A request that its port admits, read once: what `State.request` answers, and that the
numbers of a request are read back from their codes. -/

namespace Sys2Proof.Machine

/-- An admitted request is its block's operation on the state with the link WORKING, and its reply. -/
theorem request_of_admits {s : State} {p : Port} (h : s.Admits p) (tag : Byte)
    (act : State → State × Option Reply) :
    s.request p tag act =
      match (act (s.admitted p tag)).2 with
      | none => (act (s.admitted p tag)).1
      | some reply => (act (s.admitted p tag)).1.formAnswer p ⟨reply.status, tag, reply.payload⟩ :=
  if_pos h

/-- The same, where the block gives this reply. -/
theorem request_replied {s : State} {p : Port} (h : s.Admits p) {tag : Byte}
    {act : State → State × Option Reply} {t : State} {r : Reply}
    (ha : act (s.admitted p tag) = (t, some r)) :
    s.request p tag act = t.formAnswer p ⟨r.status, tag, r.payload⟩ := by
  rw [request_of_admits h, ha]

/-- The same, where the block gives none. -/
theorem request_unreplied {s : State} {p : Port} (h : s.Admits p) {tag : Byte}
    {act : State → State × Option Reply} {t : State} (ha : act (s.admitted p tag) = (t, none)) :
    s.request p tag act = t := by
  rw [request_of_admits h, ha]

/-- A request that its block refuses. -/
theorem request_refused {s : State} {p : Port} (h : s.Admits p) {tag : Byte}
    {act : State → State × Option Reply} {status : Status}
    (ha : act (s.admitted p tag) = (s.admitted p tag).refuse status) :
    s.request p tag act = s.answered p tag status [] :=
  request_replied h ha

/-- A request that its block answers with a report. -/
theorem request_reported {s : State} {p : Port} (h : s.Admits p) {tag : Byte}
    {act : State → State × Option Reply} {payload : List Byte}
    (ha : act (s.admitted p tag) = (s.admitted p tag).report payload) :
    s.request p tag act = s.answered p tag .ok payload :=
  request_replied h ha

/-! ## What admission leaves -/

section
variable (s : State) (p : Port) (tag : Byte)

@[simp] theorem admitted_phase : (s.admitted p tag).phase = s.phase := rfl
@[simp] theorem admitted_deviceTime : (s.admitted p tag).deviceTime = s.deviceTime := rfl
@[simp] theorem admitted_channels : (s.admitted p tag).channels = s.channels := rfl
@[simp] theorem admitted_strokes : (s.admitted p tag).strokes = s.strokes := rfl
@[simp] theorem admitted_pool : (s.admitted p tag).pool = s.pool := rfl
@[simp] theorem admitted_pages : (s.admitted p tag).pages = s.pages := rfl
@[simp] theorem admitted_snapshots : (s.admitted p tag).snapshots = s.snapshots := rfl
@[simp] theorem admitted_rings : (s.admitted p tag).rings = s.rings := rfl
@[simp] theorem admitted_live : (s.admitted p tag).live = s.live := rfl
@[simp] theorem admitted_mirror : (s.admitted p tag).mirror = s.mirror := rfl
@[simp] theorem admitted_image : (s.admitted p tag).image = s.image := rfl
@[simp] theorem admitted_indicator : (s.admitted p tag).indicator = s.indicator := rfl
@[simp] theorem admitted_save : (s.admitted p tag).save = s.save := rfl
@[simp] theorem admitted_channel (k : Pen) : (s.admitted p tag).channel k = s.channel k := rfl
@[simp] theorem admitted_page (k : Page) : (s.admitted p tag).page k = s.page k := rfl
@[simp] theorem admitted_snapshot (k : Port) : (s.admitted p tag).snapshot k = s.snapshot k := rfl
@[simp] theorem admitted_ring (k : Port) : (s.admitted p tag).ring k = s.ring k := rfl
@[simp] theorem admitted_livePort (k : Port) : (s.admitted p tag).livePort k = s.livePort k := rfl
@[simp] theorem admitted_permissions (k : Port) :
    (s.admitted p tag).permissions k = s.permissions k := rfl
@[simp] theorem admitted_penSettings (k : Pen) :
    (s.admitted p tag).penSettings k = s.penSettings k := rfl
@[simp] theorem admitted_stroke? (serial : Serial) :
    (s.admitted p tag).stroke? serial = s.stroke? serial := rfl
@[simp] theorem admitted_holder (pg : Page) : (s.admitted p tag).holder pg = s.holder pg := rfl
@[simp] theorem admitted_holdCount (pg : Page) :
    (s.admitted p tag).holdCount pg = s.holdCount pg := rfl

theorem admitted_link (k : Port) :
    (s.admitted p tag).link k = if p = k then { s.link p with state := .working tag } else s.link k :=
  State.setLink_link _ _ _ _

/-- Of a link, admission touches its state alone. -/
theorem admitted_link_fields (k : Port) :
    ((s.admitted p tag).link k).lastTag = (s.link k).lastTag ∧
    ((s.admitted p tag).link k).restarted = (s.link k).restarted ∧
    ((s.admitted p tag).link k).frameFault = (s.link k).frameFault ∧
    ((s.admitted p tag).link k).snapBroken = (s.link k).snapBroken ∧
    ((s.admitted p tag).link k).attentionMask = (s.link k).attentionMask ∧
    ((s.admitted p tag).link k).threshold = (s.link k).threshold ∧
    ((s.admitted p tag).link k).forming = (s.link k).forming ∧
    ((s.admitted p tag).link k).frame = (s.link k).frame := by
  rw [admitted_link]
  split
  · rename_i h; subst h; exact ⟨rfl, rfl, rfl, rfl, rfl, rfl, rfl, rfl⟩
  · exact ⟨rfl, rfl, rfl, rfl, rfl, rfl, rfl, rfl⟩

end

/-! ## Numbers read back -/

@[simp] theorem penOf_penCode (pen : Pen) : penOf (some (penCode pen)) = some pen := by
  revert pen; decide

@[simp] theorem pageOf_pageCode (pg : Page) : pageOf (some (pageCode pg)) = some pg := by
  revert pg; decide

@[simp] theorem portOf_portCode (p : Port) : portOf (some (portCode p)) = some p := by
  revert p; decide

@[simp] theorem bindingOf_bindingCode (b : Option Port) :
    bindingOf (some (bindingCode b)) = some b := by
  revert b; decide

@[simp] theorem permissionsOf_permissionsByte (set : Permissions) :
    permissionsOf (some (permissionsByte set)) = some set := by
  obtain ⟨a, b, c, d⟩ := set
  revert a b c d; decide

theorem penOf_none {b : Byte} (h : 8 ≤ b.toNat) : penOf (some b) = none := by
  simp [penOf]; omega

theorem pageOf_none {b : Byte} (h : 16 ≤ b.toNat) : pageOf (some b) = none := by
  simp [pageOf]; omega

theorem portOf_none {b : Byte} (h : 4 ≤ b.toNat) : portOf (some b) = none := by
  simp [portOf]; omega

end Sys2Proof.Machine
end

