-- ==== Sys2Proof/Laws/Contact.lean ====
section
/-! SUPPORT. What the shared operations of a contact and of a page's holder answer, once each: the
state of a pen, the end of its stroke, a grant, an append, the removal of VIEW. -/

namespace Sys2Proof.Machine

section
variable (s : State)

/-! ## Timers and samples -/

theorem timerDue_iff (x : Timer) : timerDue s.deviceTime x = true ↔ s.Due (some x) := by
  unfold State.Due timerDue
  simp

theorem lowState_eq (x : Sample) : lowState x = if x.inRange = 1 then .hover else .away := by
  simp [lowState, sampleHeard]

/-- Samples that the checks of R3 turn away. -/
theorem samplesOf_none {samples : List Sample} (h : samples = [] ∨ 32 < samples.length ∨
    ∃ x ∈ samples, 1023 < x.pressure.toNat ∨ 1 < x.inRange.toNat) :
    samplesOf (some samples) = none := by
  show (if _ then _ else _) = _
  rw [if_neg]
  rintro ⟨h1, h2, h3⟩
  have h2 : samples.length ≤ 32 := h2
  rcases h with h | h | ⟨x, hx, h⟩
  · subst h
    simp at h1
  · omega
  · have := List.all_eq_true.1 h3 x hx
    simp [sampleInRange] at this
    omega

/-! ## The state and the stroke of a pen -/

theorem setChannel_setChannel (pen : Pen) (c c' : Channel) :
    (s.setChannel pen c).setChannel pen c' = s.setChannel pen c' := by
  unfold State.setChannel put
  congr 1
  ext1 i hi
  simp [Vector.getElem_set]

/-- A change of pen state, with its PEN notice where R17 names the change. -/
theorem enterPen_eq (pen : Pen) (after : PenState) : s.enterPen pen after =
    if (s.channel pen).state ≠ after ∧ after ≠ .pressing ∧ after ≠ .lifting ∧
        (after = .inking → (s.channel pen).state ≠ .lifting) then
      (s.setChannel pen { s.channel pen with state := after }).route (.pen pen after)
    else s.setChannel pen { s.channel pen with state := after } := by
  unfold State.enterPen penNoticed
  cases after <;> simp

theorem enterPen_channel (pen k : Pen) (after : PenState) : (s.enterPen pen after).channel k =
    if pen = k then { s.channel pen with state := after } else s.channel k := by
  unfold State.enterPen
  dsimp only
  split <;> simp [State.setChannel_channel]

@[simp] theorem enterPen_penSettings (pen k : Pen) (after : PenState) :
    (s.enterPen pen after).penSettings k = s.penSettings k := by
  unfold State.enterPen
  dsimp only
  split <;> rfl

theorem setChannel_currentStroke (pen : Pen) (c : Channel)
    (h : c.current = (s.channel pen).current) :
    (s.setChannel pen c).currentStroke pen = s.currentStroke pen := by
  unfold State.currentStroke
  simp [h]
  rfl

/-- A pen without a stroke closes none. -/
theorem closeCurrent_of_none {pen : Pen} (c : Channel) (cause : CloseCause)
    (hc : c.current = (s.channel pen).current) (h : s.currentStroke pen = none) :
    (s.setChannel pen c).closeCurrent pen cause =
      s.setChannel pen { c with current := none, working := none, rejoin := none } := by
  unfold State.closeCurrent
  rw [setChannel_currentStroke s pen c hc, h]
  simp [setChannel_setChannel, Channel.withoutStroke]

/-- A pen's stroke leaves it and is classified. -/
theorem closeCurrent_of_some {pen : Pen} {e : Stroke} (c : Channel) (cause : CloseCause)
    (hc : c.current = (s.channel pen).current) (h : s.currentStroke pen = some e) :
    (s.setChannel pen c).closeCurrent pen cause =
      (s.setChannel pen
        { c with current := none, working := none, rejoin := none }).classify e cause := by
  unfold State.closeCurrent
  rw [setChannel_currentStroke s pen c hc, h]
  simp [setChannel_setChannel, Channel.withoutStroke]

/-! ## Grants and appends -/

theorem grant_none (h : 512 ≤ s.strokes.entries.length ∨ s.pool.free = []) : s.grant = none := by
  unfold State.grant takeBlock
  rcases h with h | h
  · exact if_neg (Nat.not_lt.2 h)
  · rw [h]
    simp

theorem grant_some {block : Nat} {free : List Nat} (h : s.strokes.entries.length < 512)
    (hb : s.pool.free = block :: free) :
    s.grant = some (⟨lowestFreeFrom 0 s.strokes.entries, block⟩, { s.pool with free }) := by
  unfold State.grant takeBlock
  rw [hb]
  exact if_pos h

section
variable (e : Stroke) (w : Working) (p : Point) (clock : Long) (charged : Bool)

theorem appendPoint_inBlock (h : e.count ≠ 2048) (hb : e.count % 16 ≠ 0) :
    s.appendPoint e w p clock charged = (s.storePoint e none s.pool p clock charged, .judge) := by
  unfold State.appendPoint
  exact (if_neg h).trans (if_neg hb)

theorem appendPoint_newBlock (h : e.count ≠ 2048) (hb : e.count % 16 = 0) :
    s.appendPoint e w p clock charged =
      match takeBlock s.pool with
      | none => s.poolFullClose e charged
      | some (block, pool) => (s.storePoint e (some block) pool p clock charged, .judge) := by
  unfold State.appendPoint
  exact (if_neg h).trans (if_pos hb)

theorem appendPoint_split (h : e.count = 2048) :
    s.appendPoint e w p clock charged = s.splitStroke e w p clock charged := by
  unfold State.appendPoint
  exact if_pos h

end

/-! ## The holder of a page -/

theorem holder_of_unheld {pg : Page} (h : s.Unheld pg) : s.holder pg = none := by
  unfold State.holder
  split
  · rfl
  · rfl
  · rename_i owner ho
    exact absurd ho (h owner)

theorem holder_of_snapshot {pg : Page} {owner : Port} {a : ActiveSnapshot}
    (h : (s.page pg).occupant = .snapshot owner) (hr : s.snapshot owner = some (.active a)) :
    s.holder pg = some (owner, a) := by
  unfold State.holder
  rw [h]
  dsimp only
  rw [hr]

theorem holdsErase_iff (hold : List HoldItem) (serial : Serial) :
    holdsErase hold serial = true ↔ ∃ cause, HoldItem.erase serial cause ∈ hold := by
  unfold holdsErase
  rw [List.any_eq_true]
  constructor
  · rintro ⟨x, hx, h⟩
    cases x with
    | commit => simp at h
    | erase other cause =>
      simp at h
      exact ⟨cause, h ▸ hx⟩
    | clear => simp at h
  · rintro ⟨cause, h⟩
    exact ⟨_, h, by simp⟩

/-! ## The removal of VIEW -/

theorem emptySlots_all (v : Vector (Option Follow) 8) (m : Byte) :
    (LivePort.mk v m).emptySlots 0xFF = ⟨Vector.replicate 8 none, m⟩ := by
  have h : allPens = [0, 1, 2, 3, 4, 5, 6, 7] := by decide
  have hm : ∀ p : Pen, maskHas (0xFF : Byte) p.val = true := by decide
  unfold LivePort.emptySlots
  rw [h]
  simp only [List.foldl, hm, if_true, LivePort.mapSlot]
  congr 1
  ext1 i hi
  simp [put, Vector.getElem_set]
  omega

/-- VIEW removed: the snapshot released, both masks 0, every slot emptied. -/
theorem viewRemoved_eq (q : Port) {r : State} (hr : r = s.releaseSnapshot q) :
    s.viewRemoved q = (r.setRing q { r.ring q with pageMask := 0, kindMask := 0 }).setLivePort q
      ⟨Vector.replicate 8 none, (r.livePort q).mute⟩ := by
  subst hr
  unfold State.viewRemoved
  dsimp only
  rw [← emptySlots_all]
  rfl

end

end Sys2Proof.Machine
end

