-- ==== Sys2Proof/Laws/Removal.lean ====
section
/-! SUPPORT. What freeing an entry, removing a stroke, clearing a page and ending a snapshot do, once
each: all that is different afterwards, and that nothing else is. -/

namespace Sys2Proof.Machine

/-! ## Finding strokes after a removal -/

theorem StrokeTable.find_remove (t : StrokeTable) (serial k : Serial) :
    (t.remove serial).find k = if k = serial then none else t.find k := by
  unfold StrokeTable.find StrokeTable.remove
  rw [List.find?_filter]
  split
  · rename_i h
    subst h
    rw [List.find?_eq_none]
    intro x _
    by_cases hx : x.serial = k <;> simp [hx]
  · rename_i h
    congr 1
    funext x
    by_cases hx : x.serial = k
    · simp [hx, h]
    · simp [hx]

section
variable (s : State)

theorem freeStroke_stroke? (kind : Freeing) (e : Stroke) (k : Serial) :
    (s.freeStroke kind e).stroke? k = if k = e.serial then none else s.stroke? k :=
  StrokeTable.find_remove s.strokes e.serial k

theorem freeStroke_slot (kind : Freeing) (e : Stroke) (p : Port) (k : Pen) :
    look ((s.freeStroke kind e).livePort p).slots k =
      if e.pen = k then slotFreed kind e.serial (look (s.livePort p).slots k)
      else look (s.livePort p).slots k := by
  have h : (s.freeStroke kind e).livePort p =
      (s.livePort p).mapSlot e.pen (slotFreed kind e.serial) := by
    show look (each4 _ s.live) p = _
    rw [look_each4]
    rfl
  rw [h]
  unfold LivePort.mapSlot
  rw [look_put]
  split
  · rename_i hk; rw [hk]
  · rfl

/-- Freeing an entry is all that R56 says and nothing else. -/
theorem freeStroke_entryFreed (kind : Freeing) (e : Stroke) :
    s.EntryFreed kind e (s.freeStroke kind e) where
  outside := ⟨rfl, rfl, rfl, rfl, rfl, rfl, rfl, rfl, fun _ => rfl⟩
  links := rfl
  channel := by simp [State.freeStroke]
  channels k h := by simp [State.freeStroke, State.setChannel_channel_of_ne _ _ _ (Ne.symm h)]
  gone := by rw [freeStroke_stroke?, if_pos rfl]
  others k h := by rw [freeStroke_stroke?, if_neg h]
  counter := rfl
  blocks := rfl
  places := rfl
  slot p := by rw [freeStroke_slot, if_pos rfl]
  slots p k h := by rw [freeStroke_slot, if_neg (Ne.symm h)]
  mutes p := by
    show (look (each4 _ s.live) p).mute = _
    rw [look_each4]
    rfl
  pages := rfl
  snapshots := rfl
  rings := rfl

/-- Removing a stroke is all that R83 says and nothing else. -/
theorem removeStroke_removed (e : Stroke) (cause : EraseCause) :
    s.StrokeRemoved e cause (s.removeStroke e cause) := by
  have hp : (s.removeStroke e cause).page e.page =
      { s.page e.page with
        list := (s.page e.page).list.erase e.serial
        occupant := strikeVisit e.serial (s.page e.page).occupant
        revision := nextRevision (s.page e.page).revision } := by
    simp [State.removeStroke, State.freeStroke]
  refine ⟨by rw [hp], by rw [hp], by rw [hp], fun r h => by rw [hp, h]; rfl, fun h => ?_, ?_⟩
  · rw [hp]
    show strikeVisit _ _ = _
    cases ho : (s.page e.page).occupant with
    | none => rfl
    | snapshot q => rfl
    | scan r => exact absurd ho (h r)
  · rw [hp]
    exact freeStroke_entryFreed _ _ _

/-! ## Clearing a page -/

/-- Freeing no stroke twice: a serial that names no stroke is passed over, now and later. -/
theorem freeAll_cons (a : Serial) (l : List Serial) :
    s.freeAll (a :: l) =
      (match s.stroke? a with
        | none => s
        | some e => s.freeStroke .removed e).freeAll l := rfl

theorem freeAll_filter (a : Serial) (l : List Serial) : ∀ s : State, s.stroke? a = none →
    s.freeAll l = s.freeAll (l.filter fun b => !b == a) := by
  induction l with
  | nil => exact fun s _ => rfl
  | cons b l ih =>
    intro s h
    by_cases hb : b = a
    · subst hb
      rw [freeAll_cons, h, List.filter_cons_of_neg (by simp)]
      exact ih s h
    · rw [List.filter_cons_of_pos (by simpa using hb), freeAll_cons, freeAll_cons]
      cases hs : s.stroke? b with
      | none => exact ih s h
      | some e =>
        refine ih _ ?_
        rw [freeStroke_stroke?, h, ite_self]

theorem freeAll_eraseDups (n : Nat) : ∀ (l : List Serial) (s : State), l.length ≤ n →
    s.freeAll l = s.freeAll l.eraseDups := by
  induction n with
  | zero =>
    intro l s h
    rw [List.length_eq_zero_iff.1 (Nat.le_zero.1 h)]
    rfl
  | succ n ih =>
    intro l s h
    cases l with
    | nil => rfl
    | cons a l =>
      rw [List.eraseDups_cons, freeAll_cons, freeAll_cons, freeAll_filter a l _ ?_]
      · exact ih _ _ ((List.length_filter_le _ _).trans (Nat.le_of_succ_le_succ h))
      · cases hs : s.stroke? a with
        | none => exact hs
        | some e =>
          show (s.freeStroke .removed e).stroke? a = none
          rw [freeStroke_stroke?, if_pos (StrokeTable.serial_of_find hs).symm]

theorem nodup_eraseDups (n : Nat) : ∀ l : List Serial, l.length ≤ n → l.eraseDups.Nodup := by
  induction n with
  | zero =>
    intro l h
    rw [List.length_eq_zero_iff.1 (Nat.le_zero.1 h)]
    exact .nil
  | succ n ih =>
    intro l h
    cases l with
    | nil => exact .nil
    | cons a l =>
      rw [List.eraseDups_cons, List.nodup_cons]
      refine ⟨fun hm => ?_, ih _ ((List.length_filter_le _ _).trans (Nat.le_of_succ_le_succ h))⟩
      have := List.mem_eraseDups.1 hm
      simp at this

/-- What freeing the strokes of distinct serials leaves. -/
theorem freeAll_of_nodup (l : List Serial) : ∀ s : State, l.Nodup →
    (s.freeAll l).pages = s.pages ∧ (s.freeAll l).rings = s.rings ∧
    (s.freeAll l).snapshots = s.snapshots ∧ (s.freeAll l).links = s.links ∧
    (s.freeAll l).strokes.counter = s.strokes.counter ∧
    (s.freeAll l).pool.cells = s.pool.cells ∧
    (∀ k, (s.freeAll l).stroke? k = if k ∈ l then none else s.stroke? k) ∧
    (s.freeAll l).pool.free = s.pool.free ++ (l.filterMap s.stroke?).flatMap Stroke.chain ∧
    (∀ pen, (s.freeAll l).channel pen =
      { s.channel pen with
        undo := (((l.filterMap s.stroke?).filter (·.pen = pen)).map Stroke.serial).foldl List.erase
          (s.channel pen).undo }) ∧
    (∀ p pen, look ((s.freeAll l).livePort p).slots pen =
      (look (s.livePort p).slots pen).filter fun f =>
        !(l.filterMap s.stroke?).any fun e => e.pen = pen && e.serial = f.serial) ∧
    (∀ p, ((s.freeAll l).livePort p).mute = (s.livePort p).mute) := by
  induction l with
  | nil =>
    intro s _
    refine ⟨rfl, rfl, rfl, rfl, rfl, rfl, fun k => by simp [State.freeAll], by simp [State.freeAll],
      fun pen => rfl, fun p pen => ?_, fun p => rfl⟩
    cases h : look (s.livePort p).slots pen <;> simp [State.freeAll, Option.filter, h]
  | cons a l ih =>
    intro s hn
    obtain ⟨ha, hl⟩ := List.nodup_cons.1 hn
    rw [freeAll_cons]
    cases hs : s.stroke? a with
    | none =>
      obtain ⟨h1, h2, h3, h4, h5, h6, h7, h8⟩ := ih s hl
      rw [List.filterMap_cons_none hs]
      refine ⟨h1, h2, h3, h4, h5, h6, fun k => ?_, h8⟩
      show (s.freeAll l).stroke? k = _
      rw [h7]
      by_cases hk : k = a
      · subst hk; simp [ha, hs]
      · simp [hk]
    | some e =>
      have hser : e.serial = a := StrokeTable.serial_of_find hs
      have hf := freeStroke_entryFreed s .removed e
      obtain ⟨h1, h2, h3, h4, h5, h6, h7, h8, h9, h10, h11⟩ := ih (s.freeStroke .removed e) hl
      have hmap : l.filterMap (s.freeStroke .removed e).stroke? = l.filterMap s.stroke? := by
        refine List.filterMap_congr fun k hk => ?_
        rw [freeStroke_stroke?, if_neg]
        rintro rfl
        exact ha (hser ▸ hk)
      rw [hmap] at h8 h9 h10
      rw [List.filterMap_cons_some hs]
      refine ⟨h1, h2, h3, h4, h5, h6, fun k => ?_, ?_, fun pen => ?_, fun p pen => ?_, fun p => ?_⟩
      · show ((s.freeStroke .removed e).freeAll l).stroke? k = _
        rw [h7, freeStroke_stroke?, hser]
        by_cases hk : k = a <;> simp [hk]
      · show ((s.freeStroke .removed e).freeAll l).pool.free = _
        rw [h8, hf.blocks, List.flatMap_cons, List.append_assoc]
      · show ((s.freeStroke .removed e).freeAll l).channel pen = _
        rw [h9]
        by_cases hp : pen = e.pen
        · subst hp
          rw [hf.channel]
          simp
        · rw [hf.channels pen hp, List.filter_cons_of_neg (by simpa using Ne.symm hp)]
      · show look (((s.freeStroke .removed e).freeAll l).livePort p).slots pen = _
        rw [h10, freeStroke_slot]
        cases hl : look (s.livePort p).slots pen with
        | none => by_cases hp : e.pen = pen <;> simp [slotFreed, Option.filter, hp]
        | some f =>
          by_cases hp : e.pen = pen
          · by_cases hk : f.serial = e.serial
            · simp [slotFreed, Option.filter, hp, hk]
            · simp [slotFreed, Option.filter, hp, hk, Ne.symm hk]
          · simp [Option.filter, hp]
      · show (((s.freeStroke .removed e).freeAll l).livePort p).mute = _
        rw [h11, hf.mutes]

/-- A clear is all that R89 says and nothing else. -/
theorem clearStrokes_cleared (pg : Page) : s.PageCleared pg (s.clearStrokes pg) := by
  by_cases he : (s.page pg).list = []
  · have hs : s.clearStrokes pg = s := if_pos he
    have hon : s.strokesOn pg = [] := by simp [State.strokesOn, he]
    refine ⟨fun _ => hs, fun h => absurd he h, fun h => absurd he h, ?_, ?_, ?_, ?_, ?_, ?_, ?_, ?_, ?_⟩
      <;> rw [hs] <;> simp [hon, he]
    intro p pen
    cases h : look (s.livePort p).slots pen <;> simp [Option.filter]
  · let cut := s.setPage pg { s.page pg with list := [] }
    have hcut : ∀ k, cut.stroke? k = s.stroke? k := fun _ => rfl
    obtain ⟨h1, h2, h3, h4, h5, h6, h7, h8, h9, h10, h11⟩ :=
      freeAll_of_nodup _ cut (nodup_eraseDups _ (s.page pg).list (le_refl _))
    rw [← freeAll_eraseDups _ (s.page pg).list cut (le_refl _)] at h1 h2 h3 h4 h5 h6 h7 h8 h9 h10 h11
    have hon : (s.page pg).list.eraseDups.filterMap cut.stroke? = s.strokesOn pg := rfl
    rw [hon] at h8 h9 h10
    generalize hv : cut.freeAll (s.page pg).list = v at h1 h2 h3 h4 h5 h6 h7 h8 h9 h10 h11
    have hpage : ∀ k, v.page k = cut.page k := fun k => by simp only [State.page, h1]
    have hcutp : cut.page pg = { s.page pg with list := [] } := State.setPage_page_self s pg _
    have hs : s.clearStrokes pg =
        (v.setPage pg { v.page pg with revision := nextRevision (v.page pg).revision }).route
          (.clear pg (s.page pg).list.length (nextRevision (v.page pg).revision)) := by
      unfold State.clearStrokes
      rw [if_neg he, ← hv]
    have hrev : (v.page pg).revision = (s.page pg).revision := by rw [hpage, hcutp]
    rw [hs]
    refine ⟨fun h => absurd h he, fun _ => ?_, fun _ => ?_, fun k hk => ?_, fun k => ?_, h5, h8, h6,
      h9, h10, h11, h3⟩
    · rw [State.route_page, State.setPage_page_self, hpage, hcutp]
    · rw [hrev]
      show routeRings _ v.rings = routeRings _ s.rings
      rw [h2]
      rfl
    · rw [State.route_page, State.setPage_page_of_ne _ _ _ (Ne.symm hk), hpage,
        State.setPage_page_of_ne _ _ _ (Ne.symm hk)]
    · have := h7 k
      rw [hcut] at this
      simp only [List.mem_eraseDups] at this
      exact this

/-! ## Applying held items -/

/-- A held item touches no link. -/
theorem applyItem_links (pg : Page) (item : HoldItem) : (State.applyItem pg s item).links = s.links := by
  cases item with
  | commit serial =>
    simp only [State.applyItem]
    split <;> rfl
  | erase serial cause =>
    simp only [State.applyItem]
    split
    · rfl
    · split <;> rfl
  | clear =>
    have hf : ∀ (l : List Serial) (t : State), (t.freeAll l).links = t.links := by
      intro l
      induction l with
      | nil => exact fun t => rfl
      | cons a l ih =>
        intro t
        rw [freeAll_cons]
        split <;> exact ih _
    simp only [State.applyItem, State.clearStrokes]
    split
    · rfl
    · exact hf _ _

theorem itemsApplied_links (a : ActiveSnapshot) : (s.itemsApplied a).links = s.links := by
  have h : ∀ (l : List HoldItem) (t : State),
      (l.foldl (State.applyItem a.page) t).links = t.links := by
    intro l
    induction l with
    | nil => exact fun t => rfl
    | cons item l ih => exact fun t => (ih _).trans (applyItem_links t _ item)
  exact h _ _

/-- Applying the held items and freeing the page is what an end, a break and a release share. -/
theorem applyHeld_eq (owner : Port) (a : ActiveSnapshot) (record : Option SnapshotRecord) :
    s.applyHeld owner a record = s.snapshotOver owner a record := rfl

theorem breakSnapshot_eq (owner : Port) (a : ActiveSnapshot) :
    s.breakSnapshot owner a =
      (s.snapshotOver owner a (some (.broken a.page))).setLink owner
        { s.link owner with snapBroken := true } := by
  unfold State.breakSnapshot
  rw [applyHeld_eq]
  have : (s.snapshotOver owner a (some (.broken a.page))).link owner = s.link owner := by
    show look (s.itemsApplied a).links owner = look s.links owner
    rw [itemsApplied_links]
  dsimp only
  rw [this]

end

end Sys2Proof.Machine
end

