-- ==== Sys2Proof/Laws/Departure.lean ====
section
/-! SUPPORT. What DETACH and BIND_PEN do step by step, once each: no answer wanted, the snapshot
released, the activity of pens ended. -/

namespace Sys2Proof.Machine

section
variable (s : State)

theorem setLink_setLink (p : Port) (l l' : Link) : (s.setLink p l).setLink p l' = s.setLink p l' := by
  unfold State.setLink put
  congr 1
  ext1 i hi
  simp [Vector.getElem_set]

/-! ## No answer wanted -/

/-- Occupants replaced page by page: nothing else of a page, and no other field. -/
theorem foldl_setOccupant (f : Page → Occupant → Occupant) (l : List Page) : ∀ t : State, l.Nodup →
    (∀ pages, { l.foldl (fun s pg => s.setOccupant pg (f pg (s.page pg).occupant)) t with pages } =
      { t with pages }) ∧
    ∀ pg, (l.foldl (fun s pg => s.setOccupant pg (f pg (s.page pg).occupant)) t).page pg =
      if pg ∈ l then { t.page pg with occupant := f pg (t.page pg).occupant } else t.page pg := by
  induction l with
  | nil => exact fun t _ => ⟨fun _ => rfl, fun pg => by simp⟩
  | cons a l ih =>
    intro t hn
    obtain ⟨h1, h2⟩ := ih (t.setOccupant a (f a (t.page a).occupant)) (List.nodup_cons.1 hn).2
    refine ⟨fun pages => (h1 pages).trans rfl, fun pg => ?_⟩
    rw [List.foldl_cons, h2]
    have ha := (List.nodup_cons.1 hn).1
    by_cases hpa : pg = a
    · subst hpa; simp [ha, State.setOccupant]
    · simp [hpa, State.setOccupant, State.setPage_page, Ne.symm hpa]

theorem unwantAnswers_unwanted (p : Port) : s.AnswersUnwanted p (s.unwantAnswers p) := by
  unfold State.unwantAnswers
  dsimp only
  generalize hs1 : s.setLink p { s.link p with
    forming := (s.link p).forming.map fun f => { f with wanted := false } } = s1
  obtain ⟨h1, h2⟩ := foldl_setOccupant (fun _ o => o.unwanted p) allPages s1 (by decide)
  generalize allPages.foldl
    (fun s pg => s.setOccupant pg ((s.page pg).occupant.unwanted p)) s1 = u at h1 h2 ⊢
  have hpg : ∀ pg, u.page pg =
      { s.page pg with occupant := (s.page pg).occupant.unwanted p } := by
    intro pg
    rw [h2 pg, if_pos ((by decide : ∀ q : Page, q ∈ allPages) pg), ← hs1]
    rfl
  have h0 : { u with pages := s1.pages } = s1 := h1 s1.pages
  have hl : u.links = s1.links := by
    have := congrArg State.links h0
    exact this
  have hs : u.save = s.save := by
    have := congrArg State.save h0
    exact this.trans (by rw [← hs1]; rfl)
  refine ⟨?_, ?_, ?_, ?_, ?_, ?_⟩
  · have := congrArg
      (fun x : State => { x with links := s.links, save := s.save, pages := s.pages }) h0
    refine Eq.trans ?_ (this.trans ?_)
    · rfl
    · rw [← hs1]; rfl
  · show look u.links p = _
    rw [hl, ← hs1]; exact State.setLink_link_self ..
  · intro q hq
    show look u.links q = _
    rw [hl, ← hs1]; exact (State.setLink_link ..).trans (if_neg (Ne.symm hq))
  · intro pg r hr
    rw [State.setSave_page, hpg, hr]
    simp only [Occupant.unwanted]
    by_cases h : r.requester = p <;> simp [h]
  · intro pg hr
    rw [State.setSave_page, hpg]
    cases ho : (s.page pg).occupant with
    | scan r => exact absurd ho (hr r)
    | none => simp only [Occupant.unwanted]; rw [← ho]
    | snapshot => simp only [Occupant.unwanted]; rw [← ho]
  · show (u.save.map _) = _
    rw [hs]
    cases s.save with
    | none => rfl
    | some v =>
      simp only [Option.map_some]
      by_cases h : v.requester = p <;> simp [h]

/-! ## The snapshot released -/

/-- A release by what the port holds (R110). -/
theorem releaseSnapshot_cases (p : Port) :
    (s.snapshot p = none → s.releaseSnapshot p = s) ∧
    (∀ pg, s.snapshot p = some (.broken pg) → s.releaseSnapshot p = s.setSnapshot p none) ∧
    (∀ a, s.snapshot p = some (.active a) → s.releaseSnapshot p = s.snapshotOver p a none) := by
  refine ⟨fun h => ?_, fun pg h => ?_, fun a h => ?_⟩ <;> unfold State.releaseSnapshot <;> rw [h]
  rfl

/-! ## The activity of pens ended -/

theorem endPen_eq (pen : Pen) (cause : CloseCause) : s.endPen pen cause = s.activityEnded pen cause :=
  rfl

/-- A pen's activity ended leaves of every other pen all but its undo stack. -/
theorem activityEnded_other {pen k : Pen} (c : CloseCause) (h : k ≠ pen) :
    { (s.activityEnded pen c).channel k with undo := [] } = { s.channel k with undo := [] } := by
  unfold State.activityEnded
  rw [enterPen_channel, if_neg (Ne.symm h), State.setChannel_channel, if_neg (Ne.symm h)]
  unfold State.closeCurrent
  dsimp only
  split
  · rw [State.setChannel_channel, if_neg (Ne.symm h)]
  · rename_i e he
    have hh : s.Holds e := State.holds_of_currentStroke he
    rw [(reach_classify _ e c (by exact hh)).channels k, State.setChannel_channel, if_neg (Ne.symm h)]

/-- A channel whose activity has ended (R20, R21). -/
theorem activityEnded_self (pen : Pen) (c : CloseCause) :
    ((s.activityEnded pen c).channel pen).state = .away ∧
      ((s.activityEnded pen c).channel pen).current = none ∧
      ((s.activityEnded pen c).channel pen).down = [] ∧
      ((s.activityEnded pen c).channel pen).lift = [] ∧
      ((s.activityEnded pen c).channel pen).silence = none ∧
      ((s.activityEnded pen c).channel pen).rejoin = none := by
  have h1 : ((s.closeCurrent pen c).channel pen).current = none ∧
      ((s.closeCurrent pen c).channel pen).rejoin = none := by
    unfold State.closeCurrent
    dsimp only
    split
    · simp [Channel.withoutStroke]
    · rename_i e he
      have hh : s.Holds e := State.holds_of_currentStroke he
      have := (reach_classify (s.setChannel pen (s.channel pen).withoutStroke) e c
        (by exact hh)).channels pen
      simp only [State.setChannel_channel, if_true] at this
      constructor
      · have := congrArg Channel.current this; exact this
      · have := congrArg Channel.rejoin this; exact this
  unfold State.activityEnded
  rw [enterPen_channel, if_pos rfl, State.setChannel_channel, if_pos rfl]
  exact ⟨rfl, h1.1, rfl, rfl, rfl, h1.2⟩

end

/-- The bindings stand while the bound pens' activity is ended, so they may be read beforehand. -/
theorem foldl_endBound (s : State) (p : Port) (l : List Pen) : ∀ u : State, l.Nodup →
    (∀ pen, u.penSettings pen = s.penSettings pen) →
    l.foldl (fun u pen =>
        if (u.penSettings pen).binding = some p then u.endPen pen .detached else u) u =
      l.foldl (fun u pen =>
        if (s.penSettings pen).binding = some p then u.activityEnded pen .detached else u) u := by
  induction l with
  | nil => intro u _ _; rfl
  | cons a l ih =>
    intro u hn hu
    rw [List.foldl_cons, List.foldl_cons, hu a, endPen_eq]
    refine ih _ (List.nodup_cons.1 hn).2 fun pen => ?_
    split
    · have := (reach_endPen u a .detached).sameOutside.mirror
      rw [endPen_eq] at this
      rw [← hu]
      unfold State.penSettings
      rw [this]
    · exact hu pen

/-- Of the channels of a list, those with `P` have their activity ended, and every other channel keeps
all but its undo stack. -/
theorem foldl_activityEnded (P : Pen → Prop) [DecidablePred P] (l : List Pen) :
    ∀ (u v : State), l.Nodup →
    l.foldl (fun u pen => if P pen then u.activityEnded pen .detached else u) u = v → ∀ k,
    (¬ (P k ∧ k ∈ l) → { v.channel k with undo := [] } = { u.channel k with undo := [] }) ∧
    (P k → k ∈ l → (v.channel k).state = .away ∧ (v.channel k).current = none ∧
        (v.channel k).down = [] ∧ (v.channel k).lift = [] ∧
        (v.channel k).silence = none ∧ (v.channel k).rejoin = none) := by
  induction l with
  | nil =>
    rintro u _ - rfl k
    exact ⟨fun _ => rfl, fun _ h => by cases h⟩
  | cons a l ih =>
    intro u v hn hv k
    obtain ⟨ha, hn⟩ := List.nodup_cons.1 hn
    obtain ⟨h1, h2⟩ := ih (if P a then u.activityEnded a .detached else u) v hn hv k
    refine ⟨fun h => ?_, fun hp hk => ?_⟩
    · have : ¬ (P k ∧ k ∈ l) := fun hh => h ⟨hh.1, List.mem_cons_of_mem _ hh.2⟩
      refine (h1 this).trans ?_
      split
      · rename_i hpa
        refine activityEnded_other u _ ?_
        rintro rfl
        exact h ⟨hpa, by simp⟩
      · rfl
    · by_cases hkl : k ∈ l
      · exact h2 hp hkl
      · have hka : k = a := by simpa [hkl] using hk
        subst hka
        have e := h1 (fun hh => hkl hh.2)
        rw [if_pos hp] at e
        obtain ⟨g1, g2, g3, g4, g5, g6⟩ := activityEnded_self u k .detached
        exact ⟨(congrArg Channel.state e).trans g1, (congrArg Channel.current e).trans g2,
          (congrArg Channel.down e).trans g3, (congrArg Channel.lift e).trans g4,
          (congrArg Channel.silence e).trans g5, (congrArg Channel.rejoin e).trans g6⟩

end Sys2Proof.Machine
end

