-- ==== Sys2Proof/Laws/Lengths.lean ====
section
/-! SUPPORT. What a request's block answers to a payload of another length, and to a port without the
request's permission: one lemma each over all requests. -/

namespace Sys2Proof.Machine

theorem code_of_penOf {field : Option Byte} {pen : Pen} (h : penOf field = some pen) :
    field = some (penCode pen) := by
  cases field with
  | none => simp [penOf] at h
  | some b =>
    simp only [penOf, Option.bind_some] at h
    split at h
    · rename_i hb
      injection h with h
      subst h
      simp [penCode]
    · cases h

/-- A request on a pen's settings that its block turns away whatever the pen. -/
theorem penRequest_range (p : Port) (any : Bool) (payload : List Byte)
    (f : Pen → State × Option Reply) (s : State) (hf : ∀ pen, f pen = s.refuse .range)
    (h : any = true ∨ ((s.permissions p).ink = true ∧
      ∀ pen, payload.head? = some (penCode pen) → (s.penSettings pen).binding = some p)) :
    s.penRequest p any payload.head? f = s.refuse .range := by
  unfold State.penRequest
  split
  · rw [if_pos]; rcases h with h | h <;> simp [h]
  · rename_i b hb
    split
    · rfl
    · rename_i pen hpen
      have hb' : payload.head? = some (penCode pen) := hb.trans (code_of_penOf hpen)
      rcases h with h | ⟨h, h2⟩
      · rw [if_pos h, hf]
      · have := h2 pen hb'
        simp [h, this, hf]

/-- A payload of another length is answered RANGE (R146, R169). -/
theorem runRequest_otherLength (p : Port) (tag : Byte) (r : Request) (payload : List Byte) (s : State)
    (hl : ¬ r.LengthFits payload) (h : s.ReachesLengthTest p r payload) :
    runRequest p tag r payload s = s.refuse .range := by
  obtain ⟨hp, hsrc, hrec⟩ := h
  have one : payload.length ≠ 1 → oneField payload = none := by
    unfold oneField; split <;> simp
  have two : payload.length ≠ 2 → twoFields payload = none := by
    unfold twoFields; split <;> simp
  have emp : payload.length ≠ 0 → payload.isEmpty = false := by
    cases payload <;> simp
  have three : payload.length ≠ 3 → wordThenByte payload = none := by
    unfold wordThenByte; split <;> simp
  cases r <;> simp only [Request.LengthFits, Request.permittedBy, Request.onPenSettings,
    Bool.false_eq_true, false_and, or_false] at hl hp <;> simp only [runRequest]
  case submitSamples =>
    unfold submitSamples
    have hs : sampleFields payload = none := by
      unfold sampleFields; split
      · rw [if_neg]; intro hh; apply hl; simp; omega
      · rfl
    rw [hs, if_neg (by simpa using hp)]
    split
    · rfl
    · rename_i pen hpen
      rw [if_neg (by simp [hsrc rfl pen (code_of_penOf hpen)])]
      rfl
  case setCalibration =>
    have hc : calibrationFields payload = none := by
      unfold calibrationFields; split <;> simp_all
    rw [hc]
    exact penRequest_range p _ payload _ s (fun _ => rfl) (by simpa using hp)
  case setPenTuning =>
    have hc : tuningFields payload = none := by
      unfold tuningFields; simp only [not_or] at hl; rw [if_neg hl.1, if_neg hl.2]
    rw [hc]
    exact penRequest_range p _ payload _ s (fun _ => rfl) (by simpa using hp)
  case setPenTool =>
    have hc : toolFields payload = none := by
      unfold toolFields; split <;> simp_all
    rw [hc]
    exact penRequest_range p _ payload _ s (fun _ => rfl) (by simpa using hp)
  case setPenPage =>
    rw [secondField, two hl]
    exact penRequest_range p _ payload _ s (fun _ => rfl) (by simpa using hp)
  case bindPen => rw [firstOfTwo, secondField, two hl]; simp [bindPen, hp, penOf]
  case eraseRegion =>
    have hc : regionFields payload = none := by
      unfold regionFields; split <;> simp_all
    have hg : regionPage payload = none := by unfold regionPage; rw [if_neg hl]
    rw [hc, hg]; simp [eraseRegion, hp, pageOf]
  case readStroke =>
    have hc : readFields payload = none := by
      unfold readFields; split <;> simp_all
    rw [hc]; simp [readStroke, hp]
  case eraseStroke =>
    have hc : serialField payload = none := by
      unfold serialField; split <;> simp_all
    rw [hc]; simp [eraseStroke, hp]
  case snapshotList =>
    obtain ⟨a, ha⟩ := hrec rfl
    rw [three hl]; simp [snapshotList, hp, ha]
  all_goals first
    | (rw [one hl]; simp [penStatus, undo, pageStatus, setLock, clearPage, snapshotBegin, fetchNotices,
        ackNotices, liveMute, portStatus, clearFlags, flagSetOf, penOf, pageOf, portOf, hp])
    | (rw [two hl]; simp [setAttention, setPermissions, portOf, permissionsOf, hp])
    | (rw [three hl]; simp [subscribe, hp])
    | (rw [emp hl]; simp [snapshotEnd, ringStatus, liveFetch, detachRequest, deviceInfo, saveSettings,
        deviceResetRequest, hp])

/-- A request without its permission is answered DENIED, whatever its payload's length (R146). -/
theorem runRequest_denied (p : Port) (tag : Byte) (r : Request) (payload : List Byte) (s : State)
    (h : s.LacksPermission p r payload) :
    runRequest p tag r payload s = s.refuse .denied := by
  obtain ⟨hp, hx⟩ := h
  have key : ∀ (f : Pen → State × Option Reply), (s.permissions p).ink = false →
      (∀ b, payload.head? = some b → b.toNat < 8) →
      s.penRequest p false payload.head? f = s.refuse .denied := by
    intro f hi hb
    unfold State.penRequest
    split
    · simp [hi]
    · rename_i b hh
      have := hb b hh
      simp [penOf, this, hi]
  cases r <;> simp only [Request.permittedBy, Request.onPenSettings, Bool.false_eq_true,
    reduceCtorEq, false_implies, true_implies] at hp hx <;> simp only [runRequest]
  case setCalibration => unfold setCalibration; rw [hp]; exact key _ hx.1 hx.2
  case setPenTuning => unfold setPenTuning; rw [hp]; exact key _ hx.1 hx.2
  case setPenTool => unfold setPenTool; rw [hp]; exact key _ hx.1 hx.2
  case setPenPage => unfold setPenPage; rw [hp]; exact key _ hx.1 hx.2
  all_goals simp [submitSamples, bindPen, readStroke, eraseStroke, undo, setLock, clearPage,
    eraseRegion, snapshotBegin, snapshotList, snapshotEnd, subscribe, liveFetch, liveMute,
    setPermissions, saveSettings, deviceResetRequest, hp]

end Sys2Proof.Machine
end

