-- ==== Sys2Proof/Laws/PerInstr.lean ====
section
/-! SUPPORT. One claim for each command, as syntax: the payload of a well-formed request is at most 300
bytes, the largest that a frame may declare (R144, R169). -/

namespace Sys2Proof.Laws.PayloadFits
open Sys2Proof Sys2Proof.Machine

/-- The payload of a well-formed request fits in a frame. -/
def Statement (c : Instr) : Prop :=
  c.wellFormed = true → ∀ w, wireRequest c = some w → w.payload.length ≤ Config.maxPayload

theorem sampleBytes_length (x : Sample) : (sampleBytes x).length = 8 := rfl

theorem samples_length (samples : List Sample) :
    (samples.flatMap sampleBytes).length = 8 * samples.length := by
  induction samples with
  | nil => rfl
  | cons x rest ih =>
    rw [List.flatMap_cons, List.length_append, ih, sampleBytes_length, List.length_cons]
    omega

theorem powerOn (reached : SavePoint) : Statement (.powerOn reached) := fun _ _ h => nomatch h

theorem resetPin (reached : SavePoint) : Statement (.resetPin reached) := fun _ _ h => nomatch h

theorem powerLoss (reached : SavePoint) : Statement (.powerLoss reached) := fun _ _ h => nomatch h

theorem settingsLoadComplete : Statement .settingsLoadComplete := fun _ _ h => nomatch h

theorem selectFall (port : Port) : Statement (.selectFall port) := fun _ _ h => nomatch h

theorem selectRise (port : Port) (edges : List Bool) : Statement (.selectRise port edges) :=
  fun _ _ h => nomatch h

theorem submitSamples (port : Port) (tag : Byte) (pen : Byte) (samples : List Sample) :
    Statement (.submitSamples port tag pen samples) := by
  intro hw w h
  cases h
  have : 2 + 8 * samples.length ≤ Config.maxPayload := of_decide_eq_true hw
  show ([pen] ++ natByte samples.length ++ samples.flatMap sampleBytes).length ≤ _
  rw [List.length_append, samples_length]
  exact this

theorem silenceExpiry (pen : Pen) : Statement (.silenceExpiry pen) := fun _ _ h => nomatch h

theorem rejoinExpiry (pen : Pen) : Statement (.rejoinExpiry pen) := fun _ _ h => nomatch h

theorem setCalibration (port : Port) (tag : Byte) (pen : Byte) (values : Calibration) :
    Statement (.setCalibration port tag pen values) :=
  fun _ _ h => by cases h; exact of_decide_eq_true rfl

theorem setPenTuning (port : Port) (tag : Byte) (pen : Byte) (values : Tuning)
    (snapLimit : Option Word) :
    Statement (.setPenTuning port tag pen values snapLimit) := by
  intro hw w h
  cases h
  cases snapLimit <;> exact of_decide_eq_true rfl

theorem setPenTool (port : Port) (tag : Byte) (pen : Byte) (colour : Byte) (width : Byte) :
    Statement (.setPenTool port tag pen colour width) :=
  fun _ _ h => by cases h; exact of_decide_eq_true rfl

theorem setPenPage (port : Port) (tag : Byte) (pen : Byte) (page : Byte) :
    Statement (.setPenPage port tag pen page) :=
  fun _ _ h => by cases h; exact of_decide_eq_true rfl

theorem bindPen (port : Port) (tag : Byte) (pen : Byte) (source : Byte) :
    Statement (.bindPen port tag pen source) :=
  fun _ _ h => by cases h; exact of_decide_eq_true rfl

theorem penStatus (port : Port) (tag : Byte) (pen : Byte) : Statement (.penStatus port tag pen) :=
  fun _ _ h => by cases h; exact of_decide_eq_true rfl

theorem readStroke (port : Port) (tag : Byte) (serial : Serial) (start : Word) :
    Statement (.readStroke port tag serial start) :=
  fun _ _ h => by cases h; exact of_decide_eq_true rfl

theorem eraseStroke (port : Port) (tag : Byte) (serial : Serial) :
    Statement (.eraseStroke port tag serial) :=
  fun _ _ h => by cases h; exact of_decide_eq_true rfl

theorem undo (port : Port) (tag : Byte) (pen : Byte) : Statement (.undo port tag pen) :=
  fun _ _ h => by cases h; exact of_decide_eq_true rfl

theorem pageStatus (port : Port) (tag : Byte) (page : Byte) :
    Statement (.pageStatus port tag page) :=
  fun _ _ h => by cases h; exact of_decide_eq_true rfl

theorem lockPage (port : Port) (tag : Byte) (page : Byte) : Statement (.lockPage port tag page) :=
  fun _ _ h => by cases h; exact of_decide_eq_true rfl

theorem unlockPage (port : Port) (tag : Byte) (page : Byte) :
    Statement (.unlockPage port tag page) :=
  fun _ _ h => by cases h; exact of_decide_eq_true rfl

theorem clearPage (port : Port) (tag : Byte) (page : Byte) : Statement (.clearPage port tag page) :=
  fun _ _ h => by cases h; exact of_decide_eq_true rfl

theorem eraseRegion (port : Port) (tag : Byte) (page : Byte) (x0 y0 x1 y1 : Word) (mode : Byte) :
    Statement (.eraseRegion port tag page x0 y0 x1 y1 mode) :=
  fun _ _ h => by cases h; exact of_decide_eq_true rfl

theorem scanVisit (page : Page) : Statement (.scanVisit page) := fun _ _ h => nomatch h

theorem scanComplete (page : Page) : Statement (.scanComplete page) := fun _ _ h => nomatch h

theorem snapshotBegin (port : Port) (tag : Byte) (page : Byte) :
    Statement (.snapshotBegin port tag page) :=
  fun _ _ h => by cases h; exact of_decide_eq_true rfl

theorem snapshotList (port : Port) (tag : Byte) (offset : Word) (count : Byte) :
    Statement (.snapshotList port tag offset count) :=
  fun _ _ h => by cases h; exact of_decide_eq_true rfl

theorem snapshotEnd (port : Port) (tag : Byte) : Statement (.snapshotEnd port tag) :=
  fun _ _ h => by cases h; exact of_decide_eq_true rfl

theorem snapLimitExpiry (port : Port) : Statement (.snapLimitExpiry port) := fun _ _ h => nomatch h

theorem subscribe (port : Port) (tag : Byte) (pageMask : Word) (kindMask : Byte) :
    Statement (.subscribe port tag pageMask kindMask) :=
  fun _ _ h => by cases h; exact of_decide_eq_true rfl

theorem fetchNotices (port : Port) (tag : Byte) (count : Byte) :
    Statement (.fetchNotices port tag count) :=
  fun _ _ h => by cases h; exact of_decide_eq_true rfl

theorem ackNotices (port : Port) (tag : Byte) (index : Byte) :
    Statement (.ackNotices port tag index) :=
  fun _ _ h => by cases h; exact of_decide_eq_true rfl

theorem ringStatus (port : Port) (tag : Byte) : Statement (.ringStatus port tag) :=
  fun _ _ h => by cases h; exact of_decide_eq_true rfl

theorem liveFetch (port : Port) (tag : Byte) : Statement (.liveFetch port tag) :=
  fun _ _ h => by cases h; exact of_decide_eq_true rfl

theorem liveMute (port : Port) (tag : Byte) (mask : Byte) : Statement (.liveMute port tag mask) :=
  fun _ _ h => by cases h; exact of_decide_eq_true rfl

theorem portStatus (port : Port) (tag : Byte) (named : Byte) :
    Statement (.portStatus port tag named) :=
  fun _ _ h => by cases h; exact of_decide_eq_true rfl

theorem setAttention (port : Port) (tag : Byte) (mask : Byte) (threshold : Byte) :
    Statement (.setAttention port tag mask threshold) :=
  fun _ _ h => by cases h; exact of_decide_eq_true rfl

theorem clearFlags (port : Port) (tag : Byte) (flags : Byte) :
    Statement (.clearFlags port tag flags) :=
  fun _ _ h => by cases h; exact of_decide_eq_true rfl

theorem detach (port : Port) (tag : Byte) : Statement (.detach port tag) :=
  fun _ _ h => by cases h; exact of_decide_eq_true rfl

theorem deviceInfo (port : Port) (tag : Byte) : Statement (.deviceInfo port tag) :=
  fun _ _ h => by cases h; exact of_decide_eq_true rfl

theorem setPermissions (port : Port) (tag : Byte) (named : Byte) (permissions : Byte) :
    Statement (.setPermissions port tag named permissions) :=
  fun _ _ h => by cases h; exact of_decide_eq_true rfl

theorem saveSettings (port : Port) (tag : Byte) : Statement (.saveSettings port tag) :=
  fun _ _ h => by cases h; exact of_decide_eq_true rfl

theorem saveComplete : Statement .saveComplete := fun _ _ h => nomatch h

theorem deviceReset (port : Port) (tag : Byte) : Statement (.deviceReset port tag) :=
  fun _ _ h => by cases h; exact of_decide_eq_true rfl

theorem answerMadeReady (port : Port) : Statement (.answerMadeReady port) := fun _ _ h => nomatch h

end Sys2Proof.Laws.PayloadFits
end

