-- ==== Sys2Proof/Laws/Records.lean ====
section
/-! SUPPORT. Byte layouts once: lengths of the records, numbers and sets read back from their bytes. -/

namespace Sys2Proof.Machine

/-! ## Numbers -/

/-- A word from its two bytes. -/
@[simp] theorem wordOf_bytes (w : Word) : wordOf (w.extractLsb' 8 8) (w.extractLsb' 0 8) = w := by
  unfold wordOf
  apply BitVec.eq_of_getLsbD_eq
  intro i hi
  rw [BitVec.getLsbD_append, BitVec.getLsbD_extractLsb', BitVec.getLsbD_extractLsb']
  by_cases h : i < 8
  · simp [h]
  · have : i - 8 < 8 := by omega
    simp [h, this, show 8 + (i - 8) = i by omega]

/-- A long from its four bytes. -/
@[simp] theorem longOf_bytes (w : Long) :
    longOf (w.extractLsb' 24 8) (w.extractLsb' 16 8) (w.extractLsb' 8 8) (w.extractLsb' 0 8) = w := by
  unfold longOf wordOf
  apply BitVec.eq_of_getLsbD_eq
  intro i hi
  simp only [BitVec.getLsbD_append, BitVec.getLsbD_extractLsb']
  by_cases h0 : i < 8
  · simp [h0, show i < 16 by omega]
  · by_cases h1 : i < 16
    · simp [h0, h1, show i - 8 < 8 by omega, show 8 + (i - 8) = i by omega]
    · by_cases h2 : i - 16 < 8
      · simp [h1, h2, show 16 + (i - 16) = i by omega]
      · simp [h1, h2, show i - 16 - 8 < 8 by omega, show 24 + (i - 16 - 8) = i by omega]

/-- The word that stands at a place of a list of bytes. -/
theorem wordAt_wordBytes (pre : List Byte) (w : Word) (post : List Byte) :
    wordAt (pre ++ (wordBytes w ++ post)) pre.length = w := by
  simp [wordAt, byteAt, wordBytes]

/-! ## Sets and enumerations -/

@[simp] theorem namedPermissions_byte (p : Permissions) : namedPermissions (permissionsByte p) = p := by
  obtain ⟨a, b, c, d⟩ := p
  revert a b c d; decide

theorem requestOf_requestCode (r : Request) : requestOf (requestCode r) = some r := by
  cases r <;> decide

theorem requestCode_ne_fill (r : Request) : requestCode r ≠ 0xFF := by cases r <;> decide

/-! ## Lengths -/

@[simp] theorem penRecordBytes_length (p : PenSettings) : (penRecordBytes p).length = 39 := rfl

@[simp] theorem imageBodyBytes_length (m : Mirror) : (imageBodyBytes m).length = 318 := by
  simp only [imageBodyBytes, List.length_append, List.length_map, List.length_flatMap,
    penRecordBytes_length]
  rfl

@[simp] theorem imageOfMirror_length (m : Mirror) : (imageOfMirror m).length = 320 := by
  rw [imageOfMirror, List.length_append, imageBodyBytes_length]
  rfl

@[simp] theorem headerBytes_length (e : Stroke) : (headerBytes e).length = 32 := rfl

@[simp] theorem pointBytes_length (p : Point) : (pointBytes p).length = 7 := rfl

/-- A notice record has 28 bytes, whatever its kind (R171). -/
@[simp] theorem noticeBytes_length (i : BitVec 5) (n : Notice) : (noticeBytes i n).length = 28 := by
  cases n <;> rfl

/-- A frame is four bytes of header, its payload and its check byte (R168). -/
@[simp] theorem frameBytes_length (status : Status) (tag : Byte) (payload : List Byte) :
    (frameBytes status tag payload).length = payload.length + 5 := by
  simp [frameBytes, natWord, wordBytes]

/-! ## The check word -/

/-- No check word is 0xFFFF (R160): an erased check word never passes. -/
theorem checkWord_ne_erased (bytes : List Byte) : checkWord bytes ≠ 0xFFFF := by
  unfold checkWord
  dsimp only
  split
  · decide
  · assumption

end Sys2Proof.Machine
end

