-- ==== Sys2Proof/Tests/Slice0.lean ====
section
/-! SUPPORT. The model's own tests: ill-formed commands refused by the check, the manual's worked
values, and for every statement with hypotheses a state and operands that meet them. -/

namespace Sys2Proof.Tests
open Sys2Proof Sys2Proof.Machine
set_option Elab.async false

/-! ## Helpers -/

/-- The part just after an accepted start: RUNNING, every port with every permission, every pen bound
to port 0. -/
def run0 : State := { State.reset with phase := .running }

/-- The state after a command; every command answers one. -/
def after (c : Instr) (s : State) : State :=
  match exec c s with
  | .next t => t
  | .fault _ => s
  | .refused _ => s

/-- The answers formed on port 0. -/
def formed (s : State) : List Answer := (s.link 0).forming.map Forming.answer

def withPermissions (set : Permissions) : State := run0.setPermissions 0 set

/-- A link with this frame in progress on port 0. -/
def framed (s : State) (f : Frame) : State := s.setLink 0 { s.link 0 with frame := some f }

def idleFrame : Frame := headerFrame .idle 0 .ordinary

/-- A COMMITTED stroke of pen 1 on page 7: serial 18 of section 5.9. -/
def stroke18 : Stroke :=
  { entry := 0, serial := 18, page := 7, pen := 1, source := 0, state := .committed, colour := 1
    width := 2, start := 100, count := 1, contact := 20, box := ⟨3000, 3400, 2000, 2300⟩
    chain := [0], cause := some .penUp, outcome := some .ink, predecessor := none }

def point18 : Point :=
  { x := 3000, y := 2000, pressure := 129, clamped := false, liftBefore := false, offset := 0 }

/-- One stroke in the table, on its page at revision 40, on its pen's undo stack. -/
def holding (e : Stroke) : State :=
  { ((run0.setPage e.page
        { list := [e.serial], revision := 40, locked := false, occupant := .none }).setChannel e.pen
      { run0.channel e.pen with undo := [e.serial] }) with
    strokes := { entries := [e], counter := 19 }
    pool := { free := List.range' 1 1535, cells := [(0, point18)] } }

/-- The same with page 7 held by a snapshot of port 1 with this hold list. -/
def snapshotOf7 (hold : List HoldItem) : ActiveSnapshot :=
  { page := 7, frozen := 40, timer := ⟨30000, 500⟩, hold }

def heldPage (e : Stroke) (hold : List HoldItem) : State :=
  ((holding e).setPage 7 { (holding e).page 7 with occupant := .snapshot 1 }).setSnapshot 1
    (some (.active (snapshotOf7 hold)))

/-- The scan of section 5.9 with this visit list. -/
def scan7 (visits : List Serial) : Scan :=
  { requester := 1, tag := 9, mode := .touch, rect := ⟨2000, 1000, 6000, 5000⟩, adjusted := true
    visits, removed := 1, wanted := true }

def scanned (e : Stroke) (visits : List Serial) : State :=
  (holding e).setPage 7 { (holding e).page 7 with occupant := .scan (scan7 visits) }

/-- Pen 1 in this state with this OPEN or CLOSING stroke, its last point conditioned and dropped. -/
def drawing (state : PenState) (e : Stroke) : State :=
  { (holding e).setChannel 1
      { run0.channel 1 with
        state, clock := 1005, current := some 18, undo := [], silence := some ⟨0, 250⟩
        rejoin := some ⟨0, 60⟩
        working := some ⟨990, ⟨3000, 2000, 1000⟩, ⟨{ point18 with offset := 777 }, 1004, false⟩⟩ } with
    deviceTime := 250 }

def openStroke18 : Stroke :=
  { stroke18 with state := .opened, cause := none, outcome := none }

def closingStroke18 : Stroke := { openStroke18 with state := .closing, cause := some .penUp }

/-- The same stroke one point before the end of its 128 blocks. -/
def fullStroke18 : Stroke := { openStroke18 with count := 2048, chain := List.replicate 128 0 }

/-- A save in flight for port 0. -/
def save0 : Save :=
  { requester := 0, tag := 3, wanted := true, frozen := factoryMirror
    check := mirrorCheckWord factoryMirror, before := imageNeverWritten }

theorem run0_admits : run0.Admits 0 := ⟨rfl, by decide⟩
theorem holding_admits : (holding stroke18).Admits 0 := ⟨rfl, by decide⟩

/-! ## The check on commands -/

theorem test_illFormed_powerOn : (Instr.powerOn (.writing 319)).wellFormed = false := by decide
theorem test_illFormed_resetPin : (Instr.resetPin (.writing 319)).wellFormed = false := by decide
theorem test_illFormed_powerLoss : (Instr.powerLoss (.writing 319)).wellFormed = false := by decide
theorem test_illFormed_submitSamples :
    (Instr.submitSamples 0 1 3 (List.replicate 38 ⟨0, 0, 0, 0, 0⟩)).wellFormed = false := by decide
theorem test_wellFormed_ends :
    (Instr.powerOn (.writing 318)).wellFormed = true ∧
    (Instr.submitSamples 0 1 3 (List.replicate 37 ⟨0, 0, 0, 0, 0⟩)).wellFormed = true := by decide

theorem test_noWordSpellsACommand : decodeTableWord 32 0x18420001 = none := rfl

/-! ## The manual's worked values -/

/-- Chapter 11: the check bytes of the PAGE_STATUS request and of its answer. -/
theorem test_pageStatus_frames :
    requestFrame 0x18 0x42 [0x07] = [0x18, 0x42, 0x00, 0x01, 0x07, 0x9D] ∧
    frameBytes .ok 0x42 [0x07, 0x00, 0x00, 0x00, 0x00, 0x34, 0x00, 0x02, 0x00, 0xFF, 0x00] =
      [0x00, 0x42, 0x00, 0x0B, 0x07, 0x00, 0x00, 0x00, 0x00, 0x34, 0x00, 0x02, 0x00, 0xFF, 0x00,
        0x76] := by decide

/-- Section 2.8.1 and 2.8.2. -/
theorem test_mapping_x :
    mapAxis 40000 (BitVec.ofInt 16 (-120)) 16000 15999 = (9736, false) ∧
    mapAxis 65500 2000 16000 15999 = (15999, true) ∧
    mapAxis 50 (BitVec.ofInt 16 (-120)) 16000 15999 = (0, true) ∧
    mapAxis 65533 0 16000 15999 = (15999, false) ∧
    mapAxis 65534 0 16000 15999 = (15999, true) := by decide

theorem test_mapping_y :
    mapAxis 30000 85 9000 8999 = (4132, false) ∧ mapAxis 65532 0 9000 8999 = (8999, false) ∧
    mapAxis 65533 0 9000 8999 = (8999, true) := by decide

/-- Sections 2.8.1 and 3.12: the squared distances, and the pressure byte. -/
theorem test_distances :
    distanceSquared 9736 4132 9700 4110 = 1780 ∧ distanceSquared 3429 2112 3400 2100 = 985 ∧
    distanceSquared 9310 5020 9000 5000 = 96500 ∧ pressureByte 517 = 129 := by decide

/-- Section 5.9: serials 12, 15, 20 and 23 under TOUCH, and 15, 18 and 20 under INSIDE. -/
theorem test_boxes :
    boxMatches .touch ⟨2000, 1000, 6000, 5000⟩ ⟨1000, 1900, 800, 1200⟩ = false ∧
    boxMatches .touch ⟨2000, 1000, 6000, 5000⟩ ⟨1500, 2500, 4800, 6000⟩ = true ∧
    boxMatches .touch ⟨2000, 1000, 6000, 5000⟩ ⟨5900, 7000, 900, 1100⟩ = true ∧
    boxMatches .touch ⟨2000, 1000, 6000, 5000⟩ ⟨6100, 6500, 3000, 3100⟩ = false ∧
    boxMatches .inside ⟨2000, 1000, 6000, 5000⟩ ⟨1500, 2500, 4800, 6000⟩ = false ∧
    boxMatches .inside ⟨2000, 1000, 6000, 5000⟩ ⟨3000, 3400, 2000, 2300⟩ = true ∧
    boxMatches .inside ⟨2000, 1000, 6000, 5000⟩ ⟨5900, 7000, 900, 1100⟩ = false := by decide

/-- Section 3.12: strokes 41 and 42. -/
theorem test_classification :
    classifiedAs (factoryTuning 6) .penUp 44 ⟨9000, 9600, 5000, 5000⟩ = .ink ∧
    classifiedAs (factoryTuning 6) .penUp 4 ⟨9310, 9316, 5020, 5020⟩ = .tap ∧
    classifiedAs (factoryTuning 6) .penLost 4 ⟨9310, 9316, 5020, 5020⟩ = .noise ∧
    classifiedAs (factoryTuning 6) .split 4 ⟨9310, 9316, 5020, 5020⟩ = .ink := by decide

/-- Section 4.5: a returned block goes to the tail. -/
theorem test_freeList :
    (returnChain ⟨[3, 4, 5], []⟩ [1]).free = [3, 4, 5, 1] ∧
    (takeBlock ⟨[3, 4, 5, 1], []⟩).map Prod.fst = some 3 ∧
    (returnChain ⟨[5, 1], []⟩ [0, 2, 4]).free = [5, 1, 0, 2, 4] := by decide

/-- Section 5.9, arrival 1: the corners put in order, and marked adjusted. -/
theorem test_scanRect :
    scanRect ⟨6000, 5000, 2000, 1000, 1⟩ = ⟨2000, 1000, 6000, 5000⟩ ∧
    rectAdjusted ⟨6000, 5000, 2000, 1000, 1⟩ = true ∧
    rectAdjusted ⟨2000, 1000, 6000, 5000, 1⟩ = false := by decide

/-! ## One step of each command (sections and rules as the meaning cites them) -/

theorem test_powerOn :
    (after (.powerOn .written) run0).phase = .starting ∧
    ((after (.powerOn .written) run0).link 0).restarted = false := by decide

theorem test_resetPin_cutsTheFrame :
    ((after (.resetPin .written) (framed run0 idleFrame)).link 0).frame =
      some { idleFrame with course := .cutByResetPin 0 } ∧
    (after (.resetPin .written) run0).freeCount = 1 := by decide

/-- A frame begun in STARTING keeps its content over a RESET pin: NOT_READY, then fill (R161). -/
theorem test_resetPin_inStarting :
    ((after (.resetPin .written) (after (.selectFall 2) State.reset)).link 2).frame.map
      (fun f => (List.range 7).map f.byteOut) =
        some [0x12, 0x00, 0x00, 0x00, 0xED, 0xFF, 0xFF] := by decide

/-- DOUT shows the IDLE header's 0x11, most significant bit first, and is not driven with select
high (R168, R173). -/
theorem test_dataOut :
    (List.range 8).map ((framed run0 idleFrame).dataOut 0) =
      ((bitsOfBytes (idleFrame.content.take 1)).map some) ∧
    (framed run0 idleFrame).dataOut 1 0 = none := by decide

theorem test_powerLoss : (after (.powerLoss .beforeErase) run0).phase = .off := by decide

/-- A part never saved comes up DEFAULTED, on a 0xFFFF check word (R160). -/
theorem test_settingsLoadComplete :
    (after .settingsLoadComplete State.reset).phase = .running ∧
    (after .settingsLoadComplete State.reset).indicator = .defaulted ∧
    ((after .settingsLoadComplete State.reset).link 3).restarted = true ∧
    (after .settingsLoadComplete State.reset).attentionAsserted 3 = true := by decide +kernel

theorem test_selectFall_starting :
    ((after (.selectFall 2) State.reset).link 2).frame =
      some { content := [0x12, 0x00, 0x00, 0x00, 0xED], showsAnswer := false, course := .starting } := by
  decide

/-- The PAGE_STATUS frame of chapter 11 runs PAGE_STATUS. -/
theorem test_selectRise :
    formed (after (.selectRise 0 (bitsOfBytes [0x18, 0x42, 0x00, 0x01, 0x07, 0x9D]))
      (framed run0 idleFrame)) =
      [⟨.ok, 0x42, [0x07, 0x00, 0x00, 0x00, 0x00, 0x00, 0x00, 0x00, 0x00, 0xFF, 0x00]⟩] := by
  decide +kernel

theorem test_selectRise_wrongCheckByte :
    ((after (.selectRise 0 (bitsOfBytes [0x18, 0x42, 0x00, 0x01, 0x07, 0x9C]))
      (framed run0 idleFrame)).link 0).state = .answerReady ⟨.checkFailed, 0x42, []⟩ := by
  decide +kernel

theorem test_selectRise_incomplete :
    ((after (.selectRise 0 (bitsOfBytes [0x18, 0x42, 0x00, 0x01, 0x07]))
      (framed run0 idleFrame)).link 0).frameFault = true := by
  decide +kernel

/-- A pen in this state with these samples of the down buffer, as in section 1.8. -/
def penIn (state : PenState) (down : List Buffered) : State :=
  run0.setChannel 3 { run0.channel 3 with state, down, clock := 1005, target := 4 }

def sample (pressure : Word) : Sample := ⟨1000, 2000, pressure, 1, 5⟩

/-- Section 1.8, s2. -/
theorem test_submitSamples_presses :
    formed (after (.submitSamples 0 1 3 [sample 80]) (penIn .hover [])) =
      [⟨.ok, 1, [2, 0, 0, 0, 0]⟩] ∧
    ((after (.submitSamples 0 1 3 [sample 80]) (penIn .hover [])).channel 3).clock = 1010 := by
  decide +kernel

/-- Section 1.8, s3: the pen-down is confirmed. -/
theorem test_submitSamples_opens :
    formed (after (.submitSamples 0 1 3 [sample 120]) (penIn .pressing [⟨sample 80, 1005⟩])) =
      [⟨.ok, 1, [3, 0, 0, 0, 1]⟩] ∧
    ((after (.submitSamples 0 1 3 [sample 120]) (penIn .pressing [⟨sample 80, 1005⟩])).stroke? 1).map
      (fun e => (e.count, e.contact, e.page, e.chain)) = some (1, 2, 4, [0]) := by
  decide +kernel

/-- A split: the continuation has the copy and the splitting sample, which alone is charged to it, and
which counts its offset from the continuation's zero of time (R51; log 13). -/
theorem test_submitSamples_splits :
    ((after (.submitSamples 0 1 1 [sample 1023]) (drawing .inking fullStroke18)).stroke? 19).map
      (fun e => (e.count, e.contact, e.predecessor)) = some (2, 1, some 18) ∧
    ((after (.submitSamples 0 1 1 [sample 1023]) (drawing .inking fullStroke18)).stroke? 18).map
      (fun e => (e.state, e.contact)) = some (.committed, 20) ∧
    (pointAt (after (.submitSamples 0 1 1 [sample 1023]) (drawing .inking fullStroke18)).pool
      { stroke18 with chain := [1] } 1).offset = 10 := by decide +kernel

/-- Refused its continuation, the lost point's sample is charged to the stroke closed (R31; log 14). -/
theorem test_submitSamples_splitRefused :
    ((after (.submitSamples 0 1 1 [sample 1023])
      ((drawing .inking fullStroke18).setPool ⟨[], []⟩)).stroke? 18).map
        (fun e => (e.state, e.contact)) = some (.committed, 21) ∧
    ((after (.submitSamples 0 1 1 [sample 1023])
      ((drawing .inking fullStroke18).setPool ⟨[], []⟩)).channel 1).state = .starved := by
  decide +kernel

/-- A pen one low sample before its pen-up. -/
def liftingPen (e : Stroke) : State :=
  (drawing .lifting e).setChannel 1
    { (drawing .lifting e).channel 1 with lift := [⟨sample 0, 1000⟩, ⟨sample 0, 1005⟩] }

/-- A closing point that splits its stroke keeps its time offset and is not charged (R29, R51). -/
theorem test_submitSamples_closingPointSplits :
    ((after (.submitSamples 0 1 1 [sample 0]) (liftingPen fullStroke18)).stroke? 19).map
      (fun e => (e.state, e.count, e.contact, e.cause)) = some (.closing, 2, 0, some .penUp) ∧
    (pointAt (after (.submitSamples 0 1 1 [sample 0]) (liftingPen fullStroke18)).pool
      { stroke18 with chain := [1] } 1).offset = 777 ∧
    ((after (.submitSamples 0 1 1 [sample 0]) (liftingPen fullStroke18)).channel 1).state = .hover := by
  decide +kernel

/-- A pen with its silence timer started at 0. -/
def timed (state : PenState) (now : Time) : State :=
  { (run0.setChannel 3
      { run0.channel 3 with
        state, silence := some ⟨0, 250⟩, rejoin := some ⟨0, 60⟩ }) with deviceTime := now }

theorem test_silenceExpiry :
    ((after (.silenceExpiry 3) (timed .hover 250)).channel 3).state = .away ∧
    ((after (.silenceExpiry 3) (timed .hover 249)).channel 3).state = .hover := by decide

/-- A CLOSING stroke of pen 1 on page 7, its rejoin timer due. -/
def closing : State :=
  { ((holding { stroke18 with state := .closing, cause := some .penUp, outcome := none }).setPage 7
        { list := [12], revision := 8, locked := false, occupant := .none }).setChannel 1
      { run0.channel 1 with current := some 18, rejoin := some ⟨0, 60⟩ } with
    deviceTime := 60 }

theorem test_rejoinExpiry_commits :
    ((after (.rejoinExpiry 1) closing).page 7).list = [12, 18] ∧
    ((after (.rejoinExpiry 1) closing).page 7).revision = 9 ∧
    ((after (.rejoinExpiry 1) closing).channel 1).current = none := by decide +kernel

theorem test_setCalibration_adjusts :
    formed (after (.setCalibration 0 1 2 ⟨0x8000, 85, 1023, 9000⟩) run0) =
      [⟨.okAdjusted, 1, [0xF8, 0x00, 0x00, 0x55, 0x04, 0x00, 0x23, 0x28]⟩] := by decide +kernel

theorem test_setPenTuning :
    ((after (.setPenTuning 0 1 2 { factoryTuning 2 with pressOff := 90 } (some 1)) run0).penSettings
      2).tuning.pressOff = 60 ∧
    (after (.setPenTuning 0 1 2 (factoryTuning 2) (some 1)) run0).mirror.snapLimit = 20 := by
  decide +kernel

theorem test_setPenTool :
    ((after (.setPenTool 0 1 2 9 3) run0).penSettings 2).colour = 9 ∧
    formed (after (.setPenTool 0 1 2 16 3) run0) = [⟨.range, 1, []⟩] := by decide +kernel

theorem test_setPenPage : ((after (.setPenPage 0 1 2 15) run0).channel 2).target = 15 := by
  decide +kernel

theorem test_bindPen :
    ((after (.bindPen 0 1 2 0xFF) (timed .hover 5)).penSettings 2).binding = none ∧
    ((after (.bindPen 0 1 3 2) (timed .hover 5)).channel 3).state = .away := by decide +kernel

theorem test_penStatus :
    formed (after (.penStatus 0 1 3) (penIn .hover [])) =
      [⟨.ok, 1, [1, 0, 4, 0, 0, 0, 0, 0xFF, 0xFF, 0xFF, 0xFF, 0, 0, 0x03, 0xED, 0]⟩] := by
  decide +kernel

theorem test_readStroke :
    (formed (after (.readStroke 0 1 18 0) (holding stroke18))).map
      (fun a => (a.status, a.payload.length)) = [(.ok, 42)] := by decide +kernel

theorem test_eraseStroke :
    formed (after (.eraseStroke 0 1 18) (holding stroke18)) =
      [⟨.ok, 1, [0, 0, 0, 18, 7, 0, 0, 0, 41]⟩] ∧
    ((after (.eraseStroke 0 1 18) (holding stroke18)).page 7).list = [] := by decide +kernel

theorem test_undo :
    formed (after (.undo 0 1 1) (holding stroke18)) = [⟨.ok, 1, [0, 0, 0, 18, 7]⟩] := by
  decide +kernel

theorem test_lockPage :
    ((after (.lockPage 0 1 7) run0).page 7).locked = true ∧
    ((after (.unlockPage 0 1 7) (run0.setPage 7 { pageDefault with locked := true })).page 7).locked =
      false := by
  decide +kernel

/-- Section 5.10: a clear of a page with one stroke, and of a held page. -/
theorem test_clearPage :
    formed (after (.clearPage 0 1 7) (holding stroke18)) = [⟨.ok, 1, [0, 1, 0, 0, 0, 41]⟩] ∧
    formed (after (.clearPage 0 1 7) (heldPage stroke18 [])) =
      [⟨.okDeferred, 1, [0, 0, 0, 40, 0, 0]⟩] := by decide +kernel

theorem test_eraseRegion :
    ((after (.eraseRegion 0 1 7 6000 5000 2000 1000 1) (holding stroke18)).page 7).occupant =
      .scan { requester := 0, tag := 1, mode := .touch, rect := ⟨2000, 1000, 6000, 5000⟩
              adjusted := true, visits := [18], removed := 0, wanted := true } := by decide +kernel

/-- Section 5.9, arrival 7. -/
theorem test_scanVisit :
    ((after (.scanVisit 7) (scanned stroke18 [18, 23])).page 7).occupant =
      .scan { scan7 [23] with removed := 2 } := by decide +kernel

/-- Section 5.9, arrival 9. -/
theorem test_scanComplete :
    ((after (.scanComplete 7) (scanned stroke18 [])).link 1).state =
      .answerReady ⟨.okAdjusted, 9, [7, 0, 1, 0, 0, 0, 40]⟩ := by decide +kernel

theorem test_snapshotBegin :
    formed (after (.snapshotBegin 0 1 7) (holding stroke18)) =
      [⟨.ok, 1, [7, 0, 0, 0, 40, 0, 1, 0x01, 0xF4]⟩] := by decide +kernel

/-- Port 0's own snapshot of page 7. -/
def ownSnapshot (hold : List HoldItem) : State :=
  ((holding stroke18).setPage 7
    { (holding stroke18).page 7 with occupant := .snapshot 0 }).setSnapshot 0
      (some (.active (snapshotOf7 hold)))

theorem test_snapshotList :
    (formed (after (.snapshotList 0 1 0 16) (ownSnapshot []))).map
      (fun a => (a.status, a.payload.take 10)) = [(.ok, [7, 0, 0, 0, 40, 0, 1, 0, 0, 1])] := by
  decide +kernel

theorem test_snapshotEnd :
    formed (after (.snapshotEnd 0 1) (ownSnapshot [.erase 18 .request])) =
      [⟨.ok, 1, [7, 0, 0, 0, 40, 0, 0, 0, 41, 1]⟩] := by decide +kernel

/-- Section 6.10, arrival 6, in small. -/
theorem test_snapLimitExpiry :
    ((after (.snapLimitExpiry 1)
      { heldPage stroke18 [.erase 18 .request] with deviceTime := 30500 }).page 7).list = [] ∧
    ((after (.snapLimitExpiry 1)
      { heldPage stroke18 [.erase 18 .request] with deviceTime := 30500 }).snapshot 1) =
        some (.broken 7) := by decide +kernel

theorem test_subscribe :
    formed (after (.subscribe 0 1 0x0080 0x3F) run0) = [⟨.ok, 1, [0x00, 0x80, 0x3F]⟩] ∧
    formed (after (.subscribe 0 1 0x0080 0x40) run0) = [⟨.range, 1, []⟩] := by decide +kernel

/-- Port 0's ring with two notices, as a full span from get index 31. -/
def ringed : State :=
  run0.setRing 0
    { ringDefault with
      slots := put (put ringDefault.slots 31 (some (.pen 2 .hover))) 0 (some (.page 7 true 43))
      get := 31, put := 1, fill := 2 }

theorem test_fetchNotices :
    (formed (after (.fetchNotices 0 1 1) ringed)).map (·.payload) =
      [[2, 0, 0, 1, 31, 5, 2, 1] ++ List.replicate 24 0] := by decide +kernel

theorem test_ackNotices :
    formed (after (.ackNotices 0 1 0) ringed) = [⟨.ok, 1, [1, 2, 0]⟩] ∧
    formed (after (.ackNotices 0 1 1) ringed) = [⟨.range, 1, []⟩] := by decide +kernel

theorem test_ringStatus :
    formed (after (.ringStatus 0 1) ringed) = [⟨.ok, 1, [2, 31, 1, 0, 0, 1]⟩] := by decide +kernel

/-- Section 8.7, line 4: pen 1's slot follows stroke 18 with its one point to come. -/
def following : State :=
  (holding stroke18).setLivePort 0
    { livePortDefault with
      slots := put livePortDefault.slots 1
        (some { serial := 18, next := 0, available := 1, outcome := some .ink, skipped := true
                page := 7, colour := 1, width := 2, predecessor := none }) }

theorem test_liveFetch :
    formed (after (.liveFetch 0 1) following) =
      [⟨.ok, 1, [1, 0, 0, 0, 18, 7, 1, 2, 0, 0, 0, 0, 0, 0, 1, 1, 1, 0, 0x0B, 0xB8, 0x07, 0xD0, 129,
        0, 0]⟩] ∧
    look ((after (.liveFetch 0 1) following).livePort 0).slots 1 = none := by decide +kernel

theorem test_liveMute :
    look ((after (.liveMute 0 1 0x02) following).livePort 0).slots 1 = none ∧
    ((after (.liveMute 0 1 0x02) following).livePort 0).mute = 0x02 := by decide +kernel

theorem test_portStatus :
    formed (after (.portStatus 0 5 0) run0) =
      [⟨.ok, 5, [1, 5, 0, 0x0F, 0, 0, 0, 0, 0x11, 1, 0, 0]⟩] := by decide +kernel

theorem test_setAttention :
    formed (after (.setAttention 0 1 0x7F 33) run0) = [⟨.okAdjusted, 1, [0x7F, 32]⟩] := by
  decide +kernel

theorem test_clearFlags :
    formed (after (.clearFlags 0 1 0x20)
      (run0.setLink 0 { linkDefault with frameFault := true, restarted := true })) =
        [⟨.ok, 1, [0x10]⟩] := by decide +kernel

theorem test_detach_whileWorking :
    ((after (.detach 0 2) (run0.admitted 0 1)).link 0).state = .answerReady ⟨.ok, 2, []⟩ := by
  decide +kernel

theorem test_deviceInfo :
    (formed (after (.deviceInfo 0 1) (holding stroke18))).map (·.payload) =
      [[0x4B, 0x16, 0x10, 4, 8, 16, 2, 0, 6, 0, 16, 0x05, 0xFF, 0x01, 0xFF, 1, 0, 0, 0, 0, 0]] := by
  decide +kernel

theorem test_setPermissions_lastRoom :
    formed (after (.setPermissions 0 1 2 0x07) run0) = [⟨.ok, 1, [2, 0x07]⟩] ∧
    formed (after (.setPermissions 0 1 0 0x07)
      (((run0.setPermissions 1 ⟨true, true, true, false⟩).setPermissions 2
        ⟨true, true, true, false⟩).setPermissions 3 ⟨true, true, true, false⟩)) =
      [⟨.lastRoom, 1, []⟩] := by decide +kernel

theorem test_saveSettings :
    (after (.saveSettings 0 1) run0).image.drop 318 = [0xFF, 0xFF] ∧
    (after (.saveSettings 0 1) run0).save.isSome = true := by decide +kernel

theorem test_saveComplete :
    ((after .saveComplete { run0 with save := some save0 }).link 0).state =
      .answerReady ⟨.ok, 3, wordBytes (mirrorCheckWord factoryMirror)⟩ := by decide +kernel

theorem test_deviceReset :
    ((after (.deviceReset 0 1) (holding stroke18)).page 7).list = [] ∧
    ((after (.deviceReset 0 1) (holding stroke18)).link 3).restarted = true := by decide +kernel

theorem test_answerMadeReady :
    ((after (.answerMadeReady 0) (run0.answered 0 1 .denied [])).link 0).state =
      .answerReady ⟨.denied, 1, []⟩ := by decide

/-! ## The statements' hypotheses, met: the machine as a whole -/

theorem witness_emptyQueue :
    (run0.pending = [] ∧ run0.phase ≠ .off) ∧
    (({ run0 with phase := .off } : State).pending = [] ∧
      ({ run0 with phase := .off } : State).phase = .off) := by decide

theorem run0_rings : run0.RingsAgree := fun p => by
  have : run0.ring p = ringDefault := by simp [State.ring, run0, State.reset]
  rw [this]; exact ringDefault_agrees

theorem run0_snapshots (p : Port) : run0.snapshot p = none := by
  simp [State.snapshot, run0, State.reset]

/-- A running part with a command waiting. -/
def queued : State := { run0 with pending := [.selectFall 0] }

/-- Each condition that a step keeps holds in a running state, and a command's step has an answer. -/
theorem witness_invariants :
    ∃ s t : State, s.phase = .running ∧ step s = .next t ∧ s.RoomHeld ∧ s.RingsAgree ∧
      s.BlocksKept ∧ s.EntriesInOrder ∧ s.PlacesCanonical ∧ s.HoldsBounded ∧
      s.ThresholdsInRange ∧ s.SettingsInRange := by
  refine ⟨queued, _, rfl, rfl, fun _ => by decide, run0_rings, ⟨.nil, ?_⟩,
    ⟨.nil, fun e h => nomatch h⟩, ⟨.nil, fun c h => nomatch h⟩, ?_, fun p => ?_, ?_⟩
  · simp [queued, run0, State.reset, poolDefault, strokeTableDefault]
  · intro p a h
    rw [show queued.snapshot p = none from run0_snapshots p] at h
    cases h
  · revert p; decide
  · refine ⟨fun pen => ⟨?_, ?_, ?_, ?_⟩, by decide⟩ <;> revert pen <;> decide

/-! ## Frames and the image -/

theorem witness_requestFrames :
    ∃ (c : Instr) (w : WireRequest) (s : State) (f : Frame) (l : Link),
      wireRequest c = some w ∧ c.wellFormed = true ∧ s.phase = .running ∧
      (s.link w.port).frame = some f ∧ f.course = .ordinary ∧
      l = (if f.consumes w.bytes.length then { s.link w.port with frame := none }.consumed
        else { s.link w.port with frame := none }) ∧ l.state = .idle :=
  ⟨.submitSamples 0 1 3 [sample 80], _, framed run0 idleFrame, idleFrame, _, rfl, by decide, rfl,
    by decide, rfl, rfl, by decide⟩

/-- The same, where the frame consumes an answer before its request is judged. -/
theorem witness_requestFrames_consuming :
    ∃ (w : WireRequest) (f : Frame) (l : Link),
      wireRequest (.ringStatus 0 7) = some w ∧
      l = { linkDefault with state := .answerReady ⟨.ok, 6, []⟩, frame := some f } ∧
      f.course = .ordinary ∧ f.consumes w.bytes.length = true ∧
      ({ l with frame := none } : Link).consumed.state = .idle :=
  ⟨_, ⟨answerBytes ⟨.ok, 6, []⟩, true, .ordinary⟩, _, rfl, rfl, rfl, by decide, rfl⟩

theorem witness_bytesSurvive : ([true, false, true, true, false, true, false] : List Bool).length < 8 := by
  decide

theorem factory_inRange : factoryMirror.InRange := by
  refine ⟨fun pen => ⟨?_, ?_, ?_, ?_⟩, by decide⟩ <;> revert pen <;> decide +kernel

theorem witness_savedImage : factoryMirror.InRange ∧ factoryMirror.someRoom = true :=
  ⟨factory_inRange, by decide⟩

theorem witness_interruptedSave : save0.before.length = 320 ∧ 0 ≤ 318 ∧ 318 ≤ 318 := by
  decide +kernel

theorem witness_power :
    run0.phase ≠ .off ∧ run0.save = none ∧
    ({ run0 with save := some save0 } : State).save = some save0 :=
  ⟨by decide, rfl, rfl⟩

theorem witness_load :
    State.reset.phase = .starting ∧ imageAccepted (imageOfMirror factoryMirror) = true ∧
    imageAccepted State.reset.image = false ∧
    maskHas (State.reset.link 0).attentionMask 4 = true := by decide +kernel

/-! ## Frames on a port -/

/-- Port 0 with an answer pending. -/
def answering (a : Answer) : State := run0.setLink 0 { linkDefault with state := .answerReady a }

def denied : Answer := ⟨.denied, 5, []⟩

def denialFrame : Frame := { content := answerBytes denied, showsAnswer := true, course := .ordinary }

theorem witness_selectFall :
    (State.reset.phase = .starting ∧ (State.reset.link 0).frame = none) ∧
    (run0.phase = .running ∧ (run0.link 0).frame = none ∧ (run0.link 0).state = .idle) ∧
    ((run0.admitted 0 9).link 0).state = .working 9 ∧ ((run0.admitted 0 9).link 0).frame = none ∧
    ((answering denied).link 0).state = .answerReady denied ∧
    ((answering denied).link 0).frame = none := by decide

/-- A frame of five bytes shifts the whole answer out, one of four and seven bits does not. -/
theorem witness_wholeAnswer :
    ((framed (answering denied) denialFrame).link 0).state = .answerReady denied ∧
    ((framed (answering denied) denialFrame).link 0).frame = some denialFrame ∧
    denialFrame.content.length = 5 ∧
    (bytesOfBits (List.replicate 40 true)).head? = some 0xFF ∧
    (bytesOfBits (List.replicate 40 true)).length = 5 ∧
    (bytesOfBits (List.replicate 39 true)).head? = some 0xFF ∧
    (bytesOfBits (List.replicate 39 true)).length = 4 ∧ bytesOfBits [true] = [] := by decide

theorem witness_requestsNotTaken :
    idleFrame.consumes 99 = false ∧ carriedBy [0x18, 0x42, 0, 1, 7] = .incomplete ∧
    carriedBy [0x18, 0x42, 0x01, 0x2D] = .tooLong 0x42 ∧
    carriedBy [0x18, 0x42, 0, 1, 7, 0x9D] = .whole 0x18 0x42 [7] true ∧
    (0x18 : Byte) ≠ requestCode .detach ∧
    ((framed (run0.admitted 0 9) idleFrame).link 0).state ≠ .idle ∧
    ((framed (run0.admitted 0 9) idleFrame).link 0).frame = some idleFrame := by decide

/-- The link after a frame that consumes an answer, with no request, an incomplete one and a bad one
behind it; a DETACH in WORKING, right, with a wrong check byte and with a payload; one in
ANSWER_READY. -/
theorem witness_afterConsumption :
    denialFrame.consumes 5 = true ∧ denialFrame.consumes 4 = false ∧
    ({ (answering denied).link 0 with frame := none } : Link).consumed.state = .idle ∧
    carriedBy [0xFF, 0, 0, 0, 0] = .nothing ∧ carriedBy [0x18, 0x42, 0, 1, 7] = .incomplete ∧
    carriedBy [0x18, 0x42, 0x01, 0x2D, 0] = .tooLong 0x42 ∧
    carriedBy [0x18, 0x42, 0x01, 0x2C, 0] = .incomplete ∧
    (∃ tag, carriedBy (requestFrame (requestCode .detach) 8 []) =
      .whole (requestCode .detach) tag [] true) ∧
    carriedBy ((requestFrame (requestCode .detach) 8 []).take 4 ++ [0]) =
      .whole (requestCode .detach) 8 [] false ∧
    (∃ right, carriedBy (requestFrame (requestCode .detach) 8 [1]) =
      .whole (requestCode .detach) 8 [1] right) ∧
    ((framed (run0.admitted 0 9) idleFrame).link 0).state = .working 9 ∧
    ((framed (answering denied) idleFrame).link 0).state = .answerReady denied := by
  refine ⟨by decide, by decide, rfl, by decide, by decide, by decide, by decide, ⟨8, by decide⟩,
    by decide, ⟨true, by decide⟩, by decide, by decide⟩

theorem witness_linkAnswers :
    ((framed run0 idleFrame).link 0).state = .idle ∧
    ((framed run0 idleFrame).link 0).frame = some idleFrame ∧ idleFrame.course = .ordinary ∧
    carriedBy [0x18, 0x42, 0x01, 0x2D] = .tooLong 0x42 ∧
    carriedBy [0x18, 0x42, 0, 1, 7, 0x9C] = .whole 0x18 0x42 [7] false ∧
    carriedBy [0x08, 0x42, 0, 0, 0xB5] = .whole 0x08 0x42 [] true ∧ requestOf 0x08 = none := by
  decide

/-- A PAGE_STATUS of two bytes, a CLEAR_PAGE of none for a port with EDIT and without, a SUBMIT_SAMPLES
whose count says more than it carries, a SET_PEN_TUNING of 30 bytes, a SNAPSHOT_LIST of two. -/
theorem witness_otherLength :
    carriedBy (requestFrame 0x18 0x42 [7, 0]) = .whole 0x18 0x42 [7, 0] true ∧
    requestOf 0x18 = some .pageStatus ∧ ¬ Request.LengthFits .pageStatus [7, 0] ∧
    run0.ReachesLengthTest 0 .pageStatus [7, 0] ∧ ¬ Request.LengthFits .clearPage [] ∧
    run0.ReachesLengthTest 0 .clearPage [] ∧
    (withPermissions ⟨false, false, false, false⟩).LacksPermission 0 .clearPage [] ∧
    (withPermissions ⟨false, false, false, false⟩).LacksPermission 0 .setPenTool [7] ∧
    ¬ Request.LengthFits .submitSamples [3, 1] ∧ run0.ReachesLengthTest 0 .submitSamples [3, 1] ∧
    ¬ Request.LengthFits .setPenTuning (List.replicate 30 0) ∧
    (withPermissions ⟨true, false, false, false⟩).ReachesLengthTest 0 .setPenTuning
      (List.replicate 30 0) ∧
    ¬ Request.LengthFits .snapshotList [0, 0] ∧
    (ownSnapshot []).ReachesLengthTest 0 .snapshotList [0, 0] := by
  refine ⟨by decide, by decide, by simp [Request.LengthFits], ⟨.inl rfl, by simp, by simp⟩,
    by simp [Request.LengthFits], ⟨.inl rfl, by simp, by simp⟩, ⟨by decide, by simp [Request.onPenSettings]⟩,
    ⟨by decide, fun _ => ⟨by decide, by simp⟩⟩, by simp [Request.LengthFits],
    ⟨.inl rfl, fun _ => by decide, by simp⟩, by simp [Request.LengthFits],
    ⟨.inr ⟨rfl, by decide, by decide⟩, by simp, by simp⟩, by simp [Request.LengthFits],
    ⟨.inl rfl, by simp, fun _ => ⟨snapshotOf7 [], by decide⟩⟩⟩

/-- A PAGE_STATUS of two bytes is answered RANGE by its block (R146). -/
theorem test_selectRise_otherLength :
    formed (after (.selectRise 0 (bitsOfBytes (requestFrame 0x18 0x42 [7, 0])))
      (framed run0 idleFrame)) = [⟨.range, 0x42, []⟩] := by decide +kernel

theorem witness_cutFrames :
    (State.reset.phase ≠ .running ∧
      ((framed State.reset idleFrame).link 0).frame = some idleFrame) ∧
    ((framed run0 idleFrame.cutByReset).link 0).frame = some idleFrame.cutByReset ∧
    idleFrame.cutByReset.course = .cutByDeviceReset := by decide

theorem witness_formedAnswers :
    ((run0.answered 0 5 .denied []).link 0).forming = [⟨denied, true⟩] ∧
    (((run0.answered 0 5 .denied []).unwantAnswers 0).link 0).forming = [⟨denied, false⟩] := by
  decide

/-! ## Refusals -/

theorem witness_missingPermission :
    (withPermissions ⟨false, false, false, false⟩).Admits 0 ∧
    (withPermissions ⟨false, false, false, false⟩).permissions 0 = ⟨false, false, false, false⟩ :=
  ⟨⟨rfl, by decide⟩, by decide⟩

theorem witness_outOfRange :
    run0.Admits 0 ∧ run0.permissions 0 = factoryPermissions ∧ 8 ≤ (8 : Byte).toNat ∧
    16 ≤ (16 : Byte).toNat ∧ 4 ≤ (4 : Byte).toNat ∧ 8 < (9 : Byte).toNat ∧
    31 < (32 : Byte).toNat ∧ 64 ≤ (64 : Byte).toNat ∧ 128 ≤ (128 : Byte).toNat ∧
    2 ≤ (2 : Byte).toNat ∧ (4 : Byte) ≠ 0xFF ∧ (run0.penSettings 3).binding = some 0 ∧
    32 < (List.replicate 33 (sample 0)).length ∧ 1023 < (sample 1024).pressure.toNat ∧
    1 < ({ sample 0 with inRange := 2 } : Sample).inRange.toNat :=
  ⟨run0_admits, by decide⟩

/-! ## Requests that report -/

theorem witness_statusRequests : run0.Admits 0 ∧ run0.Admits 3 := ⟨run0_admits, rfl, by decide⟩

theorem witness_listing :
    (ownSnapshot []).Admits 0 ∧ ((ownSnapshot []).permissions 0).view = true ∧
    (18 : Serial) ≠ 0 ∧ (ownSnapshot []).stroke? 18 = some stroke18 ∧
    (ownSnapshot []).snapshot 0 = some (.active (snapshotOf7 [])) ∧
    1 ≤ (1 : Byte).toNat ∧ (16 : Byte).toNat ≤ 16 ∧ (8 : Byte).toNat ≤ 8 :=
  ⟨⟨rfl, by decide⟩, by decide⟩

/-! ## Settings of a pen -/

/-- By EDIT, and by INK on a bound pen; the ends of the tool's ranges. -/
theorem witness_tool :
    (withPermissions ⟨false, false, true, false⟩).MayTool 0 2 ∧
    (withPermissions ⟨true, false, false, false⟩).MayTool 0 2 ∧
    (withPermissions ⟨true, false, false, false⟩).Admits 0 ∧ (15 : Byte).toNat ≤ 15 ∧
    (7 : Byte).toNat ≤ 7 :=
  ⟨.inl (by decide), .inr (by decide), ⟨rfl, by decide⟩, by decide⟩

/-- A pen bound to another port, for a port with INK alone. -/
theorem witness_wrongSource :
    ((withPermissions ⟨true, false, false, false⟩).setPenSettings 2
      { factoryPen 2 with binding := some 1 }).Admits 0 ∧
    (((withPermissions ⟨true, false, false, false⟩).setPenSettings 2
      { factoryPen 2 with binding := some 1 }).penSettings 2).binding ≠ some 0 ∧
    ((withPermissions ⟨true, false, false, false⟩).permissions 0).room = false ∧
    ((withPermissions ⟨true, false, false, false⟩).permissions 0).ink = true ∧
    ((withPermissions ⟨true, true, true, false⟩).permissions 0).ink = true ∧
    15 < (16 : Byte).toNat ∧ 7 < (8 : Byte).toNat :=
  ⟨⟨rfl, by decide⟩, by decide, by decide, by decide, by decide, by decide, by decide⟩

/-- By ROOM, and by INK on a bound pen without ROOM. -/
theorem witness_tuning :
    run0.MayTune 0 2 ∧ (run0.permissions 0).room = true ∧
    (withPermissions ⟨true, false, false, false⟩).MayTune 0 2 ∧
    (withPermissions ⟨true, false, false, false⟩).Admits 0 ∧
    ((withPermissions ⟨true, false, false, false⟩).permissions 0).room = false :=
  ⟨.inl (by decide), by decide, .inr (by decide), ⟨rfl, by decide⟩, by decide⟩

theorem witness_nearerEnd :
    (BitVec.ofInt 16 (-2049)).toInt < -2048 ∧ 2047 < (2048 : Word).toInt ∧
    -2048 ≤ (BitVec.ofInt 16 (-2048)).toInt ∧ (2047 : Word).toInt ≤ 2047 ∧
    (1023 : Word).toNat < 1024 ∧ 2000 < (2001 : Word).toNat ∧ 20 ≤ (20 : Word).toNat := by decide

/-- The ends of the ranges as stored. -/
theorem test_nearerEnd :
    tuningIntoRange ⟨0, 9, 8, 8, 0, 0, 256, 256, 256, 0, 256, 256, 19, 8⟩ =
      ⟨1, 1, 7, 7, 1, 1, 255, 255, 255, 1, 255, 255, 20, 7⟩ ∧
    tuningIntoRange ⟨1024, 1023, 7, 7, 64, 64, 255, 255, 255, 256, 255, 255, 2001, 7⟩ =
      ⟨1023, 1023, 7, 7, 63, 63, 255, 255, 255, 255, 255, 255, 2000, 7⟩ ∧
    snapLimitIntoRange 19 = 20 ∧ snapLimitIntoRange 2001 = 2000 := by decide

theorem witness_bindPen :
    run0.Admits 0 ∧ (run0.permissions 0).room = true ∧ 3 < (4 : Byte).toNat ∧ (4 : Byte) ≠ 0xFF ∧
    3 < (254 : Byte).toNat ∧ (254 : Byte) ≠ 0xFF :=
  ⟨run0_admits, by decide, by decide, by decide, by decide, by decide⟩

/-- A pen with a stroke, which its rebinding classifies, and one without. -/
theorem witness_bindPen_stroke :
    (drawing .inking openStroke18).Admits 0 ∧
    ((drawing .inking openStroke18).permissions 0).room = true ∧
    (drawing .inking openStroke18).currentStroke 1 = some openStroke18 ∧
    run0.currentStroke 1 = none :=
  ⟨⟨rfl, by decide⟩, by decide, by decide, by decide⟩

theorem test_bindPen_rebinds :
    ((after (.bindPen 0 1 1 2) (drawing .inking openStroke18)).stroke? 18).map
      (fun e => (e.state, e.cause)) = some (.committed, some .rebound) := by decide +kernel

/-! ## Samples, points and strokes -/

/-- Below zero, above the axis maximum, and the largest coordinate on the canvas. -/
theorem witness_mapping :
    ((50 : Word).toNat : Int) + (BitVec.ofInt 16 (-120)).toInt < 0 ∧
    (65536 * ((16000 : Nat) : Int) ≤ ((65534 : Word).toNat + (0 : Word).toInt) * (16000 : Word).toNat + 32768 ∧
      ((65534 : Word).toNat + (0 : Word).toInt) * ((16000 : Word).toNat : Int) + 32768 < 65536 * (16000 + 1)) ∧
    (65536 * ((15999 : Nat) : Int) ≤ ((65533 : Word).toNat + (0 : Word).toInt) * (16000 : Word).toNat + 32768 ∧
      ((65533 : Word).toNat + (0 : Word).toInt) * ((16000 : Word).toNat : Int) + 32768 < 65536 * (15999 + 1)) := by
  decide

theorem witness_pressure : (sample 1023).pressure.toNat ≤ 1023 := by decide

theorem witness_timeOffset :
    ((65535 : Long) - 0).toNat ≤ 65535 ∧ 65535 < ((65536 : Long) - 0).toNat ∧
    (⟨sample 80, 2000⟩ : Buffered).clock = 2000 := by decide

/-- A pen with a stroke and its working values, the last conditioned point dropped; a sample that
thinning keeps, one that it drops. -/
theorem witness_conditioning :
    (drawing .inking openStroke18).currentStroke 1 = some openStroke18 ∧
    ((drawing .inking openStroke18).channel 1).working.map (·.lastConditioned.kept) = some false ∧
    thinningKeeps (factoryTuning 1) ⟨3000, 2000, 1000⟩ { point18 with x := 3012 } 1000 = true ∧
    thinningKeeps (factoryTuning 1) ⟨3000, 2000, 1000⟩ { point18 with x := 3011 } 1039 = false ∧
    thinningKeeps (factoryTuning 1) ⟨3000, 2000, 1000⟩ point18 1040 = true := by decide

def tapStroke18 : Stroke := { openStroke18 with contact := 12, box := ⟨3000, 3030, 2000, 2000⟩ }
def noiseStroke18 : Stroke := { openStroke18 with contact := 12, box := ⟨3000, 3007, 2000, 2000⟩ }

/-- A closed stroke of each outcome; an unheld page; a held one with one place and without. -/
theorem witness_classifies :
    ((drawing .inking openStroke18).stroke? 18 = some openStroke18 ∧
      classifiedAs ((drawing .inking openStroke18).penSettings 1).tuning .penUp 20 openStroke18.box =
        .ink ∧ (drawing .inking openStroke18).Unheld 7) ∧
    ((drawing .inking tapStroke18).stroke? 18 = some tapStroke18 ∧
      classifiedAs ((drawing .inking tapStroke18).penSettings 1).tuning .penUp 12 tapStroke18.box =
        .tap) ∧
    ((drawing .inking noiseStroke18).stroke? 18 = some noiseStroke18 ∧
      classifiedAs ((drawing .inking noiseStroke18).penSettings 1).tuning .penLost 12
        noiseStroke18.box = .noise) ∧
    (∀ hold, hold = List.replicate 15 .clear ∨ hold = List.replicate 16 .clear →
      (heldPage openStroke18 hold).stroke? 18 = some openStroke18 ∧
      ((heldPage openStroke18 hold).page 7).occupant = .snapshot 1 ∧
      (heldPage openStroke18 hold).snapshot 1 = some (.active (snapshotOf7 hold))) ∧
    (List.replicate 15 HoldItem.clear).length < 16 ∧ 16 ≤ (List.replicate 16 HoldItem.clear).length := by
  have none : ((drawing .inking openStroke18).page 7).occupant = .none := by decide
  refine ⟨⟨by decide, by decide, fun q => by rw [none]; simp⟩, by decide, by decide, ?_, by decide⟩
  rintro hold (rfl | rfl) <;> decide

/-- A tap at the ends of its ranges; just outside each; the two other outcomes. -/
theorem witness_classification :
    (factoryTuning 6).tapMin.toNat ≤ 1 ∧ 12 ≤ (factoryTuning 6).tapMax.toNat ∧
    max (9340 - 9310) (5020 - 5020) ≤ (factoryTuning 6).tapTol.toNat ∧
    0 < (factoryTuning 6).tapMin.toNat ∧ (factoryTuning 6).tapMax.toNat < 13 ∧
    (factoryTuning 6).tapTol.toNat < max (9341 - 9310) (5020 - 5020) ∧
    max (9317 - 9310) (5020 - 5020) < (factoryTuning 6).minExtent.toNat ∧
    (factoryTuning 6).minExtent.toNat ≤ max (9318 - 9310) (5020 - 5020) := by decide

theorem witness_submitSamples :
    run0.Admits 0 ∧ (run0.permissions 0).ink = true ∧ (run0.penSettings 3).binding = some 0 ∧
    1 ≤ [sample 1023].length ∧ (List.replicate 32 (sample 1023)).length ≤ 32 ∧
    (List.replicate 32 (sample 1023)).all sampleInRange = true ∧
    ((run0.setPenSettings 3 { factoryPen 3 with binding := none }).penSettings 3).binding ≠ some 0 ∧
    7 < (8 : Byte).toNat ∧ ((withPermissions ⟨false, true, true, true⟩).permissions 0).ink = false ∧
    1023 < (sample 1024).pressure.toNat :=
  ⟨run0_admits, by decide⟩

/-- A pen that draws and one that lifts, with a held sample and with low ones: one that begins the
run, and one that completes it, with the rejoin window and without. -/
theorem witness_contact :
    (∀ state : PenState, ((drawing state openStroke18).channel 1).state = state) ∧
    sampleHeld ((drawing .inking openStroke18).penSettings 1).tuning (sample 40) = true ∧
    sampleHeld ((drawing .inking openStroke18).penSettings 1).tuning (sample 39) = false ∧
    ((drawing .inking openStroke18).channel 1).lift.length + 1 ≤ (factoryTuning 1).upCount.toNat ∧
    (factoryTuning 1).upCount.toNat < ((liftingPen openStroke18).channel 1).lift.length + 1 ∧
    ((liftingPen openStroke18).penSettings 1).tuning.rejoin ≠ 0 ∧
    (((liftingPen openStroke18).setPenSettings 1
      { factoryPen 1 with tuning := { factoryTuning 1 with rejoin := 0 } }).penSettings 1).tuning.rejoin
        = 0 ∧
    (liftingPen openStroke18).currentStroke 1 = some openStroke18 := by
  refine ⟨fun state => by cases state <;> decide, ?_⟩
  decide

/-- The two ways a closing point settles: judged on, and consumed by a shortage. -/
theorem witness_penUp :
    (((liftingPen openStroke18).closingPoint 1).2 = .judge) ∧
    (((liftingPen { openStroke18 with count := 16 }).setPool ⟨[], []⟩).closingPoint 1).2 = .consume ∧
    ((drawing .inking openStroke18).conditionSample 1 ⟨sample 80, 1010⟩ false).2 = .judge ∧
    (((drawing .inking { openStroke18 with count := 16 }).setPool ⟨[], []⟩).conditionSample 1
      ⟨sample 80, 1010⟩ false).2 = .consume := by decide +kernel

/-- A hovering pen of DOWN_COUNT 0. -/
def readyToDraw : State :=
  (penIn .hover []).setPenSettings 3
    { factoryPen 3 with tuning := { factoryTuning 3 with downCount := 0 } }

theorem witness_penDown :
    readyToDraw.Admits 0 ∧ readyToDraw.PlacesCanonical ∧ (readyToDraw.permissions 0).ink = true ∧
    (readyToDraw.penSettings 3).binding = some 0 ∧ sampleInRange (sample 60) = true ∧
    (sample 60).inRange = 1 ∧
    (readyToDraw.penSettings 3).tuning.pressOn.toNat ≤ (sample 60).pressure.toNat ∧
    (readyToDraw.penSettings 3).tuning.downCount = 0 ∧ (readyToDraw.channel 3).state = .hover ∧
    (readyToDraw.channel 3).down = [] ∧ (readyToDraw.channel 3).current = none ∧
    (readyToDraw.page (readyToDraw.channel 3).target).locked = false ∧
    readyToDraw.strokes.entries.length < 512 ∧
    readyToDraw.pool.free = 0 :: (List.range' 1 1535) :=
  ⟨⟨rfl, by decide⟩, ⟨.nil, fun c h => nomatch h⟩, by decide, by decide, by decide, by decide, by decide, by decide,
    by decide, by decide, by decide, by decide, by decide, by decide +kernel⟩

/-- The down buffer on its way and complete; a locked page; no block; no entry. -/
theorem witness_pressing :
    ((penIn .hover []).channel 3).down.length + 1 ≤ (factoryTuning 3).downCount.toNat ∧
    (factoryTuning 3).downCount.toNat < ((penIn .pressing [⟨sample 80, 1005⟩]).channel 3).down.length + 1 ∧
    samplePressed (factoryTuning 3) (sample 60) = true ∧
    samplePressed (factoryTuning 3) (sample 59) = false ∧
    (∀ state : PenState, ((penIn state []).channel 3).state = state) ∧
    (((penIn .pressing [⟨sample 80, 1005⟩]).setPage 4 { pageDefault with locked := true }).page
      ((penIn .pressing [⟨sample 80, 1005⟩]).channel 3).target).locked = true ∧
    ((penIn .pressing [⟨sample 80, 1005⟩]).setPool ⟨[], []⟩).pool.free = [] ∧
    512 ≤ ((penIn .pressing [⟨sample 80, 1005⟩]).setStrokes
      ⟨List.replicate 512 openStroke18, 19⟩).strokes.entries.length := by
  refine ⟨by decide, by decide, by decide, by decide, fun state => by cases state <;> decide,
    by decide, by decide, by decide +kernel⟩

/-- A CLOSING stroke rejoined at exactly REJOIN_DIST, and left one step beyond it. -/
theorem witness_rejoin :
    (drawing .pressing closingStroke18).currentStroke 1 = some closingStroke18 ∧
    ((drawing .pressing closingStroke18).channel 1).working.isSome = true ∧
    distanceSquared 3050 2000 3000 2000 ≤ (factoryTuning 1).rejoinDist.toNat ^ 2 ∧
    (factoryTuning 1).rejoinDist.toNat ^ 2 < distanceSquared 3051 2000 3000 2000 := by decide

/-- An append within a block, at a block's end, and at the end of the stroke. -/
theorem witness_append :
    openStroke18.count ≠ 2048 ∧ openStroke18.count % 16 ≠ 0 ∧
    ({ openStroke18 with count := 2032 } : Stroke).count % 16 = 0 ∧
    ({ openStroke18 with count := 2032 } : Stroke).count ≠ 2048 ∧ fullStroke18.count = 2048 ∧
    ((drawing .inking fullStroke18).closeCurrent 1 .split).strokes.entries.length < 512 ∧
    ((drawing .inking fullStroke18).closeCurrent 1 .split).pool.free = List.range' 1 1535 ∧
    (((drawing .inking fullStroke18).setPool ⟨[], []⟩).closeCurrent 1 .split).pool.free = [] := by
  decide +kernel

theorem test_penDown :
    ((after (.submitSamples 0 1 3 [sample 60]) readyToDraw).stroke? 1).map
      (fun e => (e.serial, e.page, e.count, e.contact, e.box)) =
        some (1, 4, 1, 1, ⟨244, 244, 275, 275⟩) ∧
    ((after (.submitSamples 0 1 3 [sample 60]) readyToDraw).channel 3).state = .inking ∧
    pointAt (after (.submitSamples 0 1 3 [sample 60]) readyToDraw).pool { stroke18 with chain := [0] } 0
      = ⟨244, 275, 15, false, false, 0⟩ := by decide +kernel

theorem witness_commit :
    (holding stroke18).stroke? stroke18.serial = some stroke18 ∧
    ((holding stroke18).page stroke18.page).revision.toNat < 2 ^ 32 - 1 ∧
    ((((holding stroke18).setPage 7 { pageDefault with revision := 0xFFFFFFFF }).page 7).revision.toNat
      = 2 ^ 32 - 1) := by decide

theorem witness_onStrokes :
    (Instr.eraseStroke 0 1 18).onStrokes = true ∧ (Instr.scanVisit 7).onStrokes = true ∧
    exec (.scanVisit 7) run0 = .next run0 := ⟨rfl, rfl, rfl⟩

/-! ## Timers -/

theorem witness_penTimers :
    (∀ state : PenState, (timed state 250).phase = .running ∧
      (timed state 250).Due ((timed state 250).channel 3).silence ∧
      ((timed state 250).channel 3).state = state) ∧
    ¬ (timed .hover 249).Due ((timed .hover 249).channel 3).silence ∧
    (timed .hover 60).Due ((timed .hover 60).channel 3).rejoin ∧
    ¬ (timed .hover 59).Due ((timed .hover 59).channel 3).rejoin := by
  refine ⟨fun state => ⟨rfl, ⟨⟨0, 250⟩, by cases state <;> decide, by cases state <;> decide⟩,
    by cases state <;> decide⟩, ?_, ⟨⟨0, 60⟩, by decide, by decide⟩, ?_⟩
  · rintro ⟨x, hx, h⟩
    have : ((timed .hover 249).channel 3).silence = some ⟨0, 250⟩ := by decide
    rw [this] at hx
    cases hx
    revert h
    decide
  · rintro ⟨x, hx, h⟩
    have : ((timed .hover 59).channel 3).rejoin = some ⟨0, 60⟩ := by decide
    rw [this] at hx
    cases hx
    revert h
    decide

/-- A pen that draws, and one that lifts, whose silence timer is due, with a stroke and without; the
same of a rejoin timer. -/
theorem witness_timers_withStroke :
    (∀ state : PenState, (drawing state openStroke18).Due
      ((drawing state openStroke18).channel 1).silence ∧
      (drawing state openStroke18).currentStroke 1 = some openStroke18 ∧
      (timed state 250).currentStroke 3 = none) ∧
    (drawing .hover closingStroke18).Due ((drawing .hover closingStroke18).channel 1).rejoin ∧
    (drawing .hover closingStroke18).currentStroke 1 = some closingStroke18 := by
  refine ⟨fun state => ⟨⟨⟨0, 250⟩, by cases state <;> decide, by cases state <;> decide⟩,
    by cases state <;> decide, by cases state <;> decide⟩, ⟨⟨0, 60⟩, by decide, by decide⟩, by decide⟩

/-- The silence timer commits the stroke of the pen that drew it, with PEN_LOST. -/
theorem test_silenceExpiry_ends :
    ((after (.silenceExpiry 1) (drawing .lifting openStroke18)).stroke? 18).map
      (fun e => (e.state, e.cause)) = some (.committed, some .penLost) ∧
    ((after (.silenceExpiry 1) (drawing .lifting openStroke18)).channel 1).current = none := by
  decide +kernel

theorem witness_snapLimit :
    (heldPage stroke18 []).snapshot 1 = some (.active (snapshotOf7 [])) ∧
    ({ heldPage stroke18 [] with deviceTime := 30500 } : State).Due (some (snapshotOf7 []).timer) ∧
    ¬ ({ heldPage stroke18 [] with deviceTime := 30499 } : State).Due
      (some (snapshotOf7 []).timer) := by
  refine ⟨by decide, ⟨_, rfl, by decide⟩, ?_⟩
  rintro ⟨x, hx, h⟩
  cases hx
  revert h
  decide

theorem witness_heldItems :
    (holding { stroke18 with state := .held }).stroke? 18 = some { stroke18 with state := .held } ∧
    (holding stroke18).stroke? 18 = some stroke18 ∧ stroke18.page = 7 ∧ run0.stroke? 18 = none := by
  decide

/-! ## Erasing -/

/-- Nothing to erase, a stroke being drawn, one on a locked page, an empty undo stack. -/
theorem witness_eraseRefusals :
    (holding stroke18).stroke? 17 = none ∧ (holding openStroke18).stroke? 18 = some openStroke18 ∧
    openStroke18.state = .opened ∧ closingStroke18.state = .closing ∧
    (((holding stroke18).setPage 7 { pageDefault with locked := true }).page 7).locked = true ∧
    ((holding stroke18).channel 2).undo = [] := by decide

theorem witness_erase :
    (holding stroke18).Admits 0 ∧ ((holding stroke18).permissions 0).edit = true ∧
    (holding stroke18).stroke? stroke18.serial = some stroke18 ∧
    ((holding stroke18).page stroke18.page).locked = false ∧
    (holding stroke18).Unheld stroke18.page ∧ stroke18.serial ≠ 0 ∧ stroke18.state = .committed ∧
    ((holding stroke18).channel stroke18.pen).undo = [stroke18.serial] := by
  have none : ((holding stroke18).page stroke18.page).occupant = .none := by decide
  exact ⟨holding_admits, by decide, by decide, by decide, fun q => by rw [none]; simp, by decide,
    by decide, by decide⟩

/-- A held page with an empty list, with the erase or the clear there already, and with a HELD
stroke. -/
theorem witness_heldErasures :
    (∀ hold ∈ [[], [.erase 18 .undo], [.clear]],
      (heldPage stroke18 hold).phase = .running ∧ ((heldPage stroke18 hold).link 0).state = .idle ∧
      ((heldPage stroke18 hold).page 7).locked = false ∧
      ((heldPage stroke18 hold).page 7).occupant = .snapshot 1 ∧
      (heldPage stroke18 hold).snapshot 1 = some (.active (snapshotOf7 hold)) ∧
      (heldPage stroke18 hold).stroke? 18 = some stroke18) ∧
    (snapshotOf7 []).hold.length < 16 ∧
    HoldItem.erase 18 .undo ∈ (snapshotOf7 [.erase 18 .undo]).hold ∧
    HoldItem.clear ∈ (snapshotOf7 [.clear]).hold ∧
    (heldPage { stroke18 with state := .held } [.commit 18]).stroke? 18 =
      some { stroke18 with state := .held } := by
  decide

/-- A hold list of 15 has room for one item; one of 16 has not, and neither has the erase or the
clear. -/
theorem witness_holdBoundary :
    (snapshotOf7 ((List.range 15).map fun k => .commit (BitVec.ofNat 32 (k + 100)))).hold.length < 16 ∧
    16 ≤ (snapshotOf7 (List.replicate 16 (.commit 100))).hold.length ∧
    HoldItem.clear ∉ (snapshotOf7 (List.replicate 16 (.commit 100))).hold ∧
    (∀ cause, HoldItem.erase 18 cause ∉ (snapshotOf7 (List.replicate 16 (.commit 100))).hold) ∧
    (heldPage stroke18 (List.replicate 16 (.commit 100))).stroke? 18 = some stroke18 ∧
    ((heldPage stroke18 (List.replicate 16 (.commit 100))).channel 1).undo = [18] := by
  refine ⟨by decide, by decide, by decide, fun cause => by cases cause <;> decide, by decide, by decide⟩

/-- As the seventeenth item an erase breaks the snapshot and is carried out, and so does UNDO's. -/
theorem test_seventeenthItem :
    formed (after (.eraseStroke 0 1 18) (heldPage stroke18 (List.replicate 16 (.commit 100)))) =
      [⟨.ok, 1, [0, 0, 0, 18, 7, 0, 0, 0, 41]⟩] ∧
    (after (.eraseStroke 0 1 18) (heldPage stroke18 (List.replicate 16 (.commit 100)))).snapshot 1 =
      some (.broken 7) := by decide +kernel

theorem witness_clearPage :
    ((holding stroke18).page 7).occupant = .none ∧
    ((scanned stroke18 [18]).page 7).occupant = .scan (scan7 [18]) ∧
    (({ (holding stroke18).page 7 with locked := true } : PageRecord)).locked = true :=
  ⟨by decide, by decide, rfl⟩

theorem witness_eraseRegion :
    1 < (2 : Byte).toNat ∧ ((scanned stroke18 [18]).page 7).occupant ≠ .none ∧
    ((scanned stroke18 [18]).page 7).locked = false ∧
    (((holding stroke18).setPage 7 { pageDefault with locked := true }).page 7).locked = true ∧
    (1 : Byte).toNat ≤ 1 ∧ ((holding stroke18).page 7).locked = false ∧
    ((holding stroke18).page 7).occupant = .none := by decide

theorem witness_boxes :
    boxMatches .inside ⟨2000, 1000, 6000, 5000⟩ ⟨2000, 6000, 1000, 5000⟩ = true ∧
    boxMatches .touch ⟨2000, 1000, 6000, 5000⟩ ⟨6000, 6001, 5000, 5001⟩ = true := by decide

theorem witness_scans :
    (scanned stroke18 [18, 23]).phase = .running ∧
    ((scanned stroke18 [18, 23]).page 7).occupant = .scan (scan7 [18, 23]) ∧
    (scanned stroke18 [18, 23]).stroke? 18 = some stroke18 ∧ stroke18.page = 7 ∧
    boxMatches (scan7 []).mode (scan7 []).rect stroke18.box = true ∧
    boxMatches (scan7 []).mode (scan7 []).rect ⟨1000, 1999, 800, 1200⟩ = false ∧
    (scan7 []).visits = [] ∧ (scan7 []).wanted = true ∧
    ({ scan7 [] with wanted := false } : Scan).wanted = false := by decide

/-! ## Pages, snapshots, rings -/

theorem witness_lock :
    (holding stroke18).Admits 0 ∧ ((holding stroke18).permissions 0).room = true ∧
    ((holding stroke18).page 7).locked = false :=
  ⟨holding_admits, by decide, by decide⟩

theorem witness_snapshotBegin :
    ((holding stroke18).permissions 0).view = true ∧ (holding stroke18).snapshot 0 = none ∧
    ((holding stroke18).page 7).occupant = .none ∧
    ((heldPage stroke18 []).page 7).occupant ≠ .none ∧
    (heldPage stroke18 []).snapshot 0 = none ∧
    (ownSnapshot []).snapshot 0 = some (.active (snapshotOf7 [])) := by decide

theorem witness_snapshotEnd :
    run0.snapshot 0 = none ∧ run0.stroke? 18 = none ∧
    (run0.setSnapshot 0 (some (.broken 7))).snapshot 0 = some (.broken 7) ∧
    (ownSnapshot []).snapshot 0 = some (.active (snapshotOf7 [])) ∧ (snapshotOf7 []).hold = [] := by
  decide

/-- A ring with one place free, and a full ring, with a notice of a page and one of a pen. -/
theorem witness_notices :
    ({ ringDefault with fill := 31 } : Ring).fill < 32 ∧
    ({ ringDefault with fill := 32 } : Ring).fill = 32 ∧
    noticePage (.page 7 true 43) = some 7 ∧ noticePage (.pen 2 .hover) = none ∧
    ringWants { ringDefault with pageMask := 0x0080, kindMask := 0x20 } (.page 7 true 43) = true ∧
    ringWants { ringDefault with pageMask := 0x0040, kindMask := 0x20 } (.page 7 true 43) = false ∧
    ringWants { ringDefault with kindMask := 0x10 } (.pen 2 .hover) = true := by decide

/-- The last index of the filled span, the put index just past it, and the whole kind mask. -/
theorem witness_subscribeAck :
    ringed.Admits 0 ∧ (ringed.permissions 0).view = true ∧ (63 : Byte).toNat < 64 ∧
    ((0 : BitVec 5) - (ringed.ring 0).get).toNat < (ringed.ring 0).fill ∧
    (ringed.ring 0).fill ≤ ((1 : BitVec 5) - (ringed.ring 0).get).toNat :=
  ⟨⟨rfl, by decide⟩, by decide, by decide, by decide, by decide⟩

/-! ## Live ink, ports and settings -/

theorem witness_liveFetch :
    run0.Admits 0 ∧ (∀ pen, slotPending (look (run0.livePort 0).slots pen) = false) ∧
    following.Admits 0 ∧ slotPending (look (following.livePort 0).slots 1) = true ∧
    (∀ k : Pen, k ≠ 1 → slotPending (look (following.livePort 0).slots k) = false) :=
  ⟨run0_admits, by decide, ⟨rfl, by decide⟩, by decide, by decide⟩

/-- Two slots pending: of pens 1 and 2 with the factory priorities, and of equal priority. -/
def following2 : State :=
  following.setLivePort 0
    { following.livePort 0 with
      slots := put (following.livePort 0).slots 2 (look (following.livePort 0).slots 1) }

theorem witness_liveFetch_priority :
    slotPending (look (following2.livePort 0).slots 1) = true ∧
    slotPending (look (following2.livePort 0).slots 2) = true ∧
    (following2.penSettings 1).tuning.priority.toNat < (following2.penSettings 2).tuning.priority.toNat := by
  decide

/-- A slot whose stroke a classification to TAP has freed: no point to give, its outcome to come. -/
def followingTap : State :=
  run0.setLivePort 0
    { livePortDefault with
      slots := put livePortDefault.slots 1
        (some { serial := 18, next := 3, available := 3, outcome := some .tap, skipped := false
                page := 7, colour := 1, width := 2, predecessor := none }) }

theorem witness_liveFetch_freed :
    followingTap.Admits 0 ∧ (followingTap.permissions 0).view = true ∧ followingTap.stroke? 18 = none ∧
    slotPending (look (followingTap.livePort 0).slots 1) = true ∧ 0 = min (3 - 3) 24 ∧
    (∀ k : Pen, k ≠ 1 → slotPending (look (followingTap.livePort 0).slots k) = false) :=
  ⟨⟨rfl, by decide⟩, by decide, by decide, by decide, by decide, by decide⟩

/-- At a split, appends that a slot missed do not set SKIPPED, points to come do (log 28). -/
theorem test_slotOpened_split :
    (slotOpened { stroke18 with serial := 19, predecessor := some 18 }
      (some ⟨18, 2000, 2000, some .ink, false, 7, 1, 2, none⟩)).map Follow.skipped = some false ∧
    (slotOpened { stroke18 with serial := 19, predecessor := some 18 }
      (some ⟨18, 1999, 2000, some .ink, false, 7, 1, 2, none⟩)).map Follow.skipped = some true := by
  decide

/-- A slot that follows a stroke, one that follows another, and one that a continuation takes over. -/
theorem witness_liveSlots :
    (look (following.livePort 0).slots 1).map Follow.serial = some stroke18.serial ∧
    (look (following.livePort 0).slots 1).map Follow.serial ≠ some 19 ∧
    ({ stroke18 with serial := 19, predecessor := some 18 } : Stroke).predecessor =
      (look (following.livePort 0).slots 1).map Follow.serial ∧
    look (following.livePort 0).slots 0 = none ∧
    (following.setRing 0 { ringDefault with pageMask := 0x0080 }).liveReaches 0 7 1 = true ∧
    following.liveReaches 0 7 1 = false := by decide

theorem witness_liveMute :
    following.Admits 0 ∧ (following.permissions 0).view = true ∧
    ((withPermissions ⟨true, false, true, true⟩).permissions 0).view = false ∧
    (withPermissions ⟨true, false, true, true⟩).Admits 0 :=
  ⟨⟨rfl, by decide⟩, by decide, by decide, rfl, by decide⟩

theorem witness_attention :
    run0.Admits 0 ∧ (127 : Byte).toNat < 128 ∧ 127 < (128 : Byte).toNat ∧
    (0x70 : Byte) &&& 0x8F = 0 ∧ (0x71 : Byte) &&& 0x8F ≠ 0 :=
  ⟨run0_admits, by decide, by decide, by decide, by decide⟩

theorem witness_attentionLine :
    State.reset.phase ≠ .running ∧ run0.phase = .running ∧
    maskHas ((run0.setLink 0 { linkDefault with restarted := true }).link 0).attentionMask 4 = true ∧
    maskHas ((run0.setLink 0 { linkDefault with restarted := true }).conditionsHeld 0) 4 = true := by
  decide

theorem witness_detach :
    (run0.link 0).state = .idle ∧ ((run0.admitted 0 4).link 0).state = .working 4 ∧
    (run0.penSettings 3).binding = some 0 := by decide

/-- A detaching port without a snapshot, with a BROKEN one and with an ACTIVE one; a bound pen with a
stroke and a pen bound elsewhere; a scan and a save of the port. -/
theorem witness_detach_departure :
    run0.snapshot 0 = none ∧ (run0.setSnapshot 0 (some (.broken 7))).snapshot 0 = some (.broken 7) ∧
    ((ownSnapshot []).link 0).state = .idle ∧
    (ownSnapshot []).snapshot 0 = some (.active (snapshotOf7 [])) ∧
    ((drawing .inking openStroke18).penSettings 1).binding = some 0 ∧
    (drawing .inking openStroke18).currentStroke 1 = some openStroke18 ∧
    ((run0.setPenSettings 3 { factoryPen 3 with binding := some 2 }).penSettings 3).binding ≠ some 0 ∧
    ((scanned stroke18 [18]).page 7).occupant = .scan (scan7 [18]) ∧ (scan7 []).requester = 1 ∧
    ({ run0 with save := some save0 } : State).save = some save0 ∧ save0.requester = 0 := by
  refine ⟨by decide, by decide, by decide, by decide, by decide, by decide, by decide, by decide,
    by decide, rfl, rfl⟩

/-- A DETACH applies the held items, frees the page, ends its pens' strokes and unwants its scans. -/
theorem test_detach_departs :
    ((after (.detach 0 2) (ownSnapshot [.erase 18 .request])).page 7) =
      { list := [], revision := 41, locked := false, occupant := .none } ∧
    ((after (.detach 0 2) (drawing .inking openStroke18)).stroke? 18).map (·.cause) =
      some (some .detached) ∧
    ((after (.detach 1 2) (scanned stroke18 [18])).page 7).occupant =
      .scan { scan7 [18] with wanted := false } := by decide +kernel

/-- The three records that a port may hold when it loses VIEW; a port and a set that are none. -/
theorem witness_viewRemoved :
    (ownSnapshot []).snapshot 0 = some (.active (snapshotOf7 [])) ∧
    (run0.setSnapshot 0 (some (.broken 7))).snapshot 0 = some (.broken 7) ∧
    run0.snapshot 0 = none ∧ (run0.setPermissions 0 ⟨true, false, true, true⟩).mirror.someRoom = true ∧
    3 < (4 : Byte).toNat ∧ 15 < (16 : Byte).toNat := by decide

/-- A port that loses VIEW keeps its ring but for the masks (R151). -/
theorem test_setPermissions_viewRemoved :
    (after (.setPermissions 1 1 0 0x0D) ringed).ring 0 = ringed.ring 0 ∧
    (after (.setPermissions 1 1 0 0x0D) (ownSnapshot [])).snapshot 0 = none ∧
    ((after (.setPermissions 1 1 0 0x0D) (ownSnapshot [])).page 7).occupant = .none := by
  decide +kernel

/-- VIEW kept, VIEW removed, and the last ROOM. -/
theorem witness_setPermissions :
    run0.Admits 0 ∧ (run0.permissions 0).room = true ∧
    (run0.setPermissions 2 ⟨true, true, true, false⟩).mirror.someRoom = true ∧
    (run0.setPermissions 2 ⟨true, false, true, true⟩).mirror.someRoom = true ∧
    (run0.permissions 2).view = true ∧
    ((((run0.setPermissions 1 ⟨true, true, true, false⟩).setPermissions 2
        ⟨true, true, true, false⟩).setPermissions 3 ⟨true, true, true, false⟩).setPermissions 0
          ⟨true, true, true, false⟩).mirror.someRoom = false :=
  ⟨run0_admits, by decide, by decide, by decide, by decide, by decide⟩

theorem witness_saves :
    (run0.permissions 0).room = true ∧ run0.save = none ∧
    ({ run0 with save := some save0 } : State).save = some save0 ∧
    ({ run0 with save := some save0 } : State).Admits 0 ∧ save0.wanted = true ∧
    ({ save0 with wanted := false } : Save).wanted = false :=
  ⟨by decide, rfl, rfl, ⟨rfl, by decide⟩, rfl, rfl⟩

theorem witness_deviceReset :
    (holding stroke18).Admits 0 ∧ ((holding stroke18).permissions 0).room = true ∧
    (holding stroke18).save = none ∧
    (({ holding stroke18 with save := some save0 } : State).save = some save0) :=
  ⟨holding_admits, by decide, rfl, rfl⟩

end Sys2Proof.Tests
end

section
/-! SUPPORT. The requests that report on a pen, a page, a port and the device (R18, R80, R155, R167),
and the two that change a pen's tool and target page (R19): what each command runs, what the checks of
a pen request answer, and the two statements about them. -/

namespace Sys2Proof.Machine

/-! ## The commands as requests -/

section
variable (p : Port) (tag b : Byte) (s : State)

theorem exec_penStatus :
    exec (.penStatus p tag b) s = .next (s.request p tag (penStatus (some b))) := rfl

theorem exec_pageStatus :
    exec (.pageStatus p tag b) s = .next (s.request p tag (pageStatus (some b))) := rfl

theorem exec_portStatus :
    exec (.portStatus p tag b) s = .next (s.request p tag (portStatus (some b))) := rfl

theorem exec_deviceInfo :
    exec (.deviceInfo p tag) s = .next (s.request p tag (deviceInfo true)) := rfl

theorem exec_setPenTool (colour width : Byte) :
    exec (.setPenTool p tag b colour width) s =
      .next (s.request p tag (setPenTool p (some b) (some (colour, width)))) := rfl

theorem exec_setPenPage (page : Byte) :
    exec (.setPenPage p tag b page) s =
      .next (s.request p tag (setPenPage p (some b) (some page))) := rfl

end

/-! ## A number that names none -/

section
variable {field : Option Byte} (s : State)

theorem penStatus_of_penOf_none (h : penOf field = none) : penStatus field s = s.refuse .range := by
  rw [penStatus, h]

theorem pageStatus_of_pageOf_none (h : pageOf field = none) :
    pageStatus field s = s.refuse .range := by
  rw [pageStatus, h]

theorem portStatus_of_portOf_none (h : portOf field = none) :
    portStatus field s = s.refuse .range := by
  rw [portStatus, h]

end

/-! ## The link fields that a port's status reports -/

/-- Admission touches no port flag. -/
@[simp] theorem flagSetByte_admitted (s : State) (p : Port) (tag : Byte) (q : Port) :
    flagSetByte ((s.admitted p tag).link q) = flagSetByte (s.link q) := by
  obtain ⟨-, restarted, frameFault, snapBroken, -⟩ := admitted_link_fields s p tag q
  simp only [flagSetByte, restarted, frameFault, snapBroken]

@[simp] theorem admitted_attentionMask (s : State) (p : Port) (tag : Byte) (q : Port) :
    ((s.admitted p tag).link q).attentionMask = (s.link q).attentionMask := by
  obtain ⟨-, -, -, -, attentionMask, -⟩ := admitted_link_fields s p tag q
  exact attentionMask

@[simp] theorem admitted_threshold (s : State) (p : Port) (tag : Byte) (q : Port) :
    ((s.admitted p tag).link q).threshold = (s.link q).threshold := by
  obtain ⟨-, -, -, -, -, threshold, -⟩ := admitted_link_fields s p tag q
  exact threshold

/-! ## The checks of a pen request (R19, R35, R36) -/

section
variable {s : State} {p : Port} {any : Bool} (f : Pen → State × Option Reply)

theorem penRequest_of_penOf_none {b : Byte} (h : penOf (some b) = none) :
    s.penRequest p any (some b) f = s.refuse .range := by
  simp only [State.penRequest, h]

variable (pen : Pen)

theorem penRequest_without_ink (hany : any = false) (hink : (s.permissions p).ink = false) :
    s.penRequest p any (some (penCode pen)) f = s.refuse .denied := by
  simp [State.penRequest, hany, hink]

theorem penRequest_boundElsewhere (hany : any = false) (hink : (s.permissions p).ink = true)
    (hbound : (s.penSettings pen).binding ≠ some p) :
    s.penRequest p any (some (penCode pen)) f = s.refuse .wrongSource := by
  simp [State.penRequest, hany, hink, hbound]

theorem penRequest_permitted
    (h : any = true ∨ ((s.permissions p).ink = true ∧ (s.penSettings pen).binding = some p)) :
    s.penRequest p any (some (penCode pen)) f = f pen := by
  rcases h with hany | ⟨hink, hbound⟩
  · simp [State.penRequest, hany]
  · simp [State.penRequest, hink, hbound]

end

/-! ## Tool and target page for a port that may change them (R19) -/

section
variable {s : State} {p : Port} {pen : Pen}

theorem setPenTool_range (h : s.MayTool p pen) {colour width : Byte}
    (hrange : 15 < colour.toNat ∨ 7 < width.toNat) :
    setPenTool p (some (penCode pen)) (some (colour, width)) s = s.refuse .range := by
  rw [setPenTool, penRequest_permitted _ _ h]
  exact if_pos hrange

theorem setPenTool_stores (h : s.MayTool p pen) {colour width : Byte}
    (hcolour : colour.toNat ≤ 15) (hwidth : width.toNat ≤ 7) :
    setPenTool p (some (penCode pen)) (some (colour, width)) s =
      (s.setPenSettings pen { s.penSettings pen with colour, width }, some ⟨.ok, []⟩) := by
  rw [setPenTool, penRequest_permitted _ _ h]
  exact if_neg (by omega)

theorem setPenPage_range (h : s.MayTool p pen) {page : Byte} (hrange : 15 < page.toNat) :
    setPenPage p (some (penCode pen)) (some page) s = s.refuse .range := by
  rw [setPenPage, penRequest_permitted _ _ h, pageOf_none hrange]

theorem setPenPage_stores (h : s.MayTool p pen) (pg : Page) :
    setPenPage p (some (penCode pen)) (some (pageCode pg)) s =
      (s.setChannel pen { s.channel pen with target := pg }, some ⟨.ok, []⟩) := by
  rw [setPenPage, penRequest_permitted _ _ h, pageOf_pageCode]

end

/-- Admission leaves open to a port the pens that it may change. -/
theorem State.MayTool.admitted {s : State} {p : Port} {pen : Pen} (h : s.MayTool p pen) (tag : Byte) :
    (s.admitted p tag).MayTool p pen := h

/-! ## The statements -/

/-- Settles O26: each request is its block's operation on the admitted state, and what that operation
reads there stands as it stood before the admission. -/
theorem statusRequestsReportAndChangeNothing :
    Obligations.StatusRequestsReportAndChangeNothing := by
  intro p tag s hs
  refine ⟨fun b hb => ?penRange, fun b hb => ?pageRange, fun b hb => ?portRange, fun pen => ?pen,
    fun pg => ?page, fun q => ?port, ?device⟩
  case penRange =>
    rw [exec_penStatus, request_refused hs (penStatus_of_penOf_none _ (penOf_none hb))]
  case pageRange =>
    rw [exec_pageStatus, request_refused hs (pageStatus_of_pageOf_none _ (pageOf_none hb))]
  case portRange =>
    rw [exec_portStatus, request_refused hs (portStatus_of_portOf_none _ (portOf_none hb))]
  case pen =>
    rw [exec_penStatus]
    exact congrArg _ (request_reported hs (by simp [penStatus]))
  case page =>
    rw [exec_pageStatus]
    exact congrArg _ (request_reported hs (by simp [pageStatus]))
  case port =>
    rw [exec_portStatus]
    exact congrArg _ (request_reported hs (by simp [portStatus]))
  case device =>
    rw [exec_deviceInfo]
    exact congrArg _ (request_reported hs rfl)

/-- Settles O28: the checks of R19 one after the other, then the one value that each request stores. -/
theorem toolAndPageAreSet : Obligations.ToolAndPageAreSet := by
  refine ⟨?noPen, ?noEdit, ?mayTool⟩
  case noPen =>
    intro p tag b colour width page s hs hb
    have hpen : penOf (some b) = none := penOf_none hb
    rw [exec_setPenTool, exec_setPenPage, request_refused hs (penRequest_of_penOf_none _ hpen),
      request_refused hs (penRequest_of_penOf_none _ hpen)]
    exact ⟨rfl, rfl⟩
  case noEdit =>
    intro p tag pen colour width page s hs hedit
    rw [exec_setPenTool, exec_setPenPage]
    constructor
    · intro hink
      exact ⟨congrArg _ (request_refused hs (penRequest_without_ink _ pen hedit hink)),
        congrArg _ (request_refused hs (penRequest_without_ink _ pen hedit hink))⟩
    · intro hink hbound
      exact ⟨congrArg _ (request_refused hs (penRequest_boundElsewhere _ pen hedit hink hbound)),
        congrArg _ (request_refused hs (penRequest_boundElsewhere _ pen hedit hink hbound))⟩
  case mayTool =>
    intro p tag pen s hs hmay
    have hadmitted := hmay.admitted tag
    refine ⟨fun colour width page => ⟨fun htool => ?_, fun hpage => ?_⟩,
      fun colour width hcolour hwidth => ?_, fun pg => ?_⟩
    · rw [exec_setPenTool, request_refused hs (setPenTool_range hadmitted htool)]
    · rw [exec_setPenPage, request_refused hs (setPenPage_range hadmitted hpage)]
    · rw [exec_setPenTool, request_replied hs (setPenTool_stores hadmitted hcolour hwidth)]
      rfl
    · rw [exec_setPenPage, request_replied hs (setPenPage_stores hadmitted pg)]
      rfl

end Sys2Proof.Machine
end

section
/-! SUPPORT. The mapping of one axis to the canvas (R24), the pressure byte and who reads the pressure
(R2, R26, R28), and the two statements about them. -/

namespace Sys2Proof.Machine

/-! ## One axis (R24) -/

section
variable {raw offset scale : Word} {v : Int} (axisMax : Nat)

/-- R24, step 2. -/
theorem mapAxis_of_neg (hv : v = raw.toNat + offset.toInt) (hneg : v < 0) :
    mapAxis raw offset scale axisMax = (0, true) := by
  subst hv
  exact if_pos hneg

/-- R24, steps 3 and 4, from `v` on. -/
theorem mapAxis_of_nonneg (hv : v = raw.toNat + offset.toInt) (hnonneg : 0 ≤ v) :
    mapAxis raw offset scale axisMax =
      if axisMax < (v.toNat * scale.toNat + 32768) / 65536 then (axisMax, true)
      else ((v.toNat * scale.toNat + 32768) / 65536, false) := by
  subst hv
  exact if_neg (not_lt.mpr hnonneg)

/-- The quotient of step 3 is the one `c` whose 65536-fold lies within 32768 of the product, an exact
half being rounded up. -/
theorem roundedProduct_eq {c k : Nat} (hnonneg : 0 ≤ v)
    (hlow : 65536 * (c : Int) ≤ v * k + 32768) (hhigh : v * k + 32768 < 65536 * (c + 1)) :
    (v.toNat * k + 32768) / 65536 = c := by
  have hproduct : ((v.toNat * k : Nat) : Int) = v * k := by
    rw [Nat.cast_mul, Int.toNat_of_nonneg hnonneg]
  omega

/-- No coordinate leaves the canvas: 0, the axis maximum, or a quotient that step 4 let through. -/
theorem mapAxis_le (raw offset scale : Word) : (mapAxis raw offset scale axisMax).1 ≤ axisMax := by
  rcases lt_or_ge ((raw.toNat : Int) + offset.toInt) 0 with hneg | hnonneg
  · rw [mapAxis_of_neg axisMax rfl hneg]
    exact Nat.zero_le _
  · rw [mapAxis_of_nonneg axisMax rfl hnonneg]
    split
    case isTrue => exact le_rfl
    case isFalse hfits => exact not_lt.mp hfits

end

/-! ## The pressure (R2, R26, R28) -/

/-- A pressure of ten bits, divided by 4, fits its byte. -/
theorem pressureByte_toNat {pressure : Word} (h : pressure.toNat ≤ 1023) :
    (pressureByte pressure).toNat = pressure.toNat / 4 := by
  rw [pressureByte, BitVec.toNat_ofNat]
  exact Nat.mod_eq_of_lt (by omega)

theorem conditionedPoint_pressure (c : Calibration) (zero : Long) (b : Buffered) (lift : Bool) :
    (conditionedPoint c zero b lift).pressure = pressureByte b.sample.pressure := rfl

/-- The thinning tests read a point's position and nothing else of it. -/
theorem thinningKeeps_congr {p q : Point} (hx : p.x = q.x) (hy : p.y = q.y) (t : Tuning)
    (kept : KeptPoint) (clock : Long) :
    thinningKeeps t kept p clock = thinningKeeps t kept q clock := by
  rw [thinningKeeps, thinningKeeps, hx, hy]

theorem sampleHeard_iff (x : Sample) : sampleHeard x = true ↔ x.inRange = 1 := decide_eq_true_iff

theorem samplePressed_iff (t : Tuning) (x : Sample) :
    samplePressed t x = true ↔ x.inRange = 1 ∧ t.pressOn.toNat ≤ x.pressure.toNat := by
  rw [samplePressed, Bool.and_eq_true, sampleHeard_iff, decide_eq_true_iff]

theorem sampleHeld_iff (t : Tuning) (x : Sample) :
    sampleHeld t x = true ↔ x.inRange = 1 ∧ t.pressOff.toNat ≤ x.pressure.toNat := by
  rw [sampleHeld, Bool.and_eq_true, sampleHeard_iff, decide_eq_true_iff]

/-! ## The statements -/

/-- Settles O32: one axis by the sign of `v` and by the one quotient that its bounds leave. -/
theorem rawPositionsAreMappedToTheCanvas : Obligations.RawPositionsAreMappedToTheCanvas := by
  refine ⟨fun c x => rfl, fun raw offset scale axisMax =>
    ⟨_, rfl, mapAxis_of_neg axisMax rfl, fun c hnonneg hlow hhigh => ?onAxis,
      mapAxis_le axisMax raw offset scale⟩⟩
  case onAxis =>
    rw [mapAxis_of_nonneg axisMax rfl hnonneg, roundedProduct_eq hnonneg hlow hhigh]
    exact ⟨fun hover => if_pos hover, fun hfits => if_neg (not_lt.mpr hfits)⟩

/-- Settles O33: the byte of a ten-bit pressure, thinning by position and clock alone, and the two
contact tests on the pressure as it was sent. -/
theorem pressureByteIsAQuarter : Obligations.PressureByteIsAQuarter := by
  refine ⟨fun c zero b lift hten => ?byte, fun t kept p clock byte => ?thinning, fun t x => ?contact⟩
  case byte =>
    rw [conditionedPoint_pressure, pressureByte_toNat hten]
  case thinning =>
    exact thinningKeeps_congr rfl rfl t kept clock
  case contact =>
    exact ⟨samplePressed_iff t x, sampleHeld_iff t x⟩

end Sys2Proof.Machine
end

section
/-! SUPPORT. The three requests that list what stands, piece by piece: READ_STROKE (R60),
SNAPSHOT_LIST (R104) and FETCH_NOTICES (R121). What each command runs, one equation for each outcome
of its checks, and the statement about them. -/

namespace Sys2Proof.Machine

/-! ## The commands as requests -/

section
variable (p : Port) (tag : Byte) (s : State)

theorem exec_readStroke (serial : Serial) (start : Word) :
    exec (.readStroke p tag serial start) s =
      .next (s.request p tag (readStroke p (some (serial, start)))) := rfl

theorem exec_snapshotList (offset : Word) (count : Byte) :
    exec (.snapshotList p tag offset count) s =
      .next (s.request p tag (snapshotList p (some (offset, count)))) := rfl

theorem exec_fetchNotices (count : Byte) :
    exec (.fetchNotices p tag count) s =
      .next (s.request p tag (fetchNotices p (some count))) := rfl

end

/-- The two ways in which a count is answered RANGE, ruled out together. -/
theorem count_admissible {count : Byte} {most : Nat} (hone : 1 ≤ count.toNat)
    (hmost : count.toNat ≤ most) : ¬ (count = 0 ∨ most < count.toNat) := by
  rintro (rfl | hover)
  · exact absurd hone (by decide)
  · exact absurd hover (not_lt.mpr hmost)

/-! ## READ_STROKE (R60) -/

section
variable (s : State) {p : Port} {serial : Serial} {start : Word}

theorem readStroke_without_view (hview : (s.permissions p).view = false)
    (fields : Option (Serial × Word)) : readStroke p fields s = s.refuse .denied :=
  if_pos (by simp [hview])

/-- Serial 0 names no stroke, whatever the table holds. -/
theorem readStroke_notFound (hview : (s.permissions p).view = true)
    (hnone : serial = 0 ∨ s.stroke? serial = none) :
    readStroke p (some (serial, start)) s = s.refuse .notFound := by
  rw [readStroke, if_neg (not_not.mpr hview)]
  cases hfound : s.stroke? serial with
  | none => rfl
  | some e =>
    have hzero : serial = 0 := hnone.resolve_right (by simp [hfound])
    exact if_pos hzero

theorem readStroke_found {e : Stroke} (hview : (s.permissions p).view = true)
    (hserial : serial ≠ 0) (hfound : s.stroke? serial = some e) :
    readStroke p (some (serial, start)) s = s.report
      (headerBytes e ++ wordBytes start ++ natByte (min (e.count - start.toNat) 64)
        ++ (pointsFrom s.pool e start.toNat (min (e.count - start.toNat) 64)).flatMap
          pointBytes) := by
  rw [readStroke, if_neg (not_not.mpr hview), hfound]
  exact if_neg hserial

end

/-! ## SNAPSHOT_LIST (R104) -/

section
variable (s : State) {p : Port}

theorem snapshotList_without_view (hview : (s.permissions p).view = false)
    (fields : Option (Word × Byte)) : snapshotList p fields s = s.refuse .denied :=
  if_pos (by simp [hview])

theorem snapshotList_without_record (hview : (s.permissions p).view = true)
    (hrecord : s.snapshot p = none) (fields : Option (Word × Byte)) :
    snapshotList p fields s = s.refuse .noSnapshot := by
  rw [snapshotList, if_neg (not_not.mpr hview), hrecord]

theorem snapshotList_broken {pg : Page} (hview : (s.permissions p).view = true)
    (hrecord : s.snapshot p = some (.broken pg)) (fields : Option (Word × Byte)) :
    snapshotList p fields s = s.refuse .snapshotBroken := by
  rw [snapshotList, if_neg (not_not.mpr hview), hrecord]

variable {offset : Word} {count : Byte} {a : ActiveSnapshot}

theorem snapshotList_range (hview : (s.permissions p).view = true)
    (hrecord : s.snapshot p = some (.active a)) (hrange : count = 0 ∨ 16 < count.toNat) :
    snapshotList p (some (offset, count)) s = s.refuse .range := by
  rw [snapshotList, if_neg (not_not.mpr hview), hrecord]
  exact if_pos hrange

theorem snapshotList_reports (hview : (s.permissions p).view = true)
    (hrecord : s.snapshot p = some (.active a)) (hone : 1 ≤ count.toNat)
    (hmost : count.toNat ≤ 16) :
    snapshotList p (some (offset, count)) s = s.report
      ([pageCode a.page] ++ longBytes a.frozen ++ natWord (s.page a.page).list.length
        ++ wordBytes offset
        ++ natByte (((s.page a.page).list.drop offset.toNat).take count.toNat).length
        ++ headersOf s (((s.page a.page).list.drop offset.toNat).take count.toNat)) := by
  rw [snapshotList, if_neg (not_not.mpr hview), hrecord]
  exact if_neg (count_admissible hone hmost)

end

/-- A piece of headers is read from the stroke table, which admission leaves. -/
@[simp] theorem headersOf_admitted (s : State) (p : Port) (tag : Byte) (serials : List Serial) :
    headersOf (s.admitted p tag) serials = headersOf s serials := rfl

/-! ## FETCH_NOTICES (R121) -/

section
variable (s : State) {p : Port} {count : Byte}

theorem fetchNotices_range (h : count = 0 ∨ 8 < count.toNat) :
    fetchNotices p (some count) s = s.refuse .range := if_pos h

theorem fetchNotices_reports (hone : 1 ≤ count.toNat) (height : count.toNat ≤ 8) :
    fetchNotices p (some count) s = s.report
      (natByte (s.ring p).fill ++ wordBytes (s.ring p).resync
        ++ natByte (min (s.ring p).fill count.toNat)
        ++ (ringNotices (s.ring p) (min (s.ring p).fill count.toNat)).flatMap
          fun x => noticeBytes x.1 x.2) := if_neg (count_admissible hone height)

end

/-! ## The statement -/

/-- Settles O27: each request is its block's operation on the admitted state; that operation refuses
or reports, and what it reports from stands as it stood before the admission. -/
theorem listingRequestsReportAndChangeNothing :
    Obligations.ListingRequestsReportAndChangeNothing := by
  intro p tag s hs
  simp only [exec_readStroke, exec_snapshotList, exec_fetchNotices]
  refine ⟨fun hview serial start offset count => ?denied,
    fun hview serial start hnone => ?notFound,
    fun hview offset count => ⟨fun hrecord => ?noRecord, fun pg hrecord => ?brokenRecord,
      fun a hrecord hrange => ?listRange⟩,
    fun count hrange => ?fetchRange,
    fun hview serial start e hserial hfound => ?stroke,
    fun hview offset count a hone hmost hrecord => ?headers,
    fun count hone hmost => ?notices⟩
  case denied =>
    exact ⟨congrArg _ (request_refused hs (readStroke_without_view (s.admitted p tag) hview _)),
      congrArg _ (request_refused hs (snapshotList_without_view (s.admitted p tag) hview _))⟩
  case notFound =>
    rw [request_refused hs (readStroke_notFound (s.admitted p tag) hview hnone)]
  case noRecord =>
    rw [request_refused hs (snapshotList_without_record (s.admitted p tag) hview hrecord _)]
  case brokenRecord =>
    rw [request_refused hs (snapshotList_broken (s.admitted p tag) hview hrecord _)]
  case listRange =>
    rw [request_refused hs (snapshotList_range (s.admitted p tag) hview hrecord hrange)]
  case fetchRange =>
    rw [request_refused hs (fetchNotices_range (s.admitted p tag) hrange)]
  case stroke =>
    rw [request_reported hs (readStroke_found (s.admitted p tag) hview hserial hfound),
      admitted_pool]
  case headers =>
    rw [request_reported hs (snapshotList_reports (s.admitted p tag) hview hrecord hone hmost),
      admitted_page, headersOf_admitted]
  case notices =>
    rw [request_reported hs (fetchNotices_reports (s.admitted p tag) hone hmost), admitted_ring]

end Sys2Proof.Machine
end

section
/-! SUPPORT. LOCK_PAGE and UNLOCK_PAGE (R81): the one operation that both commands run, one equation
for each outcome of its checks, and the statement about them. -/

namespace Sys2Proof.Machine

section
variable (p : Port) (tag b : Byte) (s : State)

theorem exec_lockPage :
    exec (.lockPage p tag b) s = .next (s.request p tag (setLock p (some b) true)) := rfl

theorem exec_unlockPage :
    exec (.unlockPage p tag b) s = .next (s.request p tag (setLock p (some b) false)) := rfl

end

/-! ## The outcomes of the checks (R81) -/

section
variable {s : State} {p : Port} {locked : Bool}

/-- R81, check 1, which comes before the page is read. -/
theorem setLock_without_room (hroom : (s.permissions p).room = false) (page : Option Byte) :
    setLock p page locked s = s.refuse .denied :=
  if_pos (by simp [hroom])

/-- R81, check 2. -/
theorem setLock_range (hroom : (s.permissions p).room = true) {page : Option Byte}
    (hpage : pageOf page = none) : setLock p page locked s = s.refuse .range := by
  rw [setLock, if_neg (not_not.mpr hroom), hpage]

variable {pg : Page}

/-- A flag that stands as it is asked for is reported: no notice, no change. -/
theorem setLock_unchanged (hroom : (s.permissions p).room = true)
    (hflag : (s.page pg).locked = locked) :
    setLock p (some (pageCode pg)) locked s =
      s.report ([flagByte locked] ++ longBytes (s.page pg).revision) := by
  rw [setLock, if_neg (not_not.mpr hroom), pageOf_pageCode]
  exact if_pos hflag

/-- A flag that changes is stored before its notice is routed, and the revision stands. -/
theorem setLock_changes (hroom : (s.permissions p).room = true)
    (hflag : (s.page pg).locked ≠ locked) :
    setLock p (some (pageCode pg)) locked s =
      ((s.setPage pg { s.page pg with locked }).route (.page pg locked (s.page pg).revision),
        some ⟨.ok, [flagByte locked] ++ longBytes (s.page pg).revision⟩) := by
  rw [setLock, if_neg (not_not.mpr hroom), pageOf_pageCode]
  exact if_neg hflag

end

/-- Either command, by the flag it asks for, is the one operation with that flag. -/
theorem exec_of_lockCommand {p : Port} {tag b : Byte} {c : Instr} {want : Bool}
    (hc : (c = .lockPage p tag b ∧ want = true) ∨ (c = .unlockPage p tag b ∧ want = false))
    (s : State) : exec c s = .next (s.request p tag (setLock p (some b) want)) := by
  rcases hc with ⟨rfl, rfl⟩ | ⟨rfl, rfl⟩
  · exact exec_lockPage p tag b s
  · exact exec_unlockPage p tag b s

/-! ## The statement -/

/-- Settles O48: the checks of R81 in their order, then the flag as it stands against the flag asked
for, both read on the admitted state, where room and page stand as before the admission. -/
theorem lockAndUnlockSetTheFlag : Obligations.LockAndUnlockSetTheFlag := by
  refine ⟨fun p tag b s hs => ⟨fun hroom => ?noRoom, fun hroom hpage => ?noPage⟩,
    fun p tag pg s hs hroom c want hc => ⟨fun hflag => ?stands, fun hflag => ?changes⟩⟩
  case noRoom =>
    have refused (locked : Bool) :=
      request_refused hs (setLock_without_room (s := s.admitted p tag) (locked := locked) hroom
        (some b))
    rw [exec_lockPage, exec_unlockPage, refused, refused]
    exact ⟨rfl, rfl⟩
  case noPage =>
    have refused (locked : Bool) :=
      request_refused hs (setLock_range (s := s.admitted p tag) (locked := locked) hroom
        (pageOf_none hpage))
    rw [exec_lockPage, exec_unlockPage, refused, refused]
    exact ⟨rfl, rfl⟩
  case stands =>
    rw [exec_of_lockCommand hc, request_reported hs (setLock_unchanged hroom hflag), admitted_page]
  case changes =>
    rw [exec_of_lockCommand hc, request_replied hs (setLock_changes hroom hflag), admitted_page]

end Sys2Proof.Machine
end

section
/-! SUPPORT. The ring by itself: what RING_STATUS reports of it (R124), which notices its masks ask for
(R115), and what it does with a notice that reaches it, with room (R116) and full (R118). -/

namespace Sys2Proof.Machine

/-! ## RING_STATUS (R124) -/

section
variable (p : Port) (tag : Byte) (s : State)

theorem exec_ringStatus :
    exec (.ringStatus p tag) s = .next (s.request p tag (ringStatus p true)) := rfl

/-- R124 has no check but the one on the fields, and a request without fields passes it. -/
theorem ringStatus_reports :
    ringStatus p true s =
      s.report (natByte (s.ring p).fill
        ++ [(s.ring p).get.zeroExtend 8, (s.ring p).put.zeroExtend 8]
        ++ wordBytes (s.ring p).resync ++ [(s.link p).threshold]) :=
  if_neg (not_not.mpr rfl)

end

/-! ## Which notices the masks ask for (R115) -/

/-- PEN, kind 5, is the one kind without a page (R114). -/
theorem noticePage_eq_none_iff (n : Notice) : noticePage n = none ↔ noticeKind n = 5 := by
  cases n with
  | pen => exact iff_of_true rfl rfl
  | commit | erase | clear | tap | page => exact iff_of_false nofun (by simp [noticeKind])

theorem ringWants_iff (r : Ring) (n : Notice) :
    ringWants r n = true ↔
      maskHas r.kindMask (noticeKind n - 1) = true ∧
        ∀ pg, noticePage n = some pg → maskHas r.pageMask pg.val = true := by
  unfold ringWants
  cases noticePage n with
  | none => simp
  | some pg => simp

/-! ## A notice that reaches a ring (R116, R118) -/

section
variable {n : Notice} {r : Ring}

/-- R116. -/
theorem ringReceive_of_room (hroom : r.fill < 32) :
    ringReceive n r =
      { r with slots := put r.slots r.put.toFin (some n), put := r.put + 1, fill := r.fill + 1 } :=
  if_pos hroom

theorem full_no_room (hfull : r.fill = 32) : ¬ r.fill < Config.ringSlots := not_lt.mpr hfull.ge

/-- R118, for a kind with a page. -/
theorem ringReceive_of_full_page (hfull : r.fill = 32) {pg : Page} (hpage : noticePage n = some pg) :
    ringReceive n r = { r with resync := maskAdd r.resync pg.val } := by
  rw [ringReceive, if_neg (full_no_room hfull), hpage]

/-- R118, for PEN: the notice is lost without a trace. -/
theorem ringReceive_of_full_pen (hfull : r.fill = 32) (hpage : noticePage n = none) :
    ringReceive n r = r := by
  rw [ringReceive, if_neg (full_no_room hfull), hpage]

end

/-! ## The statements -/

/-- Settles O25: RING_STATUS is a report, and the ring and the threshold that it reads stand as they
stood before the admission. -/
theorem ringStatusReportsTheRing : Obligations.RingStatusReportsTheRing := by
  intro p tag s hs
  rw [exec_ringStatus, request_reported hs (ringStatus_reports p (s.admitted p tag)), admitted_ring,
    admitted_threshold]

/-- Settles O51: one ring with room, one full ring, then routing ring by ring, which reads the masks
and changes nothing outside the rings. -/
theorem noticesAreEnteredOrDropped : Obligations.NoticesAreEnteredOrDropped := by
  refine ⟨fun n r hroom => ?entered,
    fun n r hfull => ⟨fun pg => ringReceive_of_full_page hfull, ringReceive_of_full_pen hfull⟩,
    fun n s p => State.route_ring s n p, fun n r => ringWants_iff r n, noticePage_eq_none_iff,
    fun n s => rfl⟩
  case entered =>
    rw [ringReceive_of_room hroom]
    exact ⟨look_put_self _ _ _, fun i hi => look_put_of_ne _ _ hi.symm, rfl, rfl, rfl, rfl, rfl, rfl⟩

end Sys2Proof.Machine
end

section
/-! SUPPORT. LIVE_MUTE (R139): which slots an emptying by mask takes, which pens are newly muted, one
equation for each outcome of the request's one check, and the statement about it. -/

namespace Sys2Proof.Machine

/-! ## Slots emptied by a mask -/

section
variable (l : LivePort)

theorem look_slots_mapSlot (pen k : Pen) (f : Option Follow → Option Follow) :
    look (l.mapSlot pen f).slots k =
      if pen = k then f (look l.slots pen) else look l.slots k :=
  look_put _ _ _ _

/-- Emptying pen by pen, for any list of pens: a slot once emptied stays empty. -/
theorem look_slots_foldl_empty (mask : Byte) (pens : List Pen) (k : Pen) :
    look (pens.foldl
        (fun l pen => if maskHas mask pen.val then l.mapSlot pen fun _ => none else l) l).slots k =
      if k ∈ pens ∧ maskHas mask k.val = true then none else look l.slots k := by
  induction pens generalizing l with
  | nil => simp
  | cons pen pens ih =>
    rw [List.foldl_cons, ih]
    by_cases hk : pen = k
    · subst hk
      cases hmask : maskHas mask pen.val <;> simp [look_slots_mapSlot]
    · have hslot : look (if maskHas mask pen.val then l.mapSlot pen fun _ => none else l).slots k =
          look l.slots k := by
        split
        · rw [look_slots_mapSlot, if_neg hk]
        · rfl
      simp [hslot, Ne.symm hk]

theorem mem_allPens (pen : Pen) : pen ∈ allPens := by
  revert pen; decide

theorem look_slots_emptySlots (mask : Byte) (pen : Pen) :
    look (l.emptySlots mask).slots pen =
      if maskHas mask pen.val then none else look l.slots pen := by
  rw [LivePort.emptySlots, look_slots_foldl_empty]
  simp [mem_allPens]

end

/-- A pen is newly muted when the new mask has it and the old one has not. -/
theorem maskHas_newlyMuted (new old : Byte) (pen : Pen) :
    maskHas (new &&& ~~~ old) pen.val = (maskHas new pen.val && !maskHas old pen.val) := by
  simp [maskHas, pen.isLt]

/-! ## LIVE_MUTE (R139) -/

theorem exec_liveMute (p : Port) (tag mask : Byte) (s : State) :
    exec (.liveMute p tag mask) s = .next (s.request p tag (liveMute p (some mask))) := rfl

section
variable (s : State) {p : Port}

theorem liveMute_without_view (hview : (s.permissions p).view = false) (mask : Option Byte) :
    liveMute p mask s = s.refuse .denied :=
  if_pos (by simp [hview])

/-- The newly muted pens are found with the old mask, before the new one is stored. -/
theorem liveMute_stores (hview : (s.permissions p).view = true) (mask : Byte) :
    liveMute p (some mask) s =
      (s.setLivePort p
        { (s.livePort p).emptySlots (mask &&& ~~~ (s.livePort p).mute) with mute := mask },
        some ⟨.ok, [mask]⟩) :=
  if_neg (not_not.mpr hview)

end

/-! ## The statement -/

/-- Settles O54: the request is its block's operation on the admitted state, whose live slots stand as
they stood before the admission; the slots it empties are those that the new mask has and the old one
has not. -/
theorem liveMuteEmptiesNewlyMutedSlots : Obligations.LiveMuteEmptiesNewlyMutedSlots := by
  intro p tag mask s hs
  rw [exec_liveMute]
  refine ⟨fun hview => ?denied, fun hview =>
    ⟨_, congrArg _ (request_replied hs (liveMute_stores (s.admitted p tag) hview mask)), rfl,
      fun pen => ?slots⟩⟩
  case denied =>
    rw [request_refused hs (liveMute_without_view (s.admitted p tag) hview _)]
  case slots =>
    rw [look_slots_emptySlots, maskHas_newlyMuted, admitted_livePort]

end Sys2Proof.Machine
end

section
/-! SUPPORT. What every step keeps: the shape of an invariant proof, once, and from it the conditions of
Safety.lean, the revisions (R78) and the queue. -/

namespace Sys2Proof.Machine

/-! ## The shape of an invariant -/

/-- A step is one command on the rest of the queue, or one millisecond of device time. -/
theorem step_cases {s t : State} (h : step s = .next t) :
    (∃ c rest, s.pending = c :: rest ∧ Moved { s with pending := rest } t) ∨
      ∃ time, t = { s with deviceTime := time } := by
  cases hq : s.pending with
  | nil =>
    rw [step_nil s hq] at h
    obtain ⟨time, htick⟩ := s.tick_eq
    cases h
    exact .inr ⟨time, by rw [htick, hq]⟩
  | cons c rest =>
    rw [step_cons s c rest hq] at h
    obtain ⟨u, hu, hmoved⟩ := exec_moved c { s with pending := rest }
    rw [hu] at h
    cases h
    exact .inl ⟨c, rest, rfl, hmoved⟩

/-- A condition that every move keeps, a run of moves keeps. -/
theorem Reach.keeps {P : State → Prop} (hmove : ∀ s t, Move s t → P s → P t) {s t : State}
    (h : Reach s t) (hs : P s) : P t := by
  induction h with
  | refl => exact hs
  | tail _ m ih => exact hmove _ _ m ih

/-- A condition that every move and every restart keeps, and that reads neither the queue nor the
device time, every step keeps. -/
theorem step_keeps {P : State → Prop}
    (hclock : ∀ (s : State) time queue, P s → P { s with deviceTime := time, pending := queue })
    (hmove : ∀ s t, Move s t → P s → P t) (hrestart : ∀ s t, Restarted s t → P s → P t)
    (s t : State) (hs : P s) (h : step s = .next t) : P t := by
  rcases step_cases h with ⟨c, rest, -, hreach | hrestarted⟩ | ⟨time, rfl⟩
  · exact hreach.keeps hmove (hclock s s.deviceTime rest hs)
  · exact hrestart _ _ hrestarted (hclock s s.deviceTime rest hs)
  · exact hclock s time s.pending hs

/-! ## Settings that a load gives -/

theorem Mirror.someRoom_iff (m : Mirror) :
    m.someRoom = true ↔ ∃ p, (look m.permissions p).room = true := by
  simp [Mirror.someRoom, allPorts, Fin.exists_fin_succ]

theorem look_mirrorOfImage_permissions (image : List Byte) (p : Port) :
    look (mirrorOfImage image).permissions p = namedPermissions (byteAt image p.val) := by
  match p with
  | 0 => rfl
  | 1 => rfl
  | 2 => rfl
  | 3 => rfl

theorem look_mirrorOfImage_pens (image : List Byte) (pen : Pen) :
    look (mirrorOfImage image).pens pen = penSettingsAt image (4 + 39 * pen.val) := by
  match pen with
  | 0 => rfl
  | 1 => rfl
  | 2 => rfl
  | 3 => rfl
  | 4 => rfl
  | 5 => rfl
  | 6 => rfl
  | 7 => rfl

theorem look_factoryMirror_pens (pen : Pen) : look factoryMirror.pens pen = factoryPen pen := by
  match pen with
  | 0 => rfl
  | 1 => rfl
  | 2 => rfl
  | 3 => rfl
  | 4 => rfl
  | 5 => rfl
  | 6 => rfl
  | 7 => rfl

theorem imageHasRoom_eq (image : List Byte) :
    imageHasRoom image = (mirrorOfImage image).someRoom := by
  simp only [imageHasRoom, Mirror.someRoom, look_mirrorOfImage_permissions]

theorem loadedSettings_accepted {image : List Byte} (h : imageAccepted image = true) :
    loadedSettings image = (mirrorOfImage image, .loaded) := if_pos h

theorem loadedSettings_rejected {image : List Byte} (h : imageAccepted image = false) :
    loadedSettings image = (factoryMirror, .defaulted) := if_neg (by simp [h])

theorem factoryMirror_someRoom : factoryMirror.someRoom = true := by decide

/-- Test 2 of R160 and the defaults of R163: whatever the image, some port holds ROOM after a load. -/
theorem loadedSettings_someRoom (image : List Byte) :
    (loadedSettings image).1.someRoom = true := by
  cases h : imageAccepted image with
  | false =>
    rw [loadedSettings_rejected h]
    exact factoryMirror_someRoom
  | true =>
    rw [loadedSettings_accepted h]
    rw [imageAccepted, Bool.and_eq_true, imageHasRoom_eq] at h
    exact h.2

/-- R160 brings each value of a pen record into range as it is entered. -/
theorem penSettingsAt_inRange (image : List Byte) (base : Nat) :
    (penSettingsAt image base).InRange where
  calibration := calibrationIntoRange_idem _
  tuning := tuningIntoRange_idem _
  colour := by
    dsimp only [penSettingsAt]
    split
    · decide
    · omega
  width := by
    dsimp only [penSettingsAt]
    split
    · decide
    · omega

theorem factoryPen_inRange : ∀ pen, (factoryPen pen).InRange := by
  intro pen
  constructor <;> revert pen <;> decide

theorem factoryMirror_inRange : factoryMirror.InRange where
  pens pen := by
    rw [look_factoryMirror_pens]
    exact factoryPen_inRange pen
  snapLimit := by decide

theorem loadedSettings_inRange (image : List Byte) : (loadedSettings image).1.InRange := by
  cases h : imageAccepted image with
  | false =>
    rw [loadedSettings_rejected h]
    exact factoryMirror_inRange
  | true =>
    rw [loadedSettings_accepted h]
    refine ⟨fun pen => ?_, snapLimitIntoRange_idem _⟩
    rw [look_mirrorOfImage_pens]
    exact penSettingsAt_inRange image _

/-! ## The blocks at their reset values -/

section
variable (s : State)

theorem resetBlocks_ringsAgree : s.resetBlocks.RingsAgree := by
  intro p
  have hring : s.resetBlocks.ring p = ringDefault := look_replicate _ _
  rw [hring]
  exact ringDefault_agrees

theorem resetBlocks_blocksKept : s.resetBlocks.BlocksKept where
  serials := List.nodup_nil
  blocks := by simp [State.resetBlocks, poolDefault, strokeTableDefault]

theorem resetBlocks_entriesInOrder : s.resetBlocks.EntriesInOrder where
  rising := List.Pairwise.nil
  bounded := fun _ h => absurd h List.not_mem_nil

theorem resetBlocks_placesCanonical : s.resetBlocks.PlacesCanonical := Memory.wf_nil

theorem resetBlocks_snapshot (p : Port) : s.resetBlocks.snapshot p = none := look_replicate _ _

theorem resetBlocks_holdsBounded : s.resetBlocks.HoldsBounded := by
  intro p a h
  rw [resetBlocks_snapshot] at h
  cases h

theorem resetBlocks_page (pg : Page) : s.resetBlocks.page pg = pageDefault := look_replicate _ _

end

/-- What holds of the blocks at their reset values holds after a restart. -/
theorem Restarted.of_resetBlocks {P : State → Prop} (hP : ∀ s : State, P s.resetBlocks) {s t : State}
    (h : Restarted s t) : P t := h.blocks ▸ hP t

theorem reset_resetBlocks : State.reset.resetBlocks = State.reset := rfl

theorem reset_link (p : Port) : State.reset.link p = linkDefault := look_replicate _ _

/-! ## What each move keeps -/

theorem Move.roomHeld {s t : State} (h : Move s t) (hs : s.RoomHeld) : t.RoomHeld := by
  cases h with
  | ink m =>
    have hout := m.sameOutside
    intro hphase
    rw [hout.mirror]
    exact hs (hout.phase ▸ hphase)
  | mirror m _ hroom => exact fun hphase => hroom (hs hphase)
  | load _ => exact fun _ => loadedSettings_someRoom _
  | _ => exact hs

theorem Move.blocksKept {s t : State} (h : Move s t) (hs : s.BlocksKept) : t.BlocksKept := by
  cases h with
  | ink m => exact m.blocksKept hs
  | _ => exact ⟨hs.serials, hs.blocks⟩

theorem Move.ringsAgree {s t : State} (h : Move s t) (hs : s.RingsAgree) : t.RingsAgree := by
  cases h with
  | ink m => exact m.ringsAgree hs
  | ring p r hr =>
    intro k
    rw [State.setRing_ring]
    split
    case isTrue hk => exact hr (hs p)
    case isFalse => exact hs k
  | _ => exact hs

theorem Move.entriesInOrder {s t : State} (h : Move s t) (hs : s.EntriesInOrder) :
    t.EntriesInOrder := by
  cases h with
  | ink m => exact m.entriesInOrder hs
  | _ => exact ⟨hs.rising, hs.bounded⟩

theorem Move.placesCanonical {s t : State} (h : Move s t) (hs : s.PlacesCanonical) :
    t.PlacesCanonical := by
  cases h with
  | ink m => exact m.placesCanonical hs
  | _ => exact hs

theorem Move.holdsBounded {s t : State} (h : Move s t) (hs : s.HoldsBounded) : t.HoldsBounded := by
  cases h with
  | ink m => exact m.holdsBounded hs
  | _ => exact hs

/-- A threshold that is kept from one in range is in range. -/
theorem thresholdKept.mem {l l' : Link} (h : thresholdKept l l')
    (hl : 1 ≤ l.threshold.toNat ∧ l.threshold.toNat ≤ 32) :
    1 ≤ l'.threshold.toNat ∧ l'.threshold.toNat ≤ 32 := by
  rcases h with hsame | hrange
  · rw [hsame]
    exact hl
  · exact hrange

theorem enterRunning_link (s : State) (p : Port) :
    s.enterRunning.link p = { s.link p with restarted := true } := look_each4 _ _ _

theorem Move.thresholdsInRange {s t : State} (h : Move s t) (hs : s.ThresholdsInRange) :
    t.ThresholdsInRange := by
  intro p
  cases h with
  | ink m =>
    obtain ⟨-, -, -, -, -, hthreshold, -⟩ := m.sameOutside.link_fields p
    rw [hthreshold]
    exact hs p
  | link q l hl =>
    rw [State.setLink_link]
    split
    case isTrue => exact hl.mem (hs q)
    case isFalse => exact hs p
  | load _ =>
    rw [enterRunning_link]
    exact hs p
  | _ => exact hs p

theorem Move.settingsInRange {s t : State} (h : Move s t) (hs : s.SettingsInRange) :
    t.SettingsInRange := by
  cases h with
  | ink m =>
    rw [State.SettingsInRange, m.sameOutside.mirror]
    exact hs
  | mirror m hr _ => exact hr hs
  | load _ => exact loadedSettings_inRange _
  | _ => exact hs

theorem Move.revision_le {s t : State} (h : Move s t) (pg : Page) :
    (s.page pg).revision.toNat ≤ (t.page pg).revision.toNat := by
  cases h with
  | ink m => exact (m.page_fields pg).2
  | page k r hr =>
    rw [State.setPage_page]
    split
    case isTrue hk => exact hk ▸ hr
    case isFalse => exact le_rfl
  | _ => exact le_rfl

theorem Reach.revision_le {s t : State} (h : Reach s t) (pg : Page) :
    (s.page pg).revision.toNat ≤ (t.page pg).revision.toNat := by
  induction h with
  | refl => exact le_rfl
  | tail _ m ih => exact ih.trans (m.revision_le pg)

/-! ## The statements -/

/-- Settles O6: no move lowers ROOM to none, a load from any image leaves some port with it, and a
restart keeps the mirror. -/
theorem somePortAlwaysHoldsRoom : Obligations.SomePortAlwaysHoldsRoom :=
  step_keeps (fun _ _ _ hs => hs) (fun _ _ h => h.roomHeld) fun _ _ h hs hphase => by
    rw [h.mirror]
    exact hs (h.phase hphase)

/-- Settles O7. -/
theorem blocksAndSerialsAreConserved : Obligations.BlocksAndSerialsAreConserved :=
  step_keeps (fun _ _ _ hs => ⟨hs.serials, hs.blocks⟩) (fun _ _ h => h.blocksKept)
    fun _ _ h _ => h.of_resetBlocks resetBlocks_blocksKept

/-- Settles O8. -/
theorem ringsStayInAgreement : Obligations.RingsStayInAgreement :=
  step_keeps (fun _ _ _ hs => hs) (fun _ _ h => h.ringsAgree)
    fun _ _ h _ => h.of_resetBlocks resetBlocks_ringsAgree

/-- Settles O9: the five conditions, each by what a move and a restart do to it. -/
theorem orderAndBoundsAreKept : Obligations.OrderAndBoundsAreKept := by
  refine ⟨?entries, ?places, ?holds, ?thresholds, ?settings⟩
  case entries =>
    exact step_keeps (fun _ _ _ hs => ⟨hs.rising, hs.bounded⟩) (fun _ _ h => h.entriesInOrder)
      fun _ _ h _ => h.of_resetBlocks resetBlocks_entriesInOrder
  case places =>
    exact step_keeps (fun _ _ _ hs => hs) (fun _ _ h => h.placesCanonical)
      fun _ _ h _ => h.of_resetBlocks resetBlocks_placesCanonical
  case holds =>
    exact step_keeps (fun _ _ _ hs => hs) (fun _ _ h => h.holdsBounded)
      fun _ _ h _ => h.of_resetBlocks resetBlocks_holdsBounded
  case thresholds =>
    exact step_keeps (fun _ _ _ hs => hs) (fun _ _ h => h.thresholdsInRange)
      fun _ _ h hs p => (h.links p).mem (hs p)
  case settings =>
    refine step_keeps (fun _ _ _ hs => hs) (fun _ _ h => h.settingsInRange) fun _ _ h hs => ?_
    rw [State.SettingsInRange, h.mirror]
    exact hs

/-- Settles O10: a run of moves lowers no revision, a restart resets every page, and device time
touches none. -/
theorem revisionsNeverFallButAtAReset : Obligations.RevisionsNeverFallButAtAReset := by
  intro s t h
  rcases step_cases h with ⟨c, rest, -, hreach | hrestarted⟩ | ⟨time, rfl⟩
  · exact .inl hreach.revision_le
  · exact .inr (hrestarted.of_resetBlocks (P := fun u => ∀ pg, u.page pg = pageDefault)
      resetBlocks_page)
  · exact .inl fun _ => le_rfl

/-- Settles O3. -/
theorem everyCommandAnswersAndKeepsTheQueue : Obligations.EveryCommandAnswersAndKeepsTheQueue := by
  intro c s
  obtain ⟨t, ht, hmoved⟩ := exec_moved c s
  exact ⟨t, ht, hmoved.pending⟩

/-- Settles O1. -/
theorem stepRunsTheFrontCommand : Obligations.StepRunsTheFrontCommand :=
  fun c s => step_cons { s with pending := c :: s.pending } c s.pending rfl

/-- Settles O2. -/
theorem emptyQueueCountsDeviceTime : Obligations.EmptyQueueCountsDeviceTime := by
  intro s hq
  rw [step_nil s hq, State.tick]
  cases hphase : s.phase with
  | off => exact ⟨fun h => absurd rfl h, fun _ => rfl⟩
  | starting => exact ⟨fun _ => rfl, fun h => by cases h⟩
  | running => exact ⟨fun _ => rfl, fun h => by cases h⟩

/-- Settles O5: the blocks are at their reset values, the links at theirs, and the mirror holds the
factory settings. -/
theorem conditionsHoldAtReset : Obligations.ConditionsHoldAtReset := by
  have hblocks := reset_resetBlocks
  refine ⟨?room, hblocks ▸ resetBlocks_ringsAgree _, hblocks ▸ resetBlocks_blocksKept _,
    hblocks ▸ resetBlocks_entriesInOrder _, hblocks ▸ resetBlocks_placesCanonical _,
    hblocks ▸ resetBlocks_holdsBounded _, ?thresholds, factoryMirror_inRange⟩
  case room =>
    intro h
    cases h
  case thresholds =>
    intro p
    rw [reset_link]
    decide

end Sys2Proof.Machine
end

section
/-! SUPPORT. Bits and bytes on the wire (R168, R173), the frames of a port (R142 to R146, R158, R161),
and the statements about them. -/

namespace Sys2Proof.Machine

/-! ## Bits and bytes (R168, R173) -/

/-- Fewer than eight edges make no byte. -/
theorem bytesOfBits_short {cut : List Bool} (h : cut.length < 8) : bytesOfBits cut = [] := by
  match cut, h with
  | [], _ => rfl
  | [_], _ => rfl
  | [_, _], _ => rfl
  | [_, _, _], _ => rfl
  | [_, _, _, _], _ => rfl
  | [_, _, _, _, _], _ => rfl
  | [_, _, _, _, _, _], _ => rfl
  | [_, _, _, _, _, _, _], _ => rfl
  | _ :: _ :: _ :: _ :: _ :: _ :: _ :: _ :: rest, h =>
    simp only [List.length_cons] at h
    omega

theorem byteOfBits_bits (b : Byte) :
    byteOfBits [b.getLsbD 7, b.getLsbD 6, b.getLsbD 5, b.getLsbD 4, b.getLsbD 3, b.getLsbD 2,
      b.getLsbD 1, b.getLsbD 0] = b := by
  revert b
  decide

/-- The bytes sent come back from their bits, and a byte cut short does not count. -/
theorem bytesOfBits_bitsOfBytes (bytes : List Byte) {cut : List Bool} (h : cut.length < 8) :
    bytesOfBits (bitsOfBytes bytes ++ cut) = bytes := by
  induction bytes with
  | nil => exact bytesOfBits_short h
  | cons b rest ih =>
    change byteOfBits _ :: bytesOfBits (bitsOfBytes rest ++ cut) = b :: rest
    rw [byteOfBits_bits, ih]

theorem bitsOfBytes_append (l l' : List Byte) :
    bitsOfBytes (l ++ l') = bitsOfBytes l ++ bitsOfBytes l' := by
  induction l with
  | nil => rfl
  | cons b rest ih =>
    change _ ++ bitsOfBytes (rest ++ l') = (_ ++ bitsOfBytes rest) ++ bitsOfBytes l'
    rw [ih, List.append_assoc]

theorem bitOut_eq (f : Frame) (n : Nat) {i : Nat} (h : i < 8) :
    f.bitOut (8 * n + i) = (f.byteOut n).getLsbD (7 - i) := by
  rw [Frame.bitOut, show (8 * n + i) / 8 = n by omega, show (8 * n + i) % 8 = i by omega]

/-- Eight edges more show the bits of one byte more. -/
theorem bitsOut_succ (f : Frame) (n : Nat) :
    f.bitsOut (8 * (n + 1)) = f.bitsOut (8 * n) ++ bitsOfBytes [f.byteOut n] := by
  rw [Frame.bitsOut, show 8 * (n + 1) = 8 * n + 8 by omega, List.range_add, List.map_append,
    List.map_map]
  congr 1
  have hfirst : f.bitOut (8 * n) = (f.byteOut n).getLsbD 7 := bitOut_eq f n (i := 0) (by omega)
  simp [List.range_succ, bitsOfBytes, bitOut_eq, hfirst]

theorem bitsOut_eq (f : Frame) (n : Nat) :
    f.bitsOut (8 * n) = bitsOfBytes ((List.range n).map f.byteOut) := by
  induction n with
  | zero => rfl
  | succ n ih =>
    rw [bitsOut_succ, ih, List.range_succ, List.map_append, bitsOfBytes_append]
    rfl

/-- Settles O12. -/
theorem bytesSurviveTheWire : Obligations.BytesSurviveTheWire := by
  refine ⟨fun bytes cut => bytesOfBits_bitsOfBytes bytes, fun f n i => bitOut_eq f n,
    fun f n => ?sampled, fun s p falls => ⟨fun h => ?high, fun f h => ?low⟩⟩
  case sampled =>
    rw [bitsOut_eq, ← List.append_nil (bitsOfBytes _), bytesOfBits_bitsOfBytes _ (by decide)]
  case high => rw [State.dataOut, h]; rfl
  case low => rw [State.dataOut, h]; rfl

/-! ## Select fall (R142) -/

/-- The content of the frame, then fill. -/
theorem byteOut_of_uncut {f : Frame} (h : f.course = .ordinary ∨ f.course = .starting) (k : Nat) :
    f.byteOut k = f.content.getD k 0xFF := by
  rcases h with h | h <;> rw [Frame.byteOut, h]

theorem runningFrame_course (l : Link) : l.runningFrame.course = .ordinary := by
  rw [Link.runningFrame]
  cases l.state <;> rfl

theorem exec_selectFall_starting {s : State} {p : Port} (hphase : s.phase = .starting)
    (hframe : (s.link p).frame = none) :
    exec (.selectFall p) s = .next (s.setLink p
      { s.link p with frame := some (headerFrame .notReady 0 .starting) }) := by
  change execSelectFall p s = _
  rw [execSelectFall, hphase, hframe]

theorem exec_selectFall_running {s : State} {p : Port} (hphase : s.phase = .running)
    (hframe : (s.link p).frame = none) :
    exec (.selectFall p) s = .next (s.setLink p
      { s.link p with frame := some (s.link p).runningFrame }) := by
  change execSelectFall p s = _
  rw [execSelectFall, hphase, hframe]

/-- Settles O17: the frame by the phase, and what it shifts out as a frame that no reset has cut. -/
theorem selectFallFixesTheContent : Obligations.SelectFallFixesTheContent := by
  intro p s hon hframe
  have hshifted : ∀ f : Frame, f.course = .ordinary ∨ f.course = .starting →
      (∀ k, f.content.length ≤ k → f.byteOut k = 0xFF) ∧
      ∀ k (h : k < f.content.length), f.byteOut k = f.content[k] := fun f hcourse =>
    ⟨fun k hk => by rw [byteOut_of_uncut hcourse, List.getD_eq_default _ _ hk],
      fun k hk => by rw [byteOut_of_uncut hcourse, List.getD_eq_getElem _ _ hk]⟩
  cases hphase : s.phase with
  | off => exact absurd hphase hon
  | starting =>
    obtain ⟨hfill, hcontent⟩ := hshifted (headerFrame .notReady 0 .starting) (.inr rfl)
    exact ⟨_, exec_selectFall_starting hphase hframe, fun _ => ⟨rfl, rfl⟩, nofun, hfill, hcontent⟩
  | running =>
    have hcourse := runningFrame_course (s.link p)
    obtain ⟨hfill, hcontent⟩ := hshifted _ (.inl hcourse)
    refine ⟨_, exec_selectFall_running hphase hframe, nofun, fun _ => ⟨hcourse, ?_, ?_, ?_⟩, hfill,
      hcontent⟩
    · intro a ha
      simp [Link.runningFrame, ha]
    · intro tag htag
      simp [Link.runningFrame, htag, headerFrame]
    · intro hidle
      simp [Link.runningFrame, hidle, headerFrame]

/-! ## Select rise (R143 to R145) -/

/-- The link after the frame has ended and, where the frame shifted out a pending answer whole, that
answer was consumed. -/
def State.linkAfterFrame (s : State) (p : Port) (f : Frame) (shifted : Nat) : Link :=
  if f.consumes shifted then { s.link p with frame := none }.consumed
  else { s.link p with frame := none }

theorem exec_selectRise_ordinary {s : State} {p : Port} {f : Frame} (hphase : s.phase = .running)
    (hframe : (s.link p).frame = some f) (hcourse : f.course = .ordinary) (edges : List Bool) :
    exec (.selectRise p edges) s =
      .next ((s.setLink p (s.linkAfterFrame p f (bytesOfBits edges).length)).judge p
        (carriedBy (bytesOfBits edges))) := by
  change execSelectRise p edges s = _
  rw [execSelectRise, hframe]
  exact if_pos ⟨hphase, hcourse⟩

theorem exec_selectRise_discarded {s : State} {p : Port} {f : Frame}
    (hframe : (s.link p).frame = some f) (h : s.phase ≠ .running ∨ f.course ≠ .ordinary)
    (edges : List Bool) :
    exec (.selectRise p edges) s = .next (s.setLink p { s.link p with frame := none }) := by
  change execSelectRise p edges s = _
  rw [execSelectRise, hframe]
  exact if_neg (by tauto)

theorem carriedBy_fill {bytes : List Byte} (h : bytes.head? = some 0xFF ∨ bytes = []) :
    carriedBy bytes = .nothing := by
  cases bytes with
  | nil => rfl
  | cons code rest =>
    have hcode : code = 0xFF := by simpa using h
    exact if_pos hcode

theorem consumes_of_showsAnswer {f : Frame} (h : f.showsAnswer = true) (shifted : Nat) :
    f.consumes shifted = decide (f.content.length ≤ shifted) := by
  rw [Frame.consumes, h, Bool.true_and]

/-- Settles O18: a frame that carries no request ends with its consumption, if any. -/
theorem wholeAnswerIsConsumed : Obligations.WholeAnswerIsConsumed := by
  intro p edges s f a hphase hready hframe hcourse hshows hcontent hnothing
  have hrise : exec (.selectRise p edges) s =
      .next (s.setLink p (s.linkAfterFrame p f (bytesOfBits edges).length)) := by
    rw [exec_selectRise_ordinary hphase hframe hcourse, carriedBy_fill hnothing]
    rfl
  rw [hrise, State.linkAfterFrame, consumes_of_showsAnswer hshows]
  constructor
  · intro hwhole
    rw [if_pos (decide_eq_true hwhole)]
    simp [Link.consumed, hready]
  · intro hpart
    rw [if_neg (by simpa using hpart)]

section
variable {s : State} {p : Port}

/-- A complete request that is no DETACH of length 0 with a right check byte is not taken on a link
that is not IDLE (R145, case 3). -/
theorem judge_whole_notTaken (hbusy : (s.link p).state ≠ .idle) {code tag : Byte}
    {payload : List Byte} {right : Bool} (h : code ≠ requestCode .detach ∨ payload ≠ [] ∨
      right = false ∨ ∃ a, (s.link p).state = .answerReady a) :
    s.judge p (.whole code tag payload right) = s := by
  cases hstate : (s.link p).state with
  | idle => exact absurd hstate hbusy
  | answerReady a => simp only [State.judge, hstate]
  | working other =>
    simp only [State.judge, hstate, State.judgeWorking]
    refine if_neg fun ⟨hcode, hpayload, hright⟩ => ?_
    have hdetach : requestCode .detach = code := by
      have := List.find?_some hcode
      simpa using this
    rcases h with h | h | h | ⟨a, h⟩
    · exact h hdetach.symm
    · exact h hpayload
    · rw [h] at hright; cases hright
    · rw [hstate] at h; cases h

theorem judge_tooLong_notTaken (hbusy : (s.link p).state ≠ .idle) (tag : Byte) :
    s.judge p (.tooLong tag) = s := by
  cases hstate : (s.link p).state with
  | idle => exact absurd hstate hbusy
  | answerReady a => simp only [State.judge, hstate]
  | working other => simp only [State.judge, hstate, State.judgeWorking]

/-- The exception of R145, case 3, is the command DETACH. -/
theorem judge_detach_working {other : Byte} (hworking : (s.link p).state = .working other)
    (tag : Byte) :
    .next (s.judge p (.whole (requestCode .detach) tag [] true)) = exec (.detach p tag) s := by
  change _ = execDetach p tag s
  simp only [execDetach, State.judge, hworking, State.judgeWorking]
  rw [if_pos (by simp [requestOf_requestCode])]

end

/-- Settles O19: the judgement of R145 by what the frame carried and the link's state. -/
theorem requestsThatAreNotTaken : Obligations.RequestsThatAreNotTaken := by
  intro p edges s f l hphase hframe hcourse hl
  have hrise : exec (.selectRise p edges) s =
      .next ((s.setLink p l).judge p (carriedBy (bytesOfBits edges))) := by
    rw [exec_selectRise_ordinary hphase hframe hcourse, hl]
    rfl
  have hlink : (s.setLink p l).link p = l := State.setLink_link_self _ _ _
  refine ⟨fun h => ?nothing, fun h => ?incomplete, fun hbusy => ⟨fun tag h => ?tooLong,
    fun code tag payload right h hnot => ?whole⟩, fun other tag hworking h => ?detach⟩
  case nothing =>
    rw [hrise, h]
    rfl
  case incomplete =>
    rw [hrise, h, State.judge, setLink_setLink, hlink]
  case tooLong =>
    rw [hrise, h, judge_tooLong_notTaken (by rwa [hlink])]
  case whole =>
    rw [hrise, h, judge_whole_notTaken (by rwa [hlink]) (by rwa [hlink])]
  case detach =>
    rw [hrise, h, judge_detach_working (by rw [hlink, hworking])]

section
variable {s : State} {p : Port} (hidle : (s.link p).state = .idle)
include hidle

theorem judge_tooLong_idle (tag : Byte) :
    s.judge p (.tooLong tag) = s.linkAnswer p .length tag := by
  simp only [State.judge, hidle]

theorem judge_whole_idle (code tag : Byte) (payload : List Byte) (right : Bool) :
    s.judge p (.whole code tag payload right) = s.judgeWhole p code tag payload right := by
  simp only [State.judge, hidle]

end

/-- A request of the part with a right check byte goes to its block (R145, case 7). -/
theorem judgeWhole_request (s : State) (p : Port) {code : Byte} {r : Request}
    (hcode : requestOf code = some r) (tag : Byte) (payload : List Byte) :
    s.judgeWhole p code tag payload true = s.request p tag (runRequest p tag r payload) := by
  rw [State.judgeWhole, if_neg (by decide), hcode]

theorem State.ReachesLengthTest.admitted {s : State} {p : Port} {r : Request} {payload : List Byte}
    (h : s.ReachesLengthTest p r payload) (l : Link) (tag : Byte) :
    ((s.setLink p l).admitted p tag).ReachesLengthTest p r payload where
  permission := h.permission
  source := h.source
  record := h.record

theorem State.LacksPermission.admitted {s : State} {p : Port} {r : Request} {payload : List Byte}
    (h : s.LacksPermission p r payload) (l : Link) (tag : Byte) :
    ((s.setLink p l).admitted p tag).LacksPermission p r payload := h

/-- Settles O20: the link's own answers, and a block's answers to a payload of another length. -/
theorem linkAnswersBadRequests : Obligations.LinkAnswersBadRequests := by
  intro p edges s f l answer hphase hframe hcourse hl hidle hanswer
  have hrise : exec (.selectRise p edges) s =
      .next ((s.setLink p l).judge p (carriedBy (bytesOfBits edges))) := by
    rw [exec_selectRise_ordinary hphase hframe hcourse, hl]
    rfl
  have hlink : (s.setLink p l).link p = l := State.setLink_link_self _ _ _
  have hfree : ((s.setLink p l).link p).state = .idle := by rw [hlink, hidle]
  have hadmits : (s.setLink p l).Admits p := ⟨hphase, hfree⟩
  have hown : ∀ status tag, (s.setLink p l).linkAnswer p status tag = answer status tag := by
    intro status tag
    rw [hanswer, State.linkAnswer, State.answerReady, setLink_setLink, hlink]
  refine ⟨fun tag h => ?tooLong, fun code tag payload h => ?check, fun code tag payload h hnone =>
    ?unknown, fun code tag payload r h hr hlength =>
      ⟨fun hreaches => ?range, fun hlacks => ?denied⟩⟩
  case tooLong =>
    rw [hrise, h, judge_tooLong_idle hfree, hown]
  case check =>
    rw [hrise, h, judge_whole_idle hfree, State.judgeWhole, if_pos (by decide), hown]
  case unknown =>
    rw [hrise, h, judge_whole_idle hfree, State.judgeWhole, if_neg (by decide), hnone]
    exact congrArg _ (hown _ _)
  case range =>
    rw [hrise, h, judge_whole_idle hfree, judgeWhole_request _ _ hr, request_refused hadmits
      (runRequest_otherLength p tag r payload _ hlength (hreaches.admitted l tag))]
  case denied =>
    rw [hrise, h, judge_whole_idle hfree, judgeWhole_request _ _ hr, request_refused hadmits
      (runRequest_denied p tag r payload _ (hlacks.admitted l tag))]

/-- Settles O21. -/
theorem cutFramesAreDiscarded : Obligations.CutFramesAreDiscarded :=
  fun _ edges _ _ hframe h => ⟨exec_selectRise_discarded hframe h edges, fun hcut k => by
    rw [Frame.byteOut, hcut]⟩

/-! ## Answers made ready (R146, R147) -/

theorem makeReady_cons {s : State} {p : Port} {f : Forming} {rest : List Forming}
    (h : (s.link p).forming = f :: rest) :
    s.makeReady p =
      (s.setLink p { s.link p with forming := rest }).deliver p f.wanted f.answer := by
  rw [State.makeReady, h]

/-- Settles O22. -/
theorem formedAnswersAreMadeReady : Obligations.FormedAnswersAreMadeReady := by
  intro p s f rest hphase hforming
  have hexec : exec (.answerMadeReady p) s = .next (s.makeReady p) := by
    change execAnswerMadeReady p s = _
    rw [execAnswerMadeReady, hphase]
  rw [hexec, makeReady_cons hforming, State.deliver]
  constructor
  · intro hwanted
    rw [if_pos hwanted, State.answerReady, setLink_setLink, State.setLink_link_self]
  · intro hunwanted
    rw [if_neg (by simp [hunwanted])]

/-! ## The frame of a request (R144, R168, R169) -/

theorem carriedAfterHeader_whole (code tag : Byte) {l1 l0 : Byte} {payload : List Byte}
    (hlength : (wordOf l1 l0).toNat = payload.length) (h : payload.length ≤ 300) :
    carriedAfterHeader code tag l1 l0
      (payload ++ [checkByte ([code, tag, l1, l0] ++ payload)]) = .whole code tag payload true := by
  simp [carriedAfterHeader, hlength, Config.maxPayload, h]

/-- A request frame with a payload that may be declared carries its request. -/
theorem carriedBy_requestFrame {code : Byte} (hcode : code ≠ 0xFF) (tag : Byte)
    {payload : List Byte} (h : payload.length ≤ 300) :
    carriedBy (requestFrame code tag payload) = .whole code tag payload true := by
  have hlength : (wordOf ((BitVec.ofNat 16 payload.length).extractLsb' 8 8)
      ((BitVec.ofNat 16 payload.length).extractLsb' 0 8)).toNat = payload.length := by
    rw [wordOf_bytes, BitVec.toNat_ofNat]
    exact Nat.mod_eq_of_lt (by omega)
  rw [← carriedAfterHeader_whole code tag hlength h]
  exact if_neg hcode

/-- The payload of a well-formed request may be declared. -/
theorem wireRequest_payload_le {c : Instr} {w : WireRequest} (hw : wireRequest c = some w)
    (hwell : c.wellFormed = true) : w.payload.length ≤ 300 := by
  cases c <;> cases hw
  case submitSamples port tag pen samples =>
    exact Laws.PayloadFits.submitSamples port tag pen samples hwell _ rfl
  case setPenTuning port tag pen values limit =>
    exact Laws.PayloadFits.setPenTuning port tag pen values limit hwell _ rfl
  all_goals exact of_decide_eq_true rfl

theorem sampleRecords_sampleBytes (samples : List Sample) :
    sampleRecords (samples.flatMap sampleBytes) = some samples := by
  induction samples with
  | nil => rfl
  | cons x rest ih =>
    simp [sampleBytes, wordBytes, sampleRecords, ih]

theorem sampleFields_wire (pen : Byte) {samples : List Sample}
    (h : Sample.listFits samples = true) :
    sampleFields ([pen] ++ natByte samples.length ++ samples.flatMap sampleBytes) =
      some samples := by
  have hfits : 2 + 8 * samples.length ≤ 300 := of_decide_eq_true h
  have hcount : (BitVec.ofNat 8 samples.length).toNat = samples.length := by
    rw [BitVec.toNat_ofNat]
    exact Nat.mod_eq_of_lt (by omega)
  have hlength :
      (samples.flatMap sampleBytes).length = 8 * (BitVec.ofNat 8 samples.length).toNat := by
    rw [hcount, Laws.PayloadFits.samples_length]
  exact (if_pos hlength).trans (sampleRecords_sampleBytes samples)

theorem calibrationFields_wire (pen : Byte) (values : Calibration) :
    calibrationFields ([pen] ++ calibrationBytes values) = some values := by
  simp [calibrationBytes, wordBytes, calibrationFields]

theorem tuningFields_wire (pen : Byte) (values : Tuning) (limit : Option Word) :
    tuningFields ([pen] ++ tuningBytes values ++ snapLimitBytes limit) = some (values, limit) := by
  cases limit <;>
    simp [tuningFields, tuningBytes, tuningWords, wordBytes, snapLimitBytes, tuningAt, wordAt,
      byteAt]

/-- A request's command is its block's operation on the fields that its payload gives. -/
theorem exec_of_wireRequest {c : Instr} {w : WireRequest} (hw : wireRequest c = some w)
    (hwell : c.wellFormed = true) {s : State} (hidle : (s.link w.port).state = .idle) :
    exec c s =
      .next (s.request w.port w.tag (runRequest w.port w.tag w.request w.payload)) := by
  cases c <;> cases hw
  case submitSamples port tag pen samples =>
    change _ = Host.Outcome.next
      (s.request port tag (Machine.submitSamples port (some pen) (sampleFields _)))
    rw [sampleFields_wire pen hwell]
    rfl
  case setCalibration port tag pen values =>
    change _ = Host.Outcome.next
      (s.request port tag (Machine.setCalibration port (some pen) (calibrationFields _)))
    rw [calibrationFields_wire]
    rfl
  case setPenTuning port tag pen values limit =>
    change _ = Host.Outcome.next
      (s.request port tag (Machine.setPenTuning port (some pen) (tuningFields _)))
    rw [tuningFields_wire]
    rfl
  case readStroke port tag serial start =>
    simp [exec, execReadStroke, runRequest, longBytes, wordBytes, readFields]
  case eraseStroke port tag serial =>
    simp [exec, execEraseStroke, runRequest, longBytes, serialField]
  case eraseRegion port tag page x0 y0 x1 y1 mode =>
    simp [exec, execEraseRegion, runRequest, wordBytes, regionPage, regionFields]
  case snapshotList port tag offset count =>
    simp [exec, execSnapshotList, runRequest, wordBytes, wordThenByte]
  case subscribe port tag pageMask kindMask =>
    simp [exec, execSubscribe, runRequest, wordBytes, wordThenByte]
  case detach port tag =>
    change execDetach port tag s = _
    rw [execDetach, hidle]
    rfl
  all_goals rfl

/-- Settles O11: the frame's bytes come back from its bits, carry the request, and its payload gives
the fields that were sent. -/
theorem requestFramesRunTheirCommands : Obligations.RequestFramesRunTheirCommands := by
  intro c w s f l hw hwell hphase hframe hcourse hl hidle
  have hbytes : bytesOfBits (bitsOfBytes w.bytes) = w.bytes := by
    rw [← List.append_nil (bitsOfBytes _), bytesOfBits_bitsOfBytes _ (by decide)]
  have hlink : ((s.setLink w.port l).link w.port).state = .idle := by
    rw [State.setLink_link_self, hidle]
  rw [exec_selectRise_ordinary hphase hframe hcourse, hbytes, exec_of_wireRequest hw hwell hlink,
    State.linkAfterFrame, ← hl, WireRequest.bytes,
    carriedBy_requestFrame (requestCode_ne_fill _) _ (wireRequest_payload_le hw hwell),
    judge_whole_idle hlink, judgeWhole_request _ _ (requestOf_requestCode _)]

end Sys2Proof.Machine
end

section
/-! SUPPORT. The settings image (R160, R164, R172), power and start-up (R161, R166), the
conditions of the attention line (R152), and the statements about them. -/

namespace Sys2Proof.Machine

/-! ## The values right after power-on -/

section
variable (p : Port) (pen : Pen) (pg : Page)

theorem reset_channel : State.reset.channel pen = channelDefault := look_replicate _ _

theorem reset_page : State.reset.page pg = pageDefault := look_replicate _ _

theorem reset_snapshot : State.reset.snapshot p = none := look_replicate _ _

theorem reset_ring : State.reset.ring p = ringDefault := look_replicate _ _

theorem reset_livePort : State.reset.livePort p = livePortDefault := look_replicate _ _

end

/-- Settles O4. -/
theorem resetHoldsPowerOnValues : Obligations.ResetHoldsPowerOnValues := by
  refine ⟨rfl, rfl, rfl, fun p => ?link, fun pen => ?channel, rfl, rfl, ?free, fun pg => ?page,
    reset_snapshot, fun p => ?ring, fun p => ?live⟩
  case link =>
    rw [reset_link]
    exact ⟨rfl, rfl, rfl, rfl, rfl, rfl, rfl⟩
  case channel =>
    rw [reset_channel]
    exact ⟨rfl, rfl, rfl, rfl, rfl, rfl, rfl, rfl, rfl, rfl⟩
  case free => simp only [State.reset, poolDefault, Config.pointBlocks]
  case page =>
    rw [reset_page]
    exact ⟨rfl, rfl, rfl, rfl⟩
  case ring =>
    rw [reset_ring]
    exact ⟨look_replicate _, rfl, rfl, rfl, rfl, rfl, rfl⟩
  case live =>
    rw [reset_livePort]
    exact ⟨look_replicate _, rfl⟩

/-! ## Records read back at their places (R172) -/

theorem byteAt_append (pre l : List Byte) (i : Nat) :
    byteAt (pre ++ l) (pre.length + i) = byteAt l i := by
  rw [byteAt, byteAt, List.getD_append_right _ _ _ _ (Nat.le_add_right _ _),
    Nat.add_sub_cancel_left]

theorem byteAt_append_left {l : List Byte} {i : Nat} (h : i < l.length) (post : List Byte) :
    byteAt (l ++ post) i = byteAt l i := List.getD_append _ _ _ _ h

/-- The settings at a place are read from the 39 bytes there and from no other. -/
theorem penSettingsAt_congr {image image' : List Byte} {base base' : Nat}
    (h : ∀ j < 39, byteAt image (base + j) = byteAt image' (base' + j)) :
    penSettingsAt image base = penSettingsAt image' base' := by
  have hword : ∀ j, j + 1 < 39 → wordAt image (base + j) = wordAt image' (base' + j) := by
    intro j hj
    rw [wordAt, wordAt, h j (by omega), Nat.add_assoc, Nat.add_assoc, h (j + 1) hj]
  have hfirst : byteAt image base = byteAt image' base' := h 0 (by decide)
  simp (disch := decide) only [penSettingsAt, Nat.add_assoc, hword, hfirst, h]

/-- A pen record gives the settings it was made from, where they are in range. -/
theorem penSettingsAt_record {v : PenSettings} (h : v.InRange) :
    penSettingsAt (penRecordBytes v) 0 = v := by
  have hcolour : ¬ 15 < v.colour.toNat := not_lt.mpr h.colour
  have hwidth : ¬ 7 < v.width.toNat := not_lt.mpr h.width
  simp [penSettingsAt, penRecordBytes, tuningBytes, tuningWords, calibrationBytes, wordBytes,
    wordAt, byteAt, h.calibration, h.tuning, hcolour, hwidth]

section
variable (m : Mirror)

theorem byteAt_imageOfMirror_permissions (p : Port) :
    byteAt (imageOfMirror m) p.val = permissionsByte (look m.permissions p) := by
  match p with
  | 0 => rfl
  | 1 => rfl
  | 2 => rfl
  | 3 => rfl

theorem flatMap_penRecordBytes_length (pens : List Pen) :
    (pens.flatMap fun p => penRecordBytes (look m.pens p)).length = 39 * pens.length := by
  simp [List.length_flatMap, Nat.mul_comm]

/-- Pen `k`'s record stands at byte 4 + 39 k of the image. -/
theorem imageOfMirror_record (k : Pen) :
    ∃ pre post, imageOfMirror m = pre ++ (penRecordBytes (look m.pens k) ++ post) ∧
      pre.length = 4 + 39 * k.val := by
  have hsplit : allPens = allPens.take k.val ++ k :: allPens.drop (k.val + 1) := by
    revert k
    decide
  have hbefore : (allPens.take k.val).length = k.val := by
    revert k
    decide
  refine ⟨allPorts.map (fun p => permissionsByte (look m.permissions p))
      ++ (allPens.take k.val).flatMap fun p => penRecordBytes (look m.pens p),
    (allPens.drop (k.val + 1)).flatMap (fun p => penRecordBytes (look m.pens p))
      ++ wordBytes m.snapLimit ++ wordBytes (mirrorCheckWord m), ?_, ?_⟩
  · rw [imageOfMirror, imageBodyBytes]
    conv_lhs => rw [hsplit]
    simp only [List.flatMap_append, List.flatMap_cons, List.append_assoc]
  · rw [List.length_append, flatMap_penRecordBytes_length, hbefore]
    rfl

theorem penSettingsAt_imageOfMirror (k : Pen) (h : (look m.pens k).InRange) :
    penSettingsAt (imageOfMirror m) (4 + 39 * k.val) = look m.pens k := by
  obtain ⟨pre, post, himage, hlength⟩ := imageOfMirror_record m k
  rw [himage, ← hlength, ← penSettingsAt_record h]
  refine penSettingsAt_congr fun j hj => ?_
  rw [byteAt_append, penSettingsAt_record h, Nat.zero_add,
    byteAt_append_left (by rwa [penRecordBytes_length])]

theorem wordAt_imageOfMirror_snapLimit : wordAt (imageOfMirror m) 316 = m.snapLimit := by
  have hlength : (allPorts.map (fun p => permissionsByte (look m.permissions p))
      ++ allPens.flatMap fun p => penRecordBytes (look m.pens p)).length = 316 := by
    rw [List.length_append, flatMap_penRecordBytes_length]
    rfl
  have hword := wordAt_wordBytes
    (allPorts.map (fun p => permissionsByte (look m.permissions p))
      ++ allPens.flatMap fun p => penRecordBytes (look m.pens p))
    m.snapLimit (wordBytes (mirrorCheckWord m))
  rw [hlength] at hword
  rw [imageOfMirror, imageBodyBytes, List.append_assoc]
  exact hword

end

theorem look_ext {α : Type} {n : Nat} {v w : Vector α n} (h : ∀ i, look v i = look w i) : v = w :=
  Vector.ext fun i hi => h ⟨i, hi⟩

/-- The image of a mirror in range gives that mirror. -/
theorem mirrorOfImage_imageOfMirror {m : Mirror} (h : m.InRange) :
    mirrorOfImage (imageOfMirror m) = m := by
  have hpermissions : (mirrorOfImage (imageOfMirror m)).permissions = m.permissions :=
    look_ext fun p => by
      rw [look_mirrorOfImage_permissions, byteAt_imageOfMirror_permissions, namedPermissions_byte]
  have hpens : (mirrorOfImage (imageOfMirror m)).pens = m.pens :=
    look_ext fun k => by
      rw [look_mirrorOfImage_pens, penSettingsAt_imageOfMirror m k (h.pens k)]
  have hlimit : (mirrorOfImage (imageOfMirror m)).snapLimit = m.snapLimit := by
    change snapLimitIntoRange (wordAt (imageOfMirror m) 316) = m.snapLimit
    rw [wordAt_imageOfMirror_snapLimit, h.snapLimit]
  calc mirrorOfImage (imageOfMirror m)
      = ⟨(mirrorOfImage (imageOfMirror m)).permissions, (mirrorOfImage (imageOfMirror m)).pens,
          (mirrorOfImage (imageOfMirror m)).snapLimit⟩ := rfl
    _ = m := by rw [hpermissions, hpens, hlimit]

/-- An image is its first 318 bytes and its check word (R172). -/
theorem imagePassesCheck_append {body : List Byte} (hbody : body.length = 318) (check : Word) :
    imagePassesCheck (body ++ wordBytes check) = decide (check = checkWord body) := by
  have hword := wordAt_wordBytes body check []
  rw [List.append_nil, hbody] at hword
  rw [imagePassesCheck, Config.imageBody, hword, ← hbody, List.take_left']
  rfl

theorem imageOfMirror_accepted {m : Mirror} (h : m.InRange) (hroom : m.someRoom = true) :
    imageAccepted (imageOfMirror m) = true := by
  rw [imageAccepted, imageHasRoom_eq, mirrorOfImage_imageOfMirror h, hroom, Bool.and_true,
    imageOfMirror, imagePassesCheck_append (imageBodyBytes_length m)]
  exact decide_eq_true rfl

/-- Settles O13. -/
theorem savedImageLoadsBack : Obligations.SavedImageLoadsBack := by
  intro m h hroom
  refine ⟨imageOfMirror_length m, ?_⟩
  rw [loadedSettings_accepted (imageOfMirror_accepted h hroom), mirrorOfImage_imageOfMirror h]

/-- An image whose check word area stands erased is rejected (R160): no check word is 0xFFFF. -/
theorem erasedImage_rejected {body : List Byte} (hbody : body.length = 318) :
    imageAccepted (body ++ [0xFF, 0xFF]) = false := by
  have hpasses := imagePassesCheck_append hbody 0xFFFF
  rw [decide_eq_false (checkWord_ne_erased body).symm] at hpasses
  rw [imageAccepted, show ([0xFF, 0xFF] : List Byte) = wordBytes 0xFFFF from rfl, hpasses,
    Bool.false_and]

/-- Settles O14. -/
theorem interruptedSaveIsRejected : Obligations.InterruptedSaveIsRejected := by
  refine ⟨checkWord_ne_erased, fun v k hbefore hk => loadedSettings_rejected ?_⟩
  refine erasedImage_rejected ?_
  simp [hbefore, Config.imageBody]
  omega

/-! ## Power and start-up (R161, R166) -/

theorem powerUpValues_resetBlocks (s : State) (phase : Phase) (reached : SavePoint)
    (link : Port → Link → Link) :
    (s.powerUpValues phase reached link).resetBlocks = s.powerUpValues phase reached link := rfl

theorem powerUpValues_link (s : State) (phase : Phase) (reached : SavePoint)
    (link : Port → Link → Link) (p : Port) :
    (s.powerUpValues phase reached link).link p = link p (s.link p) := look_each4 _ _ _

theorem exec_resetPin {s : State} (hon : s.phase ≠ .off) (reached : SavePoint) :
    exec (.resetPin reached) s = .next
      { s.powerUpValues .starting reached (fun _ => Link.atResetPin s.freeCount) with
        freeCount := s.freeCount + 1 } := by
  change execResetPin reached s = _
  rw [execResetPin]
  cases hphase : s.phase with
  | off => exact absurd hphase hon
  | starting => rfl
  | running => rfl

theorem imageLeft_of_save {s : State} {v : Save} (h : s.save = some v) (reached : SavePoint) :
    s.imageLeft reached = cutImage v reached := by
  rw [State.imageLeft, h]

/-- Settles O15. -/
theorem powerAndResetPin : Obligations.PowerAndResetPin := by
  intro reached s
  refine ⟨⟨_, rfl, rfl, rfl, powerUpValues_resetBlocks _ _ _ _, powerUpValues_link _ _ _ _, rfl,
    rfl, rfl, rfl⟩, fun hon => ⟨_, exec_resetPin hon reached, rfl, rfl, rfl, fun p => ?link, rfl,
    rfl, rfl, rfl⟩, ⟨_, rfl, rfl, powerUpValues_resetBlocks _ _ _ _, rfl, rfl⟩,
    fun hnone => ?standing, fun v hv => ?cut⟩
  case link =>
    change { (s.powerUpValues .starting reached (fun _ => Link.atResetPin s.freeCount)).link p with
      frame := none } = linkDefault
    rw [powerUpValues_link]
    rfl
  case standing => rw [State.imageLeft, hnone]
  case cut =>
    rw [imageLeft_of_save hv]
    refine ⟨?_, ?_, ?_⟩
    · rintro rfl
      rfl
    · rintro rfl
      rfl
    · rintro k rfl
      rfl

/-! ## The conditions of the attention line (R125, R135, R152) -/

theorem maskHas_maskOfBools : ∀ (b0 b1 b2 b3 b4 b5 b6 : Bool), ∀ i < 8,
    maskHas (maskOfBools [b0, b1, b2, b3, b4, b5, b6]) i =
      [b0, b1, b2, b3, b4, b5, b6].getD i false := by
  decide

/-- A byte is not 0 where it has a bit. -/
theorem byte_ne_zero_iff (b : Byte) : b ≠ 0 ↔ ∃ i < 8, maskHas b i = true := by
  revert b
  decide

section
variable (s : State) (p : Port)

/-- Bit `i` of the conditions held is the `i`-th condition, and there are seven. -/
theorem maskHas_conditionsHeld {i : Nat} (h : i < 8) :
    maskHas (s.conditionsHeld p) i =
      [answerReadyCondition (s.link p), ringCondition (s.ring p) (s.link p),
        liveCondition (s.livePort p), resyncCondition (s.ring p), (s.link p).restarted,
        (s.link p).frameFault, (s.link p).snapBroken].getD i false :=
  maskHas_maskOfBools _ _ _ _ _ _ _ i h

theorem attentionAsserted_of_running (h : s.phase = .running) :
    s.attentionAsserted p = true ↔ ∃ i < 7, maskHas (s.link p).attentionMask i = true ∧
      maskHas (s.conditionsHeld p) i = true := by
  have hseventh : maskHas (s.conditionsHeld p) 7 = false :=
    maskHas_conditionsHeld s p (by decide)
  simp only [State.attentionAsserted, h, decide_true, Bool.true_and, decide_eq_true_eq,
    byte_ne_zero_iff]
  constructor
  · rintro ⟨i, hi, hboth⟩
    have hparts : maskHas (s.conditionsHeld p) i = true ∧
        maskHas (s.link p).attentionMask i = true := by
      simpa [maskHas] using hboth
    have hne : i ≠ 7 := by
      rintro rfl
      rw [hseventh] at hparts
      cases hparts.1
    exact ⟨i, by omega, hparts.2, hparts.1⟩
  · rintro ⟨i, hi, hmask, hheld⟩
    exact ⟨i, by omega, by simpa [maskHas] using And.intro hheld hmask⟩

theorem answerReadyCondition_iff (l : Link) :
    answerReadyCondition l = true ↔ ∃ a, l.state = .answerReady a := by
  rw [answerReadyCondition]
  cases l.state <;> simp

theorem liveCondition_iff (l : LivePort) :
    liveCondition l = true ↔ ∃ pen, slotPending (look l.slots pen) = true := by
  simp [liveCondition, pendingSlots, mem_allPens]

/-- Settles O56. -/
theorem attentionLineFollowsItsConditions : Obligations.AttentionLineFollowsItsConditions := by
  intro s p
  refine ⟨fun h => ?_, attentionAsserted_of_running s p, ?_, ?_, ?_, ?_, ?_, ?_, ?_⟩
  · simp [State.attentionAsserted, h]
  · rw [maskHas_conditionsHeld s p (by decide)]
    exact answerReadyCondition_iff _
  · rw [maskHas_conditionsHeld s p (by decide)]
    exact decide_eq_true_iff
  · rw [maskHas_conditionsHeld s p (by decide)]
    exact liveCondition_iff _
  · rw [maskHas_conditionsHeld s p (by decide)]
    exact decide_eq_true_iff
  all_goals
    rw [maskHas_conditionsHeld s p (by decide)]
    rfl

end

/-! ## The load (R161, R163) -/

theorem exec_settingsLoadComplete {s : State} (h : s.phase = .starting) :
    exec .settingsLoadComplete s = .next s.enterRunning := by
  change execSettingsLoadComplete s = _
  rw [execSettingsLoadComplete, h]

/-- Settles O16: RESTARTED is set on every link, so a mask that names it asserts its line. -/
theorem loadCompletesIntoRunning : Obligations.LoadCompletesIntoRunning := by
  intro s hphase
  refine ⟨_, exec_settingsLoadComplete hphase, rfl, fun h => ?accepted, fun h => ?rejected,
    enterRunning_link s, fun p hmask => ?line, rfl, rfl, rfl, rfl, rfl, rfl, rfl, rfl, rfl, rfl⟩
  case accepted =>
    have hload := loadedSettings_accepted h
    exact ⟨congrArg Prod.fst hload, congrArg Prod.snd hload⟩
  case rejected =>
    have hload := loadedSettings_rejected h
    exact ⟨congrArg Prod.fst hload, congrArg Prod.snd hload⟩
  case line =>
    refine (attentionAsserted_of_running s.enterRunning p rfl).mpr ⟨4, by decide, ?_, ?_⟩
    · rw [enterRunning_link]
      exact hmask
    · rw [maskHas_conditionsHeld _ _ (by decide), enterRunning_link]
      rfl

/-! ## SAVE_SETTINGS and SAVE_COMPLETE (R164, R165) -/

section
variable {s : State} {p : Port} (hroom : (s.permissions p).room = true)
include hroom

theorem saveSettings_busy (tag : Byte) {v : Save} (hsave : s.save = some v) :
    saveSettings p tag true s = s.refuse .busy := by
  simp [saveSettings, hroom, hsave]

theorem saveSettings_begins (tag : Byte) (hsave : s.save = none) :
    saveSettings p tag true s = (s.beginSave p tag, none) := by
  simp [saveSettings, hroom, hsave]

end

theorem exec_saveComplete {s : State} {v : Save} (hphase : s.phase = .running)
    (hsave : s.save = some v) : exec .saveComplete s = .next (s.completeSave v) := by
  change execSaveComplete s = _
  rw [execSaveComplete, hphase, hsave]

/-- Settles O59. -/
theorem saveWritesTheFrozenMirror : Obligations.SaveWritesTheFrozenMirror := by
  refine ⟨fun p tag s hs hroom => ⟨?busy, fun hsave => ?begins⟩,
    fun s v hphase hsave => ⟨fun hwanted => ?wanted, fun hwanted => ?unwanted⟩⟩
  case busy =>
    rintro ⟨v, hsave⟩
    exact congrArg _
      (request_refused hs (saveSettings_busy (s := s.admitted p tag) hroom tag hsave))
  case begins =>
    exact congrArg _
      (request_unreplied hs (saveSettings_begins (s := s.admitted p tag) hroom tag hsave))
  case wanted =>
    rw [exec_saveComplete hphase hsave, State.completeSave, State.deliver, if_pos hwanted]
    rfl
  case unwanted =>
    rw [exec_saveComplete hphase hsave, State.completeSave, State.deliver,
      if_neg (by simp [hwanted])]
    rfl

/-! ## DEVICE_RESET (R157, R158) -/

section
variable {s : State} {r : Port} (hroom : (s.permissions r).room = true)
include hroom

theorem deviceResetRequest_busy (tag : Byte) {v : Save} (hsave : s.save = some v) :
    deviceResetRequest r tag true s = s.refuse .busy := by
  simp [deviceResetRequest, hroom, hsave]

theorem deviceResetRequest_resets (tag : Byte) (hsave : s.save = none) :
    deviceResetRequest r tag true s = (s.deviceReset r tag, none) := by
  simp [deviceResetRequest, hroom, hsave]

end

/-- The link on which the reset was taken has its answer ready; every other is as R157 leaves it. -/
theorem deviceReset_link (s : State) (r : Port) (tag : Byte) (p : Port) :
    (s.deviceReset r tag).link p =
      if r = p then { (s.link r).afterReset r r with state := .answerReady ⟨.ok, tag, []⟩ }
      else (s.link p).afterReset r p := by
  have hlink : ∀ q,
      (s.resetBlocks.setLinks (each4 (Link.afterReset r) s.resetBlocks.links)).link q =
        (s.link q).afterReset r q := fun q => look_each4 _ _ _
  rw [State.deviceReset, State.answerReady, State.setLink_link, hlink, hlink]

/-- Settles O60: the reset is taken on the admitted state, of whose links only one state differs. -/
theorem deviceResetKeepsTheSettings : Obligations.DeviceResetKeepsTheSettings := by
  intro r tag s hs hroom
  refine ⟨?busy, fun hsave => ⟨_, congrArg Host.Outcome.next (request_unreplied hs
    (deviceResetRequest_resets (s := s.admitted r tag) hroom tag hsave)), rfl, rfl, rfl, rfl, rfl,
    hs.1, hsave, ?own, fun q hq => ?other⟩⟩
  case busy =>
    rintro ⟨v, hsave⟩
    exact congrArg _
      (request_refused hs (deviceResetRequest_busy (s := s.admitted r tag) hroom tag hsave))
  case own =>
    rw [deviceReset_link, if_pos rfl, admitted_link, if_pos rfl, Link.afterReset, if_pos rfl]
    rfl
  case other =>
    rw [deviceReset_link, if_neg (Ne.symm hq), admitted_link, if_neg (Ne.symm hq), Link.afterReset,
      if_neg hq]
    rfl

end Sys2Proof.Machine
end

section
/-! SUPPORT. The refusals of the requests, one equation for each check (R149, R150, section 9.5, and
the checks of each request's own rule), and the two statements about all of them. -/

namespace Sys2Proof.Machine

/-! ## Sets that name too much (R120, R150, R153, R154) -/

theorem kindMaskOf_none {b : Byte} (h : 64 ≤ b.toNat) : kindMaskOf (some b) = none := by
  have hbits : ∀ b : Byte, b &&& 0xC0 = 0 → b.toNat < 64 := by decide
  exact if_neg fun hb => absurd (hbits b hb) (by omega)

theorem kindMaskOf_some {b : Byte} (h : b.toNat < 64) : kindMaskOf (some b) = some b := by
  have hbits : ∀ b : Byte, b.toNat < 64 → b &&& 0xC0 = 0 := by decide
  exact if_pos (hbits b h)

theorem attentionMaskOf_none {b : Byte} (h : 128 ≤ b.toNat) : attentionMaskOf (some b) = none := by
  have hbits : ∀ b : Byte, b &&& 0x80 = 0 → b.toNat < 128 := by decide
  exact if_neg fun hb => absurd (hbits b hb) (by omega)

theorem attentionMaskOf_some {b : Byte} (h : b.toNat < 128) :
    attentionMaskOf (some b) = some b := by
  have hbits : ∀ b : Byte, b.toNat < 128 → b &&& 0x80 = 0 := by decide
  exact if_pos (hbits b h)

theorem flagSetOf_none {b : Byte} (h : b &&& 0x8F ≠ 0) : flagSetOf (some b) = none := if_neg h

theorem flagSetOf_some {b : Byte} (h : b &&& 0x8F = 0) : flagSetOf (some b) = some b := if_pos h

theorem notFlagSet_of_ge {b : Byte} (h : 128 ≤ b.toNat) : b &&& 0x8F ≠ 0 := by
  have hbits : ∀ b : Byte, b &&& 0x8F = 0 → b.toNat < 128 := by decide
  exact fun hb => absurd (hbits b hb) (by omega)

theorem permissionsOf_none {b : Byte} (h : 16 ≤ b.toNat) : permissionsOf (some b) = none := by
  have hbits : ∀ b : Byte, b &&& 0xF0 = 0 → b.toNat < 16 := by decide
  exact if_neg fun hb => absurd (hbits b hb) (by omega)

theorem modeOf_none {b : Byte} (h : 2 ≤ b.toNat) : modeOf (some b) = none := by
  have hzero : b ≠ 0 := by
    rintro rfl
    exact absurd h (by decide)
  have hone : b ≠ 1 := by
    rintro rfl
    exact absurd h (by decide)
  exact (if_neg hzero).trans (if_neg hone)

theorem bindingOf_none {b : Byte} (h : 4 ≤ b.toNat) (hnone : b ≠ 0xFF) :
    bindingOf (some b) = none := by
  refine (if_neg hnone).trans ?_
  rw [portOf_none h]
  rfl

theorem penCode_toNat_lt (pen : Pen) : (penCode pen).toNat < 8 := by
  revert pen
  decide

/-! ## Checks before any effect -/

section
variable {s : State} {p : Port}

theorem submitSamples_without_ink (hink : (s.permissions p).ink = false) (pen : Option Byte)
    (samples : Option (List Sample)) : submitSamples p pen samples s = s.refuse .denied :=
  if_pos (by simp [hink])

theorem submitSamples_noPen (hink : (s.permissions p).ink = true) {pen : Option Byte}
    (hpen : penOf pen = none) (samples : Option (List Sample)) :
    submitSamples p pen samples s = s.refuse .range := by
  rw [submitSamples, if_neg (not_not.mpr hink), hpen]

theorem submitSamples_wrongSource (hink : (s.permissions p).ink = true) {pen : Pen}
    (hbound : (s.penSettings pen).binding ≠ some p) (samples : Option (List Sample)) :
    submitSamples p (some (penCode pen)) samples s = s.refuse .wrongSource := by
  rw [submitSamples, if_neg (not_not.mpr hink), penOf_penCode]
  exact if_pos hbound

theorem submitSamples_range (hink : (s.permissions p).ink = true) {pen : Pen}
    (hbound : (s.penSettings pen).binding = some p) {samples : Option (List Sample)}
    (hsamples : samplesOf samples = none) :
    submitSamples p (some (penCode pen)) samples s = s.refuse .range := by
  rw [submitSamples, if_neg (not_not.mpr hink), penOf_penCode]
  simp only [if_neg (not_not.mpr hbound), hsamples]

theorem undo_noPen (hedit : (s.permissions p).edit = true) {pen : Option Byte}
    (hpen : penOf pen = none) : undo p pen s = s.refuse .range := by
  rw [undo, if_neg (not_not.mpr hedit), hpen]

theorem clearPage_noPage (hedit : (s.permissions p).edit = true) {page : Option Byte}
    (hpage : pageOf page = none) : clearPage p page s = s.refuse .range := by
  rw [clearPage, if_neg (not_not.mpr hedit), hpage]

theorem eraseRegion_noPage (hedit : (s.permissions p).edit = true) {page : Option Byte}
    (hpage : pageOf page = none) (tag : Byte) (fields : Option RegionFields) :
    eraseRegion p tag page fields s = s.refuse .range := by
  simp [eraseRegion, hedit, hpage]

theorem eraseRegion_noMode (hedit : (s.permissions p).edit = true) {f : RegionFields}
    (hmode : modeOf (some f.mode) = none) (tag : Byte) (pg : Page) :
    eraseRegion p tag (some (pageCode pg)) (some f) s = s.refuse .range := by
  simp [eraseRegion, hedit, hmode]

theorem snapshotBegin_without_view (hview : (s.permissions p).view = false) (page : Option Byte) :
    snapshotBegin p page s = s.refuse .denied :=
  if_pos (by simp [hview])

theorem snapshotBegin_noPage (hview : (s.permissions p).view = true) {page : Option Byte}
    (hpage : pageOf page = none) : snapshotBegin p page s = s.refuse .range := by
  rw [snapshotBegin, if_neg (not_not.mpr hview), hpage]

theorem subscribe_without_view (hview : (s.permissions p).view = false)
    (masks : Option (Word × Byte)) : subscribe p masks s = s.refuse .denied :=
  if_pos (by simp [hview])

theorem subscribe_range (hview : (s.permissions p).view = true) {kindMask : Byte}
    (hkind : kindMaskOf (some kindMask) = none) (pageMask : Word) :
    subscribe p (some (pageMask, kindMask)) s = s.refuse .range := by
  simp [subscribe, hview, hkind]

theorem ackNotices_range {b : Byte} (h : 31 < b.toNat) :
    ackNotices p (some b) s = s.refuse .range := if_pos h

theorem setAttention_range {mask : Byte} (hmask : attentionMaskOf (some mask) = none)
    (threshold : Byte) : setAttention p (some (mask, threshold)) s = s.refuse .range := by
  simp [setAttention, hmask]

theorem clearFlags_range {flags : Option Byte} (hflags : flagSetOf flags = none) :
    clearFlags p flags s = s.refuse .range := by
  rw [clearFlags, hflags]

theorem bindPen_noPen (hroom : (s.permissions p).room = true) {pen : Option Byte}
    (hpen : penOf pen = none) (source : Option Byte) :
    bindPen p pen source s = s.refuse .range := by
  rw [bindPen, if_neg (not_not.mpr hroom), hpen]

theorem bindPen_noSource (hroom : (s.permissions p).room = true) {source : Option Byte}
    (hsource : bindingOf source = none) (pen : Pen) :
    bindPen p (some (penCode pen)) source s = s.refuse .range := by
  rw [bindPen, if_neg (not_not.mpr hroom), penOf_penCode, hsource]

theorem setPermissions_noPort (hroom : (s.permissions p).room = true) {named : Byte}
    (hnamed : portOf (some named) = none) (set : Byte) :
    setPermissions p (some (named, set)) s = s.refuse .range := by
  rw [setPermissions, if_neg (not_not.mpr hroom), Option.map_some, hnamed]

theorem setPermissions_noSet (hroom : (s.permissions p).room = true) {set : Byte}
    (hset : permissionsOf (some set) = none) (named : Byte) :
    setPermissions p (some (named, set)) s = s.refuse .range := by
  rw [setPermissions, if_neg (not_not.mpr hroom), Option.map_some, Option.map_some, hset]
  cases portOf (some named) <;> rfl

end

/-! ## The statements -/

/-- A request whose permission test turns it away is answered DENIED by its block. -/
theorem exec_denied {c : Instr} {p : Port} {r : Request} {tag : Byte} {payload : List Byte}
    {s : State} (hs : s.Admits p) (hw : wireRequest c = some ⟨p, r, tag, payload⟩)
    (hwell : c.wellFormed = true) (h : s.LacksPermission p r payload) :
    exec c s = .next (s.answered p tag .denied []) := by
  rw [exec_of_wireRequest hw hwell hs.2]
  exact congrArg _ (request_refused hs (runRequest_denied p tag r payload (s.admitted p tag) h))

/-- Settles O23: the one lemma on the permission test, with the permission that each needs. -/
theorem missingPermissionIsDenied : Obligations.MissingPermissionIsDenied := by
  intro p tag s hs
  refine ⟨fun hink pen samples => ?ink, fun hedit serial pen page x0 y0 x1 y1 mode => ?edit,
    fun hview serial start page offset count pageMask kindMask mask => ?view,
    fun hroom pen source page named set => ?room, fun hink pen => ⟨fun hedit colour width page =>
    ?tool, fun hroom calibration tuning limit => ?tune⟩⟩
  case ink =>
    exact congrArg Host.Outcome.next 
      (request_refused hs (submitSamples_without_ink (s := s.admitted p tag) hink _ _))
  case edit =>
    refine ⟨?_, ?_, ?_, ?_⟩ <;> exact exec_denied hs rfl rfl ⟨hedit, nofun⟩
  case view =>
    refine ⟨?_, ?_, ?_, ?_, ?_, ?_, ?_⟩ <;> exact exec_denied hs rfl rfl ⟨hview, nofun⟩
  case room =>
    refine ⟨?_, ?_, ?_, ?_, ?_, ?_⟩ <;> exact exec_denied hs rfl rfl ⟨hroom, nofun⟩
  case tool =>
    have hpen : ∀ b, some (penCode pen) = some b → b.toNat < 8 := by
      rintro b ⟨⟩
      exact penCode_toNat_lt pen
    constructor <;> exact exec_denied hs rfl rfl ⟨hedit, fun _ => ⟨hink, hpen⟩⟩
  case tune =>
    have hpen : ∀ b, some (penCode pen) = some b → b.toNat < 8 := by
      rintro b ⟨⟩
      exact penCode_toNat_lt pen
    constructor <;> exact exec_denied hs rfl rfl ⟨hroom, fun _ => ⟨hink, hpen⟩⟩

/-- Settles O24: each request by the first of its checks that the number fails. -/
theorem numbersOutOfRangeAreRefused : Obligations.NumbersOutOfRangeAreRefused := by
  intro p tag s b hs hall
  have hadmitted : (s.admitted p tag).permissions p = factoryPermissions := hall
  have hink : ((s.admitted p tag).permissions p).ink = true := by rw [hadmitted]; rfl
  have hview : ((s.admitted p tag).permissions p).view = true := by rw [hadmitted]; rfl
  have hedit : ((s.admitted p tag).permissions p).edit = true := by rw [hadmitted]; rfl
  have hroom : ((s.admitted p tag).permissions p).room = true := by rw [hadmitted]; rfl
  have refused : ∀ {act : State → State × Option Reply},
      act (s.admitted p tag) = (s.admitted p tag).refuse .range →
      (.next (s.request p tag act) : Host.Outcome State Fault Refusal) =
        .next (s.answered p tag .range []) :=
    fun h => congrArg _ (request_refused hs h)
  refine ⟨fun hb samples calibration tuning limit colour width page source => ?pens,
    fun hb pen x0 y0 x1 y1 mode => ?pages, fun hb set => ?ports, fun hb => ?fetch, fun hb => ?ack,
    fun hb pageMask => ?kinds, fun hb threshold => ?masks, fun hb pg x0 y0 x1 y1 => ?mode,
    fun hb hnone pen => ?source, fun hb q => ?set, fun pen samples hbound hsamples => ?samples⟩
  case pens =>
    have hpen : penOf (some b) = none := penOf_none hb
    exact ⟨refused (submitSamples_noPen hink hpen _), refused (penRequest_of_penOf_none _ hpen),
      refused (penRequest_of_penOf_none _ hpen), refused (penRequest_of_penOf_none _ hpen),
      refused (penRequest_of_penOf_none _ hpen), refused (bindPen_noPen hroom hpen _),
      refused (penStatus_of_penOf_none _ hpen), refused (undo_noPen hedit hpen)⟩
  case pages =>
    have hpage : pageOf (some b) = none := pageOf_none hb
    exact ⟨refused (setPenPage_range (.inl hedit) hb), refused (pageStatus_of_pageOf_none _ hpage),
      refused (setLock_range hroom hpage), refused (setLock_range hroom hpage),
      refused (clearPage_noPage hedit hpage), refused (eraseRegion_noPage hedit hpage _ _),
      refused (snapshotBegin_noPage hview hpage)⟩
  case ports =>
    exact ⟨refused (portStatus_of_portOf_none _ (portOf_none hb)),
      refused (setPermissions_noPort hroom (portOf_none hb) _)⟩
  case fetch => exact refused (fetchNotices_range _ hb)
  case ack => exact refused (ackNotices_range hb)
  case kinds => exact refused (subscribe_range hview (kindMaskOf_none hb) _)
  case masks =>
    exact ⟨refused (setAttention_range (attentionMaskOf_none hb) _),
      refused (clearFlags_range (flagSetOf_none (notFlagSet_of_ge hb)))⟩
  case mode =>
    exact refused (eraseRegion_noMode (f := ⟨x0, y0, x1, y1, b⟩) hedit (modeOf_none hb) _ _)
  case source => exact refused (bindPen_noSource hroom (bindingOf_none hb hnone) _)
  case set => exact refused (setPermissions_noSet hroom (permissionsOf_none hb) _)
  case samples =>
    have hbound : ((s.admitted p tag).penSettings pen).binding = some p := hbound
    exact refused (submitSamples_range hink hbound (samplesOf_none hsamples))

end Sys2Proof.Machine
end

section
/-! SUPPORT. The requests that store a setting: calibration and tuning (R33, R35, R36), the binding
(R20), the masks of a ring and the notices retired from it (R120, R122), attention and flags (R153,
R154), permissions (R150, R151), and the statements about them, with those on boxes (R92) and on the
beginning of a snapshot (R102). -/

namespace Sys2Proof.Machine

/-! ## Values brought to the nearer end (R33, R35, R36) -/

theorem clampWord_brought {low high : Nat} (h : low ≤ high) (hh : high < 65536) (w : Word) :
    Brought low high w (clampWord low high w) where
  below hlow := by
    rw [clampWord, if_pos hlow, BitVec.toNat_ofNat]
    exact Nat.mod_eq_of_lt (by omega)
  above hhigh := by
    rw [clampWord, if_neg (by omega), if_pos hhigh, BitVec.toNat_ofNat]
    exact Nat.mod_eq_of_lt (by omega)
  inside := clampWord_of_mem low high w

theorem clampOffset_brought (w : Word) : BroughtOffset w (clampOffset w) where
  below hlow := by
    rw [clampOffset, if_pos hlow]
    rfl
  above hhigh := by
    rw [clampOffset, if_neg (by omega), if_pos hhigh]
    rfl
  inside hlow hhigh := by
    rw [clampOffset, if_neg (by omega), if_neg (by omega)]

/-- Settles O30. -/
theorem valuesAreBroughtToTheNearerEnd : Obligations.ValuesAreBroughtToTheNearerEnd := by
  have fixed : ∀ low high, low ≤ high → high < 65536 →
      ∀ w, Brought low high w (clampWord low high w) := fun _ _ => clampWord_brought
  refine ⟨?calibration, ?tuning, fixed 20 2000 (by decide) (by decide)⟩
  case calibration =>
    rintro sent stored rfl
    exact ⟨clampOffset_brought _, clampOffset_brought _,
      fixed 1024 65535 (by decide) (by decide) _, fixed 1024 65535 (by decide) (by decide) _⟩
  case tuning =>
    rintro sent stored rfl
    obtain ⟨-, hpressOn⟩ := clampWord_toNat 1 1023 sent.pressOn (by decide) (by decide)
    obtain ⟨-, htapMin⟩ := clampWord_toNat 1 63 sent.tapMin (by decide) (by decide)
    exact ⟨fixed 1 1023 (by decide) (by decide) _,
      clampWord_brought (Nat.zero_le _) (by omega) _,
      fixed 0 7 (by decide) (by decide) _, fixed 0 7 (by decide) (by decide) _,
      fixed 1 63 (by decide) (by decide) _, clampWord_brought htapMin (by decide) _,
      fixed 0 255 (by decide) (by decide) _, fixed 0 255 (by decide) (by decide) _,
      fixed 0 255 (by decide) (by decide) _, fixed 1 255 (by decide) (by decide) _,
      fixed 0 255 (by decide) (by decide) _, fixed 0 255 (by decide) (by decide) _,
      fixed 20 2000 (by decide) (by decide) _, fixed 0 7 (by decide) (by decide) _,
      (clampWord_toNat 0 _ sent.pressOff (Nat.zero_le _) (by omega)).2,
      (clampWord_toNat _ 63 sent.tapMax htapMin (by decide)).1⟩

/-! ## Calibration and tuning (R35, R36) -/

section
variable {s : State} {p : Port} {pen : Pen}

theorem State.MayTune.admitted (h : s.MayTune p pen) (tag : Byte) :
    (s.admitted p tag).MayTune p pen := h

theorem adjustedStatus_decide (P : Prop) [Decidable P] :
    adjustedStatus (decide ¬ P) = if P then .ok else .okAdjusted := by
  by_cases h : P <;> simp [adjustedStatus, h]

theorem setCalibration_stores (h : s.MayTune p pen) (sent : Calibration) :
    setCalibration p (some (penCode pen)) (some sent) s =
      (s.setPenSettings pen
          { s.penSettings pen with calibration := calibrationIntoRange sent },
        some ⟨if calibrationIntoRange sent = sent then .ok else .okAdjusted,
          calibrationBytes (calibrationIntoRange sent)⟩) := by
  rw [setCalibration, penRequest_permitted _ _ h, ← adjustedStatus_decide]

theorem setPenTuning_stores (h : s.MayTune p pen) (sent : Tuning) :
    setPenTuning p (some (penCode pen)) (some (sent, none)) s =
      (s.setPenSettings pen { s.penSettings pen with tuning := tuningIntoRange sent },
        some ⟨if tuningIntoRange sent = sent then .ok else .okAdjusted,
          tuningBytes (tuningIntoRange sent) ++ wordBytes s.mirror.snapLimit⟩) := by
  rw [setPenTuning, penRequest_permitted _ _ h, ← adjustedStatus_decide]
  simp [snapLimitAdjusted, State.storeSnapLimit, State.setPenSettings]

theorem setPenTuning_limit_without_room (h : s.MayTune p pen)
    (hroom : (s.permissions p).room = false) (sent : Tuning) (limit : Word) :
    setPenTuning p (some (penCode pen)) (some (sent, some limit)) s = s.refuse .denied := by
  rw [setPenTuning, penRequest_permitted _ _ h]
  exact if_pos ⟨rfl, by simp [hroom]⟩

theorem setPenTuning_limit_stores (hroom : (s.permissions p).room = true) (sent : Tuning)
    (limit : Word) {u : State}
    (hu : u = s.setPenSettings pen { s.penSettings pen with tuning := tuningIntoRange sent }) :
    setPenTuning p (some (penCode pen)) (some (sent, some limit)) s =
      (u.setMirror { u.mirror with snapLimit := snapLimitIntoRange limit },
        some ⟨if tuningIntoRange sent = sent ∧ snapLimitIntoRange limit = limit then .ok
            else .okAdjusted,
          tuningBytes (tuningIntoRange sent) ++ wordBytes (snapLimitIntoRange limit)⟩) := by
  subst hu
  rw [setPenTuning, penRequest_permitted _ _ (.inl hroom), ← adjustedStatus_decide]
  simp [snapLimitAdjusted, State.storeSnapLimit, hroom]

end

/-- Settles O29: the checks that both requests share, then what each stores. -/
theorem calibrationAndTuningAreStoredInRange :
    Obligations.CalibrationAndTuningAreStoredInRange := by
  refine ⟨fun p tag s values tuning limit hs => ⟨fun b hb => ?noPen, fun hroom pen =>
    ⟨fun hink => ?denied, fun hink hbound => ?elsewhere⟩⟩, fun p tag pen s hs hmay =>
    ⟨fun sent => ?calibration, fun sent => ?tuning, fun sent limit => ⟨fun hroom => ?limitDenied,
    fun hroom => ?limitStored⟩⟩⟩
  case noPen =>
    have hpen : penOf (some b) = none := penOf_none hb
    constructor <;>
      exact congrArg Host.Outcome.next (request_refused hs (penRequest_of_penOf_none _ hpen))
  case denied =>
    constructor <;>
      exact congrArg Host.Outcome.next
        (request_refused hs (penRequest_without_ink (s := s.admitted p tag) _ pen hroom hink))
  case elsewhere =>
    constructor <;>
      exact congrArg Host.Outcome.next
        (request_refused hs
          (penRequest_boundElsewhere (s := s.admitted p tag) _ pen hroom hink hbound))
  case calibration =>
    exact congrArg Host.Outcome.next
      (request_replied hs (setCalibration_stores (hmay.admitted tag) sent))
  case tuning =>
    exact congrArg Host.Outcome.next
      (request_replied hs (setPenTuning_stores (hmay.admitted tag) sent))
  case limitDenied =>
    exact congrArg Host.Outcome.next
      (request_refused hs (setPenTuning_limit_without_room (hmay.admitted tag) hroom sent limit))
  case limitStored =>
    exact ⟨_, rfl, congrArg Host.Outcome.next (request_replied hs
      (setPenTuning_limit_stores (s := s.admitted p tag) hroom sent limit rfl))⟩

/-! ## The binding (R20) -/

theorem bindPen_binds {s : State} {p : Port} (hroom : (s.permissions p).room = true) (pen : Pen)
    (binding : Option Port) :
    bindPen p (some (penCode pen)) (some (bindingCode binding)) s =
      ((s.setPenSettings pen { s.penSettings pen with binding }).activityEnded pen .rebound,
        some ⟨.ok, []⟩) := by
  simp [bindPen, hroom, endPen_eq]

section
variable (s : State) (pen : Pen) (cause : CloseCause)

theorem closeCurrent_none (h : s.currentStroke pen = none) :
    s.closeCurrent pen cause = s.setChannel pen
      { s.channel pen with current := none, working := none, rejoin := none } := by
  rw [State.closeCurrent, h]
  rfl

theorem closeCurrent_some {e : Stroke} (h : s.currentStroke pen = some e) :
    s.closeCurrent pen cause = (s.setChannel pen
      { s.channel pen with current := none, working := none, rejoin := none }).classify e cause
    := by
  rw [State.closeCurrent, h]
  rfl

theorem reach_activityEnded : InkReach s (s.activityEnded pen cause) :=
  endPen_eq s pen cause ▸ reach_endPen s pen cause

end

/-- Settles O31: the binding is stored, then the pen's activity ends as the moves of its stroke, its
buffers and its state let it. -/
theorem bindPenEndsTheActivity : Obligations.BindPenEndsTheActivity := by
  refine ⟨fun p tag source pen s hs hroom hsource hnone => ?range,
    fun p tag pen binding s hs hroom => ?binds⟩
  case range =>
    exact congrArg Host.Outcome.next (request_refused hs
      (bindPen_noSource (s := s.admitted p tag) hroom (bindingOf_none hsource hnone) pen))
  case binds =>
    let bound := (s.admitted p tag).setPenSettings pen { s.penSettings pen with binding }
    have hreach : InkReach bound (bound.activityEnded pen .rebound) := reach_activityEnded _ _ _
    obtain ⟨hstate, hcurrent, hdown, hlift, hsilence, hrejoin⟩ :=
      activityEnded_self bound pen .rebound
    exact ⟨bound, _, bound.closeCurrent pen .rebound, bound.activityEnded pen .rebound,
      congrArg Host.Outcome.next
        (request_replied hs (bindPen_binds (s := s.admitted p tag) hroom pen binding)),
      rfl, rfl, fun e he => closeCurrent_some bound pen .rebound he,
      fun hnone => closeCurrent_none bound pen .rebound hnone, rfl, hreach.sameOutside, hstate,
      hcurrent, hdown, hlift, hsilence, hrejoin, hreach.channel_fields,
      fun pg => (hreach.page_fields pg).1⟩

/-! ## Boxes (R92) -/

theorem boxMatches_inside_iff (r : Rect) (b : Box) : boxMatches .inside r b = true ↔
    b.xmin ≥ r.x0 ∧ b.xmax ≤ r.x1 ∧ b.ymin ≥ r.y0 ∧ b.ymax ≤ r.y1 := decide_eq_true_iff

theorem boxMatches_touch_iff (r : Rect) (b : Box) : boxMatches .touch r b = true ↔
    b.xmin ≤ r.x1 ∧ b.xmax ≥ r.x0 ∧ b.ymin ≤ r.y1 ∧ b.ymax ≥ r.y0 := decide_eq_true_iff

/-- Settles O46: a box that is no empty one and lies inside touches. -/
theorem boxesMatchByMode : Obligations.BoxesMatchByMode := by
  intro r b
  refine ⟨boxMatches_inside_iff r b, boxMatches_touch_iff r b, fun hx hy _ _ hinside => ?_⟩
  rw [boxMatches_inside_iff] at hinside
  rw [boxMatches_touch_iff]
  omega

/-! ## SNAPSHOT_BEGIN (R102) -/

section
variable {s : State} {p : Port} {pg : Page} (hview : (s.permissions p).view = true)
include hview

theorem snapshotBegin_already {a : ActiveSnapshot} (ha : s.snapshot p = some (.active a)) :
    snapshotBegin p (some (pageCode pg)) s = s.refuse .already := by
  simp [snapshotBegin, hview, ha]

/-- A port without an ACTIVE record, a BROKEN one among them, may begin. -/
theorem snapshotBegin_without_active (hnone : ∀ a, s.snapshot p ≠ some (.active a)) :
    snapshotBegin p (some (pageCode pg)) s =
      if (s.page pg).occupant ≠ .none then s.refuse .pageBusy
      else
        ((s.setSnapshot p (some (.active
            { page := pg, frozen := (s.page pg).revision
              timer := ⟨s.deviceTime, s.mirror.snapLimit⟩, hold := [] }))).setPage pg
            { s.page pg with occupant := .snapshot p },
          some ⟨.ok, [pageCode pg] ++ longBytes (s.page pg).revision
            ++ natWord (s.page pg).list.length ++ wordBytes s.mirror.snapLimit⟩) := by
  rw [snapshotBegin, if_neg (not_not.mpr hview), pageOf_pageCode]
  cases hrecord : s.snapshot p with
  | none => rfl
  | some record =>
    cases record with
    | active a => exact absurd hrecord (hnone a)
    | broken old => rfl

end

/-- Settles O49: the checks of R102 in their order. -/
theorem snapshotBeginFreezesThePage : Obligations.SnapshotBeginFreezesThePage := by
  refine ⟨fun p tag b s hs => ⟨fun hview => ?denied, fun hview hb => ?range⟩,
    fun p tag pg s hs hview => ⟨?already, fun hnone => ⟨fun hbusy => ?busy, fun hfree => ?begins⟩⟩⟩
  case denied =>
    exact congrArg Host.Outcome.next
      (request_refused hs (snapshotBegin_without_view (s := s.admitted p tag) hview _))
  case range =>
    exact congrArg Host.Outcome.next
      (request_refused hs (snapshotBegin_noPage (s := s.admitted p tag) hview (pageOf_none hb)))
  case already =>
    rintro ⟨a, ha⟩
    exact congrArg Host.Outcome.next
      (request_refused hs (snapshotBegin_already (s := s.admitted p tag) hview ha))
  case busy =>
    exact congrArg Host.Outcome.next (request_refused hs
      ((snapshotBegin_without_active (s := s.admitted p tag) hview hnone).trans (if_pos hbusy)))
  case begins =>
    exact congrArg Host.Outcome.next (request_replied hs
      ((snapshotBegin_without_active (s := s.admitted p tag) hview hnone).trans
        (if_neg (not_not.mpr hfree))))

/-! ## SUBSCRIBE and ACK_NOTICES (R120, R122) -/

section
variable {s : State} {p : Port}

theorem subscribe_stores (hview : (s.permissions p).view = true) (pageMask : Word) {kindMask : Byte}
    (hkind : kindMask.toNat < 64) :
    subscribe p (some (pageMask, kindMask)) s =
      (s.setRing p { s.ring p with pageMask, kindMask },
        some ⟨.ok, wordBytes pageMask ++ [kindMask]⟩) := by
  simp [subscribe, hview, kindMaskOf_some hkind]

/-- A ring index in its byte. -/
theorem ringIndex_byte (index : BitVec 5) : (index.zeroExtend 8).truncate 5 = index ∧
    ¬ 31 < (index.zeroExtend 8).toNat := by
  revert index
  decide

theorem ackNotices_outside {index : BitVec 5}
    (h : (s.ring p).fill ≤ (index - (s.ring p).get).toNat) :
    ackNotices p (some (index.zeroExtend 8)) s = s.refuse .range := by
  obtain ⟨hindex, hbyte⟩ := ringIndex_byte index
  have hspan : ¬ inFilledSpan (s.ring p) index = true := by
    simpa [inFilledSpan] using h
  simp only [ackNotices, hindex]
  rw [if_neg hbyte, if_pos hspan]

theorem ackNotices_retires {index : BitVec 5}
    (h : (index - (s.ring p).get).toNat < (s.ring p).fill) :
    ackNotices p (some (index.zeroExtend 8)) s =
      (s.setRing p (ringRetire (s.ring p) index),
        some ⟨.ok, [(ringRetire (s.ring p) index).get.zeroExtend 8]
          ++ natByte (retiredBy (s.ring p) index)
          ++ natByte (ringRetire (s.ring p) index).fill⟩) := by
  obtain ⟨hindex, hbyte⟩ := ringIndex_byte index
  have hspan : inFilledSpan (s.ring p) index = true := decide_eq_true h
  simp only [ackNotices, hindex]
  rw [if_neg hbyte, if_neg (not_not.mpr hspan)]

end

/-- The slots of the notices retired are emptied, and no other. -/
theorem ringRetire_slots (r : Ring) (index j : BitVec 5) :
    look (ringRetire r index).slots j.toFin =
      if (j - r.get).toNat < (index - r.get).toNat + 1 then none else look r.slots j.toFin :=
  look_emptySlots j _ r.get r.slots (index - r.get).isLt

/-- Settles O52. -/
theorem subscribeAndAcknowledge : Obligations.SubscribeAndAcknowledge := by
  intro p tag s hs
  refine ⟨fun hview pageMask kindMask => ?denied, fun hview pageMask kindMask hkind => ?kinds,
    fun b hb => ?index, fun hview pageMask kindMask hkind => ?subscribes,
    fun index => ⟨fun hspan => ?outside, fun hspan => ?retires⟩⟩
  case denied =>
    exact congrArg Host.Outcome.next
      (request_refused hs (subscribe_without_view (s := s.admitted p tag) hview _))
  case kinds =>
    exact congrArg Host.Outcome.next (request_refused hs
      (subscribe_range (s := s.admitted p tag) hview (kindMaskOf_none hkind) pageMask))
  case index =>
    exact congrArg Host.Outcome.next (request_refused hs (ackNotices_range hb))
  case subscribes =>
    exact congrArg Host.Outcome.next (request_replied hs
      (subscribe_stores (s := s.admitted p tag) hview pageMask hkind))
  case outside =>
    exact congrArg Host.Outcome.next
      (request_refused hs (ackNotices_outside (s := s.admitted p tag) hspan))
  case retires =>
    exact ⟨ringRetire (s.ring p) index, _, rfl, congrArg Host.Outcome.next
      (request_replied hs (ackNotices_retires (s := s.admitted p tag) hspan)), rfl, rfl, rfl, rfl,
      rfl, rfl, ringRetire_slots _ _⟩

/-! ## SET_ATTENTION and CLEAR_FLAGS (R153, R154) -/

theorem thresholdIntoRange_toNat (b : Byte) :
    (thresholdIntoRange b).toNat = max 1 (min 32 b.toNat) := by
  revert b
  decide

theorem setAttention_stores (s : State) (p : Port) {mask : Byte} (hmask : mask.toNat < 128)
    (threshold : Byte) :
    setAttention p (some (mask, threshold)) s =
      (s.setLink p
          { s.link p with attentionMask := mask, threshold := thresholdIntoRange threshold },
        some ⟨if thresholdIntoRange threshold = threshold then .ok else .okAdjusted,
          [mask, thresholdIntoRange threshold]⟩) := by
  rw [← adjustedStatus_decide]
  simp [setAttention, attentionMaskOf_some hmask]

theorem clearFlags_clears (s : State) (p : Port) {set : Byte} (hset : set &&& 0x8F = 0) :
    clearFlags p (some set) s =
      (s.setLink p ((s.link p).clearFlags set),
        some ⟨.ok, [flagSetByte ((s.link p).clearFlags set)]⟩) := by
  rw [clearFlags, flagSetOf_some hset]

/-- Settles O55. -/
theorem attentionAndFlagsAreSet : Obligations.AttentionAndFlagsAreSet := by
  intro p tag s hs
  refine ⟨fun mask threshold hmask => ?range, fun set hset => ?noSet,
    fun mask threshold hmask => ?attention, fun set hset => ?flags⟩
  case range =>
    exact congrArg Host.Outcome.next
      (request_refused hs (setAttention_range (attentionMaskOf_none hmask) threshold))
  case noSet =>
    exact congrArg Host.Outcome.next
      (request_refused hs (clearFlags_range (flagSetOf_none hset)))
  case attention =>
    exact ⟨_, thresholdIntoRange_toNat threshold, congrArg Host.Outcome.next
      (request_replied hs (setAttention_stores _ p hmask threshold))⟩
  case flags =>
    refine ⟨((s.admitted p tag).link p).clearFlags set, ?_, congrArg Host.Outcome.next
      (request_replied hs (clearFlags_clears _ p hset))⟩
    obtain ⟨-, hrestarted, hframeFault, hsnapBroken, -⟩ := admitted_link_fields s p tag p
    rw [Link.clearFlags, hrestarted, hframeFault, hsnapBroken]

end Sys2Proof.Machine
end

section
/-! SUPPORT. Strokes on their pages: the commit (R55, R58, R78), the erasures of one stroke, of a
page and of a region (R59, R84 to R95), with and without a snapshot that holds the page, and the
statements about them. -/

namespace Sys2Proof.Machine

/-! ## The commit (R55) -/

theorem nextRevision_of_lt {r : Revision} (h : r.toNat < 2 ^ 32 - 1) : nextRevision r = r + 1 := by
  refine if_neg ?_
  rintro rfl
  exact absurd h (by decide)

theorem nextRevision_of_largest {r : Revision} (h : r.toNat = 2 ^ 32 - 1) : nextRevision r = r :=
  if_pos (BitVec.eq_of_toNat_eq (h.trans rfl))

section
variable (s : State) (e : Stroke)

theorem commitStroke_stroke? (k : Serial) :
    (s.commitStroke e).stroke? k =
      (s.stroke? k).map fun x =>
        if x.serial = e.serial then { x with state := .committed } else x :=
  StrokeTable.find_update s.strokes e.serial k _ fun _ => rfl

theorem commitStroke_page (pg : Page) :
    (s.commitStroke e).page pg =
      if e.page = pg then
        { s.page pg with
          list := (s.page pg).list ++ [e.serial], revision := nextRevision (s.page pg).revision }
      else s.page pg := by
  simp only [State.commitStroke, State.route_page, State.setChannel_page, State.setPage_page,
    State.setStrokes_page]
  split
  case isTrue h => rw [← h]
  case isFalse => rfl

theorem commitStroke_channel (pen : Pen) :
    (s.commitStroke e).channel pen =
      if e.pen = pen then { s.channel pen with undo := e.serial :: (s.channel pen).undo.take 7 }
      else s.channel pen := by
  simp only [State.commitStroke, State.route_channel, State.setChannel_channel,
    State.setPage_channel, State.setStrokes_channel]
  split
  case isTrue h =>
    rw [← h]
    rfl
  case isFalse => rfl

theorem commitStroke_ring (p : Port) :
    (s.commitStroke e).ring p =
      if maskHas (s.ring p).kindMask 0 && maskHas (s.ring p).pageMask e.page.val then
        ringReceive (commitNotice e (nextRevision (s.page e.page).revision)) (s.ring p)
      else s.ring p := by
  simp only [State.commitStroke, State.route_ring]
  rfl

end

/-- A serial that a stroke was found under is that stroke's. -/
theorem stroke?_serial {s : State} {k : Serial} {e : Stroke} (h : s.stroke? k = some e) :
    e.serial = k := StrokeTable.serial_of_find h

/-- Settles O38. -/
theorem commitEntersThePage : Obligations.CommitEntersThePage := by
  refine ⟨fun s e he hrevision => ?below, fun s e => ?any⟩
  case below =>
    have hnext := nextRevision_of_lt hrevision
    refine ⟨?_, ?_, ?_, fun p => ?_, rfl, fun pg hpg => ?_⟩
    · simp [commitStroke_stroke?, he]
    · rw [commitStroke_page, if_pos rfl, hnext]
    · rw [commitStroke_channel, if_pos rfl]
    · rw [commitStroke_ring, hnext]
      rfl
    · rw [commitStroke_page, if_neg (Ne.symm hpg)]
  case any =>
    refine ⟨(reach_commitStroke s e).sameOutside, rfl, fun k hk => ?_, rfl, ?_, fun hlargest => ?_,
      ?_, fun pen hpen => ?_, rfl, rfl⟩
    · rw [commitStroke_stroke?]
      cases hfound : s.stroke? k with
      | none => rfl
      | some x =>
        have hother : x.serial ≠ e.serial := by rwa [stroke?_serial hfound]
        exact congrArg some (if_neg hother)
    · rw [commitStroke_page, if_pos rfl]
    · rw [commitStroke_page, if_pos rfl, nextRevision_of_largest hlargest]
    · rw [commitStroke_channel, if_pos rfl]
    · rw [commitStroke_channel, if_neg (Ne.symm hpen)]

/-! ## ERASE_STROKE and UNDO: the checks (R59, R84) -/

section
variable {s : State} {p : Port} (hedit : (s.permissions p).edit = true)
include hedit

/-- Serial 0 names no stroke, whatever the table holds. -/
theorem eraseStroke_notFound {serial : Serial} (hnone : serial = 0 ∨ s.stroke? serial = none) :
    eraseStroke p (some serial) s = s.refuse .notFound := by
  rw [eraseStroke, if_neg (not_not.mpr hedit)]
  cases hfound : s.stroke? serial with
  | none => rfl
  | some e =>
    have hzero : serial = 0 := hnone.resolve_right (by simp [hfound])
    exact if_pos hzero

section
variable {e : Stroke} (hserial : e.serial ≠ 0) (hfound : s.stroke? e.serial = some e)
include hserial hfound

theorem eraseStroke_active (hstate : e.state = .opened ∨ e.state = .closing) :
    eraseStroke p (some e.serial) s = s.refuse .strokeActive := by
  simp only [eraseStroke, hedit, hfound, not_true_eq_false, if_false, if_neg hserial, if_pos hstate]

theorem eraseStroke_locked (hstate : e.state = .held ∨ e.state = .committed)
    (hlocked : (s.page e.page).locked = true) :
    eraseStroke p (some e.serial) s = s.refuse .locked := by
  have hactive : ¬ (e.state = .opened ∨ e.state = .closing) := by
    rcases hstate with h | h <;> simp [h]
  simp only [eraseStroke, hedit, hfound, not_true_eq_false, if_false, if_neg hserial,
    if_neg hactive, if_pos hlocked]

variable (hlocked : (s.page e.page).locked = false)
include hlocked

theorem eraseStroke_committed (hstate : e.state = .committed) :
    eraseStroke p (some e.serial) s =
      eraseReply (s.eraseCommitted e .request).1 e (s.eraseCommitted e .request).2 := by
  simp only [eraseStroke, hedit, hfound, not_true_eq_false, if_false, if_neg hserial]
  simp [hstate, hlocked]

theorem eraseStroke_held (hstate : e.state = .held) :
    eraseStroke p (some e.serial) s = eraseReply (s.withdraw e) e .ok := by
  simp only [eraseStroke, hedit, hfound, not_true_eq_false, if_false, if_neg hserial]
  simp [hstate, hlocked]

end

section
variable {pen : Pen}

theorem undo_empty (hundo : (s.channel pen).undo = []) :
    undo p (some (penCode pen)) s = s.refuse .notFound := by
  rw [undo, if_neg (not_not.mpr hedit), penOf_penCode]
  simp only [hundo]

variable {e : Stroke} {rest : List Serial} (hundo : (s.channel pen).undo = e.serial :: rest)
  (hfound : s.stroke? e.serial = some e)
include hundo hfound

theorem undo_locked (hlocked : (s.page e.page).locked = true) :
    undo p (some (penCode pen)) s = s.refuse .locked := by
  rw [undo, if_neg (not_not.mpr hedit), penOf_penCode]
  simp only [hundo, hfound, if_pos hlocked]

/-- UNDO erases the stroke on top of the stack from the state without it there; its answer carries
the revision where that erasure would be the seventeenth item (log 15). -/
theorem undo_erases (hlocked : (s.page e.page).locked = false) {popped : State}
    (hpopped : popped = s.setChannel pen { s.channel pen with undo := rest }) :
    undo p (some (penCode pen)) s =
      ((popped.eraseCommitted e .undo).1,
        some ⟨(popped.eraseCommitted e .undo).2, longBytes e.serial ++ [pageCode e.page]
          ++ if popped.eraseBreaks e then
              longBytes ((popped.eraseCommitted e .undo).1.page e.page).revision
            else []⟩) := by
  subst hpopped
  rw [undo, if_neg (not_not.mpr hedit), penOf_penCode]
  simp only [hundo, hfound]
  rw [if_neg (by simp [hlocked])]

end

end

/-! ## An erasure by what holds the page (R85, R86, R107) -/

theorem holdsErase_of_new {hold : List HoldItem} {serial : Serial}
    (hnew : ∀ c, HoldItem.erase serial c ∉ hold) : holdsErase hold serial = false := by
  rw [← Bool.not_eq_true, holdsErase_iff]
  rintro ⟨c, hc⟩
  exact hnew c hc

section
variable {s : State} {e : Stroke} {cause : EraseCause}

theorem eraseCommitted_unheld (h : s.holder e.page = none) :
    s.eraseCommitted e cause = (s.removeStroke e cause, .ok) := by
  rw [State.eraseCommitted, h]

theorem eraseBreaks_unheld (h : s.holder e.page = none) : s.eraseBreaks e = false := by
  rw [State.eraseBreaks, h]

section
variable {owner : Port} {a : ActiveSnapshot} (h : s.holder e.page = some (owner, a))
include h

theorem eraseCommitted_filed_already (hfiled : ∃ c, HoldItem.erase e.serial c ∈ a.hold) :
    s.eraseCommitted e cause = (s, .okDeferred) := by
  have hholds : holdsErase a.hold e.serial = true := (holdsErase_iff _ _).mpr hfiled
  simp only [State.eraseCommitted, h, hholds, if_true]

theorem eraseBreaks_filed_already (hfiled : ∃ c, HoldItem.erase e.serial c ∈ a.hold) :
    s.eraseBreaks e = false := by
  have hholds : holdsErase a.hold e.serial = true := (holdsErase_iff _ _).mpr hfiled
  simp [State.eraseBreaks, h, hholds]

variable (hnew : ∀ c, HoldItem.erase e.serial c ∉ a.hold)
include hnew

theorem eraseCommitted_files (hroom : a.hold.length < 16) :
    s.eraseCommitted e cause = (s.fileItem owner a (.erase e.serial cause), .okDeferred) := by
  simp [State.eraseCommitted, h, holdsErase_of_new hnew, Config.holdItems, hroom]

theorem eraseCommitted_breaks (hfull : 16 ≤ a.hold.length) :
    s.eraseCommitted e cause =
      ((s.breakSnapshot owner a).removeIfCommitted e.page e.serial cause, .ok) := by
  simp [State.eraseCommitted, h, holdsErase_of_new hnew, Config.holdItems, not_lt.mpr hfull]

theorem eraseBreaks_eq : s.eraseBreaks e = decide (16 ≤ a.hold.length) := by
  rw [State.eraseBreaks, h]
  simp only [holdsErase_of_new hnew, Bool.not_false, Bool.true_and]
  rfl

end

theorem removeIfCommitted_none {pg : Page} {serial : Serial} (h : s.stroke? serial = none) :
    s.removeIfCommitted pg serial cause = s := by
  rw [State.removeIfCommitted, h]

theorem removeIfCommitted_some {pg : Page} {serial : Serial} (h : s.stroke? serial = some e)
    (hstate : e.state = .committed) (hpage : e.page = pg) :
    s.removeIfCommitted pg serial cause = s.removeStroke e cause := by
  rw [State.removeIfCommitted, h]
  exact if_pos ⟨hstate, hpage⟩

/-- A stroke withdrawn from the hold list of its page's snapshot. -/
theorem withdraw_held {owner : Port} {a : ActiveSnapshot} (h : s.holder e.page = some (owner, a)) :
    s.withdraw e = (s.setSnapshot owner (some (.active
      { a with hold := a.hold.erase (.commit e.serial) }))).freeStroke .removed e := by
  rw [State.withdraw, h]

end

theorem removeStroke_channel_undo (s : State) (e : Stroke) (cause : EraseCause) :
    ((s.removeStroke e cause).channel e.pen).undo = (s.channel e.pen).undo.erase e.serial := by
  rw [(removeStroke_removed s e cause).freed.channel]
  rfl

/-- Settles O42. -/
theorem eraseAndUndoRemoveOneStroke : Obligations.EraseAndUndoRemoveOneStroke := by
  refine ⟨fun p tag s hs hedit => ⟨fun serial hnone => ?notFound, fun e hserial hfound =>
    ⟨fun hstate => ?active, fun hstate hlocked => ?locked⟩, fun pen hundo => ?empty,
    fun pen e rest hundo hfound hlocked => ?undoLocked⟩,
    fun p tag s e hs hedit hfound hlocked hunheld => ?removed⟩
  case notFound =>
    exact congrArg Host.Outcome.next
      (request_refused hs (eraseStroke_notFound (s := s.admitted p tag) hedit hnone))
  case active =>
    exact congrArg Host.Outcome.next
      (request_refused hs (eraseStroke_active (s := s.admitted p tag) hedit hserial hfound hstate))
  case locked =>
    exact congrArg Host.Outcome.next (request_refused hs
      (eraseStroke_locked (s := s.admitted p tag) hedit hserial hfound hstate hlocked))
  case empty =>
    exact congrArg Host.Outcome.next
      (request_refused hs (undo_empty (s := s.admitted p tag) hedit hundo))
  case undoLocked =>
    exact congrArg Host.Outcome.next
      (request_refused hs (undo_locked (s := s.admitted p tag) hedit hundo hfound hlocked))
  case removed =>
    have hholds : (s.admitted p tag).Holds e := hfound
    have hholder : (s.admitted p tag).holder e.page = none := holder_of_unheld _ hunheld
    refine ⟨fun hserial hstate => ?erase, fun rest hundo => ?undo⟩
    case erase =>
      have hreply :=
        eraseStroke_committed (s := s.admitted p tag) hedit hserial hfound hlocked hstate
      rw [eraseCommitted_unheld hholder] at hreply
      exact ⟨_, _, congrArg Host.Outcome.next (request_replied hs hreply),
        ⟨(reach_removeStroke _ e .request hholds).sameOutside, rfl⟩, removeStroke_removed _ _ _,
        removeStroke_channel_undo _ _ _⟩
    case undo =>
      have hpopped : ((s.admitted p tag).setChannel e.pen
          { s.channel e.pen with undo := rest }).holder e.page = none := hholder
      have hreply := undo_erases (s := s.admitted p tag) hedit hundo hfound hlocked rfl
      rw [admitted_channel, eraseCommitted_unheld hpopped, eraseBreaks_unheld hpopped] at hreply
      refine ⟨_, _, _, congrArg Host.Outcome.next (request_replied hs hreply), rfl, ⟨?_, ?_⟩,
        removeStroke_removed _ _ _, ?_⟩
      · exact ((reach_undo_stack (s.admitted p tag) e.pen rest).trans
          (reach_removeStroke _ e .undo hholds)).sameOutside
      · simp
      · rw [removeStroke_channel_undo, State.setChannel_channel_self]

/-! ## CLEAR_PAGE (R89, R90) -/

section
variable {s : State} {p : Port} {pg : Page} (hedit : (s.permissions p).edit = true)
include hedit

theorem clearPage_locked (hlocked : (s.page pg).locked = true) :
    clearPage p (some (pageCode pg)) s = s.refuse .locked := by
  rw [clearPage, if_neg (not_not.mpr hedit), pageOf_pageCode]
  exact if_pos hlocked

variable (hlocked : (s.page pg).locked = false)
include hlocked

theorem clearPage_scanned {r : Scan} (hscan : (s.page pg).occupant = .scan r) :
    clearPage p (some (pageCode pg)) s = s.refuse .pageBusy := by
  rw [clearPage, if_neg (not_not.mpr hedit), pageOf_pageCode]
  simp [hlocked, hscan]

theorem clearPage_free (hfree : (s.page pg).occupant = .none) :
    clearPage p (some (pageCode pg)) s = s.clearNow pg := by
  rw [clearPage, if_neg (not_not.mpr hedit), pageOf_pageCode]
  simp [hlocked, hfree]

theorem clearPage_held {owner : Port} {a : ActiveSnapshot}
    (hoccupant : (s.page pg).occupant = .snapshot owner)
    (hrecord : s.snapshot owner = some (.active a)) :
    clearPage p (some (pageCode pg)) s =
      if HoldItem.clear ∈ a.hold then clearDeferred s a
      else if a.hold.length < 16 then clearDeferred (s.fileItem owner a .clear) a
      else (s.breakSnapshot owner a).clearNow pg := by
  rw [clearPage, if_neg (not_not.mpr hedit), pageOf_pageCode]
  simp only [hlocked, hoccupant, holder_of_snapshot s hoccupant hrecord, Bool.false_eq_true,
    if_false]
  rfl

end

/-- Settles O44. -/
theorem clearPageEmptiesThePage : Obligations.ClearPageEmptiesThePage := by
  intro p tag pg s hs hedit
  refine ⟨fun hlocked => ?locked, fun hlocked r hscan => ?scanned, fun hlocked hfree => ?clears⟩
  case locked =>
    exact congrArg Host.Outcome.next
      (request_refused hs (clearPage_locked (s := s.admitted p tag) hedit hlocked))
  case scanned =>
    exact congrArg Host.Outcome.next
      (request_refused hs (clearPage_scanned (s := s.admitted p tag) hedit hlocked hscan))
  case clears =>
    have hcleared := clearStrokes_cleared (s.admitted p tag) pg
    have hreach := reach_clearStrokes (s.admitted p tag) pg
    have hpage : ((s.admitted p tag).clearStrokes pg).page pg =
        { s.page pg with
          list := []
          revision := if (s.page pg).list = [] then (s.page pg).revision
            else nextRevision (s.page pg).revision } := by
      by_cases hempty : (s.page pg).list = []
      · rw [hcleared.empty hempty, if_pos hempty, ← hempty]
        rfl
      · rw [hcleared.page hempty, if_neg hempty]
        rfl
    refine ⟨_, _, congrArg Host.Outcome.next (request_replied hs
      (clearPage_free (s := s.admitted p tag) hedit hlocked hfree)), ⟨hreach.sameOutside, rfl⟩,
      hcleared, hreach.channels, ?_, ?_, hcleared.places, hcleared.snapshots, hcleared.pages⟩
    · rw [hpage]
    · rw [hpage]

/-! ## Erasures under a snapshot (R86, R87, R90, R101, R107) -/

/-- Settles O43: by the hold list each erasure finds its item there, files it, or breaks the
snapshot. -/
theorem erasuresUnderASnapshotAreFiled : Obligations.ErasuresUnderASnapshotAreFiled := by
  intro p owner tag pg a s hs hedit hlocked hoccupant hrecord
  refine ⟨fun e hserial hfound hpage => ?erase, fun e pen rest hundo hfound hpage => ?undo,
    fun hfiled => ?clearAlready, fun hnew hroom => ?clearFiles, fun hnew hfull => ?clearBreaks⟩
  case erase =>
    subst hpage
    have hholder : (s.admitted p tag).holder e.page = some (owner, a) :=
      holder_of_snapshot _ hoccupant hrecord
    have hcommitted := eraseStroke_committed (s := s.admitted p tag) hedit hserial hfound hlocked
    refine ⟨_, rfl, fun hstate hfiled => ?_, fun hstate hnew hroom => ?_,
      fun hstate hnew hfull => ?_, fun hstate => ?_⟩
    · have hreply := hcommitted hstate
      rw [eraseCommitted_filed_already hholder hfiled] at hreply
      exact congrArg Host.Outcome.next (request_replied hs hreply)
    · have hreply := hcommitted hstate
      rw [eraseCommitted_files hholder hnew hroom] at hreply
      exact congrArg Host.Outcome.next (request_replied hs hreply)
    · have hreply := hcommitted hstate
      rw [eraseCommitted_breaks hholder hnew hfull] at hreply
      refine ⟨_, _, rfl, fun e' he' hstate' hpage' => ?_, removeIfCommitted_none,
        congrArg Host.Outcome.next (request_replied hs hreply)⟩
      rw [removeIfCommitted_some he' hstate' hpage']
      exact removeStroke_removed _ _ _
    · have hreply := eraseStroke_held (s := s.admitted p tag) hedit hserial hfound hlocked hstate
      rw [withdraw_held hholder] at hreply
      exact ⟨_, congrArg Host.Outcome.next (request_replied hs hreply), freeStroke_entryFreed _ _ _⟩
  case undo =>
    subst hpage
    have hholder : ((s.admitted p tag).setChannel pen { s.channel pen with undo := rest }).holder
        e.page = some (owner, a) := holder_of_snapshot _ hoccupant hrecord
    have hundone := undo_erases (s := s.admitted p tag) hedit hundo hfound hlocked rfl
    rw [admitted_channel] at hundone
    refine ⟨_, _, rfl, rfl, fun hfiled => ?_, fun hnew hroom => ?_, fun hnew hfull => ?_⟩
    · rw [eraseCommitted_filed_already hholder hfiled, eraseBreaks_filed_already hholder hfiled]
        at hundone
      exact congrArg Host.Outcome.next (request_replied hs hundone)
    · rw [eraseCommitted_files hholder hnew hroom, eraseBreaks_eq hholder hnew,
        decide_eq_false (not_le.mpr hroom)] at hundone
      exact congrArg Host.Outcome.next (request_replied hs hundone)
    · rw [eraseCommitted_breaks hholder hnew hfull, eraseBreaks_eq hholder hnew,
        decide_eq_true hfull] at hundone
      refine ⟨_, _, rfl, fun e' he' hstate' hpage' => ?_, removeIfCommitted_none,
        congrArg Host.Outcome.next (request_replied hs hundone)⟩
      rw [removeIfCommitted_some he' hstate' hpage']
      exact removeStroke_removed _ _ _
  case clearAlready =>
    exact congrArg Host.Outcome.next (request_replied hs
      ((clearPage_held (s := s.admitted p tag) hedit hlocked hoccupant hrecord).trans
        (if_pos hfiled)))
  case clearFiles =>
    exact congrArg Host.Outcome.next (request_replied hs
      ((clearPage_held (s := s.admitted p tag) hedit hlocked hoccupant hrecord).trans
        ((if_neg hnew).trans (if_pos hroom))))
  case clearBreaks =>
    exact ⟨_, _, rfl, clearStrokes_cleared _ _, congrArg Host.Outcome.next (request_replied hs
      ((clearPage_held (s := s.admitted p tag) hedit hlocked hoccupant hrecord).trans
        ((if_neg hnew).trans (if_neg (not_lt.mpr hfull)))))⟩

/-! ## ERASE_REGION and its scan (R91 to R95) -/

theorem modeOf_le {mode : Byte} (h : mode.toNat ≤ 1) :
    modeOf (some mode) = some (if mode = 0 then .inside else .touch) := by
  have htwo : ∀ mode : Byte, mode.toNat ≤ 1 → mode = 0 ∨ mode = 1 := by decide
  rcases htwo mode h with rfl | rfl <;> rfl

theorem rectAdjusted_eq_false_iff (f : RegionFields) :
    rectAdjusted f = false ↔ f.x0.toNat ≤ f.x1.toNat ∧ f.y0.toNat ≤ f.y1.toNat ∧
      f.x1.toNat ≤ 15999 ∧ f.y1.toNat ≤ 8999 := by
  simp only [rectAdjusted, scanRect, Config.maxX, Config.maxY, decide_eq_false_iff_not, not_not,
    ne_eq, Rect.mk.injEq]
  omega

section
variable {s : State} {p : Port} {pg : Page} {f : RegionFields}
  (hedit : (s.permissions p).edit = true) (hmode : f.mode.toNat ≤ 1) (tag : Byte)
include hedit hmode

theorem eraseRegion_locked (hlocked : (s.page pg).locked = true) :
    eraseRegion p tag (some (pageCode pg)) (some f) s = s.refuse .locked := by
  simp [eraseRegion, hedit, modeOf_le hmode, hlocked]

theorem eraseRegion_busy (hlocked : (s.page pg).locked = false)
    (hbusy : (s.page pg).occupant ≠ .none) :
    eraseRegion p tag (some (pageCode pg)) (some f) s = s.refuse .pageBusy := by
  simp [eraseRegion, hedit, modeOf_le hmode, hlocked, hbusy]

theorem eraseRegion_begins (hlocked : (s.page pg).locked = false)
    (hfree : (s.page pg).occupant = .none) :
    eraseRegion p tag (some (pageCode pg)) (some f) s =
      (s.setOccupant pg (.scan
        { requester := p, tag, mode := if f.mode = 0 then .inside else .touch, rect := scanRect f
          adjusted := rectAdjusted f, visits := (s.page pg).list, removed := 0, wanted := true }),
        none) := by
  simp [eraseRegion, hedit, modeOf_le hmode, hlocked, hfree]

end

/-- Settles O45. -/
theorem eraseRegionBeginsAScan : Obligations.EraseRegionBeginsAScan := by
  intro p tag pg x0 y0 x1 y1 mode s hs hedit
  refine ⟨fun hmode => ?range, fun hmode hlocked => ?locked, fun hmode hlocked hbusy => ?busy,
    fun hmode hlocked hfree => ?begins⟩
  case range =>
    exact congrArg Host.Outcome.next (request_refused hs (eraseRegion_noMode
      (s := s.admitted p tag) (f := ⟨x0, y0, x1, y1, mode⟩) hedit (modeOf_none hmode) tag pg))
  case locked =>
    exact congrArg Host.Outcome.next (request_refused hs (eraseRegion_locked
      (s := s.admitted p tag) (f := ⟨x0, y0, x1, y1, mode⟩) hedit hmode tag hlocked))
  case busy =>
    exact congrArg Host.Outcome.next (request_refused hs (eraseRegion_busy
      (s := s.admitted p tag) (f := ⟨x0, y0, x1, y1, mode⟩) hedit hmode tag hlocked hbusy))
  case begins =>
    exact ⟨_, congrArg Host.Outcome.next (request_unreplied hs (eraseRegion_begins
      (s := s.admitted p tag) (f := ⟨x0, y0, x1, y1, mode⟩) hedit hmode tag hlocked hfree)), rfl,
      rfl, rfl, rfl, rfl, rfl, rfl, rectAdjusted_eq_false_iff _⟩

section
variable {s : State} {pg : Page} {r : Scan}

theorem exec_scanVisit (hphase : s.phase = .running) (hscan : (s.page pg).occupant = .scan r) :
    exec (.scanVisit pg) s = .next (s.visitScan pg r) := by
  change execScanVisit pg s = _
  rw [execScanVisit, hphase, hscan]

theorem exec_scanComplete (hphase : s.phase = .running) (hscan : (s.page pg).occupant = .scan r)
    (hdone : r.visits = []) : exec (.scanComplete pg) s = .next (s.completeScan pg r) := by
  change execScanComplete pg s = _
  rw [execScanComplete, hphase, hscan]
  exact congrArg _ (if_pos hdone)

variable {serial : Serial} {rest : List Serial} {e : Stroke} (hvisits : r.visits = serial :: rest)
  (hfound : s.stroke? serial = some e)
include hvisits hfound

theorem visitScan_leaves (hbox : boxMatches r.mode r.rect e.box = false) :
    s.visitScan pg r = s.setOccupant pg (.scan { r with visits := rest }) := by
  simp only [State.visitScan, hvisits, hfound, hbox, Bool.false_eq_true, if_false]

theorem visitScan_removes (hbox : boxMatches r.mode r.rect e.box = true) :
    s.visitScan pg r =
      (s.setOccupant pg (.scan { r with visits := rest, removed := r.removed + 1 })).removeStroke e
        .region := by
  simp only [State.visitScan, hvisits, hfound, hbox, if_true]

end

/-- What a removal does to the page of its stroke, to the table and to the pool. -/
theorem State.StrokeRemoved.pages_ne {s u : State} {e : Stroke} {cause : EraseCause}
    (h : s.StrokeRemoved e cause u) {k : Page} (hk : k ≠ e.page) : u.page k = s.page k := by
  have hpages : u.page k = (s.setPage e.page (u.page e.page)).page k :=
    congrArg (look · k) h.freed.pages
  rw [hpages, State.setPage_page_of_ne _ _ _ (Ne.symm hk)]

/-- Settles O47. -/
theorem scansVisitAndComplete : Obligations.ScansVisitAndComplete := by
  intro pg r s hphase hscan
  refine ⟨fun serial rest e hvisits hfound hpage => ⟨fun hbox => ?leaves, fun hbox => ?removes⟩,
    fun hdone => ?completes⟩
  case leaves =>
    rw [exec_scanVisit hphase hscan, visitScan_leaves hvisits hfound hbox]
    rfl
  case removes =>
    subst hpage
    have hserial : e.serial = serial := stroke?_serial hfound
    have hreach := reach_visitScan s e.page r
    rw [visitScan_removes hvisits hfound hbox] at hreach
    have hremoved := removeStroke_removed
      (s.setPage e.page { s.page e.page with
        occupant := .scan { r with visits := rest, removed := r.removed + 1 } }) e .region
    refine ⟨_, _, by rw [exec_scanVisit hphase hscan, visitScan_removes hvisits hfound hbox],
      hreach.sameOutside, hreach.channels, rfl, hremoved, ?_, hremoved.freed.blocks, ?_, ?_, ?_,
      fun k hk => ?_⟩
    · rw [← hserial]
      exact hremoved.freed.gone
    · rw [← hserial]
      exact hremoved.list.trans (by rw [State.setPage_page_self])
    · exact hremoved.revision.trans (by rw [State.setPage_page_self])
    · rw [← hserial]
      exact hremoved.visits _ (by rw [State.setPage_page_self])
    · exact (hremoved.pages_ne hk).trans (State.setPage_page_of_ne _ _ _ (Ne.symm hk))
  case completes =>
    refine ⟨_, rfl, fun hwanted => ?_, fun hwanted => ?_⟩
    · rw [exec_scanComplete hphase hscan hdone, State.completeScan, State.deliver, if_pos hwanted]
      rfl
    · rw [exec_scanComplete hphase hscan hdone, State.completeScan, State.deliver,
        if_neg (by simp [hwanted])]
      rfl

end Sys2Proof.Machine
end

section
/-! SUPPORT. The end of a snapshot (R105 to R108, R110), the removal of VIEW (R151) and DETACH
(R156, R21), and the statements about them. -/

namespace Sys2Proof.Machine

/-! ## A snapshot over (R106, R107, R108, R110) -/

section
variable (s : State) (owner : Port) (a : ActiveSnapshot) (record : Option SnapshotRecord)

theorem snapshotOver_snapshot : (s.snapshotOver owner a record).snapshot owner = record :=
  State.setSnapshot_snapshot_self _ _ _

theorem snapshotOver_occupant :
    ((s.snapshotOver owner a record).page a.page).occupant = .none := by
  rw [State.snapshotOver, State.setSnapshot_page, State.setPage_page_self]

/-- With an empty hold list nothing is applied. -/
theorem snapshotOver_of_empty (h : a.hold = []) :
    s.snapshotOver owner a record =
      (s.setPage a.page { s.page a.page with occupant := .none }).setSnapshot owner record := by
  rw [State.snapshotOver, State.itemsApplied, h, List.foldl_nil]

theorem reach_snapshotOver_none : PageReach s (s.snapshotOver owner a none) :=
  applyHeld_eq s owner a none ▸ reach_applyHeld_none s owner a

end

/-! ## The limit timer (R108) -/

section
variable {s : State} {p : Port} {a : ActiveSnapshot} (hrecord : s.snapshot p = some (.active a))
include hrecord

theorem expireSnapLimit_due (hphase : s.phase = .running) (hdue : s.Due (some a.timer)) :
    s.expireSnapLimit p = s.breakSnapshot p a := by
  rw [State.expireSnapLimit, hrecord]
  exact if_pos ⟨hphase, (timerDue_iff s a.timer).mpr hdue⟩

theorem expireSnapLimit_notDue (h : s.phase ≠ .running ∨ ¬ s.Due (some a.timer)) :
    s.expireSnapLimit p = s := by
  rw [State.expireSnapLimit, hrecord]
  refine if_neg fun ⟨hphase, hdue⟩ => ?_
  rcases h with hoff | hnot
  · exact hoff hphase
  · exact hnot ((timerDue_iff s a.timer).mp hdue)

end

theorem breakSnapshot_link (s : State) (p : Port) (a : ActiveSnapshot) :
    (s.breakSnapshot p a).link p = { s.link p with snapBroken := true } := by
  rw [breakSnapshot_eq, State.setLink_link_self]

theorem applyItem_commit {s : State} {e : Stroke} (h : s.stroke? e.serial = some e) (pg : Page) :
    State.applyItem pg s (.commit e.serial) = s.commitStroke e := by
  simp only [State.applyItem, h]

theorem applyItem_erase (s : State) (pg : Page) (serial : Serial) (cause : EraseCause) :
    State.applyItem pg s (.erase serial cause) = s.removeIfCommitted pg serial cause := rfl

/-- Settles O41: the break is the expiry's whole effect; each kind of item is its operation. -/
theorem snapLimitExpiryBreaksTheSnapshot : Obligations.SnapLimitExpiryBreaksTheSnapshot := by
  refine ⟨fun p s a hrecord => ⟨fun hphase hdue => ?breaks, fun h => ?stands⟩,
    fun s a item rest => ⟨rfl, rfl⟩, fun s pg e cause he => ⟨applyItem_commit he pg, ?erase⟩,
    fun s pg serial cause hnone => ?gone, fun s pg => clearStrokes_cleared s pg⟩
  case breaks =>
    have hreach := reach_breakSnapshot s p a
    have heq := breakSnapshot_eq s p a
    refine ⟨_, _, congrArg Host.Outcome.next (expireSnapLimit_due hrecord hphase hdue),
      hreach.sameOutside, hreach.channels, rfl, heq, rfl, ?_, ?_, ?_, fun hempty => ?_⟩
    · rw [heq, State.setLink_snapshot, snapshotOver_snapshot]
    · rw [heq, State.setLink_page, snapshotOver_occupant]
    · rw [breakSnapshot_link]
    · rw [heq, snapshotOver_of_empty _ _ _ _ hempty]
      exact ⟨State.setPage_page_self _ _ _, rfl, rfl, rfl⟩
  case stands =>
    exact congrArg Host.Outcome.next (expireSnapLimit_notDue hrecord h)
  case erase =>
    intro hstate hpage
    rw [applyItem_erase, removeIfCommitted_some he hstate hpage]
    exact removeStroke_removed s e cause
  case gone =>
    rw [applyItem_erase, removeIfCommitted_none hnone]

/-! ## SNAPSHOT_END (R106) -/

section
variable {s : State} {p : Port} (hview : (s.permissions p).view = true)
include hview

theorem snapshotEnd_without_record (hrecord : s.snapshot p = none) :
    snapshotEnd p true s = s.refuse .noSnapshot := by
  simp [snapshotEnd, hview, hrecord]

theorem snapshotEnd_broken {pg : Page} (hrecord : s.snapshot p = some (.broken pg)) :
    snapshotEnd p true s = (s.setSnapshot p none, some ⟨.snapshotBroken, [pageCode pg]⟩) := by
  simp [snapshotEnd, hview, hrecord]

theorem snapshotEnd_active {a : ActiveSnapshot} (hrecord : s.snapshot p = some (.active a))
    {resynced : State} (hresynced : resynced =
      s.setRing p { s.ring p with resync := maskDrop (s.ring p).resync a.page.val }) :
    snapshotEnd p true s =
      (resynced.snapshotOver p a none,
        some ⟨.ok, [pageCode a.page] ++ longBytes a.frozen
          ++ longBytes ((resynced.snapshotOver p a none).page a.page).revision
          ++ natByte a.hold.length⟩) := by
  have hend : s.endSnapshot p a = resynced.snapshotOver p a none := by
    rw [State.endSnapshot, hresynced, applyHeld_eq]
  simp [snapshotEnd, hview, hrecord, hend]

end

/-- Settles O50. -/
theorem snapshotEndFreesThePage : Obligations.SnapshotEndFreesThePage := by
  intro p tag s hs hview
  refine ⟨fun hrecord => ?none, fun pg hrecord => ?broken, fun a hrecord => ?active⟩
  case none =>
    exact congrArg Host.Outcome.next
      (request_refused hs (snapshotEnd_without_record (s := s.admitted p tag) hview hrecord))
  case broken =>
    exact congrArg Host.Outcome.next
      (request_replied hs (snapshotEnd_broken (s := s.admitted p tag) hview hrecord))
  case active =>
    let resynced := (s.admitted p tag).setRing p
      { s.ring p with resync := maskDrop (s.ring p).resync a.page.val }
    have hresynced : (s.admitted p tag).SameOutside resynced :=
      ⟨rfl, rfl, rfl, rfl, rfl, rfl, rfl, rfl, fun _ => rfl⟩
    have hreach := reach_snapshotOver_none resynced p a
    exact ⟨resynced, _, _, congrArg Host.Outcome.next (request_replied hs
      (snapshotEnd_active (s := s.admitted p tag) hview hrecord rfl)), rfl, rfl,
      ⟨hresynced.trans hreach.sameOutside, rfl⟩, hreach.channels, snapshotOver_snapshot _ _ _ _,
      snapshotOver_occupant _ _ _ _, snapshotOver_of_empty _ _ _ _⟩

/-! ## A release (R110) -/

theorem releaseSnapshot_snapshot (s : State) (p : Port) :
    (s.releaseSnapshot p).snapshot p = none := by
  obtain ⟨hnone, hbroken, hactive⟩ := releaseSnapshot_cases s p
  cases hrecord : s.snapshot p with
  | none => rw [hnone hrecord, hrecord]
  | some record =>
    cases record with
    | broken pg => rw [hbroken pg hrecord, State.setSnapshot_snapshot_self]
    | active a => rw [hactive a hrecord, snapshotOver_snapshot]

/-- A release with no items to apply touches no ring. -/
theorem releaseSnapshot_ring {s : State} {p : Port} (h : ∀ a, s.snapshot p ≠ some (.active a))
    (q : Port) : (s.releaseSnapshot p).ring q = s.ring q := by
  obtain ⟨hnone, hbroken, -⟩ := releaseSnapshot_cases s p
  cases hrecord : s.snapshot p with
  | none => rw [hnone hrecord]
  | some record =>
    cases record with
    | broken pg => rw [hbroken pg hrecord, State.setSnapshot_ring]
    | active a => exact absurd hrecord (h a)

/-! ## SET_PERMISSIONS (R150, R151) -/

section
variable {s : State} {p q : Port} {set : Permissions} (hroom : (s.permissions p).room = true)
include hroom

/-- The checks before R150's own: the port may, the port named and the set are in range. -/
theorem setPermissions_checked :
    setPermissions p (some (portCode q, permissionsByte set)) s =
      if ¬ (s.setPermissions q set).mirror.someRoom = true then s.refuse .lastRoom
      else
        let after := if (s.permissions q).view = true ∧ ¬ set.view = true
          then (s.setPermissions q set).viewRemoved q else s.setPermissions q set
        (after, some ⟨.ok, [portCode q, permissionsByte (after.permissions q)]⟩) := by
  simp only [setPermissions, hroom, not_true_eq_false, if_false, Option.map_some, portOf_portCode,
    permissionsOf_permissionsByte]

theorem setPermissions_lastRoom (hlast : (s.setPermissions q set).mirror.someRoom = false) :
    setPermissions p (some (portCode q, permissionsByte set)) s = s.refuse .lastRoom := by
  rw [setPermissions_checked hroom, if_pos (by rw [hlast]; exact Bool.false_ne_true)]

variable (hsome : (s.setPermissions q set).mirror.someRoom = true)
include hsome

theorem setPermissions_stores (hview : (s.permissions q).view = false ∨ set.view = true) :
    setPermissions p (some (portCode q, permissionsByte set)) s =
      (s.setPermissions q set, some ⟨.ok, [portCode q, permissionsByte set]⟩) := by
  have hkept : ¬ ((s.permissions q).view = true ∧ ¬ set.view = true) := by
    rintro ⟨hheld, hgone⟩
    rcases hview with hlacked | hgiven
    · rw [hheld] at hlacked
      cases hlacked
    · exact hgone hgiven
  have hset : (s.setPermissions q set).permissions q = set := look_put_self _ _ _
  simp only [setPermissions_checked hroom, if_neg (not_not.mpr hsome), if_neg hkept, hset]

theorem setPermissions_removes_view (hheld : (s.permissions q).view = true)
    (hgone : set.view = false) :
    setPermissions p (some (portCode q, permissionsByte set)) s =
      ((s.setPermissions q set).viewRemoved q, some ⟨.ok, [portCode q, permissionsByte set]⟩) := by
  have hset : ((s.setPermissions q set).viewRemoved q).permissions q = set := by
    have hmirror : ((s.setPermissions q set).viewRemoved q).mirror =
        (s.setPermissions q set).mirror :=
      (reach_releaseSnapshot (s.setPermissions q set) q).sameOutside.mirror
    rw [State.permissions, hmirror]
    exact look_put_self _ _ _
  have hremoved : (s.permissions q).view = true ∧ ¬ set.view = true := ⟨hheld, by simp [hgone]⟩
  simp only [setPermissions_checked hroom, if_neg (not_not.mpr hsome), if_pos hremoved, hset]

end

/-- Settles O58: the set is stored first; where VIEW goes, the release is a run of the page store's
moves, and then the masks and the slots of the port are emptied. -/
theorem setPermissionsStoresTheSet : Obligations.SetPermissionsStoresTheSet := by
  refine ⟨fun p tag named set s hs hroom hrange => ?range, fun p q tag set s hs hroom =>
    ⟨fun hlast => ?lastRoom, fun hsome => ⟨fun hview => ?stores, fun hheld hgone => ?removes⟩⟩⟩
  case range =>
    rcases hrange with hnamed | hset
    · exact congrArg Host.Outcome.next (request_refused hs
        (setPermissions_noPort (s := s.admitted p tag) hroom (portOf_none hnamed) set))
    · exact congrArg Host.Outcome.next (request_refused hs
        (setPermissions_noSet (s := s.admitted p tag) hroom (permissionsOf_none hset) named))
  case lastRoom =>
    exact congrArg Host.Outcome.next
      (request_refused hs (setPermissions_lastRoom (s := s.admitted p tag) hroom hlast))
  case stores =>
    exact congrArg Host.Outcome.next
      (request_replied hs (setPermissions_stores (s := s.admitted p tag) hroom hsome hview))
  case removes =>
    let stored := (s.admitted p tag).setPermissions q set
    let released := stored.releaseSnapshot q
    have hreach : PageReach stored released := reach_releaseSnapshot stored q
    have hmute : (released.livePort q).mute = (s.livePort q).mute :=
      (InkReach.of_page hreach).mute q
    have hu := viewRemoved_eq stored q (r := released) rfl
    rw [hmute] at hu
    obtain ⟨hnone, hbroken, hactive⟩ := releaseSnapshot_cases stored q
    have hreply := setPermissions_removes_view (s := s.admitted p tag) hroom hsome hheld hgone
    refine ⟨stored, released, stored.viewRemoved q, rfl, hnone, hbroken, hactive, hu,
      congrArg Host.Outcome.next (request_replied hs hreply), ?_, hreach.channels,
      releaseSnapshot_snapshot stored q, ?_, ?_, ?_, fun hinactive => ?_, fun pen => ?_, ?_⟩
    · have hafter : released.SameOutside (stored.viewRemoved q) := by
        rw [hu]
        exact ⟨rfl, rfl, rfl, rfl, rfl, rfl, rfl, rfl, fun _ => rfl⟩
      exact hreach.sameOutside.trans hafter
    · simp [hu]
    · simp [hu]
    · simp only [hu, State.setLivePort_ring, State.setRing_ring_self]
      exact ((InkReach.of_page hreach).rings q).2.2
    · simp only [hu, State.setLivePort_ring, State.setRing_ring_self]
      rw [releaseSnapshot_ring (s := stored) hinactive]
      rfl
    · simp [hu]
    · simp [hu]

/-! ## A port without a snapshot gets none (R54, R156) -/

section
variable {q : Port}

theorem applyItem_snapshots (s : State) (pg : Page) (item : HoldItem) :
    (State.applyItem pg s item).snapshots = s.snapshots := by
  cases item with
  | commit serial =>
    simp only [State.applyItem]
    split
    · rfl
    · rfl
  | erase serial cause =>
    simp only [State.applyItem]
    split
    · rfl
    · split
      · exact (removeStroke_removed _ _ _).freed.snapshots
      · rfl
  | clear => exact (clearStrokes_cleared s pg).snapshots

theorem itemsApplied_snapshots (s : State) (a : ActiveSnapshot) :
    (s.itemsApplied a).snapshots = s.snapshots := by
  unfold State.itemsApplied
  induction a.hold generalizing s with
  | nil => rfl
  | cons item rest ih => exact (ih _).trans (applyItem_snapshots s a.page item)

/-- A break touches the owner's record and no other. -/
theorem breakSnapshot_snapshot_ne {s : State} {owner : Port} (a : ActiveSnapshot) (h : owner ≠ q) :
    (s.breakSnapshot owner a).snapshot q = s.snapshot q := by
  rw [breakSnapshot_eq, State.setLink_snapshot, State.snapshotOver,
    State.setSnapshot_snapshot_of_ne _ _ _ h, State.setPage_snapshot]
  exact congrArg (look · q) (itemsApplied_snapshots s a)

/-- An INK outcome changes the record of the page's holder and no other. -/
theorem inkOutcome_snapshot_none {s : State} {e : Stroke} (h : s.snapshot q = none) :
    (s.inkOutcome e).snapshot q = none := by
  unfold State.inkOutcome
  split
  · exact h
  · rename_i owner a hholder
    have hother : owner ≠ q := by
      rintro rfl
      rw [snapshot_of_holder s hholder] at h
      cases h
    split
    · rw [State.fileItem, State.setSnapshot_snapshot_of_ne _ _ _ hother]
      exact h
    · exact (breakSnapshot_snapshot_ne a hother).trans h

theorem classify_snapshot_none {s : State} {e : Stroke} {cause : CloseCause}
    (h : s.snapshot q = none) : (s.classify e cause).snapshot q = none := by
  unfold State.classify
  dsimp only
  split
  · exact h
  · exact h
  · exact inkOutcome_snapshot_none h

theorem activityEnded_snapshot_none {s : State} {pen : Pen} {cause : CloseCause}
    (h : s.snapshot q = none) : (s.activityEnded pen cause).snapshot q = none := by
  have hclosed : (s.closeCurrent pen cause).snapshot q = none := by
    cases hcurrent : s.currentStroke pen with
    | none =>
      rw [closeCurrent_none _ _ _ hcurrent]
      exact h
    | some e =>
      rw [closeCurrent_some _ _ _ hcurrent]
      exact classify_snapshot_none h
  unfold State.activityEnded State.enterPen
  dsimp only
  split
  · exact hclosed
  · exact hclosed

end

/-! ## DETACH (R156) -/

theorem Channel.eq_of_same_but_undo {c d : Channel}
    (h : { c with undo := [] } = { d with undo := [] }) : c = { d with undo := c.undo } :=
  congrArg (fun e : Channel => { e with undo := c.undo }) h

/-- No answer wanted: what that leaves beside links, scans and the save. -/
theorem State.AnswersUnwanted.rest {s u : State} {p : Port} (h : s.AnswersUnwanted p u) :
    u.channels = s.channels ∧ u.mirror = s.mirror ∧ u.image = s.image ∧
      u.deviceTime = s.deviceTime ∧ u.snapshots = s.snapshots := by
  have hothers := h.others
  have hchannels := congrArg State.channels hothers
  have hmirror := congrArg State.mirror hothers
  have himage := congrArg State.image hothers
  have htime := congrArg State.deviceTime hothers
  have hsnapshots := congrArg State.snapshots hothers
  exact ⟨hchannels, hmirror, himage, htime, hsnapshots⟩

/-- Of a page it touches the occupant alone. -/
theorem State.AnswersUnwanted.page_fields {s u : State} {p : Port} (h : s.AnswersUnwanted p u)
    (pg : Page) :
    (u.page pg).locked = (s.page pg).locked ∧ (u.page pg).revision = (s.page pg).revision := by
  by_cases hscan : ∃ r, (s.page pg).occupant = .scan r
  · obtain ⟨r, hr⟩ := hscan
    rw [h.scans pg r hr]
    exact ⟨rfl, rfl⟩
  · rw [h.pages pg (not_exists.mp hscan)]
    exact ⟨rfl, rfl⟩

section
variable (s : State) (p : Port)

/-- A port without its snapshot and without the activity of its pens. -/
def State.departed : State := (s.releaseSnapshot p).endBoundPens p

/-- A link after DETACH: attention at its defaults, the answer ready. -/
def Link.detached (l : Link) (tag : Byte) : Link :=
  { l with
    state := .answerReady ⟨.ok, tag, []⟩, frameFault := false, snapBroken := false
    attentionMask := 0x11, threshold := 1 }

theorem answerReady_attentionDefaults (tag : Byte) :
    (s.setLink p (s.link p).attentionDefaults).answerReady p ⟨.ok, tag, []⟩ =
      s.setLink p ((s.link p).detached tag) := by
  rw [State.answerReady, setLink_setLink, State.setLink_link_self]
  rfl

theorem detach_eq (tag : Byte) {d : State} (hd : d = (s.unwantAnswers p).departed p) :
    s.detach p tag = ((d.setRing p ringDefault).setLivePort p livePortDefault).setLink p
      ((d.link p).detached tag) := by
  have hsteps : s.detach p tag =
      (((d.setRing p ringDefault).setLivePort p livePortDefault).setLink p
        (((d.setRing p ringDefault).setLivePort p livePortDefault).link p).attentionDefaults
          ).answerReady p ⟨.ok, tag, []⟩ := by
    rw [hd]
    rfl
  rw [hsteps, answerReady_attentionDefaults, State.setLivePort_link, State.setRing_link]

theorem reach_departed : InkReach s (s.departed p) :=
  (InkReach.of_page (reach_releaseSnapshot s p)).trans (reach_endBoundPens (s.releaseSnapshot p) p)

/-- The pens bound to the port before, in rising number, have their activity ended. -/
theorem departed_eq_foldl :
    s.departed p = allPens.foldl (fun u pen =>
      if (s.penSettings pen).binding = some p then u.activityEnded pen .detached else u)
        (s.releaseSnapshot p) :=
  foldl_endBound s p allPens (s.releaseSnapshot p) (by decide) fun pen =>
    congrArg (fun m : Mirror => look m.pens pen) (reach_releaseSnapshot s p).sameOutside.mirror

theorem departed_snapshot : (s.departed p).snapshot p = none := by
  have hfold : ∀ (pens : List Pen) (u : State), u.snapshot p = none →
      (pens.foldl (fun u pen =>
        if (s.penSettings pen).binding = some p then u.activityEnded pen .detached else u)
          u).snapshot p = none := by
    intro pens
    induction pens with
    | nil => exact fun u h => h
    | cons pen rest ih =>
      intro u h
      refine ih _ ?_
      dsimp only
      split
      · exact activityEnded_snapshot_none h
      · exact h
  rw [departed_eq_foldl]
  exact hfold allPens _ (releaseSnapshot_snapshot s p)

section
variable {pen : Pen}

/-- A channel whose pen is bound elsewhere keeps all but its undo stack. -/
theorem departed_channel_other (h : (s.penSettings pen).binding ≠ some p) :
    (s.departed p).channel pen =
      { s.channel pen with undo := ((s.departed p).channel pen).undo } := by
  have hfold := (foldl_activityEnded (fun pen => (s.penSettings pen).binding = some p) allPens
    _ _ (by decide) (departed_eq_foldl s p).symm pen).1 fun hbound => h hbound.1
  have hsame := hfold.trans ((reach_releaseSnapshot s p).channels pen)
  exact Channel.eq_of_same_but_undo hsame

theorem departed_channel_bound (h : (s.penSettings pen).binding = some p) :
    ((s.departed p).channel pen).state = .away ∧ ((s.departed p).channel pen).current = none ∧
      ((s.departed p).channel pen).down = [] ∧ ((s.departed p).channel pen).lift = [] ∧
      ((s.departed p).channel pen).silence = none ∧
      ((s.departed p).channel pen).rejoin = none :=
  (foldl_activityEnded (fun pen => (s.penSettings pen).binding = some p) allPens
    _ _ (by decide) (departed_eq_foldl s p).symm pen).2 h (mem_allPens pen)

end

end

/-- DETACH runs on the admitted state of an IDLE link, and on the state itself of a WORKING one. -/
theorem exec_detach {s : State} {p : Port} (tag : Byte) (hphase : s.phase = .running)
    (h : (s.link p).state = .idle ∨ ∃ other, (s.link p).state = .working other) :
    ∃ begun, (begun = s.admitted p tag ∨ begun = s) ∧
      ((s.link p).state = .idle → begun = s.admitted p tag) ∧
      ((∃ other, (s.link p).state = .working other) → begun = s) ∧
      exec (.detach p tag) s = .next (begun.detach p tag) := by
  rcases h with hidle | ⟨other, hworking⟩
  · refine ⟨_, .inl rfl, fun _ => rfl, fun ⟨other, hworking⟩ => ?_, ?_⟩
    · rw [hidle] at hworking
      cases hworking
    · change execDetach p tag s = _
      rw [execDetach, hidle]
      exact congrArg Host.Outcome.next (request_unreplied ⟨hphase, hidle⟩ rfl)
  · refine ⟨_, .inr rfl, fun hidle => ?_, fun _ => rfl, ?_⟩
    · rw [hworking] at hidle
      cases hidle
    · change execDetach p tag s = _
      simp only [execDetach, hworking, State.detachWhileWorking, hphase]

/-- Settles O57: what the departure leaves of links, channels and pages, read on the state it began
from, which differs from the one before in its own link's state at most. -/
theorem detachResetsThePort : Obligations.DetachResetsThePort := by
  intro p tag s hphase hlink
  obtain ⟨begun, hbegun, hidle, hworking, hexec⟩ := exec_detach tag hphase hlink
  have hown : (begun.link p).restarted = (s.link p).restarted ∧
      (begun.link p).lastTag = (s.link p).lastTag ∧ ∀ q, q ≠ p → begun.link q = s.link q := by
    rcases hbegun with rfl | rfl
    · obtain ⟨hlastTag, hrestarted, -⟩ := admitted_link_fields s p tag p
      exact ⟨hrestarted, hlastTag, fun q hq => by rw [admitted_link, if_neg (Ne.symm hq)]⟩
    · exact ⟨rfl, rfl, fun _ _ => rfl⟩
  have hsame : begun.channels = s.channels ∧ begun.mirror = s.mirror ∧ begun.image = s.image ∧
      begun.deviceTime = s.deviceTime ∧ begun.snapshots = s.snapshots ∧ begun.pages = s.pages ∧
      begun.save = s.save := by
    rcases hbegun with rfl | rfl <;> exact ⟨rfl, rfl, rfl, rfl, rfl, rfl, rfl⟩
  have hunwanted := unwantAnswers_unwanted begun p
  have hdetach := detach_eq begun p tag rfl
  generalize begun.unwantAnswers p = u at hunwanted hdetach
  have hreach := reach_departed u p
  have hsnapshot := departed_snapshot u p
  have hended := departed_eq_foldl u p
  have hbound := fun pen => departed_channel_bound u p (pen := pen)
  have hother := fun pen => departed_channel_other u p (pen := pen)
  generalize u.departed p = d at hdetach hreach hsnapshot hended hbound hother
  generalize begun.detach p tag = t at hdetach hexec
  subst hdetach
  obtain ⟨hrestartedOwn, hlastTagOwn, hothers⟩ := hown
  obtain ⟨hchannels, hmirror, himage, htime, hsnapshots, hpages, hsave⟩ := hsame
  obtain ⟨hchannels', hmirror', himage', htime', hsnapshots'⟩ := hunwanted.rest
  have hchannel : ∀ pen, u.channel pen = s.channel pen :=
    fun pen => congrArg (look · pen) (hchannels'.trans hchannels)
  have hbinding : ∀ pen, u.penSettings pen = s.penSettings pen :=
    fun pen => congrArg (fun m : Mirror => look m.pens pen) (hmirror'.trans hmirror)
  have hrecord : u.snapshot p = s.snapshot p := congrArg (look · p) (hsnapshots'.trans hsnapshots)
  have hpage : ∀ pg, begun.page pg = s.page pg := fun pg => congrArg (look · pg) hpages
  have hout := hreach.sameOutside
  obtain ⟨-, hlastTag, hrestarted, -, -, -, hforming, -⟩ := hout.link_fields p
  rw [hunwanted.formed] at hlastTag hrestarted hforming
  obtain ⟨hnone, hbroken, hactive⟩ := releaseSnapshot_cases u p
  rw [hrecord] at hnone hbroken hactive
  simp only [hbinding, hchannel] at hended hbound hother
  have hlinkAfter : (((d.setRing p ringDefault).setLivePort p livePortDefault).setLink p
      ((d.link p).detached tag)).link p = (d.link p).detached tag := State.setLink_link_self _ _ _
  refine ⟨begun, u, u.releaseSnapshot p, d, _, hexec, hidle, hworking, hunwanted, hnone, hbroken,
    hactive, hended, rfl, ?_, ?_, ?_, ?_, ?_, ?_, ?_, ?forming, hsnapshot, ?ring, ?live, hbound,
    hother, fun pen => ?clock, fun pg => ?page, fun v hv => ?save,
    (hout.mirror.trans hmirror').trans hmirror, (hout.image.trans himage').trans himage,
    (hout.deviceTime.trans htime').trans htime, fun q hq => ?links⟩
  case forming =>
    intro f hf
    rw [hlinkAfter] at hf
    have hmem : f ∈ (d.link p).forming := hf
    rw [hforming] at hmem
    obtain ⟨g, -, rfl⟩ := List.mem_map.mp hmem
    rfl
  case ring => simp
  case live => simp
  case clock =>
    rw [← hchannel]
    exact hreach.channel_fields pen
  case page =>
    obtain ⟨hlocked, hrevision⟩ := hunwanted.page_fields pg
    rw [← hpage, ← hlocked, ← hrevision]
    exact hreach.page_fields pg
  case save =>
    have hkept : d.save = begun.save.map fun v =>
      { v with wanted := v.wanted && decide (v.requester ≠ p) } := hout.save.trans hunwanted.save
    rw [hsave, hv] at hkept
    exact hkept
  case links =>
    rw [State.setLink_link_of_ne _ _ _ (Ne.symm hq), State.setLivePort_link, State.setRing_link,
      hout.links q, hunwanted.links q hq, hothers q hq]
  all_goals rw [hlinkAfter]
  · rfl
  · rfl
  · rfl
  · rfl
  · rfl
  · exact hrestarted.trans hrestartedOwn
  · exact hlastTag.trans hlastTagOwn

end Sys2Proof.Machine
end

section
/-! SUPPORT. The expiry of a pen's timers (R13, R15, R47), and the statement about it. -/

namespace Sys2Proof.Machine

/-! ## A pen that has lost its stroke or changed its state -/

section
variable (s : State) (pen : Pen)

theorem setChannel_channel_self : s.setChannel pen (s.channel pen) = s := by
  have hput : put s.channels pen (s.channel pen) = s.channels :=
    look_ext fun k => by
      by_cases h : pen = k
      · subst h
        exact look_put_self _ _ _
      · exact look_put_of_ne _ _ h
  rw [State.setChannel, hput]

/-- What the end of a pen's stroke leaves of every channel, its undo stack aside. -/
theorem closeCurrent_sameChannels (cause : CloseCause) :
    (s.setChannel pen (s.channel pen).withoutStroke).SameChannels (s.closeCurrent pen cause) := by
  cases hcurrent : s.currentStroke pen with
  | none =>
    rw [closeCurrent_none _ _ _ hcurrent]
    exact fun _ => rfl
  | some e =>
    rw [closeCurrent_some _ _ _ hcurrent]
    have hstored : s.Holds e := State.holds_of_currentStroke hcurrent
    have hholds : (s.setChannel pen (s.channel pen).withoutStroke).Holds e := hstored
    exact (reach_classify _ e cause hholds).channels

theorem closeCurrent_channel_self (cause : CloseCause) :
    (s.closeCurrent pen cause).channel pen =
      { (s.channel pen).withoutStroke with
        undo := ((s.closeCurrent pen cause).channel pen).undo } := by
  have h := Channel.eq_of_same_but_undo (closeCurrent_sameChannels s pen cause pen)
  rwa [State.setChannel_channel_self] at h

theorem closeCurrent_channel_of_ne (cause : CloseCause) {k : Pen} (hk : pen ≠ k) :
    (s.closeCurrent pen cause).channel k =
      { s.channel k with undo := ((s.closeCurrent pen cause).channel k).undo } := by
  have h := Channel.eq_of_same_but_undo (closeCurrent_sameChannels s pen cause k)
  rwa [State.setChannel_channel_of_ne _ _ _ hk] at h

theorem enterPen_channel_self (after : PenState) :
    (s.enterPen pen after).channel pen = { s.channel pen with state := after } := by
  rw [enterPen_channel, if_pos rfl]

theorem enterPen_stores (after : PenState) :
    (s.enterPen pen after).strokes = s.strokes ∧ (s.enterPen pen after).pool = s.pool ∧
      (s.enterPen pen after).pages = s.pages ∧
      (s.enterPen pen after).snapshots = s.snapshots := by
  unfold State.enterPen
  dsimp only
  split
  · exact ⟨rfl, rfl, rfl, rfl⟩
  · exact ⟨rfl, rfl, rfl, rfl⟩

end

/-! ## What the expiry does in each pen state (R15) -/

section
variable {s : State} {pen : Pen}

theorem silencePen_away (h : (s.channel pen).state = .away) : s.silencePen pen = s := by
  simp only [State.silencePen, h]

theorem silencePen_waiting (h : (s.channel pen).state = .hover ∨ (s.channel pen).state = .blocked ∨
    (s.channel pen).state = .starved) : s.silencePen pen = s.enterPen pen .away := by
  rcases h with h | h | h <;> simp only [State.silencePen, h]

theorem silencePen_pressing (h : (s.channel pen).state = .pressing) :
    s.silencePen pen = (s.emptyDown pen).enterPen pen .away := by
  simp only [State.silencePen, h]

/-- A pen that draws: the lift buffer as it stands, or emptied where it is in use. -/
theorem silencePen_drawing {lift : List Buffered}
    (h : (s.channel pen).state = .inking ∧ lift = (s.channel pen).lift ∨
      (s.channel pen).state = .lifting ∧ lift = []) :
    s.silencePen pen = ((s.setChannel pen { s.channel pen with lift := lift }).closeCurrent pen
      .penLost).enterPen pen .away := by
  rcases h with ⟨h, rfl⟩ | ⟨h, rfl⟩
  · have hkept : s.setChannel pen { s.channel pen with lift := (s.channel pen).lift } = s :=
      setChannel_channel_self s pen
    rw [hkept]
    simp only [State.silencePen, h]
  · have hlifting : s.silencePen pen =
        ((s.emptyLift pen).closeCurrent pen .penLost).enterPen pen .away := by
      simp only [State.silencePen, h]
    exact hlifting

/-- The buffer that stands in the channel of a pen that draws when its stroke is closed. -/
theorem silencePen_of_drawing (h : (s.channel pen).state = .inking ∨
    (s.channel pen).state = .lifting) : ∃ lift,
    s.silencePen pen = ((s.setChannel pen { s.channel pen with lift := lift }).closeCurrent pen
      .penLost).enterPen pen .away := by
  rcases h with h | h
  · exact ⟨_, silencePen_drawing (.inl ⟨h, rfl⟩)⟩
  · exact ⟨_, silencePen_drawing (.inr ⟨h, rfl⟩)⟩

theorem silencePen_drawing_channel (h : (s.channel pen).state = .inking ∨
    (s.channel pen).state = .lifting) :
    ((s.silencePen pen).channel pen).state = .away ∧
      ((s.silencePen pen).channel pen).silence = (s.channel pen).silence ∧
      ((s.silencePen pen).channel pen).current = none := by
  obtain ⟨lift, hsilence⟩ := silencePen_of_drawing h
  rw [hsilence, enterPen_channel_self, closeCurrent_channel_self, State.setChannel_channel_self]
  exact ⟨rfl, rfl, rfl⟩

/-- The expiry touches no stroke of a pen that does not draw. -/
theorem silencePen_quiet (hinking : (s.channel pen).state ≠ .inking)
    (hlifting : (s.channel pen).state ≠ .lifting) :
    ((s.silencePen pen).channel pen).state = .away ∧
      ((s.silencePen pen).channel pen).silence = (s.channel pen).silence ∧
      ((s.silencePen pen).channel pen).current = (s.channel pen).current ∧
      (s.silencePen pen).strokes = s.strokes ∧ (s.silencePen pen).pool = s.pool ∧
      (s.silencePen pen).pages = s.pages ∧ (s.silencePen pen).snapshots = s.snapshots := by
  have hentered : ∀ u : State, u.silencePen pen = u.enterPen pen .away →
      ((u.silencePen pen).channel pen).state = .away ∧
      ((u.silencePen pen).channel pen).silence = (u.channel pen).silence ∧
      ((u.silencePen pen).channel pen).current = (u.channel pen).current ∧
      (u.silencePen pen).strokes = u.strokes ∧ (u.silencePen pen).pool = u.pool ∧
      (u.silencePen pen).pages = u.pages ∧ (u.silencePen pen).snapshots = u.snapshots := by
    intro u hu
    rw [hu, enterPen_channel_self]
    exact ⟨rfl, rfl, rfl, enterPen_stores u pen .away⟩
  cases hstate : (s.channel pen).state with
  | away => rw [silencePen_away hstate]; exact ⟨hstate, rfl, rfl, rfl, rfl, rfl, rfl⟩
  | hover => exact hentered s (silencePen_waiting (.inl hstate))
  | blocked => exact hentered s (silencePen_waiting (.inr (.inl hstate)))
  | starved => exact hentered s (silencePen_waiting (.inr (.inr hstate)))
  | pressing =>
    rw [silencePen_pressing hstate, enterPen_channel_self, State.emptyDown,
      State.setChannel_channel_self]
    exact ⟨rfl, rfl, rfl, enterPen_stores _ pen .away⟩
  | inking => exact absurd hstate hinking
  | lifting => exact absurd hstate hlifting

/-- The expiry puts the pen in AWAY in every state, and starts no timer. -/
theorem silencePen_ends : ((s.silencePen pen).channel pen).state = .away ∧
    ((s.silencePen pen).channel pen).silence = (s.channel pen).silence := by
  by_cases h : (s.channel pen).state = .inking ∨ (s.channel pen).state = .lifting
  · obtain ⟨haway, hsilence, -⟩ := silencePen_drawing_channel h
    exact ⟨haway, hsilence⟩
  · obtain ⟨hinking, hlifting⟩ := not_or.mp h
    obtain ⟨haway, hsilence, -⟩ := silencePen_quiet hinking hlifting
    exact ⟨haway, hsilence⟩

/-! ## An expiry that is due, and one that is not (log 3) -/

theorem expireSilence_due (hphase : s.phase = .running) (hdue : s.Due (s.channel pen).silence) :
    s.expireSilence pen =
      (s.setChannel pen { s.channel pen with silence := none }).silencePen pen := by
  unfold State.expireSilence
  obtain ⟨x, hx, hreached⟩ := hdue
  rw [hx]
  exact if_pos ⟨hphase, (timerDue_iff s x).mpr ⟨x, rfl, hreached⟩⟩

theorem expireSilence_notDue (h : s.phase ≠ .running ∨ ¬ s.Due (s.channel pen).silence) :
    s.expireSilence pen = s := by
  unfold State.expireSilence
  cases htimer : (s.channel pen).silence with
  | none => rfl
  | some x =>
    rw [htimer] at h
    refine if_neg fun ⟨hphase, hdue⟩ => ?_
    exact h.elim (· hphase) (· ((timerDue_iff s x).mp hdue))

theorem expireRejoin_due (hphase : s.phase = .running) (hdue : s.Due (s.channel pen).rejoin) :
    s.expireRejoin pen = s.closeCurrent pen .penUp := by
  unfold State.expireRejoin
  obtain ⟨x, hx, hreached⟩ := hdue
  rw [hx]
  exact if_pos ⟨hphase, (timerDue_iff s x).mpr ⟨x, rfl, hreached⟩⟩

theorem expireRejoin_notDue (h : s.phase ≠ .running ∨ ¬ s.Due (s.channel pen).rejoin) :
    s.expireRejoin pen = s := by
  unfold State.expireRejoin
  cases htimer : (s.channel pen).rejoin with
  | none => rfl
  | some x =>
    rw [htimer] at h
    refine if_neg fun ⟨hphase, hdue⟩ => ?_
    exact h.elim (· hphase) (· ((timerDue_iff s x).mp hdue))

end

/-- Settles O40. -/
theorem penTimersExpire : Obligations.PenTimersExpire := by
  intro pen s
  refine ⟨fun hphase hdue => ?silence, fun h => congrArg Host.Outcome.next (expireSilence_notDue h),
    fun hphase hdue => ?rejoin, fun h => congrArg Host.Outcome.next (expireRejoin_notDue h)⟩
  case silence =>
    have hout := (reach_expireSilence s pen).sameOutside
    have hexpired := expireSilence_due hphase hdue
    rw [hexpired] at hout
    have hstopped : (s.setChannel pen { s.channel pen with silence := none }).channel pen =
        { s.channel pen with silence := none } := State.setChannel_channel_self _ _ _
    have hstate : ((s.setChannel pen { s.channel pen with silence := none }).channel pen).state =
        (s.channel pen).state := by rw [hstopped]
    have haway := silencePen_ends (s := s.setChannel pen { s.channel pen with silence := none })
      (pen := pen)
    rw [hstopped] at haway
    refine ⟨_, congrArg Host.Outcome.next hexpired, hout, haway.1, haway.2,
      fun h => silencePen_away (hstate.trans h), fun h => silencePen_waiting (hstate.symm ▸ h),
      fun h => ?pressing, fun lift h => ?drawing, fun h => ?ended,
      fun hinking hlifting => ?quiet⟩
    case pressing =>
      rw [silencePen_pressing (hstate.trans h), State.emptyDown, hstopped, setChannel_setChannel]
    case drawing =>
      have hlift := silencePen_drawing (s := s.setChannel pen
        { s.channel pen with silence := none }) (pen := pen) (lift := lift)
        (by rw [hstopped]; exact h)
      rw [hlift, hstopped, setChannel_setChannel]
      refine ⟨fun hnone => ?_, fun e he => ?_⟩
      · exact congrArg (State.enterPen · pen .away) (closeCurrent_of_none s
          { s.channel pen with silence := none, lift := lift } .penLost rfl hnone)
      · exact congrArg (State.enterPen · pen .away) (closeCurrent_of_some s
          { s.channel pen with silence := none, lift := lift } .penLost rfl he)
    case ended =>
      obtain ⟨-, -, hcurrent⟩ := silencePen_drawing_channel (hstate.symm ▸ h)
      exact hcurrent
    case quiet =>
      obtain ⟨-, -, hcurrent, hstores⟩ :=
        silencePen_quiet (hstate.symm ▸ hinking) (hstate.symm ▸ hlifting)
      rw [hstopped] at hcurrent
      exact ⟨hcurrent, hstores⟩
  case rejoin =>
    have hout := (reach_expireRejoin s pen).sameOutside
    have hexpired := expireRejoin_due hphase hdue
    rw [hexpired] at hout
    have hself := closeCurrent_channel_self s pen .penUp
    refine ⟨_, _, congrArg Host.Outcome.next hexpired, hout, rfl,
      fun e he => closeCurrent_some s pen .penUp he, closeCurrent_none s pen .penUp, ?_, ?_, ?_, ?_,
      fun k => ?_⟩
    iterate 4 rw [hself]; rfl
    by_cases hk : pen = k
    · subst hk
      rw [hself]
      exact ⟨rfl, rfl⟩
    · rw [closeCurrent_channel_of_ne s pen .penUp hk]
      exact ⟨rfl, rfl⟩

end Sys2Proof.Machine
end

section
/-! SUPPORT. The frame of the commands on strokes, pages and timers, and the statement about it. -/

namespace Sys2Proof.Machine

/-- What the commands on strokes leave alone: everything outside the stores of strokes and pages,
the request side of the links named, and clock, position and target of the pens named. -/
structure State.RestKept (links : Port → Prop) (pens : Pen → Prop) (s t : State) : Prop where
  outside : t.phase = s.phase ∧ t.deviceTime = s.deviceTime ∧ t.mirror = s.mirror ∧
    t.image = s.image ∧ t.indicator = s.indicator ∧ t.save = s.save ∧ t.freeCount = s.freeCount
  page : ∀ pg, (t.page pg).locked = (s.page pg).locked ∧
    (s.page pg).revision.toNat ≤ (t.page pg).revision.toNat
  ring : ∀ q, (t.ring q).pageMask = (s.ring q).pageMask ∧
    (t.ring q).kindMask = (s.ring q).kindMask ∧ (t.ring q).get = (s.ring q).get ∧
    (t.livePort q).mute = (s.livePort q).mute
  link : ∀ q, (t.link q).lastTag = (s.link q).lastTag ∧
    (t.link q).restarted = (s.link q).restarted ∧ (t.link q).frameFault = (s.link q).frameFault ∧
    (t.link q).attentionMask = (s.link q).attentionMask ∧
    (t.link q).threshold = (s.link q).threshold ∧ (t.link q).frame = (s.link q).frame
  request : ∀ q, links q → (t.link q).state = (s.link q).state ∧
    (t.link q).forming = (s.link q).forming
  pen : ∀ k, pens k → (t.channel k).clock = (s.channel k).clock ∧
    (t.channel k).position = (s.channel k).position ∧ (t.channel k).target = (s.channel k).target

namespace State.RestKept

variable {links : Port → Prop} {pens : Pen → Prop} {s t u : State}

theorem refl (s : State) : RestKept links pens s s where
  outside := ⟨rfl, rfl, rfl, rfl, rfl, rfl, rfl⟩
  page _ := ⟨rfl, le_refl _⟩
  ring _ := ⟨rfl, rfl, rfl, rfl⟩
  link _ := ⟨rfl, rfl, rfl, rfl, rfl, rfl⟩
  request _ _ := ⟨rfl, rfl⟩
  pen _ _ := ⟨rfl, rfl, rfl⟩

theorem trans (h : RestKept links pens s t) (h' : RestKept links pens t u) :
    RestKept links pens s u where
  outside := by
    obtain ⟨h1, h2, h3, h4, h5, h6, h7⟩ := h.outside
    rw [← h1, ← h2, ← h3, ← h4, ← h5, ← h6, ← h7]
    exact h'.outside
  page pg := by
    obtain ⟨hlocked, hrevision⟩ := h.page pg
    obtain ⟨hlocked', hrevision'⟩ := h'.page pg
    exact ⟨hlocked'.trans hlocked, hrevision.trans hrevision'⟩
  ring q := by
    obtain ⟨h1, h2, h3, h4⟩ := h.ring q
    rw [← h1, ← h2, ← h3, ← h4]
    exact h'.ring q
  link q := by
    obtain ⟨h1, h2, h3, h4, h5, h6⟩ := h.link q
    rw [← h1, ← h2, ← h3, ← h4, ← h5, ← h6]
    exact h'.link q
  request q hq := by
    obtain ⟨h1, h2⟩ := h.request q hq
    rw [← h1, ← h2]
    exact h'.request q hq
  pen k hk := by
    obtain ⟨h1, h2, h3⟩ := h.pen k hk
    rw [← h1, ← h2, ← h3]
    exact h'.pen k hk

theorem of_ink (h : InkReach s t) : RestKept links pens s t where
  outside :=
    have hout := h.sameOutside
    ⟨hout.phase, hout.deviceTime, hout.mirror, hout.image, hout.indicator, hout.save,
      hout.freeCount⟩
  page := h.page_fields
  ring q :=
    have ⟨hpage, hkind, hget⟩ := h.rings q
    ⟨hpage, hkind, hget, h.mute q⟩
  link q :=
    have ⟨_, hlastTag, hrestarted, hframeFault, hmask, hthreshold, _, hframe⟩ :=
      h.sameOutside.link_fields q
    ⟨hlastTag, hrestarted, hframeFault, hmask, hthreshold, hframe⟩
  request q _ :=
    have ⟨hstate, _, _, _, _, _, hforming, _⟩ := h.sameOutside.link_fields q
    ⟨hstate, hforming⟩
  pen k _ := h.channel_fields k

theorem of_page (h : PageReach s t) : RestKept links pens s t := .of_ink (.of_page h)

/-- The request side of a link that is not named may change. -/
theorem setLink (s : State) {p : Port} (hp : ¬ links p) (state : LinkState)
    (forming : List Forming) :
    RestKept links pens s (s.setLink p { s.link p with state, forming }) where
  outside := ⟨rfl, rfl, rfl, rfl, rfl, rfl, rfl⟩
  page _ := ⟨rfl, le_refl _⟩
  ring _ := ⟨rfl, rfl, rfl, rfl⟩
  link q := by
    by_cases hq : p = q
    · subst hq
      rw [State.setLink_link_self]
      exact ⟨rfl, rfl, rfl, rfl, rfl, rfl⟩
    · rw [State.setLink_link_of_ne _ _ _ hq]
      exact ⟨rfl, rfl, rfl, rfl, rfl, rfl⟩
  request q hq := by
    have hne : p ≠ q := fun h => hp (h ▸ hq)
    rw [State.setLink_link_of_ne _ _ _ hne]
    exact ⟨rfl, rfl⟩
  pen _ _ := ⟨rfl, rfl, rfl⟩

/-- The channel of a pen that is not named may change. -/
theorem setChannel (s : State) {pen : Pen} (hpen : ¬ pens pen) (c : Channel) :
    RestKept links pens s (s.setChannel pen c) where
  outside := ⟨rfl, rfl, rfl, rfl, rfl, rfl, rfl⟩
  page _ := ⟨rfl, le_refl _⟩
  ring _ := ⟨rfl, rfl, rfl, rfl⟩
  link _ := ⟨rfl, rfl, rfl, rfl, rfl, rfl⟩
  request _ _ := ⟨rfl, rfl⟩
  pen k hk := by
    have hne : pen ≠ k := fun h => hpen (h ▸ hk)
    rw [State.setChannel_channel_of_ne _ _ _ hne]
    exact ⟨rfl, rfl, rfl⟩

/-- A resync mask is outside the frame. -/
theorem setResync (s : State) (p : Port) (resync : Word) :
    RestKept links pens s (s.setRing p { s.ring p with resync }) where
  outside := ⟨rfl, rfl, rfl, rfl, rfl, rfl, rfl⟩
  page _ := ⟨rfl, le_refl _⟩
  ring q := by
    by_cases hq : p = q
    · subst hq
      rw [State.setRing_ring_self]
      exact ⟨rfl, rfl, rfl, rfl⟩
    · rw [State.setRing_ring_of_ne _ _ _ hq]
      exact ⟨rfl, rfl, rfl, rfl⟩
  link _ := ⟨rfl, rfl, rfl, rfl, rfl, rfl⟩
  request _ _ := ⟨rfl, rfl⟩
  pen _ _ := ⟨rfl, rfl, rfl⟩

/-- A request keeps the rest where its block does: the link in work is the request's own. -/
theorem request_of (s : State) {p : Port} (tag : Byte) {act : State → State × Option Reply}
    (hp : ¬ links p) (hact : ∀ u, RestKept links pens u (act u).1) :
    RestKept links pens s (s.request p tag act) := by
  have hadmitted : RestKept links pens s (s.setLink p { s.link p with state := .working tag }) :=
    setLink s hp _ _
  have hacted := hadmitted.trans (hact _)
  unfold State.request
  split
  · dsimp only
    split
    · exact hacted
    · exact hacted.trans (setLink _ hp _ _)
  · exact .refl s

end State.RestKept

/-! ## The blocks of the requests -/

section
variable {links : Port → Prop} {pens : Pen → Prop} (s : State)

theorem takeSample_restKept {pen : Pen} (hpen : ¬ pens pen) (source : Port) (r : State × Flow)
    (x : Sample) : r.1.RestKept links pens (State.takeSample pen source r x).1 := by
  unfold State.takeSample
  dsimp only
  split
  · exact .setChannel _ hpen _
  · exact (State.RestKept.setChannel _ hpen _).trans (.of_ink (reach_judgeSample _ _ _ _))

theorem takeSamples_restKept {pen : Pen} (hpen : ¬ pens pen) (source : Port)
    (samples : List Sample) : s.RestKept links pens (s.takeSamples pen source samples) := by
  have hfold : ∀ (l : List Sample) (r : State × Flow),
      r.1.RestKept links pens (l.foldl (State.takeSample pen source) r).1 := by
    intro l
    induction l with
    | nil => exact fun r => .refl r.1
    | cons x rest ih => exact fun r => (takeSample_restKept hpen source r x).trans (ih _)
  exact (hfold samples (s, .judge)).trans (.setChannel _ hpen _)

/-- SUBMIT_SAMPLES touches the pen that its payload names. -/
theorem submitSamples_restKept (p : Port) {pen : Byte} (hpen : ∀ k, pens k → penCode k ≠ pen)
    (samples : List Sample) :
    s.RestKept links pens (submitSamples p (some pen) (some samples) s).1 := by
  unfold submitSamples
  split
  · exact .refl s
  · split
    · exact .refl s
    · rename_i k hk
      have hcode : penCode k = pen := (Option.some.inj (code_of_penOf hk)).symm
      split
      · exact .refl s
      · split
        · exact .refl s
        · exact takeSamples_restKept s (fun h => hpen k h hcode) p _

theorem eraseStroke_reach (p : Port) (serial : Option Serial) :
    PageReach s (eraseStroke p serial s).1 := by
  unfold eraseStroke
  split
  · exact .refl _
  · split
    · exact .refl _
    · split
      · exact .refl _
      · rename_i e he
        have hholds := State.holds_of_stroke? he
        repeat' split
        any_goals exact .refl _
        · exact reach_withdraw _ _ hholds
        · exact reach_eraseCommitted _ _ _ hholds

theorem undo_reach (p : Port) (pen : Option Byte) : PageReach s (undo p pen s).1 := by
  unfold undo
  split
  · exact .refl _
  · split
    · exact .refl _
    · split
      · exact .refl _
      · split
        · exact .refl _
        · rename_i e he
          have hholds : s.Holds e := State.holds_of_stroke? he
          split
          · exact .refl _
          · exact (reach_undo_stack _ _ _).trans (reach_eraseCommitted _ _ _ hholds)

theorem clearPage_reach (p : Port) (page : Option Byte) : PageReach s (clearPage p page s).1 := by
  unfold clearPage
  split
  · exact .refl _
  · split
    · exact .refl _
    · split
      · exact .refl _
      · split
        · exact .refl _
        · exact reach_clearStrokes _ _
        · split
          · exact reach_clearStrokes _ _
          · split
            · exact .refl _
            · split
              · rename_i hroom
                exact reach_fileItem _ _ _ _ hroom
              · exact (reach_breakSnapshot _ _ _).trans (reach_clearStrokes _ _)

theorem eraseRegion_reach (p : Port) (tag : Byte) (page : Option Byte)
    (fields : Option RegionFields) : PageReach s (eraseRegion p tag page fields s).1 := by
  unfold eraseRegion
  split
  · exact .refl _
  · split
    · split
      · exact .refl _
      · split
        · exact .refl _
        · exact reach_setOccupant _ _ _
    · exact .refl _
    · exact .refl _
    · exact .refl _

theorem snapshotBegin_reach (p : Port) (page : Option Byte) :
    PageReach s (snapshotBegin p page s).1 := by
  unfold snapshotBegin
  split
  · exact .refl _
  · split
    · exact .refl _
    · split
      · exact .refl _
      · split
        · exact .refl _
        · refine (PageReach.of_move (.snapshot s p _ fun a ha => .inl ?_)).trans
            (reach_setOccupant _ _ _)
          simp only [Option.some.injEq, SnapshotRecord.active.injEq] at ha
          rw [← ha]
          exact Nat.zero_le _

theorem snapshotEnd_restKept (p : Port) (empty : Bool) :
    s.RestKept links pens (snapshotEnd p empty s).1 := by
  unfold snapshotEnd
  split
  · exact .refl s
  · split
    · exact .refl s
    · split
      · exact .refl s
      · exact .of_page (reach_snapshot_none _ _)
      · exact (State.RestKept.setResync s p _).trans (.of_page (reach_applyHeld_none _ _ _))

end

/-- A command on strokes keeps the rest: the port of its request and the pen whose samples it brings
aside. -/
theorem exec_onStrokes_restKept (c : Instr) (s : State) (hc : c.onStrokes = true) :
    ∃ t, exec c s = .next t ∧
      s.RestKept (fun q => ∀ w, wireRequest c = some w → w.port ≠ q)
        (fun pen => ∀ p tag samples, c ≠ .submitSamples p tag (penCode pen) samples) t := by
  cases c with
  | submitSamples p tag pen samples =>
    exact ⟨_, rfl, .request_of s tag (fun h => h _ rfl rfl) fun u =>
      submitSamples_restKept u p (fun k hk hcode => hk p tag samples (hcode ▸ rfl)) samples⟩
  | silenceExpiry pen => exact ⟨_, rfl, .of_ink (reach_expireSilence s pen)⟩
  | rejoinExpiry pen => exact ⟨_, rfl, .of_ink (reach_expireRejoin s pen)⟩
  | eraseStroke p tag serial =>
    exact ⟨_, rfl, .request_of s tag (fun h => h _ rfl rfl) fun u =>
      .of_page (eraseStroke_reach u p _)⟩
  | undo p tag pen =>
    exact ⟨_, rfl, .request_of s tag (fun h => h _ rfl rfl) fun u => .of_page (undo_reach u p _)⟩
  | clearPage p tag page =>
    exact ⟨_, rfl, .request_of s tag (fun h => h _ rfl rfl) fun u =>
      .of_page (clearPage_reach u p _)⟩
  | eraseRegion p tag page x0 y0 x1 y1 mode =>
    exact ⟨_, rfl, .request_of s tag (fun h => h _ rfl rfl) fun u =>
      .of_page (eraseRegion_reach u p tag _ _)⟩
  | scanVisit pg =>
    change ∃ t, execScanVisit pg s = .next t ∧ _
    unfold execScanVisit
    split
    · exact ⟨_, rfl, .of_page (reach_visitScan _ _ _)⟩
    · exact ⟨_, rfl, .refl s⟩
  | snapshotBegin p tag page =>
    exact ⟨_, rfl, .request_of s tag (fun h => h _ rfl rfl) fun u =>
      .of_page (snapshotBegin_reach u p _)⟩
  | snapshotEnd p tag =>
    exact ⟨_, rfl, .request_of s tag (fun h => h _ rfl rfl) fun u => snapshotEnd_restKept u p _⟩
  | snapLimitExpiry p => exact ⟨_, rfl, .of_page (reach_expireSnapLimit s p)⟩
  | _ => cases hc

/-- Settles O39. -/
theorem strokeCommandsLeaveTheRestAlone : Obligations.StrokeCommandsLeaveTheRestAlone := by
  intro c s t hc hexec
  obtain ⟨u, hu, hkept⟩ := exec_onStrokes_restKept c s hc
  obtain rfl : u = t := Host.Outcome.next.inj (hu.symm.trans hexec)
  obtain ⟨hphase, htime, hmirror, himage, hindicator, hsave, hfree⟩ := hkept.outside
  exact ⟨hphase, htime, hmirror, himage, hindicator, hsave, hfree, hkept.page, hkept.ring,
    hkept.link, hkept.request, hkept.pen⟩

end Sys2Proof.Machine
end

section
/-! SUPPORT. Conditioning and thinning of a sample (R23, R27 to R29), classification (R48 to R50,
R54), and the statements about them. -/

namespace Sys2Proof.Machine

/-! ## Time offset and thinning (R27, R28) -/

theorem timeOffset_of_le {clock zero : Long} (h : (clock - zero).toNat ≤ 65535) :
    timeOffset clock zero = (clock - zero).toNat := min_eq_left h

theorem timeOffset_of_gt {clock zero : Long} (h : 65535 < (clock - zero).toNat) :
    timeOffset clock zero = 65535 := min_eq_right h.le

theorem timeOffset_self (clock : Long) : timeOffset clock clock = 0 := by
  simp [timeOffset]

/-- The sum of two squares is no negative number, so `distanceSquared` cuts nothing off. -/
theorem le_distanceSquared_iff (d x0 y0 x1 y1 : Nat) :
    d ≤ distanceSquared x0 y0 x1 y1 ↔
      (d : Int) ≤ ((x0 : Int) - x1) ^ 2 + ((y0 : Int) - y1) ^ 2 := by
  have hx := sq_nonneg ((x0 : Int) - x1)
  have hy := sq_nonneg ((y0 : Int) - y1)
  rw [distanceSquared, Int.le_toNat (by omega)]

theorem thinningKeeps_iff (t : Tuning) (kept : KeptPoint) (p : Point) (clock : Long) :
    thinningKeeps t kept p clock = true ↔
      ((t.minStep.toNat : Int) ^ 2 ≤ ((p.x : Int) - kept.x) ^ 2 + ((p.y : Int) - kept.y) ^ 2) ∨
        t.maxGap.toNat ≤ (clock - kept.clock).toNat := by
  simp only [thinningKeeps, Bool.or_eq_true, decide_eq_true_eq, le_distanceSquared_iff,
    Nat.cast_pow]

/-! ## A sample in contact, and the closing point (R23, R29) -/

section
variable {s : State} {pen : Pen} {e : Stroke} {w : Working} (he : s.currentStroke pen = some e)
  (hw : (s.channel pen).working = some w)
include he hw

/-- A kept point goes to the append. -/
theorem conditionSample_kept {b : Buffered} {rejoin : Bool} {pt : Point}
    (hpt : pt = conditionedPoint (s.penSettings pen).calibration w.zeroOfTime b rejoin)
    (hkept : rejoin = true ∨
      thinningKeeps (s.penSettings pen).tuning w.lastKept pt b.clock = true) :
    s.conditionSample pen b rejoin = s.appendPoint e w pt b.clock true := by
  subst hpt
  simp only [State.conditionSample, he, hw]
  exact if_pos (Bool.or_eq_true_iff.mpr hkept)

/-- A dropped point leaves its charge and stays the last conditioned point. -/
theorem conditionSample_dropped {b : Buffered} {pt : Point}
    (hpt : pt = conditionedPoint (s.penSettings pen).calibration w.zeroOfTime b false)
    (hdropped : thinningKeeps (s.penSettings pen).tuning w.lastKept pt b.clock = false) :
    s.conditionSample pen b false = (s.dropPoint e w pt b.clock, .judge) := by
  subst hpt
  simp only [State.conditionSample, he, hw]
  exact if_neg (by rw [Bool.false_or, hdropped]; exact Bool.false_ne_true)

theorem closingPoint_kept (hkept : w.lastConditioned.kept = true) :
    s.closingPoint pen = (s, .judge) := by
  simp only [State.closingPoint, he, hw]
  exact if_pos hkept

theorem closingPoint_dropped (hdropped : w.lastConditioned.kept = false) :
    s.closingPoint pen =
      s.appendPoint e w w.lastConditioned.point w.lastConditioned.clock false := by
  simp only [State.closingPoint, he, hw]
  exact if_neg (by rw [hdropped]; exact Bool.false_ne_true)

end

/-- Settles O34. -/
theorem timeOffsetAndThinning : Obligations.TimeOffsetAndThinning := by
  refine ⟨fun c zero b lift => ⟨timeOffset_of_le, timeOffset_of_gt, fun h => ?_⟩, fun _ => rfl,
    thinningKeeps_iff, fun s pen e w he hw => ⟨fun b rejoin => ⟨_, rfl, rfl,
      conditionSample_kept he hw rfl, fun hrejoin hdropped => ?_⟩,
      closingPoint_kept he hw, closingPoint_dropped he hw⟩⟩
  · rw [conditionedPoint, h]
    exact timeOffset_self zero
  · subst hrejoin
    exact conditionSample_dropped he hw rfl hdropped

/-! ## Classification (R48 to R50, R54) -/

section
variable {t : Tuning} {cause : CloseCause} {n : Nat} {b : Box}

theorem classifiedAs_tap (hcause : cause = .penUp) (hmin : t.tapMin.toNat ≤ n)
    (hmax : n ≤ t.tapMax.toNat) (htol : b.extent ≤ t.tapTol.toNat) :
    classifiedAs t cause n b = .tap := if_pos ⟨hcause, hmin, hmax, htol⟩

/-- A stroke that the TAP test turns away meets the NOISE test. -/
theorem classifiedAs_notTap (h : cause ≠ .penUp ∨ n < t.tapMin.toNat ∨ t.tapMax.toNat < n ∨
    t.tapTol.toNat < b.extent) :
    classifiedAs t cause n b =
      if cause ≠ .split ∧ b.extent < t.minExtent.toNat then .noise else .ink := by
  refine if_neg ?_
  rintro ⟨hcause, hmin, hmax, htol⟩
  rcases h with h | h | h | h
  · exact h hcause
  · exact absurd hmin (Nat.not_le.mpr h)
  · exact absurd hmax (Nat.not_le.mpr h)
  · exact absurd htol (Nat.not_le.mpr h)

end

/-- The stroke marked with its cause and outcome, in its entry and in the slots that follow it. -/
def State.judged (s : State) (e : Stroke) (cause : CloseCause) (outcome : StrokeOutcome) : State :=
  (s.setStrokes (s.strokes.update e.serial fun x =>
    { x with cause := some cause, outcome := some outcome })).mapReachedSlots e
      (slotJudged e.serial outcome)

section
variable {s : State} {e : Stroke} {cause : CloseCause}

theorem classify_tap
    (h : classifiedAs (s.penSettings e.pen).tuning cause e.contact e.box = .tap) :
    s.classify e cause =
      ((s.judged e cause .tap).route (tapNotice s.pool e)).freeStroke .classified e := by
  simp only [State.classify, h]
  rfl

theorem classify_noise
    (h : classifiedAs (s.penSettings e.pen).tuning cause e.contact e.box = .noise) :
    s.classify e cause = (s.judged e cause .noise).freeStroke .classified e := by
  simp only [State.classify, h]
  rfl

theorem classify_ink
    (h : classifiedAs (s.penSettings e.pen).tuning cause e.contact e.box = .ink) :
    s.classify e cause = (s.judged e cause .ink).inkOutcome e := by
  simp only [State.classify, h]
  rfl

end

/-- Settles O35. -/
theorem classificationTestsInOrder : Obligations.ClassificationTestsInOrder := by
  refine ⟨fun t cause n b extent hextent => ?tests, fun s e cause outcome _ houtcome =>
    ⟨s.judged e cause outcome, rfl, ?tap, ?noise, ?ink, ?held⟩, fun s pen cause =>
    ⟨_, rfl, closeCurrent_none s pen cause, fun _ => closeCurrent_some s pen cause⟩⟩
  case tests =>
    subst hextent
    refine ⟨classifiedAs_tap, fun hnot => ⟨fun hsplit hsmall => ?_, fun hink => ?_⟩⟩
    · rw [classifiedAs_notTap hnot]
      exact if_pos ⟨hsplit, hsmall⟩
    · rw [classifiedAs_notTap hnot]
      refine if_neg fun ⟨hsplit, hsmall⟩ => ?_
      exact hink.elim hsplit fun hle => Nat.not_le.mpr hsmall hle
  case tap =>
    rintro rfl pt rfl
    rw [classify_tap houtcome]
    exact freeStroke_entryFreed _ .classified e
  case noise =>
    rintro rfl
    rw [classify_noise houtcome]
    exact freeStroke_entryFreed _ .classified e
  case ink =>
    intro hink hunheld
    subst hink
    have hholder : (s.judged e cause .ink).holder e.page = none := holder_of_unheld s hunheld
    rw [classify_ink houtcome]
    simp only [State.inkOutcome, hholder]
  case held =>
    intro hink owner a hoccupant hsnapshot
    subst hink
    have hholder : (s.judged e cause .ink).holder e.page = some (owner, a) :=
      holder_of_snapshot s hoccupant hsnapshot
    rw [classify_ink houtcome]
    simp only [State.inkOutcome, hholder]
    exact ⟨fun hroom => if_pos hroom, fun hfull => if_neg (Nat.not_lt.mpr hfull)⟩

end Sys2Proof.Machine
end

section
/-! SUPPORT. The samples of a request judged one after another (R4 to R6, R10 to R12), and the
statement about SUBMIT_SAMPLES. -/

namespace Sys2Proof.Machine

/-! ## One sample heard (R5, R6) -/

theorem hear_eq (c : Channel) (calibration : Calibration) (x : Sample) :
    c.hear calibration x =
      { c with
        clock := c.clock + x.dt.zeroExtend 32
        position := if x.inRange = 1 then
            some ((mapSample calibration x).1, (mapSample calibration x).2.1)
          else c.position } := by
  simp only [Channel.hear, sampleHeard, decide_eq_true_eq]

section
variable (pen : Pen) (source : Port)

/-- The state in which a sample is judged: the pen's channel has heard it. -/
def State.heard (s : State) (x : Sample) : State :=
  s.setChannel pen ((s.channel pen).hear (s.penSettings pen).calibration x)

theorem heard_channel (s : State) (x : Sample) :
    (s.heard pen x).channel pen = (s.channel pen).hear (s.penSettings pen).calibration x :=
  State.setChannel_channel_self _ _ _

/-- After a shortage a sample is consumed. -/
theorem takeSample_consume (s : State) (x : Sample) :
    State.takeSample pen source (s, .consume) x = (s.heard pen x, .consume) := rfl

theorem takeSample_judge (s : State) (x : Sample) :
    State.takeSample pen source (s, .judge) x =
      (s.heard pen x).judgeSample pen source ⟨x, (s.channel pen).clock + x.dt.zeroExtend 32⟩ := by
  have hclock : ((s.heard pen x).channel pen).clock =
      (s.channel pen).clock + x.dt.zeroExtend 32 := by rw [heard_channel]; rfl
  rw [← hclock]
  rfl

/-- Judging a sample leaves the clock and the position that hearing it gave. -/
theorem takeSample_clock_position (r : State × Flow) (x : Sample) :
    ((State.takeSample pen source r x).1.channel pen).clock =
        (r.1.channel pen).clock + x.dt.zeroExtend 32 ∧
      ((State.takeSample pen source r x).1.channel pen).position =
        (if x.inRange = 1 then some ((mapSample (r.1.penSettings pen).calibration x).1,
          (mapSample (r.1.penSettings pen).calibration x).2.1)
        else (r.1.channel pen).position) ∧
      (State.takeSample pen source r x).1.mirror = r.1.mirror := by
  obtain ⟨s, flow⟩ := r
  have hheard : (s.heard pen x).channel pen = _ := (heard_channel pen s x).trans (hear_eq _ _ _)
  cases flow with
  | consume =>
    rw [takeSample_consume, hheard]
    exact ⟨rfl, rfl, rfl⟩
  | judge =>
    rw [takeSample_judge]
    have hreach := reach_judgeSample (s.heard pen x) pen source
      ⟨x, (s.channel pen).clock + x.dt.zeroExtend 32⟩
    obtain ⟨hclock, hposition, -⟩ := hreach.channel_fields pen
    rw [hclock, hposition, hheard]
    exact ⟨rfl, rfl, hreach.sameOutside.mirror⟩

/-- The samples of a request add up their times, and the last one in range sets the position. -/
theorem foldl_takeSample_clock_position (calibration : Calibration) (samples : List Sample) :
    ∀ r : State × Flow, (r.1.penSettings pen).calibration = calibration →
    ((samples.foldl (State.takeSample pen source) r).1.channel pen).clock =
        samples.foldl (fun clock x => clock + x.dt.zeroExtend 32) (r.1.channel pen).clock ∧
      ((samples.foldl (State.takeSample pen source) r).1.channel pen).position =
        samples.foldl (fun position x => if x.inRange = 1 then
          some ((mapSample calibration x).1, (mapSample calibration x).2.1) else position)
          (r.1.channel pen).position := by
  induction samples with
  | nil => exact fun r _ => ⟨rfl, rfl⟩
  | cons x rest ih =>
    intro r hcalibration
    obtain ⟨hclock, hposition, hmirror⟩ := takeSample_clock_position pen source r x
    have hkept : ((State.takeSample pen source r x).1.penSettings pen).calibration =
        calibration := by
      rw [← hcalibration, State.penSettings, State.penSettings, hmirror]
    obtain ⟨hclocks, hpositions⟩ := ih _ hkept
    rw [hclock] at hclocks
    rw [hposition, hcalibration] at hpositions
    exact ⟨hclocks, hpositions⟩

/-- The silence timer restarts with the device time and the setting of before the samples. -/
theorem takeSamples_eq (s : State) (samples : List Sample) {judged : State}
    (hjudged : judged = (samples.foldl (State.takeSample pen source) (s, .judge)).1) :
    s.takeSamples pen source samples = judged.setChannel pen
      { judged.channel pen with
        silence := some ⟨s.deviceTime, (s.penSettings pen).tuning.silence⟩ } := by
  have hout := (reach_takeSamples s pen source samples).sameOutside
  have htime : judged.deviceTime = s.deviceTime := hjudged ▸ hout.deviceTime
  have hmirror : judged.mirror = s.mirror := hjudged ▸ hout.mirror
  have hsettings : judged.penSettings pen = s.penSettings pen :=
    congrArg (fun m : Mirror => look m.pens pen) hmirror
  rw [← htime, ← hsettings, hjudged]
  rfl

end

/-! ## A request taken (R3, R4) -/

theorem submitSamples_takes {s : State} {p : Port} (hink : (s.permissions p).ink = true) {pen : Pen}
    (hbound : (s.penSettings pen).binding = some p) {samples : List Sample}
    (hmin : 1 ≤ samples.length) (hmax : samples.length ≤ 32)
    (hrange : samples.all sampleInRange = true) :
    submitSamples p (some (penCode pen)) (some samples) s =
      (s.takeSamples pen p samples, some ⟨.ok,
        [penStateCode ((s.takeSamples pen p samples).channel pen).state]
          ++ serialBytes ((s.takeSamples pen p samples).channel pen).current⟩) := by
  have hsamples : samplesOf (some samples) = some samples := if_pos ⟨hmin, hmax, hrange⟩
  rw [submitSamples, if_neg (not_not.mpr hink), penOf_penCode]
  simp only [if_neg (not_not.mpr hbound), hsamples]
  rfl

/-! ## Rules of the pen states that draw (R10 to R12) -/

section
variable {s : State} {pen : Pen}

theorem judgeSample_inking (source : Port) {b : Buffered}
    (hstate : (s.channel pen).state = .inking)
    (hheld : sampleHeld (s.penSettings pen).tuning b.sample = true) :
    s.judgeSample pen source b = s.conditionSample pen b false := by
  simp only [State.judgeSample, hstate, hheld, if_true]

theorem judgeSample_breaksLift (source : Port) {b : Buffered}
    (hstate : (s.channel pen).state = .lifting)
    (hheld : sampleHeld (s.penSettings pen).tuning b.sample = true) :
    s.judgeSample pen source b = s.breakLift pen b := by
  simp only [State.judgeSample, hstate, hheld, if_true]

theorem judgeSample_low (source : Port) {b : Buffered}
    (hstate : (s.channel pen).state = .inking ∨ (s.channel pen).state = .lifting)
    (hlow : sampleHeld (s.penSettings pen).tuning b.sample = false) :
    s.judgeSample pen source b = s.liftSample pen b := by
  rcases hstate with hstate | hstate
  · simp only [State.judgeSample, hstate, hlow, Bool.false_eq_true, if_false]
  · simp only [State.judgeSample, hstate, hlow, Bool.false_eq_true, if_false]

/-- A low sample joins the lift buffer; the one that fills it confirms pen-up. -/
theorem liftSample_eq (b : Buffered) {low : State}
    (hlow : low = (s.setChannel pen
      { s.channel pen with lift := (s.channel pen).lift ++ [b] }).enterPen pen .lifting) :
    s.liftSample pen b =
      if (s.penSettings pen).tuning.upCount.toNat + 1 ≤ (s.channel pen).lift.length + 1 then
        low.penUp pen b.sample
      else (low, .judge) := by
  have hlift : (low.channel pen).lift = (s.channel pen).lift ++ [b] := by
    rw [hlow, enterPen_channel_self, State.setChannel_channel_self]
  have hsettings : low.penSettings pen = s.penSettings pen := by
    rw [hlow, enterPen_penSettings]
    rfl
  have hlength : (s.channel pen).lift.length + 1 = (low.channel pen).lift.length := by
    rw [hlift, List.length_append, List.length_singleton]
  rw [← hsettings, hlength]
  subst hlow
  rfl

theorem conditionAll_consume {b : Buffered} {u : State} (rest : List Buffered)
    (h : s.conditionSample pen b false = (u, .consume)) :
    s.conditionAll pen (b :: rest) = (u, .consume) := by
  rw [State.conditionAll, h]

theorem conditionAll_judge {b : Buffered} {u : State} (rest : List Buffered)
    (h : s.conditionSample pen b false = (u, .judge)) :
    s.conditionAll pen (b :: rest) = u.conditionAll pen rest := by
  rw [State.conditionAll, h]

theorem penUp_consume {u : State} (x : Sample)
    (h : (s.emptyLift pen).closingPoint pen = (u, .consume)) :
    s.penUp pen x = (u, .consume) := by
  rw [State.penUp, h]

theorem penUp_judge {u : State} (x : Sample)
    (h : (s.emptyLift pen).closingPoint pen = (u, .judge)) :
    s.penUp pen x =
      ((u.closePenUp pen).enterPen pen (if x.inRange = 1 then .hover else .away), .judge) := by
  rw [State.penUp, h, ← lowState_eq]

theorem closePenUp_classifies (h : (s.penSettings pen).tuning.rejoin = 0) :
    s.closePenUp pen = s.closeCurrent pen .penUp := if_pos h

theorem closePenUp_closing {e : Stroke} (h : (s.penSettings pen).tuning.rejoin ≠ 0)
    (he : s.currentStroke pen = some e) :
    s.closePenUp pen = (s.setStrokes (s.strokes.update e.serial fun x =>
      { x with state := .closing, cause := some .penUp })).setChannel pen
        { s.channel pen with
          rejoin := some ⟨s.deviceTime, (s.penSettings pen).tuning.rejoin⟩ } := by
  rw [State.closePenUp, he]
  exact if_neg h

end

/-- Settles O36: the request taken leaves what the frame of the pen's samples leaves, with clock and
position as the samples give them. -/
theorem submitSamplesIsAnswered : Obligations.SubmitSamplesIsAnswered := by
  refine ⟨fun p tag b samples s hs => ⟨fun hink => ?denied, fun hink hpen => ?noPen⟩,
    fun p tag pen samples s hs hink => ⟨fun hbound => ?wrongSource, fun hbound hrange => ?range,
      fun hbound hmin hmax hrange => ?taken⟩,
    fun pen source s x => ⟨s.heard pen x, ?heard, takeSample_consume pen source s x,
      takeSample_judge pen source s x⟩,
    fun s pen source b => ⟨judgeSample_inking source, judgeSample_breaksLift source,
      fun hstate hlow => ⟨_, rfl, ?waits, ?confirms⟩⟩,
    fun s pen => ⟨rfl, fun b rest u => ⟨conditionAll_consume rest, conditionAll_judge rest⟩⟩,
    fun s u pen x => ⟨penUp_consume x, fun hjudge => ⟨fun hrejoin => ?classified,
      fun e hrejoin he => ?closing⟩⟩, enterPen_eq⟩
  case denied =>
    exact congrArg Host.Outcome.next
      (request_refused hs (submitSamples_without_ink (s := s.admitted p tag) hink _ _))
  case noPen =>
    exact congrArg Host.Outcome.next
      (request_refused hs (submitSamples_noPen (s := s.admitted p tag) hink (penOf_none hpen) _))
  case wrongSource =>
    exact congrArg Host.Outcome.next
      (request_refused hs (submitSamples_wrongSource (s := s.admitted p tag) hink hbound _))
  case range =>
    exact congrArg Host.Outcome.next (request_refused hs
      (submitSamples_range (s := s.admitted p tag) hink hbound (samplesOf_none hrange)))
  case taken =>
    have hreply := submitSamples_takes (s := s.admitted p tag) hink hbound hmin hmax hrange
    have hout := (reach_takeSamples (s.admitted p tag) pen p samples).sameOutside
    have hkept := takeSamples_restKept (links := fun _ => True) (pens := (· ≠ pen))
      (s.admitted p tag) (pen := pen) (fun h => h rfl) p samples
    obtain ⟨hclock, hposition⟩ := foldl_takeSample_clock_position pen p
      (s.penSettings pen).calibration samples (s.admitted p tag, .judge) rfl
    have hu := takeSamples_eq pen p (s.admitted p tag) samples rfl
    generalize (samples.foldl (State.takeSample pen p) (s.admitted p tag, .judge)).1 = judged
      at hu hclock hposition ⊢
    generalize (s.admitted p tag).takeSamples pen p samples = u at hu hreply hout hkept
    have hchannel : u.channel pen = { judged.channel pen with
        silence := some ⟨s.deviceTime, (s.penSettings pen).tuning.silence⟩ } := by
      rw [hu]
      exact State.setChannel_channel_self _ _ _
    refine ⟨judged, u, _, congrArg Host.Outcome.next (request_replied hs hreply), rfl, hu,
      ⟨hout, rfl⟩, ?_, ?_, ?_, fun k hk => ?_, hkept.page⟩
    · rw [hchannel]
      exact hclock
    · rw [hchannel]
      exact hposition
    · rw [hchannel]
    · obtain ⟨hclock, hposition, -⟩ := hkept.pen k hk
      exact ⟨hclock, hposition⟩
  case heard => rw [State.heard, hear_eq]
  case waits =>
    intro hfew
    rw [judgeSample_low source hstate hlow, liftSample_eq b rfl]
    exact if_neg (by omega)
  case confirms =>
    intro hfull
    rw [judgeSample_low source hstate hlow, liftSample_eq b rfl]
    exact if_pos (by omega)
  case classified => rw [penUp_judge x hjudge, closePenUp_classifies hrejoin]
  case closing => rw [penUp_judge x hjudge, closePenUp_closing hrejoin he]

end Sys2Proof.Machine
end

section
/-! SUPPORT. The live slots (R130 to R135), the slot that LIVE_FETCH serves (R136, R137), and the
statement about both. -/

namespace Sys2Proof.Machine

/-! ## The pen that LIVE_FETCH chooses (R136) -/

/-- The better of a pen so far and the next one: the lower rank, and the earlier at one rank. -/
def betterPen (rank : Pen → Nat) (best : Option Pen) (pen : Pen) : Option Pen :=
  match best with
  | none => some pen
  | some b => if rank pen < rank b then some pen else some b

theorem chosenPen_eq_foldl (s : State) (p : Port) :
    chosenPen s p = (allPens.filter fun pen => slotPending (look (s.livePort p).slots pen)).foldl
      (betterPen fun pen => (s.penSettings pen).tuning.priority.toNat) none := rfl

section
variable {rank : Pen → Nat} {pen : Pen}

theorem betterPen_none (pen : Pen) : betterPen rank none pen = some pen := rfl

theorem betterPen_of_lt {b : Pen} (h : rank pen < rank b) :
    betterPen rank (some b) pen = some pen :=
  if_pos h

theorem betterPen_of_le {b : Pen} (h : rank b ≤ rank pen) : betterPen rank (some b) pen = some b :=
  if_neg (Nat.not_lt.mpr h)

/-- A pen of the lowest rank stays the best one. -/
theorem foldl_betterPen_stays {l : List Pen} (h : ∀ k ∈ l, rank pen ≤ rank k) :
    l.foldl (betterPen rank) (some pen) = some pen := by
  induction l with
  | nil => rfl
  | cons k rest ih =>
    obtain ⟨hk, hrest⟩ := List.forall_mem_cons.mp h
    rw [List.foldl_cons, betterPen_of_le hk]
    exact ih hrest

/-- In a rising list, the pen of the lowest rank, and of the lowest number at that rank, is chosen:
the pens before it are all of higher rank. -/
theorem foldl_betterPen {l : List Pen} (hrising : l.Pairwise (· < ·)) (hmem : pen ∈ l)
    (h : ∀ k ∈ l, k ≠ pen → rank pen < rank k ∨ (rank pen = rank k ∧ pen < k)) :
    ∀ best : Option Pen, (∀ b, best = some b → rank pen < rank b) →
      l.foldl (betterPen rank) best = some pen := by
  induction l with
  | nil => cases hmem
  | cons k rest ih =>
    intro best hbest
    obtain ⟨hbefore, hrest⟩ := List.pairwise_cons.mp hrising
    rw [List.foldl_cons]
    by_cases hk : k = pen
    · subst hk
      have htaken : betterPen rank best k = some k := by
        cases best with
        | none => rfl
        | some b => exact betterPen_of_lt (hbest b rfl)
      rw [htaken]
      refine foldl_betterPen_stays fun j hj => ?_
      have hne : j ≠ k := (hbefore j hj).ne'
      exact (h j (List.mem_cons_of_mem k hj) hne).elim le_of_lt fun heq => heq.1.le
    · have hlater : pen ∈ rest := (List.mem_cons.mp hmem).resolve_left (Ne.symm hk)
      have hrank : rank pen < rank k := by
        rcases h k List.mem_cons_self hk with hlt | ⟨-, hnumber⟩
        · exact hlt
        · exact absurd (hbefore pen hlater) (lt_asymm hnumber)
      refine ih hrest hlater (fun j hj => h j (List.mem_cons_of_mem k hj)) _ fun b hb => ?_
      cases best with
      | none => cases hb; exact hrank
      | some c =>
        rw [betterPen] at hb
        split at hb
        · cases hb; exact hrank
        · cases hb; exact hbest _ rfl

end

section
variable {s : State} {p : Port}

theorem chosenPen_none (h : ∀ pen, slotPending (look (s.livePort p).slots pen) = false) :
    chosenPen s p = none := by
  have hnone : (allPens.filter fun pen => slotPending (look (s.livePort p).slots pen)) = [] :=
    List.filter_eq_nil_iff.mpr fun pen _ => by rw [h pen]; exact Bool.false_ne_true
  rw [chosenPen_eq_foldl, hnone]
  rfl

theorem chosenPen_some {pen : Pen} (hpending : slotPending (look (s.livePort p).slots pen) = true)
    (hfirst : ∀ k, k ≠ pen → slotPending (look (s.livePort p).slots k) = true →
      (s.penSettings pen).tuning.priority.toNat < (s.penSettings k).tuning.priority.toNat ∨
        ((s.penSettings pen).tuning.priority = (s.penSettings k).tuning.priority ∧ pen < k)) :
    chosenPen s p = some pen := by
  have hrising : allPens.Pairwise (· < ·) := by decide
  rw [chosenPen_eq_foldl]
  refine foldl_betterPen (hrising.filter _) (List.mem_filter.mpr ⟨mem_allPens pen, hpending⟩)
    (fun k hk hne => ?_) none fun b hb => by cases hb
  obtain ⟨-, hk⟩ := List.mem_filter.mp hk
  exact (hfirst k hne hk).imp_right fun ⟨hpriority, hnumber⟩ => ⟨by rw [hpriority], hnumber⟩

/-! ## LIVE_FETCH (R137) -/

theorem liveFetch_without_view (hview : (s.permissions p).view = false) (empty : Bool) :
    liveFetch p empty s = s.refuse .denied := by
  simp [liveFetch, hview]

theorem liveFetch_nothing (hview : (s.permissions p).view = true)
    (hchosen : chosenPen s p = none) : liveFetch p true s = s.report [] := by
  simp [liveFetch, hview, hchosen]

theorem liveFetch_serves (hview : (s.permissions p).view = true) {pen : Pen} {f : Follow}
    (hchosen : chosenPen s p = some pen) (hf : look (s.livePort p).slots pen = some f)
    {l : LivePort} (hl : l = (s.livePort p).mapSlot pen fun _ => slotFetched f) :
    liveFetch p true s = (s.setLivePort p l, some ⟨.ok, liveBytes s pen f (pendingSlots l)⟩) := by
  subst hl
  simp [liveFetch, hview, hchosen, hf, State.report]

end

/-- The outcome is carried where the points end with the slot's last one. -/
theorem outcomeCode_fetchedOutcome (f : Follow) : outcomeCode (fetchedOutcome f) =
    if f.next + fetchedPoints f = f.available then outcomeCode f.outcome else 0 := by
  unfold fetchedOutcome
  split
  · rfl
  · rfl

theorem slotFetched_eq (f : Follow) : slotFetched f =
    if f.next + fetchedPoints f = f.available ∧ f.outcome.isSome then none
    else some { f with next := f.next + fetchedPoints f, skipped := false } := by
  unfold slotFetched fetchedOutcome
  by_cases hlast : f.next + fetchedPoints f = f.available
  · cases houtcome : f.outcome with
    | none => simp [hlast]
    | some outcome => simp [hlast]
  · simp [hlast]

theorem pendingSlots_eq_countP (l : LivePort) :
    pendingSlots l = allPens.countP fun pen => slotPending (look l.slots pen) :=
  List.countP_eq_length_filter.symm

section
variable (s : State) (pen : Pen) (f : Follow) (pending : Nat)

theorem liveBytes_take_12 : (liveBytes s pen f pending).take 12 =
    [penCode pen] ++ longBytes f.serial ++ [pageCode f.page, f.colour, f.width]
      ++ serialBytes f.predecessor := rfl

theorem liveBytes_next_5 : ((liveBytes s pen f pending).drop 12).take 5 =
    natWord f.next ++ natByte (fetchedPoints f)
      ++ [outcomeCode (fetchedOutcome f), flagByte f.skipped] := rfl

theorem liveBytes_drop_17 : (liveBytes s pen f pending).drop 17 =
    natByte pending ++ (livePoints s f (fetchedPoints f)).flatMap pointBytes := rfl

variable {s f}

theorem livePoints_of_stroke {e : Stroke} (he : s.stroke? f.serial = some e) (n : Nat) :
    livePoints s f n = pointsFrom s.pool e f.next n := by
  rw [livePoints, he]

theorem livePoints_zero : livePoints s f 0 = [] := by
  unfold livePoints
  split
  · rfl
  · rfl

end

/-! ## The slots of a stroke's arrivals (R130 to R135) -/

theorem liveReaches_iff (s : State) (p : Port) (page : Page) (pen : Pen) :
    s.liveReaches p page pen = true ↔
      (s.permissions p).view = true ∧ maskHas (s.ring p).pageMask page.val = true ∧
        maskHas (s.livePort p).mute pen.val = false := by
  simp [State.liveReaches, and_assoc]

section
variable (s : State) (e : Stroke) (f : Option Follow → Option Follow) (p : Port)

theorem mapReachedSlots_livePort : (s.mapReachedSlots e f).livePort p =
    if s.liveReaches p e.page e.pen then (s.livePort p).mapSlot e.pen f else s.livePort p :=
  look_each4 _ _ _

theorem mapReachedSlots_mute :
    ((s.mapReachedSlots e f).livePort p).mute = (s.livePort p).mute := by
  rw [mapReachedSlots_livePort]
  split
  · rfl
  · rfl

theorem mapReachedSlots_slot (pen : Pen) : look ((s.mapReachedSlots e f).livePort p).slots pen =
    if pen = e.pen ∧ s.liveReaches p e.page e.pen = true then f (look (s.livePort p).slots pen)
    else look (s.livePort p).slots pen := by
  rw [mapReachedSlots_livePort]
  by_cases hreached : s.liveReaches p e.page e.pen = true
  · rw [if_pos hreached, look_slots_mapSlot]
    by_cases hpen : pen = e.pen
    · subst hpen
      rw [if_pos rfl, if_pos ⟨rfl, hreached⟩]
    · rw [if_neg (Ne.symm hpen), if_neg fun h => hpen h.1]
  · rw [if_neg hreached, if_neg fun h => hreached h.2]

end

section
variable {e : Stroke} {f : Follow}

theorem slotExtended_follows (h : f.serial = e.serial) :
    slotExtended e (some f) = some { f with available := e.count } := congrArg some (if_pos h)

theorem slotExtended_other (h : f.serial ≠ e.serial) : slotExtended e (some f) = some f :=
  congrArg some (if_neg h)

variable {serial : Serial}

theorem slotJudged_follows (outcome : StrokeOutcome) (h : f.serial = serial) :
    slotJudged serial outcome (some f) = some { f with outcome := some outcome } :=
  congrArg some (if_pos h)

theorem slotJudged_other (outcome : StrokeOutcome) (h : f.serial ≠ serial) :
    slotJudged serial outcome (some f) = some f := congrArg some (if_neg h)

theorem slotFreed_classified (h : f.serial = serial) :
    slotFreed .classified serial (some f) = some { f with available := f.next } := if_pos h

theorem slotFreed_removed (h : f.serial = serial) :
    slotFreed .removed serial (some f) = none := if_pos h

theorem slotFreed_other (kind : Freeing) (h : f.serial ≠ serial) :
    slotFreed kind serial (some f) = some f := if_neg h

end

theorem slotPending_iff (f : Follow) :
    slotPending (some f) = true ↔ f.next < f.available ∨ f.outcome ≠ none := by
  simp [slotPending, Option.isSome_iff_ne_none]

/-- Settles O53. -/
theorem liveFetchServesOnePendingSlot : Obligations.LiveFetchServesOnePendingSlot := by
  refine ⟨fun p tag s hs => ⟨fun hview => ?denied, fun hview hnone => ?nothing,
      fun hview pen f hf hpending hfirst => ?serves⟩,
    liveReaches_iff, fun s e f => ⟨rfl, fun p => ⟨mapReachedSlots_mute s e f p,
      mapReachedSlots_slot s e f p⟩⟩,
    fun e slot => ⟨_, rfl, ?empty, ?skipped⟩,
    fun e outcome kind => ⟨rfl, rfl, rfl, fun f => ⟨fun h => ⟨slotExtended_follows h,
      slotJudged_follows outcome h, slotFreed_classified h, slotFreed_removed h⟩,
      fun h => ⟨slotExtended_other h, slotJudged_other outcome h, slotFreed_other kind h⟩⟩⟩,
    rfl, slotPending_iff⟩
  case denied =>
    exact congrArg Host.Outcome.next
      (request_refused hs (liveFetch_without_view (s := s.admitted p tag) hview true))
  case nothing =>
    exact congrArg Host.Outcome.next (request_reported hs
      (liveFetch_nothing (s := s.admitted p tag) hview (chosenPen_none hnone)))
  case serves =>
    have hslot : slotPending (look (s.livePort p).slots pen) = true := hf ▸ hpending
    have hchosen : chosenPen (s.admitted p tag) p = some pen := chosenPen_some hslot hfirst
    have hreply := liveFetch_serves (s := s.admitted p tag) hview hchosen hf rfl
    refine ⟨_, fetchedPoints f, _, rfl, congrArg Host.Outcome.next (request_replied hs hreply),
      liveBytes_take_12 _ _ _ _, ?_, fun e he => ?_, fun hzero => ?_, ?_, fun q hq => ?_, rfl⟩
    · rw [liveBytes_next_5, outcomeCode_fetchedOutcome]
    · rw [liveBytes_drop_17, livePoints_of_stroke (s := s.admitted p tag) he,
        pendingSlots_eq_countP]
      rfl
    · rw [liveBytes_drop_17, hzero, livePoints_zero, pendingSlots_eq_countP]
      exact List.append_nil _
    · rw [look_slots_mapSlot, if_pos rfl, slotFetched_eq]
    · rw [look_slots_mapSlot, if_neg (Ne.symm hq)]
      rfl
  case empty => rintro rfl; rfl
  case skipped =>
    rintro f rfl
    refine ⟨fun hsplit => ?_, fun hother => if_neg hother⟩
    dsimp only
    rw [if_pos hsplit]
    exact decide_eq_true_iff

end Sys2Proof.Machine
end

section
/-! SUPPORT. Pen-down (R7 to R9, R14, R42), appends and splits (R43, R51 to R53, R70 to R72), and
the statement about both. -/

namespace Sys2Proof.Machine

/-! ## Pressed and low samples before contact (R7, R8, R14) -/

section
variable {s : State} {pen : Pen} (source : Port) {b : Buffered}

theorem judgeSample_pressed
    (hstate : (s.channel pen).state = .away ∨ (s.channel pen).state = .hover ∨
      (s.channel pen).state = .pressing)
    (hpressed : samplePressed (s.penSettings pen).tuning b.sample = true) :
    s.judgeSample pen source b = s.pressSample pen source b := by
  rcases hstate with hstate | hstate | hstate
  · simp only [State.judgeSample, hstate, hpressed, if_true]
  · simp only [State.judgeSample, hstate, hpressed, if_true]
  · simp only [State.judgeSample, hstate, hpressed, if_true]

/-- A pressed sample joins the down buffer; the one that fills it confirms pen-down. -/
theorem pressSample_eq {pressing : State}
    (hpressing : pressing = (s.setChannel pen
      { s.channel pen with down := (s.channel pen).down ++ [b] }).enterPen pen .pressing) :
    s.pressSample pen source b =
      if (s.penSettings pen).tuning.downCount.toNat + 1 ≤ (s.channel pen).down.length + 1 then
        pressing.penDown pen source
      else (pressing, .judge) := by
  have hdown : (pressing.channel pen).down = (s.channel pen).down ++ [b] := by
    rw [hpressing, enterPen_channel_self, State.setChannel_channel_self]
  have hsettings : pressing.penSettings pen = s.penSettings pen := by
    rw [hpressing, enterPen_penSettings]
    rfl
  have hlength : (s.channel pen).down.length + 1 = (pressing.channel pen).down.length := by
    rw [hdown, List.length_append, List.length_singleton]
  rw [← hsettings, hlength]
  subst hpressing
  rfl

section
variable (hlow : samplePressed (s.penSettings pen).tuning b.sample = false)
include hlow

theorem judgeSample_low_waiting
    (hstate : (s.channel pen).state = .away ∨ (s.channel pen).state = .hover) :
    s.judgeSample pen source b = (s.enterPen pen (lowState b.sample), .judge) := by
  rcases hstate with hstate | hstate
  · simp only [State.judgeSample, hstate, hlow, Bool.false_eq_true, if_false]
  · simp only [State.judgeSample, hstate, hlow, Bool.false_eq_true, if_false]

theorem judgeSample_low_pressing (hstate : (s.channel pen).state = .pressing) :
    s.judgeSample pen source b =
      ((s.emptyDown pen).enterPen pen (lowState b.sample), .judge) := by
  simp only [State.judgeSample, hstate, hlow, Bool.false_eq_true, if_false]

end

section
variable (hstate : (s.channel pen).state = .blocked ∨ (s.channel pen).state = .starved)
include hstate

theorem judgeSample_held_refused
    (hheld : sampleHeld (s.penSettings pen).tuning b.sample = true) :
    s.judgeSample pen source b = (s, .judge) := by
  rcases hstate with hstate | hstate
  · simp only [State.judgeSample, hstate, hheld, if_true]
  · simp only [State.judgeSample, hstate, hheld, if_true]

theorem judgeSample_low_refused
    (hlow : sampleHeld (s.penSettings pen).tuning b.sample = false) :
    s.judgeSample pen source b = (s.enterPen pen (lowState b.sample), .judge) := by
  rcases hstate with hstate | hstate
  · simp only [State.judgeSample, hstate, hlow, Bool.false_eq_true, if_false]
  · simp only [State.judgeSample, hstate, hlow, Bool.false_eq_true, if_false]

end

end

/-! ## Pen-down with the down buffer complete (R9, R30, R46) -/

section
variable {s : State} {pen : Pen} (source : Port) {first : Buffered} {rest : List Buffered}
  (hdown : (s.channel pen).down = first :: rest)
include hdown

theorem penDown_new (hnone : s.currentStroke pen = none) :
    s.penDown pen source = s.openNew pen source first rest := by
  simp only [State.penDown, hdown, hnone]

variable {e : Stroke} {w : Working} (he : s.currentStroke pen = some e)
  (hw : (s.channel pen).working = some w)
include he hw

theorem penDown_rejoins (hnear : rejoins (s.penSettings pen) w first = true) :
    s.penDown pen source = s.rejoinStroke pen e first rest := by
  simp only [State.penDown, hdown, he, hw, hnear, if_true]

theorem penDown_far (hfar : rejoins (s.penSettings pen) w first = false) :
    s.penDown pen source = (s.closeCurrent pen .penUp).openNew pen source first rest := by
  simp only [State.penDown, hdown, he, hw, hfar, Bool.false_eq_true, if_false]

end

/-- A CLOSING stroke open again, its pen INKING with the down buffer empty and no rejoin timer. -/
def State.reopened (s : State) (pen : Pen) (e : Stroke) : State :=
  ((s.setStrokes (s.strokes.update e.serial fun x =>
    { x with state := .opened, cause := none })).setChannel pen
      { s.channel pen with down := [], rejoin := none }).enterPen pen .inking

section
variable {s u : State} {pen : Pen} {e : Stroke} {first : Buffered} (rest : List Buffered)

theorem rejoinStroke_consume
    (h : (s.reopened pen e).conditionSample pen first true = (u, .consume)) :
    s.rejoinStroke pen e first rest = (u, .consume) := by
  have heq : s.rejoinStroke pen e first rest =
      match (s.reopened pen e).conditionSample pen first true with
      | (s4, .consume) => (s4, .consume)
      | (s4, .judge) => s4.conditionAll pen rest := rfl
  rw [heq, h]

theorem rejoinStroke_judge
    (h : (s.reopened pen e).conditionSample pen first true = (u, .judge)) :
    s.rejoinStroke pen e first rest = u.conditionAll pen rest := by
  have heq : s.rejoinStroke pen e first rest =
      match (s.reopened pen e).conditionSample pen first true with
      | (s4, .consume) => (s4, .consume)
      | (s4, .judge) => s4.conditionAll pen rest := rfl
  rw [heq, h]

end

/-! ## A new stroke (R9, R42, R70) -/

section
variable {s : State} {pen : Pen} (source : Port) (first : Buffered) (rest : List Buffered)

theorem emptyDown_target : ((s.emptyDown pen).channel pen).target = (s.channel pen).target := by
  rw [State.emptyDown, State.setChannel_channel_self]

/-- A new stroke has its page from the pen's target, which the down buffer has no part in. -/
theorem emptyDown_newStroke (g : Grant) (pt : Point) :
    (s.emptyDown pen).newStroke g pen source pt = s.newStroke g pen source pt := by
  rw [State.newStroke, emptyDown_target]
  rfl

theorem openNew_locked (hlocked : (s.page (s.channel pen).target).locked = true) :
    s.openNew pen source first rest = ((s.emptyDown pen).enterPen pen .blocked, .judge) := by
  unfold State.openNew
  dsimp only
  rw [emptyDown_target]
  exact if_pos hlocked

section
variable (hunlocked : (s.page (s.channel pen).target).locked = false)
include hunlocked

theorem openNew_starved (hshort : 512 ≤ s.strokes.entries.length ∨ s.pool.free = []) :
    s.openNew pen source first rest = ((s.emptyDown pen).enterPen pen .starved, .judge) := by
  have hgrant : (s.emptyDown pen).grant = none := grant_none (s.emptyDown pen) hshort
  have hpage : ¬ ((s.emptyDown pen).page (s.channel pen).target).locked = true := by
    rw [State.emptyDown, State.setChannel_page, hunlocked]
    exact Bool.false_ne_true
  unfold State.openNew
  dsimp only
  rw [emptyDown_target, if_neg hpage, hgrant]

theorem openNew_opens {block : Nat} {free : List Nat} (hroom : s.strokes.entries.length < 512)
    (hfree : s.pool.free = block :: free) {pt : Point}
    (hpt : pt = conditionedPoint (s.penSettings pen).calibration first.clock first false) :
    s.openNew pen source first rest =
      (((s.emptyDown pen).openStroke { s.pool with free }
        (s.newStroke ⟨lowestFreeFrom 0 s.strokes.entries, block⟩ pen source pt) pt
          first.clock).enterPen pen .inking).conditionAll pen rest := by
  have hgrant := grant_some (s.emptyDown pen) hroom hfree
  have hpage : ¬ ((s.emptyDown pen).page (s.channel pen).target).locked = true := by
    rw [State.emptyDown, State.setChannel_page, hunlocked]
    exact Bool.false_ne_true
  subst hpt
  unfold State.openNew
  dsimp only
  rw [emptyDown_target, if_neg hpage, hgrant]
  dsimp only
  rw [emptyDown_newStroke]
  rfl

end

end

/-! ## Appends (R43, R51 to R53, R70 to R72) -/

theorem takeBlock_none {pool : Pool} (h : pool.free = []) : takeBlock pool = none := by
  rw [takeBlock, h]

theorem takeBlock_some {pool : Pool} {block : Nat} {free : List Nat}
    (h : pool.free = block :: free) : takeBlock pool = some (block, { pool with free }) := by
  rw [takeBlock, h]

section
variable {s : State} {e : Stroke} (w : Working) (p : Point) (clock : Long) (charged : Bool)

section
variable (hcount : e.count ≠ 2048) (hblock : e.count % 16 = 0)
include hcount hblock

theorem appendPoint_takesBlock {block : Nat} {free : List Nat}
    (hfree : s.pool.free = block :: free) :
    s.appendPoint e w p clock charged =
      (s.storePoint e (some block) { s.pool with free } p clock charged, .judge) := by
  rw [appendPoint_newBlock s e w p clock charged hcount hblock, takeBlock_some hfree]

theorem appendPoint_poolFull (hfree : s.pool.free = []) :
    s.appendPoint e w p clock charged = s.poolFullClose e charged := by
  rw [appendPoint_newBlock s e w p clock charged hcount hblock, takeBlock_none hfree]

end

section
variable {closed : State} (hclosed : closed = s.closeCurrent e.pen .split)
include hclosed

theorem splitStroke_refused
    (hshort : 512 ≤ closed.strokes.entries.length ∨ closed.pool.free = []) :
    s.splitStroke e w p clock charged =
      ((closed.chargeSample e.serial charged).enterPen e.pen .starved, .consume) := by
  have hgrant := grant_none closed hshort
  subst hclosed
  unfold State.splitStroke
  dsimp only
  rw [hgrant]
  rfl

theorem splitStroke_continues {block : Nat} {free : List Nat}
    (hroom : closed.strokes.entries.length < 512) (hfree : closed.pool.free = block :: free)
    {first : Point} (hfirst : first = continuationPoint (pointAt s.pool e (e.count - 1)))
    {c : Stroke}
    (hc : c = closed.continuation ⟨lowestFreeFrom 0 closed.strokes.entries, block⟩ e first)
    {opened : State}
    (hopened : opened = closed.openStroke { closed.pool with free } c first w.lastKept.clock) :
    s.splitStroke e w p clock charged =
      (opened.storePoint c none opened.pool
        (splittingPoint p clock w.lastKept.clock charged) clock charged, .judge) := by
  have hgrant := grant_some closed hroom hfree
  subst hclosed hopened hc hfirst
  unfold State.splitStroke
  dsimp only
  rw [hgrant]

end

end

theorem openStroke_channel (s : State) (pool : Pool) (e : Stroke) (first : Point) (clock : Long) :
    (s.openStroke pool e first clock).channel e.pen =
      { s.channel e.pen with
        current := some e.serial, working := some (workingFrom first clock) } :=
  State.setChannel_channel_self _ _ _

/-! ## One pressed sample opens a stroke (R4, R9, R40, R42, R66, R67) -/

/-- A stroke put into a table that does not hold its serial is the one found there. -/
theorem find_insertStroke {e : Stroke} {l : List Stroke} (h : e.serial ∉ l.map Stroke.serial) :
    (insertStroke e l).find? (fun x => decide (x.serial = e.serial)) = some e := by
  induction l with
  | nil => simp [insertStroke]
  | cons f rest ih =>
    rw [List.map_cons, List.mem_cons, not_or] at h
    obtain ⟨hf, hrest⟩ := h
    unfold insertStroke
    split
    · simp
    · rw [List.find?_cons_of_neg (by simpa using Ne.symm hf)]
      exact ih hrest

section
variable {s : State} {pen : Pen} {source : Port} {b : Buffered}

/-- The only sample of a request, pressed under a hovering pen of DOWN_COUNT 0, confirms pen-down
for a new stroke. -/
theorem judgeSample_opensNew
    (hpressed : samplePressed (s.penSettings pen).tuning b.sample = true)
    (hcount : (s.penSettings pen).tuning.downCount = 0) (hstate : (s.channel pen).state = .hover)
    (hdown : (s.channel pen).down = []) (hcurrent : (s.channel pen).current = none)
    {pressing : State}
    (hpressing : pressing = (s.setChannel pen
      { s.channel pen with down := [b] }).enterPen pen .pressing) :
    s.judgeSample pen source b = pressing.openNew pen source b [] := by
  have hsame : pressing = (s.setChannel pen
      { s.channel pen with down := (s.channel pen).down ++ [b] }).enterPen pen .pressing := by
    rw [hpressing, hdown]
    rfl
  have hchannel : pressing.channel pen =
      { s.channel pen with state := .pressing, down := [b] } := by
    rw [hpressing, enterPen_channel_self, State.setChannel_channel_self]
  have hnone : pressing.currentStroke pen = none := by
    rw [State.currentStroke, hchannel, hcurrent]
    rfl
  have hfull : (s.penSettings pen).tuning.downCount.toNat + 1 ≤ (s.channel pen).down.length + 1 :=
    by rw [hcount]; exact Nat.succ_le_succ (Nat.zero_le _)
  rw [judgeSample_pressed source (.inr (.inl hstate)) hpressed, pressSample_eq source hsame,
    if_pos hfull, penDown_new source (by rw [hchannel]) hnone]

section
variable (hcount : (s.penSettings pen).tuning.downCount = 0)
  (hstate : (s.channel pen).state = .hover) (hdown : (s.channel pen).down = [])
  (hcurrent : (s.channel pen).current = none)
  (hunlocked : (s.page (s.channel pen).target).locked = false)
  (hroom : s.strokes.entries.length < 512) {block : Nat} {free : List Nat}
  (hfree : s.pool.free = block :: free)
include hcount hstate hdown hcurrent hunlocked hroom hfree

/-- What stands after it: the stroke in the table, its point in the pool, the pen drawing it. -/
theorem judgeSample_opens
    (hpressed : samplePressed (s.penSettings pen).tuning b.sample = true) {pt : Point}
    (hpt : pt = conditionedPoint (s.penSettings pen).calibration b.clock b false) {e : Stroke}
    (he : e = s.newStroke ⟨lowestFreeFrom 0 s.strokes.entries, block⟩ pen source pt) :
    ∃ t, s.judgeSample pen source b = (t, .judge) ∧
      t.strokes = ⟨insertStroke e s.strokes.entries, nextSerial e.serial⟩ ∧
      t.pool = ⟨free, Memory.write s.pool.cells (pointKey e.chain 0) pt⟩ ∧
      (t.channel pen).state = .inking ∧ (t.channel pen).current = some e.serial ∧
      (t.channel pen).down = [] := by
  obtain ⟨pressing, hpressing⟩ : ∃ u, u = (s.setChannel pen
    { s.channel pen with down := [b] }).enterPen pen .pressing := ⟨_, rfl⟩
  have hchannel : pressing.channel pen =
      { s.channel pen with state := .pressing, down := [b] } := by
    rw [hpressing, enterPen_channel_self, State.setChannel_channel_self]
  have hsettings : pressing.penSettings pen = s.penSettings pen := by
    rw [hpressing, enterPen_penSettings]
    rfl
  have htime : pressing.deviceTime = s.deviceTime := by
    rw [hpressing]
    exact (reach_enterPen _ pen .pressing).sameOutside.deviceTime
  obtain ⟨hstrokes, hpool, hpages⟩ : pressing.strokes = s.strokes ∧ pressing.pool = s.pool ∧
      pressing.pages = s.pages := by
    obtain ⟨hstrokes, hpool, hpages, -⟩ := enterPen_stores
      (s.setChannel pen { s.channel pen with down := [b] }) pen .pressing
    rw [hpressing]
    exact ⟨hstrokes, hpool, hpages⟩
  have hjudged := judgeSample_opensNew (source := source) hpressed hcount hstate hdown hcurrent
    hpressing
  have hstroke : pressing.newStroke ⟨lowestFreeFrom 0 s.strokes.entries, block⟩ pen source pt =
      e := by
    rw [he]
    simp only [State.newStroke, hsettings, hstrokes, hchannel, htime]
  rw [openNew_opens source b [] (by rw [hchannel, State.page, hpages]; exact hunlocked)
    (hstrokes ▸ hroom) (hpool ▸ hfree) (hsettings.symm ▸ hpt),
    hstrokes, hpool, hstroke] at hjudged
  obtain ⟨hstrokes', hpool', -⟩ := enterPen_stores ((pressing.emptyDown pen).openStroke
    { s.pool with free } e pt b.clock) pen .inking
  have hpen : e.pen = pen := by rw [he]; rfl
  have hopened := openStroke_channel (pressing.emptyDown pen) { s.pool with free } e pt b.clock
  have hready : (pressing.emptyDown pen).channel pen =
      { pressing.channel pen with down := [] } := State.setChannel_channel_self _ _ _
  rw [hpen, hready] at hopened
  refine ⟨_, hjudged, hstrokes'.trans ?_, hpool', ?_, ?_, ?_⟩
  · rw [← hstrokes]
    rfl
  · rw [enterPen_channel_self]
  · rw [enterPen_channel_self, hopened]
  · rw [enterPen_channel_self, hopened]

/-- The same after the request of that one sample: its silence timer touches none of it. -/
theorem takeSamples_opens {x : Sample}
    (hpressed : samplePressed (s.penSettings pen).tuning x = true) {clock : Long}
    (hclock : clock = (s.channel pen).clock + x.dt.zeroExtend 32) {pt : Point}
    (hpt : pt = conditionedPoint (s.penSettings pen).calibration clock ⟨x, clock⟩ false)
    {e : Stroke}
    (he : e = s.newStroke ⟨lowestFreeFrom 0 s.strokes.entries, block⟩ pen source pt) {u : State}
    (hu : u = s.takeSamples pen source [x]) :
    u.strokes = ⟨insertStroke e s.strokes.entries, nextSerial e.serial⟩ ∧
      u.pool = ⟨free, Memory.write s.pool.cells (pointKey e.chain 0) pt⟩ ∧
      (u.channel pen).state = .inking ∧ (u.channel pen).current = some e.serial ∧
      (u.channel pen).down = [] := by
  have hchannel := heard_channel pen s x
  obtain ⟨judged, hjudge, hstrokes, hpool, hinking, hserial, hempty⟩ :=
    judgeSample_opens (s := s.heard pen x) (source := source) (b := ⟨x, clock⟩) (e := e)
      hcount (by rw [hchannel]; exact hstate) (by rw [hchannel]; exact hdown)
      (by rw [hchannel]; exact hcurrent) (by rw [hchannel]; exact hunlocked) hroom hfree hpressed
      hpt (by rw [he]; simp only [State.newStroke, hchannel]; rfl)
  have hjudged : judged = ([x].foldl (State.takeSample pen source) (s, .judge)).1 := by
    rw [List.foldl_cons, List.foldl_nil, takeSample_judge, ← hclock, hjudge]
  rw [takeSamples_eq pen source s [x] hjudged] at hu
  subst hu
  rw [State.setChannel_channel_self]
  exact ⟨hstrokes, hpool, hinking, hserial, hempty⟩

end

end

/-- A new stroke stored with its first point is found in the table, and of the pool's places its
block's first one alone is written. -/
theorem newStroke_stands {s u : State} {pen : Pen} {source : Port} {n block : Nat} {free : List Nat}
    {pt : Point} {e : Stroke} (hplaces : s.PlacesCanonical) (hroom : s.strokes.entries.length < 512)
    (he : e = s.newStroke ⟨n, block⟩ pen source pt)
    (hstrokes : u.strokes = ⟨insertStroke e s.strokes.entries, nextSerial e.serial⟩)
    (hpool : u.pool = ⟨free, Memory.write s.pool.cells (pointKey e.chain 0) pt⟩) :
    u.stroke? e.serial = some e ∧ ∀ key, Memory.read u.pool.cells key =
      if key = 16 * block then pt else Memory.read s.pool.cells key := by
  have hfresh : e.serial ∉ s.strokes.entries.map Stroke.serial := by
    rw [he]
    exact freshSerial_fresh s.strokes (by omega)
  refine ⟨?_, fun key => ?_⟩
  · rw [State.stroke?, hstrokes]
    exact find_insertStroke hfresh
  · rw [hpool, he]
    exact Memory.read_write (16 * block) key pt hplaces

/-- Settles O37: the first clause follows one sample through contact, grant and open; the others are
the rules above, each read at its case. -/
theorem penDownOpensAStroke : Obligations.PenDownOpensAStroke := by
  refine ⟨?first, fun s pen source b low hlow =>
      ⟨fun hstate hpressed => ⟨_, rfl, ?waits, ?confirms⟩, fun hstate hnot => ?lowWaiting,
      fun hstate hnot => ?lowPressing,
      fun hstate => ⟨judgeSample_held_refused source hstate, fun hnot => ?lowRefused⟩⟩,
    fun s pen source first rest hdown => ⟨penDown_new source hdown, fun e w d he hw hd =>
      ⟨fun hnear => ⟨s.reopened pen e, rfl, fun u hu => ?rejoinConsumes, fun u hu => ?rejoinJudges⟩,
        fun hfar => ?far⟩⟩,
    fun s ready pen source first rest hready => ?opening,
    fun s e w p clock charged charge hcharge => ⟨appendPoint_inBlock s e w p clock charged,
      fun hcount hblock block free => appendPoint_takesBlock w p clock charged hcount hblock,
      fun hcount hblock hfree => ?poolFull, fun hcount closed hclosed =>
        ⟨fun hshort => ?splitRefused, fun block free hroom hfree => ?splitContinues⟩⟩,
    fun s pool e first clock => rfl,
    fun s e grown block pool p clock charged grow hgrow hgrown => ?store⟩
  case first =>
    intro p tag pen x block rest s hs hplaces hink hbound hrange hheard hpress hcount hstate hdown
      hcurrent hunlocked hroom hfree
    obtain ⟨clock, hclock⟩ : ∃ c : Long, c = (s.channel pen).clock + x.dt.zeroExtend 32 := ⟨_, rfl⟩
    obtain ⟨pt, hpt⟩ : ∃ pt, pt =
      conditionedPoint (s.penSettings pen).calibration clock ⟨x, clock⟩ false := ⟨_, rfl⟩
    obtain ⟨e, he⟩ : ∃ e, e = s.newStroke ⟨lowestFreeFrom 0 s.strokes.entries, block⟩ pen p pt :=
      ⟨_, rfl⟩
    have hpressed : samplePressed (s.penSettings pen).tuning x = true :=
      Bool.and_eq_true_iff.mpr ⟨decide_eq_true hheard, decide_eq_true hpress⟩
    obtain ⟨u, hu⟩ : ∃ u, u = (s.admitted p tag).takeSamples pen p [x] := ⟨_, rfl⟩
    obtain ⟨hstrokes, hpool, hinking, hserial, hempty⟩ :=
      takeSamples_opens (s := s.admitted p tag) hcount hstate hdown hcurrent hunlocked hroom hfree
        hpressed hclock hpt he hu
    have hreply := submitSamples_takes (s := s.admitted p tag) hink hbound (samples := [x])
      (le_refl 1) (by rw [List.length_singleton]; decide) (by rw [List.all_cons, hrange]; rfl)
    rw [← hu, hinking, hserial] at hreply
    have hforming : (u.link p).forming = (s.link p).forming := by
      obtain ⟨-, -, -, -, -, -, hforming, -⟩ :=
        (reach_takeSamples (s.admitted p tag) pen p [x]).sameOutside.link_fields p
      rw [hu, hforming, admitted_link, if_pos rfl]
    obtain ⟨hfound, hplace⟩ := newStroke_stands hplaces hroom he hstrokes hpool
    subst he
    refine ⟨_, _, pt, congrArg Host.Outcome.next (request_replied hs hreply), hfound, rfl, ?counter,
      rfl, rfl, rfl, rfl, rfl, rfl, rfl, rfl, rfl, rfl, rfl, rfl, rfl, rfl, ?offset, ?lift, ?mapped,
      ?free, ?point, fun key hkey => ?others, hinking, hserial, hempty, ?answer⟩
    case counter => exact congrArg StrokeTable.counter hstrokes
    case offset => rw [hpt]; exact timeOffset_self clock
    case lift => rw [hpt]; rfl
    case mapped => rw [hpt]; rfl
    case free => exact congrArg Pool.free hpool
    case point => exact (hplace (16 * block)).trans (if_pos rfl)
    case others => exact (hplace key).trans (if_neg hkey)
    case answer =>
      rw [State.formAnswer_link_self, ← hforming]
      rfl
  case waits =>
    intro hfew
    rw [judgeSample_pressed source hstate hpressed, pressSample_eq source rfl]
    exact if_neg (by omega)
  case confirms =>
    intro hfull
    rw [judgeSample_pressed source hstate hpressed, pressSample_eq source rfl]
    exact if_pos (by omega)
  case lowWaiting => rw [hlow, ← lowState_eq, judgeSample_low_waiting source hnot hstate]
  case lowPressing =>
    rw [hlow, ← lowState_eq, judgeSample_low_pressing source hnot hstate]
    rfl
  case lowRefused => rw [hlow, ← lowState_eq, judgeSample_low_refused source hstate hnot]
  case rejoinConsumes =>
    subst hd
    rw [penDown_rejoins source hdown he hw (decide_eq_true hnear), rejoinStroke_consume rest hu]
  case rejoinJudges =>
    subst hd
    rw [penDown_rejoins source hdown he hw (decide_eq_true hnear), rejoinStroke_judge rest hu]
  case far =>
    subst hd
    exact penDown_far source hdown he hw (decide_eq_false (Nat.not_le.mpr hfar))
  case opening =>
    subst hready
    exact ⟨openNew_locked source first rest, openNew_starved source first rest,
      fun hunlocked block free hroom hfree =>
        ⟨_, _, rfl, rfl, openNew_opens source first rest hunlocked hroom hfree rfl⟩⟩
  case poolFull =>
    subst hcharge
    exact appendPoint_poolFull w p clock charged hcount hblock hfree
  case splitRefused =>
    subst hcharge
    rw [appendPoint_split s e w p clock charged hcount]
    exact splitStroke_refused w p clock charged hclosed hshort
  case splitContinues =>
    have htime : closed.deviceTime = s.deviceTime :=
      hclosed ▸ (reach_closeCurrent s e.pen .split).sameOutside.deviceTime
    obtain ⟨first, hfirst⟩ : ∃ first : Point, first =
      { pointAt s.pool e 2047 with liftBefore := false, offset := 0 } := ⟨_, rfl⟩
    have hcopy : first = continuationPoint (pointAt s.pool e (e.count - 1)) := by
      rw [hfirst, hcount]
      rfl
    have hsplit := splitStroke_continues w p clock charged hclosed hroom hfree hcopy rfl rfl
    rw [← appendPoint_split s e w p clock charged hcount] at hsplit
    refine ⟨closed.continuation ⟨lowestFreeFrom 0 closed.strokes.entries, block⟩ e first, first, _,
      hfirst, ?_, rfl, fun hcharged => ?_, fun hnot => ?_⟩
    · rw [← htime]
      rfl
    · subst hcharged
      exact hsplit
    · subst hnot
      exact hsplit
  case store =>
    subst hgrown hgrow
    rfl

end Sys2Proof.Machine
end
